-- ==== Sys2Proof/Word.lean ====
section
/-! DEFINITION. The words of Melique 440: the pilot's 64-bit word (R60, R147), the byte (R4), a lane
(R161), a token's data (R164) and a frame (R36). -/

namespace Sys2Proof

/-- A pilot register or pilot instruction word (R60, R147). -/
abbrev Word := BitVec 64

/-- A byte of memory (R4). -/
abbrev Byte := BitVec 8

/-- A 32-bit lane of an element or a token (R161, R164). -/
abbrev Lane := BitVec 32

/-- The 128 data bits of a token, and a row of element local memory (R161, R164). -/
abbrev Quad := BitVec 128

/-- A 256-bit image frame (R36). -/
abbrev Frame := BitVec 256

/-- The number of a pilot register g0 to g31 (R60). -/
abbrev Reg := BitVec 5

/-- The number of a trigger counter k0 to k63 (R295). -/
abbrev Ctr := BitVec 6

end Sys2Proof
end

