-- ==== Sys2Proof/Machine/Bits.lean ====
section
/-! DEFINITION. Bit fields, sign extension, byte order (R3, R4) and the finite maps that hold memory and every
other sparse table of the machine. -/

namespace Sys2Proof.Machine

/-- Bits [lo + len - 1 : lo] of a number (R3). -/
def bits (x lo len : Nat) : Nat := (x >>> lo) % 2 ^ len

/-- Bit n of a number (R3). -/
def bit (x n : Nat) : Bool := bits x n 1 == 1

/-- The two's complement value of an n-bit field (R2). -/
def sext (n x : Nat) : Int := if x % 2 ^ n < 2 ^ (n - 1) then ((x % 2 ^ n : Nat) : Int) else ((x % 2 ^ n : Nat) : Int) - (2 ^ n : Nat)

/-- The n-bit two's complement of an integer (R2, R7). -/
def wrap (n : Nat) (x : Int) : Nat := (x % ((2 ^ n : Nat) : Int)).toNat

/-- UINT64 and INT64 of R7. -/
def uint64 (x : Int) : Word := BitVec.ofInt 64 x

/-- 0 or 1. -/
def ofBool (b : Bool) : Nat := if b then 1 else 0

/-- Ceil(a / b). -/
def ceilDiv (a b : Nat) : Nat := (a + b - 1) / b

/-- The number of leading zeros of a value of w bits; w when it is 0. -/
def leadingZeros (w x : Nat) : Nat := if x = 0 then w else w - 1 - Nat.log2 x

/-- The number of trailing zeros among the low w bits; w when they are 0. -/
def trailingZeros : Nat → Nat → Nat
  | 0, _ => 0
  | w + 1, x => if x % 2 = 1 then 0 else 1 + trailingZeros w (x / 2)

/-- The number of one bits among the low w bits. -/
def oneBits : Nat → Nat → Nat
  | 0, _ => 0
  | w + 1, x => x % 2 + oneBits w (x / 2)

/-- The low w bits in reverse order. -/
def reverseBits : Nat → Nat → Nat
  | 0, _ => 0
  | w + 1, x => (x % 2) * 2 ^ w + reverseBits w (x / 2)

/-- The number that bytes hold, byte 0 lowest (R4). -/
def ofBytes : List Byte → Nat
  | [] => 0
  | b :: bs => b.toNat + 256 * ofBytes bs

/-- The n bytes of a number, byte 0 lowest (R4). -/
def toBytes : Nat → Nat → List Byte
  | 0, _ => []
  | n + 1, x => BitVec.ofNat 8 x :: toBytes n (x / 256)

/-- The numbers 0, …, n - 1. -/
def upTo (n : Nat) : List Nat := List.range n

/-! ### Finite maps -/

/-- A finite map with keys strictly rising. -/
abbrev Map (α : Type) := List (Nat × α)

/-- The entry of a key. -/
def mapFind {α : Type} : Map α → Nat → Option α
  | [], _ => none
  | (k', v) :: m, k => if k = k' then some v else if k < k' then none else mapFind m k

/-- The entry of a key, or the default. -/
def mapGet {α : Type} (d : α) (m : Map α) (k : Nat) : α := (mapFind m k).getD d

/-- Sets the entry of a key. -/
def mapPut {α : Type} : Map α → Nat → α → Map α
  | [], k, v => [(k, v)]
  | (k', v') :: m, k, v =>
    if k = k' then (k, v) :: m else if k < k' then (k, v) :: (k', v') :: m else (k', v') :: mapPut m k v

/-- Removes the entry of a key. -/
def mapDel {α : Type} : Map α → Nat → Map α
  | [], _ => []
  | (k', v') :: m, k => if k = k' then m else if k < k' then (k', v') :: m else (k', v') :: mapDel m k

/-- Removes every entry whose key fails a test. -/
def mapKeep {α : Type} (p : Nat → Bool) (m : Map α) : Map α := m.filter (fun e => p e.1)

/-- Keys strictly rising from a lower bound. -/
def mapSortedFrom {α : Type} : Nat → Map α → Bool
  | _, [] => true
  | lo, (k, _) :: m => Nat.ble lo k && mapSortedFrom (k + 1) m

/-! ### Byte memories -/

/-- A memory of bytes: (address, byte) cells with addresses strictly rising and no cell holding 0, which is what an
unlisted address reads as (notes/assumptions/1.md). -/
abbrev Memory := Map Byte

/-- The canonical form of a memory. DESIGN CHOICE: notes/assumptions/1.md. -/
def Memory.wf (m : Memory) : Bool := mapSortedFrom 0 m && m.all (fun c => c.2 != 0)

/-- One byte of memory. DESIGN CHOICE: notes/assumptions/1.md. -/
def memByte (m : Memory) (a : Nat) : Byte := mapGet 0 m a

/-- Stores one byte, keeping the canonical form. -/
def memSet (m : Memory) (a : Nat) (b : Byte) : Memory := if b = 0 then mapDel m a else mapPut m a b

/-- The n bytes at an address. -/
def memBytes (m : Memory) : Nat → Nat → List Byte
  | _, 0 => []
  | a, n + 1 => memByte m a :: memBytes m (a + 1) n

/-- Stores bytes at an address. -/
def memStore (m : Memory) : Nat → List Byte → Memory
  | _, [] => m
  | a, b :: bs => memStore (memSet m a b) (a + 1) bs

/-- The little-endian number of n bytes at an address (R4). -/
def memNat (m : Memory) (a n : Nat) : Nat := ofBytes (memBytes m a n)

/-- Stores the low n bytes of a number at an address (R4). -/
def memPutNat (m : Memory) (a n v : Nat) : Memory := memStore m a (toBytes n v)

/-! ### Fields of records -/

/-- Field [lo + len - 1 : lo] of a record, counted in bits from its first byte (R4). -/
def field (rec : List Byte) (lo len : Nat) : Nat :=
  bits (ofBytes ((rec.drop (lo / 8)).take ((lo % 8 + len + 7) / 8))) (lo % 8) len

/-- A field at a byte offset: [lo + len - 1 : lo] counted from that byte, as the record maps write it (R22). -/
def fieldAt (rec : List Byte) (byte lo len : Nat) : Nat := field rec (8 * byte + lo) len

/-! ### CRC-32C (R37) -/

/-- One bit of the reflected CRC. -/
def crcBit (c : Nat) : Nat := if c % 2 = 1 then (c / 2) ^^^ 0x82F63B78 else c / 2

/-- Bytes into the running CRC. -/
def crcBytes (c : Nat) (bs : List Byte) : Nat :=
  bs.foldl (fun c b => (upTo 8).foldl (fun c _ => crcBit c) (c ^^^ b.toNat)) c

end Sys2Proof.Machine
end

