-- ==== Sys2Proof/Machine/Cipher.lean ====
section
/-! DEFINITION. AES-256-XTS as R94 names it (IEEE 1619 over FIPS 197): the data unit is a 32-byte granule and the tweak
is the granule's number. A block is a list of 16 byte values in memory order. -/

namespace Sys2Proof.Machine

/-- Multiplication by x in GF(2^8). -/
def gfDouble (a : Nat) : Nat := if a < 128 then 2 * a else (2 * a) ^^^ 0x11B

/-- The product of two field elements, over the low n bits of the second. -/
def gfMul : Nat → Nat → Nat → Nat
  | 0, _, _ => 0
  | n + 1, a, b => (if b % 2 = 1 then a else 0) ^^^ gfMul n (gfDouble a) (b / 2)

/-- The n-th power of a field element. -/
def gfPow (a : Nat) : Nat → Nat
  | 0 => 1
  | n + 1 => gfMul 8 a (gfPow a n)

/-- A byte rotated left by n. -/
def rotByte (a n : Nat) : Nat := ((a <<< n) ||| (a >>> (8 - n))) % 256

/-- The S-box of FIPS 197: the inverse, then the affine map. -/
def sbox (a : Nat) : Nat :=
  let b := gfPow a 254
  b ^^^ rotByte b 1 ^^^ rotByte b 2 ^^^ rotByte b 3 ^^^ rotByte b 4 ^^^ 0x63

/-- The inverse S-box: the inverse affine map, then the inverse. -/
def invSbox (a : Nat) : Nat := gfPow (rotByte a 1 ^^^ rotByte a 3 ^^^ rotByte a 6 ^^^ 0x05) 254

def xorBytes (a b : List Nat) : List Nat := List.zipWith (fun x y => x ^^^ y) a b

/-- The word after the words so far, newest first (FIPS 197 key expansion, Nk = 8). -/
def nextKeyWord (n : Nat) (ws : List (List Nat)) : List Nat :=
  let t := ws.headD []
  let t := if n % 8 = 0 then
      match t.map sbox with
      | [a, b, c, d] => [b ^^^ gfPow 2 (n / 8 - 1), c, d, a]
      | o => o
    else if n % 8 = 4 then t.map sbox else t
  xorBytes (ws.getD 7 []) t

def expandKey : Nat → Nat → List (List Nat) → List (List Nat)
  | 0, _, ws => ws
  | k + 1, n, ws => expandKey k (n + 1) (nextKeyWord n ws :: ws)

/-- A list cut into pieces of n. -/
def chunks {α : Type} (n : Nat) : Nat → List α → List (List α)
  | 0, _ => []
  | k + 1, l => l.take n :: chunks n k (l.drop n)

/-- The 15 round keys of a 32-byte key. -/
def roundKeys (key : List Nat) : List (List Nat) :=
  let ws := (expandKey 52 8 (chunks 4 8 key).reverse).reverse
  (chunks 4 15 ws).map List.flatten

def shiftRows (s : List Nat) : List Nat := (upTo 16).map (fun i => s.getD ((i + 4 * (i % 4)) % 16) 0)
def invShiftRows (s : List Nat) : List Nat := (upTo 16).map (fun i => s.getD ((i + 16 - 4 * (i % 4)) % 16) 0)

/-- Each column times the circulant of the four coefficients. -/
def mixWith (c0 c1 c2 c3 : Nat) (s : List Nat) : List Nat :=
  (upTo 16).map (fun i =>
    let g := fun k => s.getD (4 * (i / 4) + (i % 4 + k) % 4) 0
    gfMul 8 (g 0) c0 ^^^ gfMul 8 (g 1) c1 ^^^ gfMul 8 (g 2) c2 ^^^ gfMul 8 (g 3) c3)

def aesRounds : List (List Nat) → List Nat → List Nat
  | [], s => s
  | [k], s => xorBytes (shiftRows (s.map sbox)) k
  | k :: ks, s => aesRounds ks (xorBytes (mixWith 2 3 1 1 (shiftRows (s.map sbox))) k)

/-- AES-256 encryption of a block. -/
def aesEncrypt (key block : List Nat) : List Nat :=
  match roundKeys key with
  | [] => block
  | k :: ks => aesRounds ks (xorBytes block k)

def aesUnrounds : List (List Nat) → List Nat → List Nat
  | [], s => s
  | [k], s => xorBytes ((invShiftRows s).map invSbox) k
  | k :: ks, s => aesUnrounds ks (mixWith 14 11 13 9 (xorBytes ((invShiftRows s).map invSbox) k))

/-- AES-256 decryption of a block. -/
def aesDecrypt (key block : List Nat) : List Nat :=
  match (roundKeys key).reverse with
  | [] => block
  | k :: ks => aesUnrounds ks (xorBytes block k)

/-- A tweak times x in GF(2^128), byte 0 lowest (IEEE 1619). -/
def tweakDouble (t : List Nat) : List Nat :=
  let n := 2 * ofBytes (t.map (BitVec.ofNat 8))
  let n := if n < 2 ^ 128 then n else (n % 2 ^ 128) ^^^ 0x87
  (toBytes 16 n).map BitVec.toNat

/-- The 32-byte granule number g under a 64-byte key: Key1 is bytes 0 to 31 and encrypts the data (R94).
PRESUMED: notes/assumptions/13.md. -/
def xts (decrypt : Bool) (key : BitVec 512) (g : Nat) (data : List Byte) : List Byte :=
  let k := (toBytes 64 key.toNat).map BitVec.toNat
  let t0 := aesEncrypt (k.drop 32) ((toBytes 16 g).map BitVec.toNat)
  let t1 := tweakDouble t0
  let d := data.map BitVec.toNat
  let one := fun t b => xorBytes ((if decrypt then aesDecrypt else aesEncrypt) (k.take 32) (xorBytes b t)) t
  (one t0 (d.take 16) ++ one t1 (d.drop 16)).map (BitVec.ofNat 8)

end Sys2Proof.Machine
end

