-- ==== Sys2Proof/Config.lean ====
section
/-! DEFINITION. What one implementation fixes, and the free values: opaque constants with no body, applied
to the plain counter State.tick or to the operands they depend on (notes/assumptions/6.md lists each). -/

namespace Sys2Proof.Config

/-- Cores of the package (R8, R16). -/
def cores : Nat := 6400

/-- First address past tensor 0 (R27, R148). -/
def tensor0End : Nat := 0xFFFFFFFFFF

/-- Base of the scratchpad window (R148). -/
def windowBase : Nat := 0x7F0000000000

/-- Bytes of a core's scratchpad (R16, R148). -/
def scratchBytes : Nat := 0x40000

/-- Scratchpad offset of the isle descriptor (R34). -/
def descOffset : Nat := 0x3FFC0

/-- Base of the local addresses of copy records and barrier operands (R257). -/
def localBase : Nat := 0x7F0100000000

/-- Bytes of one HBM stack (R265). -/
def stackBytes : Nat := 0xC00000000

/-- First physical address past the twelve stacks (R265). -/
def hbmEnd : Nat := 12 * stackBytes

/-- Physical base of the mapped trigger counters (R296). -/
def counterBase : Nat := 0xF000000000

/-- First physical address past the pages R296 gives the mapped counters (PPN 0xF0_0031). -/
def counterEnd : Nat := 0xF000320000

/-- Physical base of the hub's service registers (R345). -/
def serviceBase : Nat := 0xF100000000

/-- First physical address past the page of the service registers (R345). -/
def serviceEnd : Nat := 0xF100010000

/-- A free value where the spec states none: the n-th one drawn in a run. -/
opaque freeWord : Nat → Word

/-- The code that C4 gives a number of a sign when its codebook has no entry to pick (R44, R46 name none). -/
opaque c4Unstated : List Nat → Bool → Nat

/-- The EMAX of a codebook without a finite entry but 0 (R42 names none). -/
opaque c4NoEmax : List Nat → Int

/-- What an access finds at a physical address where no unit stands, at a time of the run. -/
opaque absentByte : Nat → Nat → Byte

/-- Whether a cached copy has been replaced before the n-th use of a cache (R145, R278: the spec gives no
replacement rule, and a copy may be lost at any time). -/
opaque evicted : Nat → Bool

/-- Which line a full set of a cache gives up, the n-th time (R16, R145, R251: the spec gives no replacement order). -/
opaque victim : Nat → Nat

/-- Whether a physical address where no unit of the package stands reaches host memory (R88 names no address). -/
opaque hostMapped : Nat → Bool

/-- The n-th message body that the SPDM responder sends (R93 names the messages, not their bytes). -/
opaque spdmBody : Nat → Word

/-- SHA-384 (FIPS 180-4) of a string of bytes (R92, R93). -/
opaque sha384 : List Byte → BitVec 384

/-- Check 1 of R92: the header and length of a firmware image are valid. -/
opaque imageHeaderOk : List Byte → Bool

/-- Check 3 of R92: the ECDSA P-384 signature of an image verifies over its digest, against the fused root key hash. -/
opaque ecdsaOk : List Byte → BitVec 384 → Bool

/-- Check 4 of R92: the LMS/HSS signature of an image verifies over it, against the fused LMS root. -/
opaque lmsOk : List Byte → BitVec 384 → Bool

/-- The security version of an image, and the fused minimum (check 5 of R92). -/
opaque imageVersion : List Byte → Nat
opaque fusedVersion : Nat

/-- The fuses as a measurement reports them (R93). -/
opaque fuseState : Nat

/-- The two attestation signatures of the device over a transcript hash (R93). -/
opaque ecdsaSign : BitVec 384 → Word
opaque lmsSign : BitVec 384 → Word

/-- Where an HA or HS places its n-th run inside its spill region (R208: as it chooses). -/
opaque runChoice : Nat → Nat

end Sys2Proof.Config
end

