-- ==== Sys2Proof/Machine/Numbers.lean ====
section
/-! DEFINITION. Numbers, rounding and exact sums (spec/03): the formats of R40 to R42, Round of R43 and R44, the
flags of R45, C4 and block scales of R46 and R47, the functions of R48, the exact accumulator of R49 to R51, the
draws of R52 to R55 and the weight algebras of R56. -/

namespace Sys2Proof.Machine

/-- An exact value before rounding: NaN, an infinity, or ± m × 2^e (a zero keeps its sign). -/
inductive XVal
  | nan
  | inf (neg : Bool)
  | fin (neg : Bool) (m : Nat) (e : Int)
  deriving DecidableEq, Repr

/-- The rounding modes of R43. -/
inductive RMode | rne | rtz | rup | rdn | sr
  deriving DecidableEq, Repr

/-- The mode of a 3-bit code (R43). -/
def rmodeOf : Nat → Option RMode
  | 0 => some .rne
  | 1 => some .rtz
  | 2 => some .rup
  | 3 => some .rdn
  | 4 => some .sr
  | _ => none

/-- The element formats of R24. -/
inductive Fmt
  | byte | int8 | uint8 | int16 | int32 | int64 | fp32 | bf16 | fp16 | e4m3 | e5m2 | e2m1 | c4 | e8m0
  deriving DecidableEq, Repr

/-- The format of a code (R24); 0xE and 0xF are reserved. -/
def fmtOf : Nat → Option Fmt
  | 0 => some .byte | 1 => some .int8 | 2 => some .uint8 | 3 => some .int16 | 4 => some .int32 | 5 => some .int64
  | 6 => some .fp32 | 7 => some .bf16 | 8 => some .fp16 | 9 => some .e4m3 | 10 => some .e5m2 | 11 => some .e2m1
  | 12 => some .c4 | 13 => some .e8m0 | _ => none

/-- The width of a format in bits (R24). -/
def fmtWidth : Fmt → Nat
  | .byte => 8 | .int8 => 8 | .uint8 => 8 | .int16 => 16 | .int32 => 32 | .int64 => 64 | .fp32 => 32 | .bf16 => 16
  | .fp16 => 16 | .e4m3 => 8 | .e5m2 => 8 | .e2m1 => 4 | .c4 => 4 | .e8m0 => 8

/-- The default EMAX of a format; C4 is that of the default table (R42). -/
def fmtEmax : Fmt → Int
  | .byte => 0 | .fp32 => 127 | .bf16 => 127 | .fp16 => 15 | .e4m3 => 8 | .e5m2 => 15 | .e2m1 => 2 | .c4 => 2
  | .e8m0 => 127 | .int8 => 7 | .uint8 => 7 | .int16 => 15 | .int32 => 31 | .int64 => 63

/-- The layout of a floating-point format (R40): exponent bits, fraction bits and bias. -/
structure FloatSpec where
  eb : Nat
  mb : Nat
  bias : Nat
  deriving DecidableEq, Repr

/-- The layout of each floating-point format (R40). -/
def floatSpec : Fmt → Option FloatSpec
  | .fp32 => some ⟨8, 23, 127⟩
  | .bf16 => some ⟨8, 7, 127⟩
  | .fp16 => some ⟨5, 10, 15⟩
  | .e4m3 => some ⟨4, 3, 7⟩
  | .e5m2 => some ⟨5, 2, 15⟩
  | .e2m1 => some ⟨2, 1, 1⟩
  | _ => none

/-- The seven sticky flags of R45, bit 0 NX to bit 6 RISK. -/
abbrev FpFlags := BitVec 7

def flagNX : FpFlags := 1
def flagUF : FpFlags := 2
def flagOF : FpFlags := 4
def flagDZ : FpFlags := 8
def flagNV : FpFlags := 16
def flagOVF : FpFlags := 32
def flagRISK : FpFlags := 64

/-- The canonical NaN of a format; 0 for the formats that have none (R40, R44). -/
def canonicalNan : Fmt → Nat
  | .fp32 => 0x7FC00000 | .bf16 => 0x7FC0 | .fp16 => 0x7E00 | .e4m3 => 0x7F | .e5m2 => 0x7E | .e8m0 => 0xFF | _ => 0

/-! ### Decoding -/

/-- The value of an encoding in a floating-point layout whose largest exponent field means infinity or NaN only where
the flag says so (R40). -/
def decodeFloat (f : FloatSpec) (special : Bool) (x : Nat) : XVal :=
  let neg := bit x (f.eb + f.mb)
  let e := bits x f.mb f.eb
  let m := bits x 0 f.mb
  if special && e == 2 ^ f.eb - 1 then (if m = 0 then .inf neg else .nan)
  else if e = 0 then .fin neg m (1 - (f.bias : Int) - f.mb)
  else .fin neg (2 ^ f.mb + m) ((e : Int) - f.bias - f.mb)

/-- The default C4 table as BF16 encodings, E2M1 in code order (R41). -/
def defaultCodebook : List Nat :=
  [0x0000, 0x3F00, 0x3F80, 0x3FC0, 0x4000, 0x4040, 0x4080, 0x40C0,
   0x8000, 0xBF00, 0xBF80, 0xBFC0, 0xC000, 0xC040, 0xC080, 0xC0C0]

/-- An integer as an exact value. -/
def ofInt (i : Int) : XVal := .fin (decide (i < 0)) i.natAbs 0

/-- The exact value of an encoding; C4 through the codebook given (R40, R41). -/
def decodeFmt (f : Fmt) (cb : List Nat) (x : Nat) : XVal :=
  match f with
  | .byte => ofInt x
  | .int8 => ofInt (sext 8 x)
  | .uint8 => ofInt (x % 256 : Nat)
  | .int16 => ofInt (sext 16 x)
  | .int32 => ofInt (sext 32 x)
  | .int64 => ofInt (sext 64 x)
  | .fp32 => decodeFloat ⟨8, 23, 127⟩ true x
  | .bf16 => decodeFloat ⟨8, 7, 127⟩ true x
  | .fp16 => decodeFloat ⟨5, 10, 15⟩ true x
  | .e4m3 => if x % 128 = 0x7F then .nan else decodeFloat ⟨4, 3, 7⟩ false x
  | .e5m2 => decodeFloat ⟨5, 2, 15⟩ true x
  | .e2m1 => decodeFloat ⟨2, 1, 1⟩ false x
  | .c4 => decodeFloat ⟨8, 7, 127⟩ true (cb.getD (x % 16) 0)
  | .e8m0 => if x % 256 = 0xFF then .nan else .fin false 1 ((x % 256 : Nat) - 127)

/-! ### Exact arithmetic -/

/-- ± m × 2^e as an integer multiple of 2^k, for k ≤ e. -/
def scaled (neg : Bool) (m : Nat) (e k : Int) : Int :=
  let v : Int := ((m <<< (e - k).toNat : Nat) : Int)
  if neg then -v else v

/-- The exact sum of two values (no NaN input here: the callers settle it). An exact zero has the sign of R178. -/
def xadd (mode : RMode) : XVal → XVal → XVal
  | .nan, _ => .nan
  | _, .nan => .nan
  | .inf a, .inf b => if a = b then .inf a else .nan
  | .inf a, .fin .. => .inf a
  | .fin .., .inf b => .inf b
  | .fin a m e, .fin b n d =>
    if m = 0 ∧ n = 0 then .fin (if a = b then a else decide (mode = .rdn)) 0 0
    else if m = 0 then .fin b n d
    else if n = 0 then .fin a m e
    else
      let k := min e d
      let s := scaled a m e k + scaled b n d k
      if s = 0 then .fin (decide (mode = .rdn)) 0 0 else .fin (decide (s < 0)) s.natAbs k

/-- The exact product; ∞ × 0 is NaN (R50, R178). -/
def xmul : XVal → XVal → XVal
  | .nan, _ => .nan
  | _, .nan => .nan
  | .inf a, .inf b => .inf (a != b)
  | .inf a, .fin b m _ => if m = 0 then .nan else .inf (a != b)
  | .fin a m _, .inf b => if m = 0 then .nan else .inf (a != b)
  | .fin a m e, .fin b n d => .fin (a != b) (m * n) (e + d)

/-- The negated value. -/
def xneg : XVal → XVal
  | .nan => .nan
  | .inf a => .inf (!a)
  | .fin a m e => .fin (!a) m e

/-- Multiplication by 2^k. -/
def xscale (k : Int) : XVal → XVal
  | .fin a m e => .fin a m (e + k)
  | v => v

/-- Whether a value is NaN. -/
def xisNan : XVal → Bool
  | .nan => true
  | _ => false

/-- Whether a value is NaN or infinite. -/
def xnonFinite : XVal → Bool
  | .fin .. => false
  | _ => true

/-- The order of two values that are not NaN, -0 and +0 equal: -1, 0 or 1. -/
def xcmp : XVal → XVal → Int
  | .inf a, .inf b => if a = b then 0 else if a then -1 else 1
  | .inf a, _ => if a then -1 else 1
  | _, .inf b => if b then 1 else -1
  | .fin a m e, .fin b n d =>
    let k := min e d
    let x := scaled a m e k
    let y := scaled b n d k
    if x < y then -1 else if x = y then 0 else 1
  | _, _ => 0

/-- Whether a value is a zero. -/
def xisZero : XVal → Bool
  | .fin _ m _ => m == 0
  | _ => false

/-- The sign of a value. -/
def xneg? : XVal → Bool
  | .nan => false
  | .inf a => a
  | .fin a _ _ => a

/-- a < b with -0 below +0 (R45), for values that are not NaN. -/
def xbelow (a b : XVal) : Bool :=
  if xisZero a && xisZero b then xneg? a && !xneg? b else xcmp a b == -1

/-- Floor(log2 (m × 2^e)) for m > 0. -/
def xlog2 (m : Nat) (e : Int) : Int := (Nat.log2 m : Int) + e

/-- m × 2^e rounded to a multiple of 2^u: the multiple and whether it differs (R43). r is the SR draw. -/
def roundMag (mode : RMode) (neg : Bool) (r m : Nat) (e u : Int) : Nat × Bool :=
  if e ≥ u then (m <<< (e - u).toNat, false)
  else
    let s := (u - e).toNat
    let q := m >>> s
    let rem := m % 2 ^ s
    if rem = 0 then (q, false)
    else
      let up := match mode with
        | .rne => decide (2 * rem > 2 ^ s) || (2 * rem == 2 ^ s && q % 2 == 1)
        | .rtz => false
        | .rup => !neg
        | .rdn => neg
        | .sr => decide ((rem * 65536) >>> s + r ≥ 65536)
      (if up then q + 1 else q, true)

/-- The encoding of q × 2^u in a layout, for a magnitude that lies in range. -/
def encodeMag (f : FloatSpec) (q : Nat) (u : Int) : Nat :=
  if q = 0 then 0
  else
    let l := Nat.log2 q
    let ef := (l : Int) + u + f.bias
    if ef ≤ 0 then (q <<< (u - (1 - (f.bias : Int) - f.mb)).toNat)
    else
      let mant := if l ≥ f.mb then q >>> (l - f.mb) else q <<< (f.mb - l)
      (ef.toNat <<< f.mb) + (mant - 2 ^ f.mb)

/-- The largest finite magnitude of a format as an encoding without sign (R40). -/
def largestFinite : Fmt → Nat
  | .fp32 => 0x7F7FFFFF | .bf16 => 0x7F7F | .fp16 => 0x7BFF | .e4m3 => 0x7E | .e5m2 => 0x7B | .e2m1 => 0x7 | _ => 0

/-- Puts the sign bit in front of a magnitude encoding. -/
def withSign (f : FloatSpec) (neg : Bool) (x : Nat) : Nat := if neg then 2 ^ (f.eb + f.mb) + x else x

/-- What a finite value beyond the range becomes, and its flags (R44). -/
def overflowTo (fmt : Fmt) (f : FloatSpec) (nosat : Bool) (mode : RMode) (neg : Bool) : Nat × FpFlags :=
  match fmt with
  | .e4m3 => if nosat then (0x7F, flagOF ||| flagNX ||| flagNV) else (withSign f neg 0x7E, flagOF ||| flagNX)
  | .e2m1 => (withSign f neg 0x7, flagOF ||| flagNX ||| flagNV)
  | _ =>
    let toInf := match mode with
      | .rne => true
      | .sr => true
      | .rtz => false
      | .rup => !neg
      | .rdn => neg
    (withSign f neg (if toInf then (2 ^ f.eb - 1) <<< f.mb else largestFinite fmt), flagOF ||| flagNX)

/-- Round of R7 for the floating-point formats of R40 other than E8M0, with R43 and R44: the encoding and the flags it
sets. r is the 16-bit SR draw; nosat selects the non-saturating row of E4M3. -/
def roundFloat (fmt : Fmt) (nosat : Bool) (mode : RMode) (r : Nat) (x : XVal) : Nat × FpFlags :=
  match floatSpec fmt with
  | none => (0, 0)
  | some f =>
    match x with
    | .nan => (canonicalNan fmt, if fmt = .e2m1 then flagNV else 0)
    | .inf neg =>
      match fmt with
      | .e4m3 => if nosat then (0x7F, flagNV) else (withSign f neg 0x7E, flagOF ||| flagNX)
      | .e2m1 => (withSign f neg 0x7, flagOF ||| flagNX ||| flagNV)
      | _ => (withSign f neg ((2 ^ f.eb - 1) <<< f.mb), 0)
    | .fin neg m e =>
      if m = 0 then (withSign f neg 0, 0)
      else
        let lg := xlog2 m e
        let umin := 1 - (f.bias : Int) - f.mb
        let u := max (lg - f.mb) umin
        let qi := roundMag mode neg r m e u
        let enc := encodeMag f qi.1 u
        if enc > largestFinite fmt then overflowTo fmt f nosat mode neg
        else
          let qu := roundMag mode neg r m e (lg - f.mb)
          let tiny := qi.2 && qi.1 != 0 && decide (xlog2 qu.1 (lg - f.mb) < 1 - (f.bias : Int))
          (withSign f neg enc, (if qi.2 then flagNX else 0) ||| (if tiny then flagUF else 0))

/-- The limits of an integer format (R41). -/
def intLimits : Fmt → Int × Int
  | .int8 => (-128, 127) | .uint8 => (0, 255) | .int16 => (-32768, 32767)
  | .int32 => (-2147483648, 2147483647) | .int64 => (-9223372036854775808, 9223372036854775807) | _ => (0, 0)

/-- Round to an integer format (R44): saturating, NaN to 0; the flags of a conversion from a float. -/
def roundInt (fmt : Fmt) (mode : RMode) (r : Nat) (x : XVal) : Nat × FpFlags :=
  let lim := intLimits fmt
  let w := fmtWidth fmt
  match x with
  | .nan => (0, flagNV)
  | .inf neg => (wrap w (if neg then lim.1 else lim.2), flagNV)
  | .fin neg m e =>
    let qi := roundMag mode neg r m e 0
    let v : Int := if neg then -(qi.1 : Int) else qi.1
    if v < lim.1 then (wrap w lim.1, flagNV)
    else if v > lim.2 then (wrap w lim.2, flagNV)
    else (wrap w v, if qi.2 then flagNX else 0)

/-- The saturating conversion of an integer to an integer format, which sets no flag (R44, R182). -/
def satInt (fmt : Fmt) (v : Int) : Nat :=
  let lim := intLimits fmt
  wrap (fmtWidth fmt) (if v < lim.1 then lim.1 else if v > lim.2 then lim.2 else v)

/-! ### C4 and block scales -/

/-- The magnitude of a value. -/
def xabs : XVal → XVal
  | .nan => .nan
  | .inf _ => .inf false
  | .fin _ m e => .fin false m e

/-- The magnitude of the difference of two numbers; infinite where one of them is. -/
def xdist (a b : XVal) : XVal := xabs (xadd .rne a (xneg b))

/-- Whether C4 entry c beats entry b for the input x, by the order of R46. -/
def c4Better (cb : List Nat) (x : XVal) (c b : Nat) : Bool :=
  let vc := decodeFmt .c4 cb c
  let vb := decodeFmt .c4 cb b
  let d := xcmp (xdist vc x) (xdist vb x)
  if d ≠ 0 then d == -1
  else if c % 2 ≠ b % 2 then c % 2 == 0
  else
    let mg := xcmp (xabs vc) (xabs vb)
    if mg ≠ 0 then mg == -1
    else if xneg? vc ≠ xneg? vb then xneg? vc == xneg? x
    else decide (c < b)

/-- The finite entries of a codebook. -/
def c4Finite (cb : List Nat) : List Nat := (upTo 16).filter (fun c => !xnonFinite (decodeFmt .c4 cb c))

/-- Picks the best entry of a list by a test. -/
def pickBest (better : Nat → Nat → Bool) : List Nat → Nat → Nat
  | [], b => b
  | c :: cs, b => pickBest better cs (if better c b then c else b)

/-- The entries of a codebook that are no NaN. -/
def c4Numbers (cb : List Nat) : List Nat := (upTo 16).filter (fun c => !xisNan (decodeFmt .c4 cb c))

/-- Whether C4 entry c lies further up (`neg`: down) than entry b; equal entries go by the order of R46.
DESIGN CHOICE: notes/assumptions/72.md. -/
def c4Further (cb : List Nat) (neg : Bool) (c b : Nat) : Bool :=
  let d := xcmp (decodeFmt .c4 cb c) (decodeFmt .c4 cb b)
  if d = 0 then c4Better cb (.inf neg) c b else d == (if neg then -1 else 1)

/-- Encoding to C4 (R46) with the saturation and flags of R44. Where a codebook has no entry to pick, the code is a free value, and
one without a finite entry has nothing that a finite value lies beyond. DESIGN CHOICE: notes/assumptions/72.md. -/
def encodeC4 (cb : List Nat) (x : XVal) : Nat × FpFlags :=
  let val := decodeFmt .c4 cb
  let beyond := flagOF ||| flagNX ||| flagNV
  match x with
  | .nan => (0, flagNV)
  | .inf neg =>
    match c4Finite cb with
    | [] => (Config.c4Unstated cb neg % 16, beyond)
    | c :: cs => (pickBest (c4Further cb neg) cs c, beyond)
  | v =>
    match c4Numbers cb with
    | [] => (Config.c4Unstated cb (xneg? v) % 16, flagNV)
    | c :: cs =>
      let code := pickBest (c4Better cb v) cs c
      let fin := c4Finite cb
      if !fin.isEmpty && (fin.all (fun e => xcmp v (val e) == 1) || fin.all (fun e => xcmp v (val e) == -1)) then (code, beyond)
      else (code, if xcmp v (val code) == 0 then 0 else flagNX)

/-- EMAX of a codebook: floor(log2) of the largest finite entry magnitude (R42); a free value when every finite entry is 0
(notes/assumptions/72.md). -/
def c4Emax (cb : List Nat) : Int :=
  let lgs := (c4Finite cb).filterMap (fun c =>
    match decodeFmt .c4 cb c with
    | .fin _ m e => if m = 0 then none else some (xlog2 m e)
    | _ => none)
  match lgs with
  | [] => Config.c4NoEmax cb
  | l :: ls => ls.foldl max l

/-- The EMAX that R47 uses for a format. -/
def blockEmax (fmt : Fmt) (cb : List Nat) : Int := if fmt = .c4 then c4Emax cb else fmtEmax fmt

/-- Round to any format in one call (R43, R44, R46). -/
def roundTo (fmt : Fmt) (nosat : Bool) (cb : List Nat) (mode : RMode) (r : Nat) (x : XVal) : Nat × FpFlags :=
  match fmt with
  | .fp32 => roundFloat .fp32 nosat mode r x
  | .bf16 => roundFloat .bf16 nosat mode r x
  | .fp16 => roundFloat .fp16 nosat mode r x
  | .e4m3 => roundFloat .e4m3 nosat mode r x
  | .e5m2 => roundFloat .e5m2 nosat mode r x
  | .e2m1 => roundFloat .e2m1 nosat mode r x
  | .c4 => encodeC4 cb x
  | .int8 => roundInt .int8 mode r x
  | .uint8 => roundInt .uint8 mode r x
  | .int16 => roundInt .int16 mode r x
  | .int32 => roundInt .int32 mode r x
  | .int64 => roundInt .int64 mode r x
  | .byte => (0, 0)
  | .e8m0 => (0, 0)

/-- The shared scale code and the element codes of a block (R47). -/
def encodeBlock (fmt : Fmt) (cb : List Nat) (vs : List XVal) : Nat × List Nat :=
  if vs.any xnonFinite then (0xFF, vs.map (fun _ => 0))
  else
    let lg := vs.foldl (fun (acc : Option Int) v =>
      match v with
      | .fin _ m e => if m = 0 then acc else some (match acc with | none => xlog2 m e | some a => max a (xlog2 m e))
      | _ => acc) none
    match lg with
    | none => (0x7F, vs.map (fun v => (roundTo fmt false cb .rne 0 v).1))
    | some l =>
      let x := l - blockEmax fmt cb
      let code := max 0 (min 0xFE (x + 127))
      (code.toNat, vs.map (fun v => (roundTo fmt false cb .rne 0 (xscale (-x) v)).1))

/-- The value of an element under a block scale; a scale of 0xFF decodes to NaN (R47). -/
def decodeScaled (fmt : Fmt) (cb : List Nat) (scale x : Nat) : XVal :=
  if scale = 0xFF then .nan else xscale ((scale : Int) - 127) (decodeFmt fmt cb x)

/-! ### Functions -/

/-- Floor of the square root, deciding bit k - 1 first. -/
def isqrtBits (n : Nat) : Nat → Nat → Nat
  | 0, acc => acc
  | k + 1, acc => isqrtBits n k (if (acc + 2 ^ k) * (acc + 2 ^ k) ≤ n then acc + 2 ^ k else acc)

/-- Floor of the square root. -/
def isqrt (n : Nat) : Nat := isqrtBits n (Nat.log2 n / 2 + 1) 0

/-- A positive value known as q × 2^k and whether something remains below it: the remainder is kept as a last odd bit. -/
def sticky (neg : Bool) (q : Nat) (k : Int) (more : Bool) : XVal := .fin neg (2 * q + ofBool more) (k - 1)

/-- 1 / x to 400 bits with a sticky bit (R48). -/
def xrcp (neg : Bool) (m : Nat) (e : Int) : XVal :=
  let q := 2 ^ 400 / m
  sticky neg q (-400 - e) (q * m != 2 ^ 400)

/-- 1 / √x to about 200 bits with a sticky bit (R48). -/
def xrsq (m : Nat) (e : Int) : XVal :=
  let m' := if e % 2 = 0 then m else 2 * m
  let e' := if e % 2 = 0 then e else e - 1
  let q := isqrt (2 ^ 400 / m')
  sticky false q (-200 - e' / 2) (q * q * m' != 2 ^ 400)

/-- 2^P times the product of 2^(2^-i) over the set bits of a fraction, most significant first: c is 2^P × 2^(2^-i) of
the bit before. -/
def exp2Frac (p : Nat) : Nat → Nat → Nat → Nat → Nat
  | 0, _, _, acc => acc
  | n + 1, frac, c, acc =>
    let c' := isqrt (c <<< p)
    exp2Frac p n frac c' (if frac / 2 ^ n % 2 = 1 then (acc * c') >>> p else acc)

/-- 2^x for finite x, to 320 bits with a sticky bit where x is no integer (R48; notes/assumptions/7.md). -/
def xexp2 (neg : Bool) (m : Nat) (e : Int) : XVal :=
  if m = 0 then .fin false 1 0
  else if xlog2 m e > 9 then (if neg then .fin false 1 (-600) else .fin false 1 600)
  else if e ≥ 0 then
    let i : Int := scaled neg m e 0
    .fin false 1 i
  else
    let k := (-e).toNat
    let v : Int := if neg then -(m : Int) else m
    let i := Int.fdiv v ((2 ^ k : Nat) : Int)
    let frac := (v - i * ((2 ^ k : Nat) : Int)).toNat
    if frac = 0 then .fin false 1 i
    else sticky false (exp2Frac 320 k frac (2 ^ 321) (2 ^ 320)) (i - 320) true

/-- n bits of log2 of y / 2^p for 1 ≤ y / 2^p < 2, by repeated squaring. -/
def log2Bits (p : Nat) : Nat → Nat → Nat → Nat
  | 0, _, acc => acc
  | n + 1, y, acc =>
    let s := (y * y) >>> p
    if s ≥ 2 ^ (p + 1) then log2Bits p n (s / 2) (2 * acc + 1) else log2Bits p n s (2 * acc)

/-- log2 x for finite x > 0, to 120 fraction bits with a sticky bit where x is no power of two (R48;
notes/assumptions/7.md). -/
def xlog2Val (m : Nat) (e : Int) : XVal :=
  let l := Nat.log2 m
  let i := (l : Int) + e
  if m = 2 ^ l then ofInt i
  else
    let y := if l ≤ 300 then m <<< (300 - l) else m >>> (l - 300)
    let t := i * ((2 ^ 120 : Nat) : Int) + (log2Bits 300 120 y 0 : Nat)
    if t ≥ 0 then sticky false t.toNat (-120) true else sticky true ((-t).toNat - 1) (-120) true

/-- The four functions of R48. -/
inductive Fun | rcp | rsq | exp2 | log2
  deriving DecidableEq, Repr

/-- The exact value of a function and the flags its special cases set (R48). -/
def funVal (f : Fun) (x : XVal) : XVal × FpFlags :=
  match f, x with
  | _, .nan => (.nan, 0)
  | .rcp, .inf n => (.fin n 0 0, 0)
  | .rcp, .fin n m e => if m = 0 then (.inf n, flagDZ) else (xrcp n m e, 0)
  | .rsq, .inf n => if n then (.nan, flagNV) else (.fin false 0 0, 0)
  | .rsq, .fin n m e => if m = 0 then (.inf n, flagDZ) else if n then (.nan, flagNV) else (xrsq m e, 0)
  | .exp2, .inf n => if n then (.fin false 0 0, 0) else (.inf false, 0)
  | .exp2, .fin n m e => (xexp2 n m e, 0)
  | .log2, .inf n => if n then (.nan, flagNV) else (.inf false, 0)
  | .log2, .fin n m e => if m = 0 then (.inf true, flagDZ) else if n then (.nan, flagNV) else (xlog2Val m e, 0)

/-! ### FP32 and BF16 arithmetic -/

/-- The value of an FP32 lane. -/
def f32 (x : Nat) : XVal := decodeFmt .fp32 [] (x % 2 ^ 32)

/-- Round to FP32 with R44 and R45. -/
def toF32 (mode : RMode) (r : Nat) (x : XVal) : Nat × FpFlags := roundFloat .fp32 false mode r x

/-- A sum of two exact terms rounded once; a NaN made from terms that are not NaN sets NV (R178). -/
def addRound (fmt : Fmt) (mode : RMode) (r : Nat) (a b : XVal) : Nat × FpFlags :=
  let s := xadd mode a b
  let x := roundFloat fmt false mode r s
  (x.1, x.2 ||| (if xisNan s && !xisNan a && !xisNan b then flagNV else 0))

/-- A product rounded once (R178). -/
def mulRound (fmt : Fmt) (mode : RMode) (r : Nat) (a b : XVal) : Nat × FpFlags :=
  let s := xmul a b
  let x := roundFloat fmt false mode r s
  (x.1, x.2 ||| (if xisNan s && !xisNan a && !xisNan b then flagNV else 0))

/-- a × b + c rounded once; ∞ × 0 sets NV whatever c is (R178). -/
def fmaRound (fmt : Fmt) (mode : RMode) (r : Nat) (a b c : XVal) : Nat × FpFlags :=
  let p := xmul a b
  let s := xadd mode p c
  let x := roundFloat fmt false mode r s
  let bad := (xisNan p && !xisNan a && !xisNan b) || (xisNan s && !xisNan p && !xisNan c)
  (x.1, x.2 ||| (if bad then flagNV else 0))

/-- FMIN and FMAX on FP32 encodings (R45). -/
def fmin32 (a b : Nat) : Nat :=
  if xisNan (f32 a) && xisNan (f32 b) then canonicalNan .fp32
  else if xisNan (f32 a) then b
  else if xisNan (f32 b) then a
  else if xbelow (f32 b) (f32 a) then b else a

def fmax32 (a b : Nat) : Nat :=
  if xisNan (f32 a) && xisNan (f32 b) then canonicalNan .fp32
  else if xisNan (f32 a) then b
  else if xisNan (f32 b) then a
  else if xbelow (f32 a) (f32 b) then b else a

/-- The exact value 1. -/
def xone : XVal := .fin false 1 0

/-! ### The exact accumulator -/

/-- An X160 entry (R49). -/
structure X160 where
  n : BitVec 160 := 0
  pinf : Bool := false
  ninf : Bool := false
  nan : Bool := false
  ovf : Bool := false
  risk : Bool := false
  count : Nat := 0
  deriving DecidableEq, Repr

/-- COUNT saturates at 2^16 + 1 (R50). -/
def satCount (n : Nat) : Nat := min n 65537

/-- The contribution without the count: sticky bits and N (R50). -/
def contributeValue (α : Int) (x : XVal) (e : X160) : X160 :=
  match x with
  | .nan => { e with nan := true }
  | .inf false => { e with pinf := true }
  | .inf true => { e with ninf := true }
  | .fin neg m ex =>
    let sh := ex - (α - 112)
    let q := if sh ≥ 0 then m <<< sh.toNat else m >>> (-sh).toNat
    let v : Int := if neg then -(q : Int) else q
    { e with
      ovf := e.ovf || (m != 0 && decide (xlog2 m ex ≥ α + 31))
      n := e.n + BitVec.ofInt 160 v }

/-- Contribute of R50. -/
def contribute (α : Int) (x : XVal) (e : X160) : X160 :=
  let c := satCount (e.count + 1)
  contributeValue α x { e with count := c, risk := e.risk || decide (c > 65536) }

/-- The flags that an entry's OVF and RISK set in its unit (R50). -/
def x160Flags (e : X160) : FpFlags := (if e.ovf then flagOVF else 0) ||| (if e.risk then flagRISK else 0)

/-- Leave of R50: the encoding and the flags. -/
def leave (α : Int) (fmt : Fmt) (mode : RMode) (r : Nat) (e : X160) : Nat × FpFlags :=
  if e.nan || (e.pinf && e.ninf) || e.ovf then (canonicalNan fmt, flagNV)
  else if e.pinf then roundTo fmt false defaultCodebook mode r (.inf false)
  else if e.ninf then roundTo fmt false defaultCodebook mode r (.inf true)
  else
    let v := e.n.toInt
    if v = 0 then (0, 0) else roundTo fmt false defaultCodebook mode r (.fin (decide (v < 0)) v.natAbs (α - 112))

/-! ### Random streams -/

/-- The multiplication constant of R52 and R192. -/
def golden : Nat := 0x9E3779B97F4A7C15

/-- The value z of one draw (R52). -/
def drawZ (key ctr : Word) : Nat :=
  let z0 := (ctr.toNat * golden + key.toNat) % 2 ^ 64
  let z1 := ((z0 ^^^ (z0 >>> 32)) * 0xD6E8FEB86659FD93) % 2 ^ 64
  let z2 := ((z1 ^^^ (z1 >>> 29)) * 0xD6E8FEB86659FD93) % 2 ^ 64
  z2 ^^^ (z2 >>> 32)

/-- The 16 SR bits of a draw (R53). -/
def srBits (z : Nat) : Nat := z >>> 48

/-- The uniform FP32 encoding of a draw (R53). -/
def drawU (z : Nat) : Nat := (toF32 .rne 0 (.fin false (z >>> 40) (-24))).1

/-- An FP32 weight times 2^149, or none when it is NaN, infinite or below -0 (R54). -/
def categWeight (w : Nat) : Option Nat :=
  match f32 w with
  | .fin neg m e => if neg && m != 0 then none else some (m <<< (e + 149).toNat)
  | _ => none

/-- The first index whose running sum exceeds t (R54). -/
def categPick (t : Nat) : List Nat → Nat → Nat → Nat
  | [], _, i => i
  | w :: ws, p, i => if p + w > t then i else categPick t ws (p + w) (i + 1)

/-- Categ of R54: the index and whether NV is set. -/
def categ (ws : List Nat) (z : Nat) : Nat × Bool :=
  let vs := ws.map categWeight
  if vs.any Option.isNone then (0, true)
  else
    let w := vs.map (fun o => o.getD 0)
    let s := w.foldl (· + ·) 0
    if s = 0 then (0, true) else (categPick ((z >>> 11) * s / 2 ^ 53) w 0 0, false)

/-- The test of BERN on FP32 encodings: whether it accepts and whether NV is set (R54). -/
def bern (p q z : Nat) : Bool × Bool :=
  match categWeight p, categWeight q with
  | some wp, some wq => if wq = 0 then (decide (wp > 0), false) else (decide ((z >>> 40) * wq < wp * 2 ^ 24), false)
  | _, _ => (false, true)

/-! ### Weight algebras -/

/-- The algebras of R29 and R56. -/
inductive Alg | bool | cnt | trop | vit | pnor | real | int32 | int64
  deriving DecidableEq, Repr

/-- The algebra of a code (R29); 8 to 15 are refused. -/
def algOf : Nat → Option Alg
  | 0 => some .bool | 1 => some .cnt | 2 => some .trop | 3 => some .vit | 4 => some .pnor | 5 => some .real
  | 6 => some .int32 | 7 => some .int64 | _ => none

/-- The zero of an algebra as a carrier (R56). -/
def algZero : Alg → Nat
  | .trop => 0x7F800000
  | _ => 0

/-- The algebras that work on floats (R124, R183). -/
def algFloat : Alg → Bool
  | .trop => true | .vit => true | .pnor => true | .real => true | _ => false

/-- The algebras with a complement (R56, R57). -/
def algHasCompl : Alg → Bool
  | .bool => true | .vit => true | .pnor => true | _ => false

/-- Clamps an FP32 encoding into [0, 1]: above sets OF, below sets UF (R56). -/
def clamp01 (x : Nat × FpFlags) : Nat × FpFlags :=
  match f32 x.1 with
  | .nan => x
  | v => if xcmp v xone == 1 then (0x3F800000, x.2 ||| flagOF)
         else if xcmp v (.fin false 0 0) == -1 then (0, x.2 ||| flagUF) else x

/-- a ⊕ b on carriers (R56). -/
def algAdd (g : Alg) (a b : Nat) : Nat × FpFlags :=
  match g with
  | .bool => ((a ||| b) % 2, 0)
  | .cnt => (min (a + b) 0xFFFFFFFF, 0)
  | .trop => (fmin32 a b, 0)
  | .vit =>
    if xisNan (f32 a) && xisNan (f32 b) then (canonicalNan .fp32, 0)
    else clamp01 (if xisNan (f32 a) then (b, 0) else if xisNan (f32 b) then (a, 0)
      else if xisZero (f32 a) && xisZero (f32 b) then (fmax32 a b, 0)
      else if xcmp (f32 a) (f32 b) == -1 then (b, 0) else (a, 0))
  | .pnor =>
    let s := xadd .rne (xadd .rne (f32 a) (f32 b)) (xneg (xmul (f32 a) (f32 b)))
    let x := toF32 .rne 0 s
    clamp01 (x.1, x.2 ||| (if xisNan s && !xisNan (f32 a) && !xisNan (f32 b) then flagNV else 0))
  | .real => addRound .fp32 .rne 0 (f32 a) (f32 b)
  | .int32 => ((a + b) % 2 ^ 32, 0)
  | .int64 => ((a + b) % 2 ^ 64, 0)

/-- a ⊗ b on carriers (R56). -/
def algMul (g : Alg) (a b : Nat) : Nat × FpFlags :=
  match g with
  | .bool => ((a &&& b) % 2, 0)
  | .cnt => (min (a * b) 0xFFFFFFFF, 0)
  | .trop =>
    if xisNan (f32 a) || xisNan (f32 b) then (algZero .trop, flagNV)
    else if f32 a = .inf false || f32 b = .inf false then (algZero .trop, 0)
    else addRound .fp32 .rne 0 (f32 a) (f32 b)
  | .vit => if xisNan (f32 a) || xisNan (f32 b) then (0, flagNV) else clamp01 (mulRound .fp32 .rne 0 (f32 a) (f32 b))
  | .pnor => if xisNan (f32 a) || xisNan (f32 b) then (0, flagNV) else clamp01 (mulRound .fp32 .rne 0 (f32 a) (f32 b))
  | .real => mulRound .fp32 .rne 0 (f32 a) (f32 b)
  | .int32 => ((a * b) % 2 ^ 32, 0)
  | .int64 => ((a * b) % 2 ^ 64, 0)

/-- The complement (R56); an algebra without one never reaches here (R57). -/
def algCompl (g : Alg) (a : Nat) : Nat × FpFlags :=
  match g with
  | .bool => ((a + 1) % 2, 0)
  | _ => if xisNan (f32 a) then (0, flagNV) else clamp01 (addRound .fp32 .rne 0 xone (xneg (f32 a)))

/-- A retraction applied to a single carrier (R56, R183, R213). -/
def algRetract (g : Alg) (a b : Nat) : Nat :=
  match g with
  | .cnt => a - b
  | .int32 => (a + 2 ^ 32 - b % 2 ^ 32) % 2 ^ 32
  | .int64 => (a + 2 ^ 64 - b % 2 ^ 64) % 2 ^ 64
  | _ => a

end Sys2Proof.Machine
end

