-- ==== Sys2Proof/Syntax.lean ====
section
/-! DEFINITION. The instructions and events of spec/opcode_table.json, one constructor of `Instr` per row,
and the inductive types of their operands. Pilot words are R60 to R66 and the ENG tables R110, R159, R216,
R239, R267, R305, R332, R357 and R376; the events are the steps of the other agents (spec/95). -/

namespace Sys2Proof

/-- Access sizes .b .h .w .d (R61). -/
inductive Sz | b | h | w | d
  deriving DecidableEq, Repr

/-- Access sizes of AMO and CAS (R66). -/
inductive ASz | w | d
  deriving DecidableEq, Repr

/-- The functions of AMO (R66). -/
inductive AmoFn | add | and | or | xor | mins | maxs | minu | maxu | swap
  deriving DecidableEq, Repr

/-- The formats and roundings of AMOF (R66). -/
inductive AmofFn | f32rne | bf16rne | bf16sr
  deriving DecidableEq, Repr

/-- The scopes of FENCE (R66, R158). -/
inductive Scope | core | isle | die | package | system
  deriving DecidableEq, Repr

/-- A counter operand: immediate, or in a register (R305). -/
inductive CtrRef
  | imm (k : Ctr)
  | reg (gb : Reg)
  deriving DecidableEq, Repr

/-- Host registers of window WA that a REGISTER_WRITE event names (R85, R88), and the service registers
without a behaviour of their own (R345). -/
inductive HostReg
  | wbbase
  | hrcfg (n : Nat)
  | ctxtab | granttab | frbase | frslots | svccfg | drainlim
  | cwrt (n : Nat)
  | frr (stack n word : Nat)
  | other (off : Nat)
  deriving DecidableEq, Repr

/-- What nydb prints (R390). -/
inductive PrintItem
  | reg (core n : Nat)
  | pc (core : Nat)
  | sys (core n : Nat)
  | spec (core ring : Nat)
  | fpflags (core : Nat)
  | unit (core node : Nat)
  deriving DecidableEq, Repr

/-- A caching agent of R278: a pilot, the fabric side of a core, the LLC slices of a die. -/
inductive CacheAgent
  | pilot (core : Nat)
  | fabric (core : Nat)
  | llc (die : Nat)
  deriving DecidableEq, Repr

/-- An atomic as its location performs it (R157): AMO, CAS, or AMOF with the SRKEY of its context (R294). -/
inductive AtomOp
  | amo (f : AmoFn) (v : Nat)
  | cas (old new : Nat)
  | amof (f : AmofFn) (v : Nat) (srkey : Word)
  deriving DecidableEq, Repr

/-- Where an access on another chip lands: a physical address there with its CACHE and KEY (R252), or an element of a tensor
that the far chip translates (R246). -/
inductive FarPlace
  | phys (pa cache key : Nat)
  | elem (tid : Nat) (coord : List Int)
  deriving DecidableEq, Repr

/-- What a participant of a quiescence wave tells another (R303, R333). -/
inductive WaveMsg
  | start (second : Bool)
  | report1 (qs qa : Nat) (flag : Bool)
  | report2 (qs qa nc live : Nat) (flag cap : Bool)
  | decision (nc : Nat) (cap : Bool)
  /-- A participant has begun a round whose ROUND was this: the HA of one that has not waits for its own drain (R325). -/
  | hold (round : BitVec 16)
  deriving DecidableEq, Repr

/-- A core whose writes speculation rings tag: its chip, context and offset in its isle, and the cocoon index of the isle
(R344, R371). -/
structure Writer where
  chip : Nat
  ctx : Nat
  off : Nat
  n : Nat
  deriving DecidableEq, Repr

/-- A ring that tags writes: its number, the index current, and its regions on the chip written to (R370, R371). -/
structure RingTag where
  ring : Nat
  index : Nat
  regions : List (Nat × Nat)
  deriving DecidableEq, Repr

/-- Who makes a write, for the versions of its line (R371). -/
structure Author where
  who : Option Writer := none
  rings : List RingTag := []
  deriving DecidableEq, Repr

/-- What a message between chips asks for, or answers. The spec names the messages and no layout of theirs. DESIGN CHOICE:
notes/assumptions/74.md. -/
inductive ChipBody
  | read (p : FarPlace) (n : Nat)
  | write (p : FarPlace) (bytes : List (Option Byte)) (poison : Bool)
  | atomic (op : AtomOp) (p : FarPlace) (n : Nat)
  | put (raddr : Nat) (bytes : List Byte) (poison : Bool)
  | get (raddr n : Nat)
  | atom (f : AmoFn) (raddr n : Nat) (v : Word)
  | signal
  | slot (atoll pos slots slotw : Nat) (data control : List Byte)
  | wave (m : WaveMsg)
  /-- Versions of a ring of its author below an index become permanent, and those from another on are discarded (R372, R373). -/
  | settle (ring below from_ : Nat)
  /-- The answer to the message of the same number: its bytes, whether they carry poison or are a scale token image. -/
  | reply (bytes : List Byte) (poison scale : Bool)
  /-- The message of the same number ended under R300. -/
  | ended
  deriving DecidableEq, Repr

/-- A message between chips (R293, R299, R346): its number with its source, the core it is for, the context that sent it, and
the counter it raises there when it is performed. -/
structure ChipMsg where
  chip : Nat
  src : Nat := 0
  id : Nat := 0
  port : Nat := 0
  core : Nat := 0
  ctx : Nat := 0
  k : Nat := 0
  ken : Bool := false
  inc : Word := 0
  body : ChipBody
  author : Author := {}
  /-- The TRAPVAL of a fault that it meets, but for a page (R341). -/
  origin : Word := 0
  /-- At the chip it names: the cause and page of a fault that waits for service, and whether no wake-up has come (R300). -/
  fault : Option (Nat × Nat) := none
  parked : Bool := false
  deriving DecidableEq, Repr

/-- What arrives at a causeway port: a message, or nothing when only those that wait there can go on. -/
structure PortArrival where
  port : Nat
  msg : Option ChipMsg
  deriving DecidableEq, Repr

/-- The packets of R265. -/
inductive PacketOp | prd | pwr | pwrm
  deriving DecidableEq, Repr

/-- The granules of a packet, and the key slot of the page whose lines it reads (R94, R265). -/
structure PacketSpan where
  granules : Nat
  key : Nat := 0
  deriving DecidableEq, Repr

/-- A host memory access: a read of n bytes, or a write of the bytes listed. -/
inductive HostAccess
  | read (n : Nat)
  | write (bytes : List Byte)
  deriving DecidableEq, Repr

/-- The rows of the opcode table. Pilot instructions act on the pilot whose turn it is (State.turn); events
name the core, isle or host operand they act on. Nodes of a core are numbered 0 to 63 for elements and 64 + slot
for operators; isles are numbered 64 × die + index (R121). -/
inductive Instr
  -- RR group (R152)
  | add (gd ga gb : Reg) | sub (gd ga gb : Reg) | and (gd ga gb : Reg) | or (gd ga gb : Reg) | xor (gd ga gb : Reg)
  | sll (gd ga gb : Reg) | srl (gd ga gb : Reg) | sra (gd ga gb : Reg)
  | mul (gd ga gb : Reg) | mulhs (gd ga gb : Reg) | mulhu (gd ga gb : Reg)
  | divs (gd ga gb : Reg) | divu (gd ga gb : Reg) | rems (gd ga gb : Reg) | remu (gd ga gb : Reg)
  | mins (gd ga gb : Reg) | maxs (gd ga gb : Reg) | minu (gd ga gb : Reg) | maxu (gd ga gb : Reg)
  | seq (gd ga gb : Reg) | sne (gd ga gb : Reg) | slt (gd ga gb : Reg) | sltu (gd ga gb : Reg)
  | sel (gd ga gb gc : Reg)
  | clz (gd ga : Reg) | ctz (gd ga : Reg) | popc (gd ga : Reg) | brev (gd ga : Reg)
  -- RI group (R153)
  | addi (gd ga : Reg) (imm : BitVec 32) | andi (gd ga : Reg) (imm : BitVec 32) | ori (gd ga : Reg) (imm : BitVec 32)
  | xori (gd ga : Reg) (imm : BitVec 32)
  | slli (gd ga : Reg) (n : BitVec 6) | srli (gd ga : Reg) (n : BitVec 6) | srai (gd ga : Reg) (n : BitVec 6)
  | slti (gd ga : Reg) (imm : BitVec 32) | sltui (gd ga : Reg) (imm : BitVec 32) | lih (gd ga : Reg) (imm : BitVec 32)
  -- BR group (R154)
  | beq (ga gb : Reg) (off : BitVec 32) | bne (ga gb : Reg) (off : BitVec 32) | blt (ga gb : Reg) (off : BitVec 32)
  | bge (ga gb : Reg) (off : BitVec 32) | bltu (ga gb : Reg) (off : BitVec 32) | bgeu (ga gb : Reg) (off : BitVec 32)
  | jal (gd : Reg) (off : BitVec 32) | jalr (gd ga : Reg) (imm : BitVec 32)
  -- MEM group (R155)
  | ld (sz : Sz) (acq : Bool) (gd ga : Reg) (d : BitVec 32)
  | lds (sz : Sz) (gd ga : Reg) (d : BitVec 32)
  | st (sz : Sz) (rel : Bool) (ga gb : Reg) (d : BitVec 32)
  | storeBufferDrain (core : Nat)
  -- Atomics and FENCE (R157, R158)
  | amo (f : AmoFn) (sz : ASz) (acq rel : Bool) (gd ga gb : Reg)
  | cas (sz : ASz) (acq rel : Bool) (gd ga gb gc : Reg)
  | amof (f : AmofFn) (acq rel : Bool) (gd ga gb : Reg)
  | fence (scope : Scope)
  -- Copies and barriers (R267)
  | cpy (ga : Reg) | cpyt (ga : Reg) | tbinit (ga gb : Reg) | tbarv (n : Bool) (ga gb : Reg)
  | tbwait (gd ga gb : Reg) | tbtest (gd ga : Reg) | stash (ga : Reg) (w : BitVec 3) | unstash (w : BitVec 3)
  -- Launching (R110)
  | lnch (gd ga : Reg) | lnchNear (gd ga gb : Reg) | lwait (gd ga : Reg) | lwaitTest (gd ga : Reg)
  | spawn (gd ga gb : Reg) (n : BitVec 3) | yield | prio (gd ga : Reg) | cfgld (ga : Reg) (s : BitVec 2)
  | cfgsel (gd ga : Reg) (s : BitVec 2) | cfgselId (gd ga : Reg)
  | go (ga : Reg) (k : Option Ctr) | goWait (ga : Reg) (k : Option Ctr)
  | stopg (ga : Reg) | stopgAbort (ga : Reg) | sbar (k : Option Ctr) | sbarEnd (k : Option Ctr)
  -- Tables, streams and codebooks (R216, R239)
  | haclr | drain (ord chg clr : Bool) (gd ga : Reg) (lvl : BitVec 3) (marken : Bool) (k : Ctr) (ken : Bool)
  | hsclr | rngset (conly : Bool) (ga gb : Reg) (z : BitVec 6) | rngget (key : Bool) (gd : Reg) (z : BitVec 6)
  | tblld (ga : Reg) (cb : BitVec 1)
  -- Triggered operations (R305)
  | npost (at_ : Option Byte) (gd ga : Reg) | ncancel (gd ga : Reg) | tadd (ga : Reg) (c : CtrRef)
  | trd (gd : Reg) (c : CtrRef) | twait (ga : Reg) (c : CtrRef)
  -- Recursion (R332)
  | rfire (gd ga : Reg) | fix (end_ : Bool) (gd ga : Reg) | qvote (gd ga : Reg) | retr (gd ga gb : Reg)
  | gwalk (gd ga gb : Reg) (round : BitVec 16) (lvl : BitVec 3) (marken : Bool)
  -- System (R159, R357)
  | trap (ga : Reg) (cause : Byte) | eret | sysrd (gd : Reg) (n : BitVec 12) | syswr (ga : Reg) (n : BitVec 12)
  | wfe (gd : Reg) (t : BitVec 32) | brk (tag : BitVec 32)
  | ctxsave (commit : Bool) (gd ga : Reg) | ctxload (gd ga : Reg) | frsp (all : Bool) (ga gb : Reg)
  -- Speculation, steps, event counters (R376)
  | spmark (gd ga : Reg) (ring : BitVec 2) | spacc (gd ga : Reg) (ring : BitVec 2)
  | stepcmt (gd ga : Reg) | stepabt (ga : Reg) | lsupd (gd ga gb : Reg)
  | evsel (ga : Reg) (imm : BitVec 32) | evrd (gd : Reg) (imm : BitVec 32)
  -- Pilot events
  | takeTrap (core : Nat)
  -- Element and fabric events
  | wave (core e : Nat) | markStep (core e : Nat)
  | exitQueueEmit (core node ch : Nat) | routeArrival (core route : Nat)
  | stall (core node ch : Nat) | detachCut (core route : Nat)
  | borderCrossing (core route : Nat) | straitMeterTick (isle : Nat)
  | agIteration (core slot : Nat) | agWriteStreamToken (core slot : Nat) | ringSlotRead (core slot : Nat)
  | mpRequest (core slot ch : Nat) | tableWalk (core slot ch : Nat)
  | copySegmentLand (core entry seg : Nat) | barrierUpdate (core : Nat) | stashLineFill (core window line : Nat)
  | exSlotHandoff (core : Nat) | atollLanding (core : Nat) | graphEnd (isle slot : Nat)
  | haAbsorb (core : Nat) | spillfault (core : Nat) | spillLanding (core : Nat) | haProbe (core : Nat)
  | haOverdel (core : Nat) | haTileTransfer (core : Nat) | hsToken (core : Nat) | mjStep (core slot : Nat)
  | rdFold (core slot : Nat) | rdSegmentClose (core slot : Nat)
  | mtFillToken (core ch : Nat) | codebook (core ch : Nat) | mtScratchpadFill (core t : Nat)
  | mtFire (core : Nat) | mtFireEnd (core : Nat) | mtClose (core ch : Nat) | mtDrain (core : Nat) | param (core : Nat)
  | skOffer (core : Nat) | skEmit (core : Nat) | sgDraw (core : Nat) | split (core slot : Nat) | join (core slot : Nat)
  | steerGroup (core slot : Nat) | merge (core slot : Nat) | loop (core slot : Nat)
  -- Synchronisation events
  | counterIncrement (core : Nat) | postedFire (core e : Nat) | postedComplete (core e : Nat)
  | postedFailure (core e : Nat)
  | wave1Start (core : Nat) | wave1Report (core : Nat) | wave2Start (core : Nat) | wave2Report (core : Nat)
  | waveRestart (core : Nat)
  | fabricReport (core : Nat)
  -- Memory-system events
  | baseDiePacket (op : PacketOp) (pa : Nat) (granules : PacketSpan) | baseDieReply (slice stack tag : Nat)
  | dieMessage (dst src : Nat) | causewayMessage (port : PortArrival) | ptsTick (agent : CacheAgent)
  | eventCounterOverflow (unit inst idx : Nat)
  -- Hub events
  | launchWrite (off : Nat) (bytes : List (List Byte)) | dependenceWatch (i : Nat) | dispatch | launchEnd (isle : Nat)
  | isleRelease (isle : Nat) | preempt | drainQuiet (isle : Nat) | drainLimit (isle : Nat) | owedDone (isle : Nat)
  | blockSwitch (isle : Nat)
  -- Loader events
  | hdrFrame (isle : Nat) | eiFrame (isle : Nat) | epFrame (isle : Nat) | xsFrame (isle : Nat) | opFrame (isle : Nat)
  | agFrame (isle : Nat) | muFrame (isle : Nat) | ldFrame (isle : Nat) | endFrame (isle : Nat)
  -- Host and service events
  | wbAccess (off : Nat) (a : HostAccess) | cxlMemAccess (addr : Nat) (a : HostAccess) | wbctx (v : Word)
  | hrdoor (n : Nat) (v : Word) | registerWrite (r : HostReg) (v : Word)
  | mappedCounterStore (addr : Nat) (v : Word) | mappedCounterLoad (addr : Nat)
  | frhead (v : Word) | frspdoor (ctx core : Word) (all : Bool) | tinv (v : Word) | ctxend (v : Word) | chipid (v : Word)
  -- Trust
  | getVersion | getCapabilities | negotiateAlgorithms | getDigests | getCertificate | challenge | getMeasurements
  | keyExchange | finish | endSession
  | keySlotWrite (slot : Nat) (key : BitVec 512) | recoveryLoad (a b : List Byte)
  -- Power and readiness
  | packageReset | readySet (bit : Nat) | readyClear (bit : Nat) | powerSample (watts celsius : Nat) | thermalTrip
  | parityResend (core route : Nat)
  -- nydb (R390)
  | load (addr : Nat) (bytes : List Byte) | launch (addr : Nat) | run | continue
  | breakLabel (launch : Nat) (addr : Word) | breakWave (core e n : Nat) | breakMark (core node ch level : Nat)
  | breakCounter (core k : Nat) (v : Word) | breakFault (core node : Nat) | pilotBreakpointHit (core : Nat)
  | step (core n : Nat) | waveCommand (core e n : Nat) | print (items : List PrintItem) | mem (addr n : Nat)
  | chan (core node ch n : Nat) | ha (core : Nat) | trig (core : Nat) | cocoon (addr : Nat)
  -- Remaining pilot, save and translation events
  | instructionFetch (core : Nat) | wfeTimeout (core : Nat) | quiesceBound (isle : Nat) | tinvComplete
  deriving DecidableEq, Repr

end Sys2Proof
end

