-- ==== Sys2Proof/Machine/State.lean ====
section
/-! DEFINITION. The state of one Melique 440 package as plain data: everything INVENTORY.md lists under "## State",
`State.reset`, and the reasons a step can stop. Cores, isles and every other numbered unit are held in sparse maps; an
absent entry is the unit's reset value. -/

namespace Sys2Proof.Machine

/-- Why the machine stops: it has no constructor, for every fault of spec/ is a trap, a report, a record or a vector after
which the machine goes on. Safe. -/
inductive Fault
  deriving DecidableEq, Repr

/-- Why an instruction is refused. -/
inductive Refusal
  /-- Raised only by an arm of exec that has no meaning yet. Safe. -/
  | notModelled (mnemonic : String)
  deriving DecidableEq, Repr

/-! ### Tokens, requests and reports -/

/-- The kinds of a token (R164). -/
inductive Kind | data | scale | mark | ctrl
  deriving DecidableEq, Repr

/-- A memory request that an address generator makes (R245, R249). -/
structure Req where
  tid : Nat := 0
  coord : List Int := []
  write : Bool := false
  commut : Bool := false
  /-- The far chip of a gather whose index names one (R246). -/
  chip : Option Nat := none
  /-- The slot of the issuing generator and its place in the requests since GO (R347). -/
  slot : Nat := 0
  index : Nat := 0
  /-- An index token that lacked lane 0 or 1: the reply is an empty word (R246). -/
  empty : Bool := false
  deriving DecidableEq, Repr

/-- A fabric report with the fields of its record (R342). -/
structure Report where
  code : Nat
  val : Word
  source : Nat := 0
  slot : Nat := 0
  ch : Nat := 0
  commut : Bool := false
  elem : Bool := false
  tid : Nat := 0
  coord : List Int := []
  /-- The page, bank and write bit of the service record (R345). -/
  page : Nat := 0
  bank : Bool := false
  write : Bool := false
  /-- Its record met a fault and waits for a wake-up (R342). -/
  parked : Bool := false
  deriving DecidableEq, Repr

/-- A token (R164); `req` is set on the tokens by which a generator asks a memory port. -/
structure Tok where
  data : Quad := 0
  kind : Kind := .data
  level : Nat := 0
  poison : Bool := false
  retract : Bool := false
  abort : Bool := false
  lmask : BitVec 4 := 0
  req : Option Req := none
  /-- The WTS of the line that a memory port read for it (R285). -/
  wts : Word := 0
  /-- The clk at which it left an output for another isle (R134). -/
  left : Nat := 0
  /-- On a poisoned read reply: the core of the port, and the report it would make if the data were metadata (R347). -/
  lost : Option (Nat × Report) := none
  deriving DecidableEq, Repr

/-- A service record the hub writes (R345). -/
structure SvcRecord where
  code : Nat
  source : Nat
  ctx : Nat
  core : Nat
  tag : Nat
  value : Word
  tid : Nat := 0
  bank : Bool := false
  write : Bool := false
  page : Nat := 0
  deriving DecidableEq, Repr

/-! ### Pilot -/

/-- A store waiting in the store buffer (R144). `scratch` marks the core's own scratchpad window, else `addr` is a
physical address; `sent` marks a head whose message is on its way to another die (R280). -/
structure BufStore where
  scratch : Bool
  addr : Nat
  va : Nat
  bytes : List Byte
  rel : Bool
  cache : Nat := 0
  key : Nat := 0
  home : Nat := 0
  sent : Bool := false
  deriving DecidableEq, Repr

/-- A cached copy of a 64-byte line with its lease end and the WTS it was read at (R278). -/
structure LineCopy where
  data : List Byte
  lease : Word
  wts : Word := 0
  /-- Bit g is set when its granule g was marked poisoned as it was read (R155, R348). -/
  bad : Nat := 0
  deriving DecidableEq, Repr

/-- A flag source of a step (R364). -/
structure StepSrc where
  core : Nat
  nfk : Nat
  segk : Nat
  nfen : Bool
  thr : Nat
  base : Nat
  deriving DecidableEq, Repr

/-- Where a multi-step instruction stands: GO.WAIT, STOPG and SBAR after their effect (WAITONLY, R352) and when what they
wait for has come; CFGLD while its load runs; DRAIN while its tokens leave (R218); DRAIN, HACLR and HSCLR while they wait for a
spill (R217, R219); RETR and GWALK at record j with n emitted
(R336, R337); RFIRE, FIX and QVOTE inside a vote (R333 to R335); CTXLOAD while the isle is restored (R359). -/
inductive Stage
  | none
  | goWait (slot : Nat)
  | stopWait (slot : Nat)
  | sbarWait
  | waitDone
  | cfgldWait
  | drain
  | drainWait
  | walk (j n : Nat)
  | vote
  | restore
  /-- STEPCMT or STEPABT waits for its sources: STEP, CK and CKEN of its record, the sources, the tensors (R365). -/
  | step (n ck : Nat) (cken : Bool) (srcs : List StepSrc) (tids : List Nat)
  deriving DecidableEq, Repr

/-- The stage that a pilot goes on with after a trap or a save; a wait of STEPCMT or STEPABT runs its instruction again
(R151, R365). -/
def Stage.kept : Stage → Stage
  | .step _ _ _ _ _ => .none
  | st => st

/-- The pilot of a core (R143 to R160). -/
structure Pilot where
  regs : Vector Word 32 := Vector.replicate 32 0
  pc : Word := 0
  trapCause : Word := 0
  trapPc : Word := 0
  trapVal : Word := 0
  trapVec : Word := 0
  inTrap : Bool := false
  /-- Started by a dispatch and not yet stopped by SBAR.END, the end of the launch or a save. -/
  running : Bool := false
  /-- Halted under R151. -/
  halted : Bool := false
  /-- Held by nydb at a breakpoint or by BRK (R160, R274), and the address it resumes without stopping at (R378). -/
  held : Bool := false
  passBreak : Option Word := none
  /-- Words that nydb's `step` still lets a stopped pilot run (R390). -/
  steps : Nat := 0
  /-- It has begun the word at its program counter, which has not completed: it waits (R374). -/
  inWord : Bool := false
  eventLatch : Bool := false
  /-- The clk at which a WFE in progress times out (R160). -/
  wfeUntil : Option Nat := none
  /-- The result register of that WFE. -/
  wfeGd : Nat := 0
  stage : Stage := .none
  /-- WAITONLY of the wait in which the last fabric report was taken; ERET restores it (R352). -/
  savedStage : Stage := .none
  /-- Rounds that a FIX in progress has run (R335). -/
  fixRounds : Nat := 0
  storeBuf : List BufStore := []
  dcache : Map LineCopy := []
  /-- Lines of instructions, by chip and line (notes/assumptions/75.md). -/
  icache : Map LineCopy := []
  /-- The last accepted launches, newest first, at most 8 (R111). -/
  launches : List Nat := []
  /-- Reports raised and not yet queued, the queue of at most 16, and the counts since dispatch (R342). -/
  raised : List Report := []
  reports : List Report := []
  reportSeq : Nat := 0
  reportsTaken : Nat := 0
  deriving DecidableEq, Repr

/-! ### Configuration of a slot -/

/-- One XS route entry (R76); nodes as in Instr. -/
structure Route where
  src : Nat
  sch : Nat
  dx : Int
  dy : Int
  dst : Nat
  dch : Nat
  detach : Bool
  deriving DecidableEq, Repr

/-- The configuration of an element (R74, R75). -/
structure ElemCfg where
  stages : List Nat := []
  ext : List Nat := [0, 0, 0, 0]
  marken : Nat := 0
  mlvl : List Nat := [0, 0, 0, 0]
  markout : Nat := 0
  markin : Nat := 0
  imms : List Nat := [0, 0, 0, 0, 0, 0]
  deriving DecidableEq, Repr

/-- One address-generator level (R78). -/
structure AgCfg where
  extent : Nat
  stride : Int
  base : Int
  tid : Nat
  dim : Nat
  mode : Nat
  next : Nat
  chain : Bool
  mlvl : Nat
  marken : Bool
  token : Bool
  commut : Bool
  atoll : Nat
  deriving DecidableEq, Repr

/-- A local-memory region (R79): role 1 DELAY, 2 TABLE, 3 SCRATCH. -/
structure Region where
  start : Nat
  rows : Nat
  role : Nat
  tid : Nat
  deriving DecidableEq, Repr

/-- An atoll (R79). -/
structure AtollCfg where
  base : Nat
  slots : Nat
  slotw : Nat
  headk : Nat
  tailk : Nat
  deriving DecidableEq, Repr

/-- A stash window's place (R79, R271). -/
structure StashCfg where
  spbase : Nat
  len : Nat
  tid : Nat
  toff : Nat
  deriving DecidableEq, Repr

/-- What one resident slot holds for one core (R73 to R80). -/
structure CoreCfg where
  elems : Map ElemCfg := []
  routes : List Route := []
  /-- Operator parameter words: slot, then word index (R77). -/
  ops : Map (Map Nat) := []
  ags : Map AgCfg := []
  regions : Map (Map Region) := []
  atolls : Map AtollCfg := []
  stashes : Map StashCfg := []
  ilv : Nat := 0
  preload : Map (Map Quad) := []
  deriving DecidableEq, Repr

/-! ### Node state -/

/-- An element (R161, R170 to R173, R188, R190). -/
structure Elem where
  c : List Nat := [0, 0, 0, 0]
  rows : Map Quad := []
  /-- Lanes of each row that a poisoned write set and no clean write has cleared (R190). -/
  rowPoison : Map (BitVec 4) := []
  dlyPos : Map Nat := []
  ended : Bool := false
  /-- The clk before which waves may still enter behind a MARK of level 7 made in a stage, 0 for none (R171). -/
  tail : Nat := 0
  /-- Waves that have entered since GO (R312, R390). -/
  waves : Nat := 0
  /-- Waves that nydb's `wave` still lets enter while the fabric is frozen (R390). -/
  allow : Nat := 0
  flags : FpFlags := 0
  deriving DecidableEq, Repr

/-- An address-generator level in operation (R242 to R247). -/
structure Ag where
  n : Nat := 0
  /-- Stopped by AgOvf or by a poisoned index (R243, R347). -/
  stopped : Bool := false
  /-- Stopped by a poisoned index: its channel's level-7 MARK has left (R254). -/
  lost : Bool := false
  /-- The chain has emitted its level-7 MARK. -/
  closed : Bool := false
  /-- Tokens up to the level-7 MARK that i0 and i1 must still discard (R246, R377). -/
  owe0 : Bool := false
  owe1 : Bool := false
  ended : Bool := false
  /-- Requests the chain has issued since GO, and the coordinate of the last (R347). -/
  issued : Nat := 0
  last : List Int := []
  /-- The next position of a RING slot being emitted (R247). -/
  ringPos : Nat := 0
  deriving DecidableEq, Repr

/-- A leaf page-table entry (R251) and where it lies. -/
structure Pte where
  addr : Nat := 0
  ppn : Nat := 0
  v : Bool := false
  r : Bool := false
  w : Bool := false
  x : Bool := false
  cache : Nat := 0
  key : Nat := 0
  accthr : Nat := 0
  owner : Nat := 0
  home : Nat := 0
  cfgid : Nat := 0
  deriving DecidableEq, Repr

/-- A translation-cache entry with its access count (R253, R256). -/
structure TcEntry where
  ptb : Nat
  page : Nat
  tid : Nat
  pte : Pte
  count : Nat
  counting : Bool
  deriving DecidableEq, Repr

/-- A request that a memory port holds after a fault: the token that carries it with its write data, and the cause and page
it met (R350). -/
structure MpReq where
  tok : Tok
  cause : Nat
  page : Nat
  deriving DecidableEq, Repr

/-- One channel of a memory port (R254, R255, R361). -/
structure MpChan where
  /-- The faulted request of an ordered stream (R254). -/
  stalled : Option MpReq := none
  /-- Diverted requests in diversion order (R255). -/
  diverted : List MpReq := []
  /-- A request that found no room to divert (R255). -/
  heldFull : Option MpReq := none
  /-- Replays owed since the last wake-up. -/
  replay : Nat := 0
  /-- The channel has been ended by a fault or an abort: later requests are consumed untranslated (R254, R361). -/
  dead : Bool := false
  /-- Its level-7 MARK has been consumed. -/
  ended : Bool := false
  /-- A POISON report has been made since GO (R348). -/
  poisonReported : Bool := false
  /-- The cause with which the walk of the next request failed (R253). -/
  walked : Option Nat := none
  /-- The level-7 MARK with ABORT that ends it waits for requests diverted before the fault (R254, R255). -/
  abortDue : Bool := false
  deriving DecidableEq, Repr

/-- A memory port (R248 to R256). -/
structure Mp where
  chans : Map MpChan := []
  tcache : List TcEntry := []
  deriving DecidableEq, Repr

/-- The merge join (R194 to R196). -/
structure Mj where
  buf : List Tok := []
  bufKey : Word := 0
  bufValid : Bool := false
  bufPoison : Bool := false
  /-- The run of bufKey is being taken from i1, and the next buffered token to pair with the head of i0. -/
  filling : Bool := false
  pos : Nat := 0
  lastA : Option Word := none
  lastB : Option Word := none
  disorder : Bool := false
  ended : Bool := false
  flags : FpFlags := 0
  deriving DecidableEq, Repr

/-- The table geometry of the HA or HS (R199, R210). -/
structure Geom where
  form : Nat := 0
  alg : Nat := 0
  s : Nat := 0
  anchor : Int := 0
  spbase : Nat := 0
  spsize : Nat := 0
  deriving DecidableEq, Repr

/-- A slot or run entry of the HA (R200): SCALAR uses weight and wit, EXACT x, TILE tile with count and risk in x. -/
structure HaSlot where
  key : Word := 0
  weight : Word := 0
  wit : Word := 0
  round : BitVec 16 := 0
  del : Bool := false
  changed : Bool := false
  poison : Bool := false
  x : X160 := {}
  tile : Map X160 := []
  deriving DecidableEq, Repr

/-- A sorted run in the spill region (R208). -/
structure Run (α : Type) where
  addr : Nat
  bytes : Nat
  entries : List α
  deriving DecidableEq, Repr

/-- The table of the HA or HS (R199, R200, R208 to R210): resident entries by slot, an absent slot having VALID 0. -/
structure Table (α : Type) where
  geom : Option Geom := none
  slots : Map α := []
  /-- Runs that have landed, in the order written. -/
  runs : List (Run α) := []
  /-- The run being written, and whether it merges the runs before it (R208). -/
  pending : Option (Run α × Bool) := none
  /-- Flags of run entries that are still to be written in the region: address and bytes (R202, R218). -/
  owed : List (Nat × List Byte) := []
  /-- A run or merge that waits for room or a page (R209): the cause and address met, and whether a wake-up has come. -/
  blocked : Option (Nat × Nat) := none
  retry : Bool := false
  deriving DecidableEq, Repr

/-- A tile arriving on i0 (R201). -/
structure OpenTile where
  key : Word
  toks : List Tok
  retract : Bool
  poison : Bool
  deriving DecidableEq, Repr

/-- The hash accumulator (R197 to R209, R324). -/
structure Ha where
  tab : Table HaSlot := {}
  round : BitVec 16 := 0
  hold : Bool := false
  /-- Another participant has begun a round that this one has still to begin: no token enters before its drain (R325). -/
  await : Bool := false
  openTile : Option OpenTile := none
  /-- The parameter words of the last graph selected that configures the HA (R199). -/
  words : Map Nat := []
  /-- Tokens that wait to enter an exit queue, with their channels, oldest first. -/
  outq : List (Nat × Tok) := []
  /-- Absorption is paused by a DRAIN or GWALK, with the number of its entries (R218, R337). -/
  paused : Option Nat := none
  /-- A level-7 MARK has been consumed on i0, and one has left on o0 since GO. -/
  ended : Bool := false
  closed : Bool := false
  /-- The matrix engine's end, which counts as an ended input (R227). -/
  mtEnded : Bool := false
  flags : FpFlags := 0
  deriving DecidableEq, Repr

/-- A slot of the hash set (R210). -/
structure HsSlot where
  key : Word := 0
  count : Nat := 0
  del : Bool := false
  poison : Bool := false
  deriving DecidableEq, Repr

/-- The hash set (R210, R211). -/
structure Hs where
  tab : Table HsSlot := {}
  ended : Bool := false
  flags : FpFlags := 0
  deriving DecidableEq, Repr

/-- A tile register (R220, R223). -/
structure TReg where
  full : Bool := false
  data : Memory := []
  pos : Nat := 0
  scales : Map Nat := []
  nscales : Nat := 0
  cursor : Nat := 0
  poison : Bool := false
  cb : List Nat := []
  /-- The scratchpad sequence counter t and tiles filled since GO (R225). -/
  seq : Nat := 0
  filled : Nat := 0
  /-- The clk from which an operation may use the register as it stands (R226). -/
  ready : Nat := 0
  deriving DecidableEq, Repr

/-- The tag of an accumulator (R220). -/
inductive ATag | empty | acc | full
  deriving DecidableEq, Repr

/-- An accumulator register (R220). -/
structure AReg where
  tag : ATag := .empty
  x : Map X160 := []
  count : Nat := 0
  risk : Bool := false
  poison : Bool := false
  key : Word := 0
  /-- The anchor of the values of a FULL accumulator. -/
  anchor : Int := 0
  deriving DecidableEq, Repr

/-- What the MT has still to send, in order (R227): a closing MARK, token n of the drain of an accumulator closed under a
key, or the transfer of one to the HA. -/
inductive MtJob
  | mark (t : Tok)
  | drain (a : Nat) (key : Word) (n : Nat)
  | give (a : Nat) (key : Word)
  deriving DecidableEq, Repr

/-- The operation that occupies the array: its number, destination and k, and the clk at which it ends (R226). -/
structure MtFiring where
  op : Nat
  dst : Nat
  k : Nat
  until_ : Nat
  deriving DecidableEq, Repr

/-- A codebook arriving on a channel (R224): the register it names, the entries so far, and whether one is poisoned. -/
structure CbFill where
  reg : Nat
  entries : List Nat := []
  poison : Bool := false
  lost : Option (Nat × Report) := none
  deriving DecidableEq, Repr

/-- The matrix tile engine (R220 to R231). -/
structure Mt where
  t : Map TReg := []
  a : Map AReg := []
  cb : Map (List Nat) := []
  ping : Bool := false
  /-- Parameter words rewritten through the parameter port (R229). -/
  words : Map Nat := []
  /-- The anchor of each accumulator as settled at CFGSEL (R228). -/
  anchors : Map Int := []
  /-- The core's counters at GO, by number (R225). -/
  gate0 : Map Word := []
  /-- The codebook arriving on each channel. -/
  cbFill : Map CbFill := []
  firing : Option MtFiring := none
  jobs : List MtJob := []
  endedCh : List Nat := []
  ended : Bool := false
  flags : FpFlags := 0
  deriving DecidableEq, Repr

/-- The reducer (R213, R215). -/
structure Rd where
  acc : Map Nat := []
  exact : Map X160 := []
  got : BitVec 4 := 0
  any : Bool := false
  poison : Bool := false
  nonfin : Nat := 0
  bins : Map Nat := []
  amax : Nat := 0
  statNonfin : Nat := 0
  nseg : Nat := 0
  ended : Bool := false
  flags : FpFlags := 0
  deriving DecidableEq, Repr

/-- The select operator (R233). -/
structure Sk where
  kept : List (Nat × Nat) := []
  tokens : Nat := 0
  poison : Bool := false
  ended : Bool := false
  deriving DecidableEq, Repr

/-- A random stream (R52). -/
structure Stream where
  k : Word := 0
  c : Word := 0
  deriving DecidableEq, Repr

/-- The sampler (R234 to R236). -/
structure Sg where
  z : Map Stream := []
  weights : List Nat := []
  poison : Bool := false
  dropped : Bool := false
  ended : Bool := false
  flags : FpFlags := 0
  deriving DecidableEq, Repr

/-- The width converter (R237). -/
structure Wc where
  part : List Tok := []
  ended : Bool := false
  deriving DecidableEq, Repr

/-- The steer-merge operator (R138 to R140). -/
structure Sm where
  /-- LOOP: in BODY, with COUNT and CARRY. -/
  body : Bool := false
  count : Nat := 0
  carry : Option Tok := none
  /-- STEER and MERGE: the output or input of the open group, and whether it is poisoned; STEER: the output selected last. -/
  cur : Option Nat := none
  sel : Option Nat := none
  curPoison : Bool := false
  lastServed : Nat := 3
  retired : Nat := 0
  abort : Bool := false
  ended : Bool := false
  deriving DecidableEq, Repr

/-- The edge exit (R141, R142). -/
structure Ex where
  packing : List Tok := []
  /-- Complete slots not yet handed over, slots handed over and not landed, and how many have been handed over. -/
  ready : List (List Tok) := []
  n : Nat := 0
  k0 : Word := 0
  ended : Bool := false
  deriving DecidableEq, Repr

/-- A slot on its way to an atoll (R142). -/
structure ExSlot where
  srcCore : Nat
  chip : Nat
  core : Nat
  atoll : Nat
  pos : Nat
  slots : Nat
  slotw : Nat
  toks : List Tok
  /-- The sending context, by which a core is found to be held. -/
  ctx : Nat := 0
  deriving DecidableEq, Repr

/-! ### Engines of a core -/

/-- A posted-operation record (R297). -/
structure PostRec where
  trigk : Nat := 0
  action : Nat := 0
  donek : Nat := 0
  doneken : Bool := false
  periodic : Bool := false
  template : Bool := false
  thresh : Nat := 0
  period : Nat := 0
  laddr : Nat := 0
  raddr : Nat := 0
  len : Nat := 0
  chip : Nat := 0
  core : Nat := 0
  rk : Nat := 0
  rken : Bool := false
  slots : List Nat := []
  rinc : Word := 0
  deriving DecidableEq, Repr

/-- The state of a posted entry (R298, R353). -/
inductive PState
  | armed
  /-- The counter reached the threshold on this clk: it may start. -/
  | ready (clk : Nat)
  /-- Fired; the number orders the firings of the core (R299). -/
  | inProgress (seq : Nat)
  /-- Waiting for a wake-up after a fault (R300). -/
  | parked (seq : Nat)
  deriving DecidableEq, Repr

/-- A posted-operation entry (R297, R307). -/
structure Posted where
  post : PostRec
  raw : List Byte
  thresh : Nat
  state : PState := .armed
  fired : Bool := false
  cancelled : Bool := false
  /-- TEMPLATE entries that a CHAIN in progress has performed. -/
  chainPos : Nat := 0
  lastCause : Nat := 0
  lastPage : Nat := 0
  /-- Its bytes have moved, and those bound for other chips are to be performed there; whether RK is to be raised after. -/
  moved : Option Bool := none
  deriving DecidableEq, Repr

/-- A tensor record (R25) as a reader keeps it (R28). -/
structure TensorRec where
  tid : Nat := 0
  rank : Nat := 1
  fmt : Nat := 0
  oob : Nat := 2
  bank : Bool := false
  twobank : Bool := false
  page2m : Bool := false
  /-- Elements of a scale block, 0 for none. -/
  blk : Nat := 0
  emax : Int := 0
  ptb0 : Nat := 0
  ptb1 : Nat := 0
  tile : List Nat := [15]
  scaletid : Nat := 0
  cbaddr : Nat := 0
  ext : List Nat := [0xFFFFFFFFFF]
  deriving DecidableEq, Repr

/-- One level of a copy record (R257). -/
structure CopyLevel where
  extent : Nat
  sdim : Nat
  ddim : Nat
  sstride : Int
  dstride : Int
  deriving DecidableEq, Repr

/-- A copy record (R257). -/
structure CopyRec where
  skind : Nat := 0
  dkind : Nat := 0
  oob : Nat := 0
  efmt : Nat := 0
  ck : Nat := 0
  cken : Bool := false
  hctl : Nat := 0
  hcen : Bool := false
  tbar : Nat := 0
  saddr : Nat := 0
  daddr : Nat := 0
  scoord : List Int := []
  dcoord : List Int := []
  levels : List CopyLevel := []
  transpose : Bool := false
  deriving DecidableEq, Repr

/-- A copy segment's progress (R259). -/
inductive SegState | pending | parked | done
  /-- Its bytes are on their way to another chip; whether they carry poison (R252). -/
  | sent (bad : Bool)
  deriving DecidableEq, Repr

/-- A segment: the iterations it moves, in order, and the destination sectors it writes (R259, R261). -/
structure Seg where
  iters : List Nat
  sectors : List Nat
  state : SegState := .pending
  lastCause : Nat := 0
  lastPage : Nat := 0
  /-- An element read so far carried poison. -/
  bad : Bool := false
  deriving DecidableEq, Repr

/-- A scoreboard entry with the copy that holds it (R262): byte intervals as (space, first, last), space 0 tensor 0,
1 scratchpad, 2 local memory; the width of an element; the tensor records read at issue; and its place in issue order. -/
structure CopyJob where
  copy : CopyRec
  width : Nat := 8
  stensor : TensorRec := {}
  dtensor : TensorRec := {}
  segs : List Seg
  src : Option (Nat × Nat × Nat)
  dst : Option (Nat × Nat × Nat)
  order : Nat := 0
  /-- An ATOLL destination at issue: where its data ring lies, its bytes, and the offset of its tail. -/
  ring : Nat × Nat × Nat := (0, 1, 0)
  /-- An ATOLL destination: the bytes of a slot, the elements read for slots that have not landed, and the slots that have
  landed or been given up. -/
  slotB : Nat := 16
  held : List (Nat × Nat × Bool) := []
  slotsDone : List Nat := []
  /-- The scoreboard holds no entry for a TABLE refill (R172): the element it fills, if it is one. -/
  refill : Option Nat := none
  deriving DecidableEq, Repr

/-- An update owed to a transaction barrier (R261). -/
structure BarUpdate where
  addr : Nat
  arrivals : Nat
  sectors : Nat
  poison : Bool
  deriving DecidableEq, Repr

/-- A line of a stash window (R263): its lease end and the bytes written since it was clean. -/
structure StashLine where
  lease : Word
  dirty : List Nat := []
  deriving DecidableEq, Repr

/-- A live stash window (R263); `mu` is the slot whose MU frame defined it. -/
structure Stash where
  cfg : StashCfg
  tensor : TensorRec := {}
  mu : Option Nat := none
  lines : Map StashLine := []
  /-- Lines that a fabric unit touched and that have not filled, oldest first. -/
  wanted : List Nat := []
  /-- By line: the cause and page of a failed fill, and whether it waits for a wake-up (R263, R350). -/
  parked : Map (Nat × Nat × Bool) := []
  deriving DecidableEq, Repr

/-- The state table of the quiescence wave (R303). -/
inductive WState | idle | w1 | w1done | w2
  deriving DecidableEq, Repr

/-- A participant's part in a vote (R302, R303, R322, R333). -/
structure Quiesce where
  counting : Bool := false
  qs : Nat := 0
  qa : Nat := 0
  act : Bool := false
  wstate : WState := .idle
  /-- Armed by a QVOTE: the participants as chip and global core, and this core's place (R333). -/
  armed : Bool := false
  /-- The vote is part of RFIRE or FIX (R324). -/
  fire : Bool := false
  plist : List (Nat × Nat) := []
  place : Nat := 0
  rid : Nat := 0
  capacity : Nat := 0
  maxRounds : Nat := 0
  /-- Starts received and not yet acted on. -/
  start1 : Bool := false
  start2 : Bool := false
  /-- Children's reports received in the current wave: count, sums and flags (R303, R333). -/
  kids : Nat := 0
  sumS : Nat := 0
  sumA : Nat := 0
  flag : Bool := false
  sumNC : Nat := 0
  sumLive : Nat := 0
  cap : Bool := false
  /-- At the root: totals of wave 1, and the clk after which a new wave 1 starts. -/
  w1S : Nat := 0
  restartAt : Option Nat := none
  /-- At the root: the fault of its write of EXTENT has been reported, and waits for a wake-up (R333, R350). -/
  told : Bool := false
  /-- The decision, when it has reached this core: NC and CAP (R333). -/
  decision : Option (Nat × Bool) := none
  deriving DecidableEq, Repr

/-- A snapshot of a speculation ring (R370). -/
structure Snap where
  index : Nat
  extents : List Word
  cs : List Word
  regs : List Word
  deriving DecidableEq, Repr

/-- A speculation ring (R370); `regions` holds the pieces of its regions: chip, physical
address and bytes. -/
structure Ring where
  desc : Word := 0
  rids : List Nat := []
  zs : List Nat := []
  regNos : List Nat := []
  regions : List (Nat × Nat × Nat) := []
  seq : Nat := 0
  snaps : List Snap := []
  deriving DecidableEq, Repr

/-- An event counter: its selection, the core that wrote it, its 48-bit count, the wraps that have not yet raised OVK, and
the clk from which a count of clk goes on (R374). -/
structure EvCtr where
  code : Nat := 0
  ovk : Nat := 0
  ovken : Bool := false
  core : Nat := 0
  count : BitVec 48 := 0
  wrapped : Nat := 0
  since : Nat := 0
  deriving DecidableEq, Repr

/-- The watchdog's count for a producer output, or for a member of a detached multicast (R128, R129). -/
structure Watch where
  count : Nat := 0
  reported : Bool := false
  deriving DecidableEq, Repr

/-- One core (R16). -/
structure Core where
  pilot : Pilot := {}
  /-- The isle the core belongs to (64 × die + index). -/
  isle : Option Nat := none
  counters : Vector Word 64 := Vector.replicate 64 0
  /-- Increments carried by messages that have arrived and wait to be applied (R295). -/
  incoming : List (Nat × Word) := []
  scratch : Memory := []
  /-- 32-byte granules of the scratchpad that hold poisoned bytes (R155, R259). -/
  scratchPoison : Map Unit := []
  /-- The clk since which the queue of each atoll holds slots, as its landings saw it (R108). -/
  workSince : Map Nat := []
  posted : Map Posted := []
  fireSeq : Nat := 0
  /-- The clk of the last firing: the engine starts one per clk (R298). -/
  firedAt : Option Nat := none
  jobs : Map CopyJob := []
  barQueue : List BarUpdate := []
  stashes : Map Stash := []
  /-- The clocks of the pilot and of the fabric side but for the clk that pass (R278), and the latest WTS of a reply that the
  fabric side consumed (R285). -/
  pts : Word := 0
  fabricPts : Word := 0
  readWts : Word := 0
  slots : Map CoreCfg := []
  selected : Option Nat := none
  /-- The tensor records that the selected graph's units keep, by TID (R28). -/
  tensors : Map TensorRec := []
  chans : Map (List Tok) := []
  exits : Map (List Tok) := []
  /-- Tokens on the wire of each route, by the route's index in the selected slot (R125). -/
  wires : Map (List Tok) := []
  watch : Map Watch := []
  cutRoutes : List Nat := []
  /-- Abort MARKs that the switch holds for a cut or ended stream into an input of this core, by channel, until a slot
  frees (R129, R133). -/
  heldMarks : Map Tok := []
  /-- Strait routes of this core whose stream the strait has ended (R133). -/
  severed : List Nat := []
  /-- Routes whose oldest token has met one parity error (R349). -/
  parity : List Nat := []
  elems : Map Elem := []
  ags : Map Ag := []
  mps : Map Mp := []
  mjs : Map Mj := []
  haU : Ha := {}
  hsU : Hs := {}
  mt : Mt := {}
  rds : Map Rd := []
  sk : Sk := {}
  sg : Sg := {}
  wcs : Map Wc := []
  sms : Map Sm := []
  ex : Ex := {}
  quiesce : Quiesce := {}
  rings : Map Ring := []
  evctrs : Map EvCtr := []
  /-- The clk of the last token that moved on the core (R352). -/
  lastMove : Nat := 0
  /-- Tokens sent on each output since GO, for nydb's chan (R390), newest first. -/
  sent : Map (List Tok) := []
  /-- How many of them had been sent at the last hit that `continue` resumed (R390). -/
  seen : Map Nat := []
  deriving DecidableEq, Repr

/-! ### Isles -/

/-- The launch record (R23) with its bytes. -/
structure LaunchRec where
  raw : List Byte := []
  version : Nat := 1
  prio : Nat := 0
  ctx : Nat := 0
  cfgid : Nat := 0
  width : Nat := 1
  height : Nat := 1
  image : Nat := 0
  entry : Nat := 0
  params : Nat := 0
  dep0 : Nat := 0
  dep1 : Nat := 0
  thr0 : Nat := 0
  thr1 : Nat := 0
  doneDep : Nat := 0
  flags : Nat := 0
  tag : Nat := 0
  deriving DecidableEq, Repr

/-- How a graph is being stopped (R119). -/
inductive StopForm | drain | abort
  deriving DecidableEq, Repr

/-- A resident slot of an isle (R36 to R38, R117 to R119). -/
structure IsleSlot where
  cfgid : Nat := 0
  image : Nat := 0
  addrMask : Nat := 0
  rules : Bool := false
  /-- The global cores that the image configures. -/
  cores : List Nat := []
  selected : Bool := false
  running : Bool := false
  stop : Option StopForm := none
  /-- The counter raised at the graph's end: core and counter (R118). -/
  endK : Option (Nat × Nat) := none
  lastSelected : Nat := 0
  deriving DecidableEq, Repr

/-- A load in progress (R38, R135). -/
structure Loader where
  slot : Nat
  addr : Nat
  index : Nat := 0
  crc : Nat := 0xFFFFFFFF
  cfgid : Nat := 0
  nframes : Nat := 0
  wantCrc : Nat := 0
  addrMask : Nat := 0
  rules : Bool := false
  /-- Frames seen: kind, target core, unit and PART, PAGE or SUB (R73). -/
  seen : List (Nat × Nat × Nat × Nat) := []
  ldCount : Map Nat := []
  cfgs : Map CoreCfg := []
  /-- The pilot that waits for it, or none when the hub loads at dispatch. -/
  pilot : Option Nat := none
  deriving DecidableEq, Repr

/-- The life of an isle (R102, R352). -/
inductive Phase
  | free
  | loading
  | running
  | ending (status : Nat)
  | held
  | drain
  | owed
  | saved
  deriving DecidableEq, Repr

/-- A strait grant as read at dispatch, with its bucket (R131, R134). -/
structure Grant where
  src : Nat
  dst : Nat
  rate : Nat
  burst : Nat
  bucket : Nat
  /-- The last clk that the meter has counted, none since dispatch. -/
  at_ : Option Nat := none
  deriving DecidableEq, Repr

/-- A block of the block scheduler (R106, R108). -/
structure Block where
  p : Nat := 0
  t0 : Nat := 0
  deriving DecidableEq, Repr

/-- A message the hub holds for a drained or saved context (R300); the core by its place in the isle's row order. -/
structure HeldMsg where
  core : Nat
  k : Nat
  inc : Word
  /-- RK is raised, and the bytes that a PUT lands first, with their address. -/
  ken : Bool := true
  addr : Nat := 0
  bytes : List Byte := []
  poison : Bool := false
  /-- A message that asks for more than this, or for an answer. -/
  msg : Option ChipMsg := none
  deriving DecidableEq, Repr

/-- A restore in progress (R352, R355, R359): the cocoon by its number, the next slot whose image is to load, and what the
lead's CTXSAVE returns. -/
structure Resume where
  id : Nat
  next : Nat := 0
  status : Nat := 2
  deriving DecidableEq, Repr

/-- The launch that runs, or is saved, on an isle, and the isle's shared registers. -/
structure Isle where
  die : Nat := 0
  x0 : Nat := 0
  y0 : Nat := 0
  width : Nat := 1
  height : Nat := 1
  index : Nat := 0
  phase : Phase := .free
  lrec : LaunchRec := {}
  ctx : Nat := 0
  prio : Nat := 0
  ceil : Nat := 63
  seq : Nat := 0
  spillBase : Nat := 0
  srkey : Word := 0
  t0ptb : Nat := 0
  t0page2m : Bool := false
  holdUntil : Nat := 0
  slots : Map IsleSlot := []
  fpflags : Word := 0
  stallwd : Nat := 20
  ttbase : Word := 0
  ttlen : Word := 0
  rtbase : Word := 0
  rtlen : Word := 0
  rubase : Word := 0
  rulen : Word := 0
  blktab : Word := 0
  blklen : Nat := 0
  blocks : Map Block := []
  turn : Option (Nat × Word) := none
  yielding : Bool := false
  threads : BitVec 32 := 0
  /-- SBAR arrivals: core and the counter it named; the form of the lead (R120). -/
  arrivals : List (Nat × Option Nat) := []
  endForm : Bool := false
  loader : Option Loader := none
  /-- What the last load raised: the cause and its TRAPVAL (R38). -/
  loadFail : Option (Nat × Nat) := none
  /-- The current turn's graph has been started (R108). -/
  turnOn : Bool := false
  /-- A full save quiesces the isle since this clk (R354), and its bound has passed. -/
  quiesceAt : Option Nat := none
  rollback : Bool := false
  resume : Option Resume := none
  cocoonN : Nat := 0
  commit : Option Word := none
  reply : List Nat := []
  /-- Messages held while it is drained or saved, and those still to be applied after its resume, oldest first (R300, R352). -/
  heldMsgs : List HeldMsg := []
  grants : Map Grant := []
  attached : Bool := false
  /-- nydb has frozen the isle, since this clk (R274). -/
  frozen : Bool := false
  frozenAt : Nat := 0
  stopAt : Nat := 0
  preemptedBy : Nat := 0
  deriving DecidableEq, Repr

/-- A saved isle, or what a cocoon in memory holds: the isle and the state of its cores in row order (R353). Its number is the
model's own. -/
structure Cocoon where
  id : Nat := 0
  ctx : Nat
  isle : Isle
  cores : List Core
  full : Bool
  rollback : Bool
  commit : Bool
  /-- gd of the CTXSAVE that made it (R358). -/
  gd : Nat := 0
  deriving DecidableEq, Repr

/-! ### Hub and package -/

/-- A queued launch (R98); `saved` names the saved isle of a pre-empted launch. -/
structure QLaunch where
  lrec : LaunchRec
  seq : Nat
  met0 : Bool
  met1 : Bool
  /-- An increment of the counter has reached the threshold since the record was queued (R98). -/
  hit0 : Bool := false
  hit1 : Bool := false
  saved : Bool := false
  attached : Bool := false
  /-- Queued by nydb and not yet let go by `run` (R390). -/
  waitRun : Bool := false
  deriving DecidableEq, Repr

/-- The hub (R86, R97 to R103, R345, R346). -/
structure Hub where
  fifos : Map (List QLaunch) := []
  /-- Records from the host or nydb that are still to be checked, oldest first, and whether nydb launched them. -/
  arrived : List (List Byte × Bool) := []
  nextSeq : Nat := 1
  /-- End statuses by LAUNCHSEQ (R102). -/
  ends : Map Nat := []
  isles : Map Isle := []
  saved : List Cocoon := []
  /-- The cocoons that were read from memory and are being restored (R355, R359). -/
  cocoons : List Cocoon := []
  ctxtab : Word := 0
  granttab : Word := 0
  frbase : Word := 0
  frslots : Word := 0
  frhead : Word := 0
  frtail : Word := 0
  svccfg : Word := 0
  tinvBusy : Bool := false
  drainlim : Nat := 14
  chipid : Nat := 0
  cwrt : Map Word := []
  /-- The context of the last launch that took each core (R100). -/
  lastCtx : Map Nat := []
  svcHeld : List SvcRecord := []
  nextFid : Nat := 0
  evctrs : Map EvCtr := []
  deriving DecidableEq, Repr

/-- An MSI-X table entry (R87). PRESUMED, with its reset values: notes/assumptions/76.md. -/
structure MsixEntry where
  addr : Word := 0
  data : BitVec 32 := 0
  masked : Bool := true
  deriving DecidableEq, Repr

/-- What the host does in order, as PCIe delivers it (R35, R85, R86, R88, R345, R360): an access at an address of tensor 0, a write of
WBCTX or of another register, a read of WA, a ring doorbell, a wake-up, and a write to the launch window in its pieces. -/
inductive HostWait
  | access (va : Nat) (a : HostAccess)
  | context (ctx : Nat)
  | register (r : HostReg) (v : Word)
  | service (off : Nat) (v : Word)
  | look (off n : Nat)
  | door (n : Nat) (v : Word)
  | wake (ctx core : Word) (all : Bool)
  | launch (off : Nat) (pieces : List (List Byte))
  deriving DecidableEq, Repr

/-- The host port (R84 to R90). -/
structure HostPort where
  readymap : Word := 0
  /-- Bits of READYMAP whose function has failed and not become ready again (R91, R300). -/
  lost : Word := 0
  lwdrop : BitVec 32 := 0
  bootstat : Word := 0
  wbctx : Nat := 0
  wbbase : Word := 0
  /-- The context entry that the windows read when WBCTX was written: T0PTB, T0PAGE2M, VALID (R27). -/
  winPtb : Nat := 0
  winPage2m : Bool := false
  winValid : Bool := false
  /-- What has arrived from the host and is not performed, oldest first (R91). -/
  waiting : List HostWait := []
  hrcfg : Map Word := []
  /-- The MSI-X table of 8 entries, its enable, and the PBA (R87). -/
  msixOn : Bool := false
  msixTab : Map MsixEntry := []
  pba : BitVec 64 := 0
  /-- Host memory as the device reaches it (R88, R89). -/
  mem : Memory := []
  /-- MSI-X vectors sent, oldest first (R87), and host reads answered, newest first (R85). -/
  msix : List Nat := []
  replies : List (List Byte) := []
  deriving DecidableEq, Repr

/-- The SPDM session (R93). -/
inductive Spdm | start | version | capabilities | algorithms | keyed | session
  deriving DecidableEq, Repr

/-- What measurements cover: the firmware slots by their digests, the fuse state, and which key slots hold a key (R93). -/
structure Measurements where
  slotA : BitVec 384
  slotB : BitVec 384
  fuses : Nat
  keySlots : List Nat
  deriving DecidableEq, Repr

/-- An SPDM response: its name, its bytes as a free value, the algorithms or measurements that it names, and on a signed one the
ECDSA signature and the LMS/HSS signature that its OpaqueData carries, both over the transcript hash (R93). -/
structure SpdmResponse where
  name : String
  body : Word
  algorithms : List String := []
  measured : Option Measurements := none
  sigs : Option (Word × Word) := none
  deriving DecidableEq, Repr

/-- The security function (R92 to R94). -/
structure Trust where
  /-- The images of firmware slots A and B. -/
  slotA : List Byte := []
  slotB : List Byte := []
  /-- The failing step of slots A and B at the last boot, 0 for a slot whose checks all passed; none before a boot (R92). -/
  booted : Option (Nat × Nat) := none
  spdm : Spdm := .start
  /-- The messages of the connection, as the transcript hash takes them, newest first (R93). -/
  transcript : List Word := []
  /-- Responses sent, newest first. -/
  responses : List SpdmResponse := []
  keys : Map (BitVec 512) := []
  /-- Key writes that wait for packets in flight, oldest first (R94). -/
  keyWrites : List (Nat × BitVec 512) := []
  deriving DecidableEq, Repr

/-- Power and temperature (R19, R95). -/
structure Power where
  aclk : Nat := 800
  stopped : Bool := false
  watts : Nat := 0
  celsius : Nat := 0
  deriving DecidableEq, Repr

/-- Home timestamps of a line (R278). -/
structure Stamp where
  wts : Word := 0
  rts : Word := 0
  deriving DecidableEq, Repr

/-- A tagged version of a line: its tag, its bytes, those that differ from the permanent data as a 64-bit mask, and the marks of its
two granules (R348, R371). -/
structure Ver where
  who : Writer
  ring : Nat
  index : Nat
  data : List Byte
  dirty : Nat := 0
  bad : Nat := 0
  deriving DecidableEq, Repr

/-- The tagged versions of a line, oldest first, with the key slot of its page (R371). HBM holds the permanent data, whose marks are
`bad`. -/
structure VerLine where
  key : Nat := 0
  bad : Nat := 0
  vers : List Ver := []
  deriving DecidableEq, Repr

/-- A write on its way from one die to another (R280). -/
structure DieMsg where
  src : Nat
  dst : Nat
  stamp : List Word
  /-- The core whose buffered store it carries; none for the count alone (notes/assumptions/8.md). -/
  core : Option Nat
  deriving DecidableEq, Repr

/-- A line that its home slice holds: its 64 bytes, the bytes not yet written to HBM as a 64-bit mask, and the key
slot of its page (R94, R278). -/
structure LlcLine where
  data : List Byte
  dirty : Nat := 0
  key : Nat := 0
  /-- Its page is LLC stream (R251). -/
  stream : Bool := false
  deriving DecidableEq, Repr

/-- A packet from an LLC slice to a base die (R265). -/
structure Packet where
  op : PacketOp
  slice : Nat
  stack : Nat
  tag : Nat
  pa : Nat
  granules : Nat
  key : Nat := 0
  /-- The data that a PRD returned as the base die performed it. -/
  reply : List Byte := []
  deriving DecidableEq, Repr

/-- A message that another chip was sent and that asks for an answer (R252, R293): who asks, and the answer once it came. -/
structure FarReq where
  id : Nat
  agent : Option CacheAgent
  /-- A posted entry plus 1, or 0. -/
  entry : Nat := 0
  chip : Nat
  body : ChipBody
  /-- The address that a pilot's store names. -/
  va : Nat := 0
  answer : Option ChipBody := none
  /-- The move that took the answer: a move that waits for another one takes it again. -/
  used : Option Nat := none
  deriving DecidableEq, Repr

/-- Memory and the units that keep it coherent (R13, R265, R266, R278 to R280, R294, R348, R371). -/
structure MemSys where
  mem : Memory := []
  /-- 32-byte granules marked poisoned, by address divided by 32 (R348). -/
  poison : Map Unit := []
  stamps : Map Stamp := []
  guests : Map (Map LineCopy) := []
  llcPts : Map Word := []
  /-- The clock of the hub and the host, and of messages from other chips (R283). -/
  hostPts : Word := 0
  /-- V_d of R280: the count that die d holds of die k is under key 4 d + k. -/
  vclock : Map Word := []
  dieMsgs : List DieMsg := []
  versions : Map VerLine := []
  srSeq : Map Word := []
  /-- Slots that edge exits have handed over and that have not landed, oldest first (R142). -/
  exSlots : List ExSlot := []
  /-- Lines that home slices hold (R251, R278). -/
  llc : Map LlcLine := []
  /-- Packets issued and not yet answered; their tags are the tags in use (R265). -/
  packets : List Packet := []
  frr : Map Word := []
  evctrs : Map EvCtr := []
  outbound : List ChipMsg := []
  /-- Messages whose port is still to be trained, oldest first (R91). -/
  unsent : List ChipMsg := []
  /-- Messages that have arrived and that the chip has not performed, oldest first. -/
  inbound : List ChipMsg := []
  /-- Messages of this chip that wait for their answer. -/
  far : List FarReq := []
  deriving DecidableEq, Repr

/-- A breakpoint of nydb (R274, R312, R362). -/
inductive Break
  | label (launch : Nat) (addr : Word)
  | wave (core e n : Nat)
  | mark (core node ch level : Nat)
  | counter (core k : Nat) (v : Word)
  | fault (core node : Nat)
  deriving DecidableEq, Repr

/-- nydb (R390): breakpoints, and what it has printed, newest first. -/
structure Nydb where
  breaks : List Break := []
  out : List (String × List Nat) := []
  deriving DecidableEq, Repr

/-- What the outside world and failing hardware do to the package beside the rows of the opcode table (R85, R87, R88, R347 to
R349). -/
inductive Input
  /-- An uncorrectable error in a granule of HBM or LLC, of a scratchpad, in a row of an element's local memory, in a queued
  token, in a resident entry of the HA or (set) HS, in a tile register, in an accumulator. -/
  | memoryError (granule : Nat)
  | scratchError (core granule : Nat)
  | rowError (core e row : Nat)
  | tokenError (core node ch : Nat)
  | entryError (core : Nat) (set : Bool) (slot : Nat)
  | tileError (core t : Nat)
  | accError (core a : Nat)
  /-- An uncorrectable error in a pilot register, a second parity failure of a pilot pipeline latch, and an uncorrectable
  error in the saved state of a launch (R349, R355). -/
  | registerError (core : Nat)
  | latchError (core : Nat)
  | savedError (cocoon : Nat)
  /-- An error that was corrected or retried, which its event counter counts by code: of a core, of a slice or base die by an
  address, or on a causeway (R349, R374). -/
  | corrected (code at_ : Nat)
  /-- A host read of n bytes of window WA (R85). -/
  | hostRead (off n : Nat)
  /-- The host writes an entry of the MSI-X table, or its enable (R87). -/
  | msixEntry (v : Nat) (e : MsixEntry)
  | msixEnable (on : Bool)
  /-- The host writes its own memory. -/
  | hostStore (addr : Nat) (bytes : List Byte)
  deriving DecidableEq, Repr

/-- Whose turn it is: the pilot of a core, an event of the opcode table, or an input. -/
inductive Move
  | pilot (core : Nat)
  | event (i : Instr)
  | input (x : Input)
  deriving DecidableEq, Repr

/-- The package. `agenda` says which moves come next, each with the clk that pass before it; when it is empty the pilot
of core `turn` moves after one clk. `agenda`, `turn`, `tick` and `moves` are the model's own (notes/assumptions/5.md). -/
structure State where
  cycle : Nat := 0
  agenda : List (Nat × Move) := []
  turn : Nat := 0
  tick : Nat := 0
  /-- Moves made so far. -/
  moves : Nat := 0
  cores : Map Core := []
  hub : Hub := {}
  host : HostPort := {}
  trust : Trust := {}
  power : Power := {}
  ms : MemSys := {}
  nydb : Nydb := {}
  deriving DecidableEq, Repr

/-- The machine right after package reset: every register at the value spec/ states, or the one the log names. -/
def State.reset : State := {}

end Sys2Proof.Machine
end

