-- ==== Sys2Proof/Machine/MemSystem.lean ====
section
/-! DEFINITION. The memory system: where a physical address lies (R13, R265), base dies with their keys and format
ranges (R94, R266), home slices with leases, versions and poison (R278 to R280, R348, R371), and the accesses that every
agent makes through them. -/

namespace Sys2Proof.Machine

/-! ### Parts of the state -/

def coreOf (s : State) (c : Nat) : Core := mapGet {} s.cores c
def onCore (c : Nat) (f : Core → Core) (s : State) : State := { s with cores := mapPut s.cores c (f (coreOf s c)) }
def onPilot (c : Nat) (f : Pilot → Pilot) (s : State) : State := onCore c (fun k => { k with pilot := f k.pilot }) s
def isleOf (s : State) (i : Nat) : Isle := mapGet {} s.hub.isles i
def onHub (f : Hub → Hub) (s : State) : State := { s with hub := f s.hub }
def onIsle (i : Nat) (f : Isle → Isle) (s : State) : State :=
  onHub (fun h => { h with isles := mapPut h.isles i (f (mapGet {} h.isles i)) }) s
def onMs (f : MemSys → MemSys) (s : State) : State := { s with ms := f s.ms }
def onHost (f : HostPort → HostPort) (s : State) : State := { s with host := f s.host }

/-! ### Places -/

/-- The home slice of a physical address (R13). -/
def homeSlice (pa : Nat) : Nat := bits pa 16 8

/-- The die of the home slice (R13). -/
def homeDie (pa : Nat) : Nat := homeSlice pa / 64

/-- The die of a core (R8). -/
def dieOfCore (c : Nat) : Nat := c / 1600

/-- What stands at a physical address (R265, R296, R345). -/
inductive Place
  | hbm
  | counter (core k : Nat)
  | counterHole
  | service (off : Nat)
  | host
  | absent
  deriving DecidableEq, Repr

/-- What stands at a physical address (R265, R296, R345). DEDUCED: notes/assumptions/16.md. -/
def placeOf (pa : Nat) : Place :=
  if pa < Config.hbmEnd then .hbm
  else if Config.counterBase ≤ pa ∧ pa < Config.counterEnd then
    let o := pa - Config.counterBase
    if o / 512 < Config.cores then .counter (o / 512) (o % 512 / 8) else .counterHole
  else if Config.serviceBase ≤ pa ∧ pa < Config.serviceEnd then .service (pa - Config.serviceBase)
  else if Config.hostMapped pa then .host
  else .absent

/-- What a read finds at an address where no unit stands: the spec states no value. DESIGN CHOICE:
notes/assumptions/16.md. -/
def absentBytes (s : State) (pa n : Nat) : List Byte := (upTo n).map (fun i => Config.absentByte (s.tick + s.moves) (pa + i))

/-- The lowest free tag of a slice for a stack (R265). -/
def freeTag (s : State) (slice stack : Nat) : Option Nat :=
  (upTo 8).find? (fun t => !s.ms.packets.any (fun p => p.slice == slice && p.stack == stack && p.tag == t))

/-! ### Event counters (R374) -/

/-- Counts n occurrences of a code on the counters with keys lo to hi - 1. -/
def tallyMap (m : Map EvCtr) (lo hi code n : Nat) : Map EvCtr :=
  m.map (fun (k, e) =>
    if lo ≤ k ∧ k < hi ∧ e.code = code then
      (k, { e with count := e.count + BitVec.ofNat 48 n, wrapped := e.wrapped + (e.count.toNat + n) / 2 ^ 48 })
    else (k, e))

/-- Counts on the counters of a core. -/
def tallyCore (c code n : Nat) (s : State) : State :=
  onCore c (fun k => { k with evctrs := tallyMap k.evctrs 0 8 code n }) s

/-- Counts on the counters of a slice. -/
def tallySlice (pa code : Nat) (m : MemSys) : MemSys :=
  { m with evctrs := tallyMap m.evctrs (4 * homeSlice pa) (4 * homeSlice pa + 4) code 1 }

/-- Counts on the counters of the base die of an address. -/
def tallyBase (pa code : Nat) (m : MemSys) : MemSys :=
  let b := 1024 + 8 * (pa / Config.stackBytes)
  { m with evctrs := tallyMap m.evctrs b (b + 8) code 1 }

/-- Counts on the hub's counters. -/
def tallyHub (code : Nat) (s : State) : State :=
  onHub (fun h => { h with evctrs := tallyMap h.evctrs 0 16 code 1 }) s

/-! ### Base dies: keys (R94) -/

/-- The 32 bytes of a granule as read with a key slot; a slot that nobody has written holds zeros. PRESUMED:
notes/assumptions/13.md. DESIGN CHOICE: notes/assumptions/77.md. -/
def granule (s : State) (key g : Nat) : List Byte :=
  let raw := memBytes s.ms.mem (32 * g) 32
  if key = 0 then raw else xts true (mapGet 0 s.trust.keys key) g raw

/-- Stores a whole granule with a key slot. -/
def putGranule (s : State) (key g : Nat) (data : List Byte) : State :=
  let raw := if key = 0 then data else xts false (mapGet 0 s.trust.keys key) g data
  onMs (fun m => { m with mem := memStore m.mem (32 * g) raw }) s

/-- A byte of HBM as read with a key slot. -/
def rawByte (s : State) (key a : Nat) : Byte :=
  if key = 0 then memByte s.ms.mem a else (granule s key (a / 32)).getD (a % 32) 0

/-- Stores a byte of HBM with a key slot. -/
def rawPut (s : State) (key a : Nat) (b : Byte) : State :=
  if key = 0 then onMs (fun m => { m with mem := memSet m.mem a b }) s
  else putGranule s key (a / 32) ((granule s key (a / 32)).set (a % 32) b)

def rawNat (s : State) (key a n : Nat) : Nat := ofBytes ((upTo n).map (fun i => rawByte s key (a + i)))

/-- Stores those of the bytes that are present. -/
def rawPuts (s : State) (key : Nat) : Nat → List (Option Byte) → State
  | _, [] => s
  | a, none :: bs => rawPuts s key (a + 1) bs
  | a, some b :: bs => rawPuts (rawPut s key a b) key (a + 1) bs

/-! ### Base dies: format ranges (R266) -/

/-- A format range register, decoded. -/
structure FmtRange where
  fmt : Fmt
  blk : Nat
  enc : Bool
  base : Nat
  limit : Nat
  scoff : Nat
  cbpa : Nat
  deriving DecidableEq, Repr

/-- Code bytes of a group of 16 blocks. -/
def FmtRange.codeBytes (r : FmtRange) : Nat := 2 * r.blk * fmtWidth r.fmt

/-- The groups the range stores. -/
def FmtRange.groups (r : FmtRange) : Nat := r.scoff / r.codeBytes

/-- The bytes of the view. -/
def FmtRange.view (r : FmtRange) : Nat :=
  if r.enc then 32 * r.blk * r.groups else (16 + r.codeBytes) * r.groups

/-- Word w of register n of stack t. -/
def frrWord (m : MemSys) (t n w : Nat) : Nat := (mapGet 0 m.frr (4 * (16 * t + n) + w)).toNat

/-- Register n of stack t when EN, the format and its own limits allow it; overlaps are tested apart. -/
def rangeOf (m : MemSys) (t n : Nat) : Option FmtRange :=
  let w0 := frrWord m t n 0
  match fmtOf (bits w0 0 4) with
  | none => none
  | some f =>
    if bit w0 5 && (f == .e4m3 || f == .e5m2 || f == .e2m1 || f == .c4) then
      let r : FmtRange := { fmt := f, blk := if bit w0 4 then 32 else 16, enc := bit w0 6, base := bits w0 16 48 * 65536
                            limit := bits (frrWord m t n 1) 16 48 * 65536, scoff := frrWord m t n 2
                            cbpa := frrWord m t n 3 }
      let lo := t * Config.stackBytes
      if r.base + r.view ≤ r.limit && r.base + r.scoff + 16 * r.groups ≤ r.limit
          && decide (lo ≤ r.base) && decide (r.limit ≤ lo + Config.stackBytes) then some r else none
    else none

/-- BASE and LIMIT of register n of stack t, whatever EN holds. -/
def rangeSpan (m : MemSys) (t n : Nat) : Nat × Nat := (bits (frrWord m t n 0) 16 48 * 65536, bits (frrWord m t n 1) 16 48 * 65536)

/-- The range of register n overlaps that of a lower-numbered register of its stack. -/
def rangeClash (m : MemSys) (t n : Nat) : Bool :=
  let (b, l) := rangeSpan m t n
  (upTo n).any (fun q => let (b', l') := rangeSpan m t q; decide (max b b' < min l l'))

/-- The enabled registers among the first n of a stack: an overlap with a lower-numbered register disables. -/
def rangesOf (m : MemSys) (t n : Nat) : List FmtRange :=
  (upTo n).filterMap (fun q => if rangeClash m t q then none else rangeOf m t q)

/-- The range that governs an address. -/
def rangeAt (m : MemSys) (pa : Nat) : Option FmtRange :=
  if m.frr.isEmpty then none
  else (rangesOf m (pa / Config.stackBytes) 16).find? (fun r => r.base ≤ pa && pa < r.limit)

/-- An entry of a codebook at a physical address. -/
def rangeEntry (s : State) (pa : Nat) : Nat :=
  if placeOf pa = .hbm then rawNat s 0 pa 2 else ofBytes (absentBytes s pa 2)

/-- The 16 entries of the codebook of a range; the default table for the other formats. -/
def rangeCodebook (s : State) (r : FmtRange) : List Nat :=
  if r.fmt = .c4 then (upTo 16).map (fun i => rangeEntry s (r.cbpa + 2 * i)) else []

/-- The code of element e of group g. -/
def rangeCode (s : State) (key : Nat) (r : FmtRange) (g e : Nat) : Nat :=
  let a := r.base + r.codeBytes * g
  if fmtWidth r.fmt = 8 then (rawByte s key (a + e)).toNat
  else bits (rawByte s key (a + e / 2)).toNat (4 * (e % 2)) 4

/-- The BF16 encodings of block b of group g in the view: a value that BF16 does not hold is rounded to the nearest.
DESIGN CHOICE: notes/assumptions/72.md. -/
def blockValues (s : State) (key : Nat) (r : FmtRange) (g b : Nat) : List Nat :=
  let sc := (rawByte s key (r.base + r.scoff + 16 * g + b)).toNat
  let cb := rangeCodebook s r
  (upTo r.blk).map (fun i =>
    (roundFloat .bf16 false .rne 0 (decodeScaled r.fmt cb sc (rangeCode s key r g (r.blk * b + i)))).1)

/-- A byte as the LLC sees it through a range. -/
def viewByte (s : State) (key : Nat) (r : FmtRange) (pa : Nat) : Byte :=
  let o := pa - r.base
  if r.view ≤ o then 0
  else if r.enc then
    let e := o / 2
    let g := e / (16 * r.blk)
    let b := e % (16 * r.blk) / r.blk
    BitVec.ofNat 8 ((blockValues s key r g b).getD (e % r.blk) 0 >>> (8 * (o % 2)))
  else
    let g := o / (16 + r.codeBytes)
    let q := o % (16 + r.codeBytes)
    if q < 16 then rawByte s key (r.base + r.scoff + 16 * g + q) else rawByte s key (r.base + r.codeBytes * g + (q - 16))

/-- The bytes that the LLC sees at an address. -/
def hbmBytes (s : State) (key pa n : Nat) : List Byte :=
  match rangeAt s.ms pa with
  | none => (upTo n).map (fun i => rawByte s key (pa + i))
  | some r => (upTo n).map (fun i => viewByte s key r (pa + i))

/-- Puts two 4-bit codes or one 8-bit code of a block back. -/
def putCodes (s : State) (key a w : Nat) : List Nat → State
  | [] => s
  | x :: xs =>
    if w = 8 then putCodes (rawPut s key a (BitVec.ofNat 8 x)) key (a + 1) w xs
    else
      match xs with
      | [] => s
      | y :: ys => putCodes (rawPut s key a (BitVec.ofNat 8 (x + 16 * y))) key (a + 1) w ys

/-- Encodes a block of BF16 values and stores its codes and scale (R46, R47, R266). -/
def putBlock (s : State) (key : Nat) (r : FmtRange) (g b : Nat) (vs : List Nat) : State :=
  let (sc, codes) := encodeBlock r.fmt (rangeCodebook s r) (vs.map (decodeFmt .bf16 []))
  let s := rawPut s key (r.base + r.scoff + 16 * g + b) (BitVec.ofNat 8 sc)
  putCodes s key (r.base + r.codeBytes * g + r.blk * b * fmtWidth r.fmt / 8) (fmtWidth r.fmt) codes

/-- Writes bytes that lie in one block of a BF16 view: decode, merge, encode (R266). -/
def putInBlock (s : State) (key : Nat) (r : FmtRange) (o : Nat) (bs : List (Option Byte)) : State :=
  let g := o / (32 * r.blk)
  let b := o % (32 * r.blk) / (2 * r.blk)
  let old := (blockValues s key r g b).flatMap (toBytes 2)
  let at0 := o % (2 * r.blk)
  let new := (upTo old.length).map (fun i =>
    if i < at0 then old.getD i 0 else ((bs.getD (i - at0) none).getD (old.getD i 0)))
  putBlock s key r g b ((chunks 2 r.blk new).map ofBytes)

/-- Writes bytes of a BF16 view, block by block; a block of which no byte is written stays. -/
def putEncoded (s : State) (key : Nat) (r : FmtRange) : Nat → Nat → List (Option Byte) → State
  | 0, _, _ => s
  | n + 1, o, bs =>
    if bs.isEmpty || decide (r.view ≤ o) then s
    else
      let room := 2 * r.blk - o % (2 * r.blk)
      let part := bs.take room
      putEncoded (if part.any Option.isSome then putInBlock s key r o part else s) key r n (o + room) (bs.drop room)

/-- Writes bytes of an operand-form view to their places. -/
def putOperand (s : State) (key : Nat) (r : FmtRange) : Nat → List (Option Byte) → State
  | _, [] => s
  | o, none :: bs => putOperand s key r (o + 1) bs
  | o, some x :: bs =>
    let g := o / (16 + r.codeBytes)
    let q := o % (16 + r.codeBytes)
    let a := if q < 16 then r.base + r.scoff + 16 * g + q else r.base + r.codeBytes * g + (q - 16)
    putOperand (if r.view ≤ o then s else rawPut s key a x) key r (o + 1) bs

/-- Writes bytes of HBM as the base die performs them (R265, R266). -/
def hbmPut (s : State) (key pa : Nat) (bs : List (Option Byte)) : State :=
  match rangeAt s.ms pa with
  | none => rawPuts s key pa bs
  | some r =>
    let s := onMs (tallyBase pa 0x203) s
    if r.enc then putEncoded s key r (bs.length + 1) (pa - r.base) bs else putOperand s key r (pa - r.base) bs

/-! ### Packets to the base dies (R265) -/

/-- The bytes of a write at an address, placed in their line. -/
def inLine (pa : Nat) (bs : List (Option Byte)) : List (Option Byte) :=
  (upTo 64).map (fun i => if pa % 64 ≤ i then bs.getD (i - pa % 64) none else none)

/-- A mask over a line covers some granule in part. -/
def partGranule (bs : List (Option Byte)) : Bool :=
  [bs.take 32, bs.drop 32].any (fun g => g.any Option.isSome && !g.all Option.isSome)

/-- A slice writes bytes inside one line to HBM by a packet (R265). -/
def hbmWrite (s : State) (key pa : Nat) (bs : List (Option Byte)) : State :=
  let s := onMs (tallyBase pa 0x200) s
  let s := if partGranule (inLine pa bs) then onMs (tallyBase pa 0x201) s else s
  hbmPut s key pa bs

/-- The counts of a packet by which a slice reads a line of HBM (R265, R374). -/
def hbmCount (pa : Nat) (s : State) : State :=
  let s := onMs (tallyBase pa 0x200) s
  if (rangeAt s.ms pa).isSome then onMs (tallyBase pa 0x203) s else s

/-! ### Home slices: the ways of a set (R18, R251, R279, R371) -/

/-- The bytes of a line that are to be written, as a packet's mask gives them. -/
def dirtyBytes (data : List Byte) (dirty : Nat) : List (Option Byte) :=
  (upTo 64).map (fun i => if bit dirty i then some (data.getD i 0) else none)

/-- The set inside a slice that a line lies in, and the number of that set in the package (notes/assumptions/9.md). -/
def setLow (line : Nat) : Nat := line % 1024 + 1024 * bits line 18 2
def setOf (line : Nat) : Nat := 4096 * bits line 10 8 + setLow line

/-- The set in which die d keeps a guest copy of a line: that of its slice of the same number (notes/assumptions/9.md). -/
def guestSet (d line : Nat) : Nat := 4096 * (64 * d + bits line 10 8 % 64) + setLow line

/-- What holds a way of a set beside the tagged versions: a line, or a guest copy of a die. -/
inductive Way16
  | line (n : Nat)
  | guest (d n : Nat)
  deriving DecidableEq, Repr

/-- The ways of a set that may be replaced, stream lines apart. -/
def plainWays (m : MemSys) (set : Nat) : List Way16 :=
  (m.llc.filter (fun (n, l) => setOf n == set && !l.stream)).map (fun e => .line e.1) ++
    m.guests.flatMap (fun (d, g) => (g.filter (fun e => guestSet d e.1 == set)).map (fun e => .guest d e.1))

def streamWays (m : MemSys) (set : Nat) : List Way16 :=
  (m.llc.filter (fun (n, l) => setOf n == set && l.stream)).map (fun e => .line e.1)

/-- The ways that tagged versions pin (R371). -/
def pinnedWays (m : MemSys) (set : Nat) : Nat :=
  m.versions.foldl (fun n (l, v) => if setOf l = set then n + v.vers.length else n) 0

def waysUsed (m : MemSys) (set : Nat) : Nat := (plainWays m set).length + (streamWays m set).length + pinnedWays m set

/-- A way can be given up now: it is clean, or its slice has a tag for the write (R265). -/
def mayGive (s : State) : Way16 → Bool
  | .guest _ _ => true
  | .line n => (mapFind s.ms.llc n).all (fun l => l.dirty == 0 || (freeTag s (homeSlice (64 * n)) (64 * n / Config.stackBytes)).isSome)

/-- Writes a held line back and drops it. DESIGN CHOICE: notes/assumptions/64.md. -/
def flushLine (s : State) (line : Nat) : State :=
  match mapFind s.ms.llc line with
  | none => s
  | some l =>
    let s := if l.dirty = 0 then s else hbmWrite s l.key (64 * line) (dirtyBytes l.data l.dirty)
    onMs (fun m => { m with llc := mapDel m.llc line }) s

/-- Gives a way up. -/
def giveUp (s : State) : Way16 → State
  | .line n => flushLine s n
  | .guest d n => onMs (fun m => { m with guests := mapPut m.guests d (mapDel (mapGet [] m.guests d) n) }) s

/-- The ways of which a set gives one up for a new line, when it must: the stream lines first, and never a third beside two stream
lines (R18, R251). DESIGN CHOICE: notes/assumptions/64.md. -/
def victims (s : State) (set : Nat) (stream : Bool) : Option (List Way16) :=
  let old := (streamWays s.ms set).filter (mayGive s)
  if stream ∧ 2 ≤ (streamWays s.ms set).length then some old
  else if waysUsed s.ms set < 16 then none
  else if old.isEmpty then some ((plainWays s.ms set).filter (mayGive s))
  else some old

/-- Whether a set has room for one line more, or can make it. -/
def roomReady (s : State) (set : Nat) (stream : Bool) : Bool := (victims s set stream).all (fun v => !v.isEmpty)

/-- Makes room in a set for one line more. -/
def makeRoom (s : State) (set : Nat) (stream : Bool) : State :=
  match victims s set stream with
  | none => s
  | some v =>
    match v[Config.victim s.tick % v.length]? with
    | some w => giveUp { s with tick := s.tick + 1 } w
    | none => s

/-- Whether an access to a line, by the CACHE of its page, may be performed: its stack is ready (R90, R91), and its slice holds the
line or has a tag free for the stack and room for the line, else it stalls (R265). -/
def hbmReady (s : State) (pa : Nat) (cache : Nat := 0) : Bool :=
  let line := pa / 64
  let tag := (freeTag s (homeSlice pa) (pa / Config.stackBytes)).isSome
  bit s.host.readymap.toNat (20 + pa / Config.stackBytes) &&
  ((mapFind s.ms.versions line).isSome ||
    if cache = 2 then tag else (mapFind s.ms.llc line).isSome || (tag && roomReady s (setOf line) (cache == 1)))

/-! ### Home slices: data -/

/-- The 64 bytes of a line at its home, without changing anything: the newest version (R371). -/
def lineData (s : State) (key line : Nat) : List Byte :=
  match (mapFind s.ms.versions line).bind (·.vers.getLast?) with
  | some v => v.data
  | none =>
    match mapFind s.ms.llc line with
    | some l => l.data
    | none => hbmBytes s key (64 * line) 64

/-- Brings a line into its home slice (R251: CACHE 00 and 01). DESIGN CHOICE: notes/assumptions/64.md. -/
def holdLine (s : State) (key line : Nat) (stream : Bool) : State :=
  if (mapFind s.ms.llc line).isSome ∨ (mapFind s.ms.versions line).isSome then s
  else
    let s := makeRoom s (setOf line) stream
    let data := hbmBytes s key (64 * line) 64
    hbmCount (64 * line) (onMs (fun m => tallySlice (64 * line) 0x101
      { m with llc := mapPut m.llc line { data := data, key := key, stream := stream } }) s)

/-- The home slice meets a line on an access: it holds the line, or of an uncached page keeps no copy and reads HBM (R251). -/
def meetLine (s : State) (key cache line : Nat) : State :=
  if cache = 2 ∧ (mapFind s.ms.versions line).isNone then hbmCount (64 * line) (flushLine s line)
  else holdLine s key line (cache == 1)

/-- Merges bytes into the data and mask of a held line. -/
def mergeLine (l : LlcLine) (o : Nat) : List (Option Byte) → LlcLine
  | [] => l
  | none :: bs => mergeLine l (o + 1) bs
  | some b :: bs => mergeLine { l with data := l.data.set o b, dirty := l.dirty ||| 2 ^ o } (o + 1) bs

/-- Performs a write of bytes inside one line that has no tagged version, data only. -/
def homePut (s : State) (key cache pa : Nat) (bs : List (Option Byte)) : State :=
  let line := pa / 64
  if cache = 2 then hbmWrite (flushLine s line) key pa bs
  else
    let s := holdLine s key line (cache == 1)
    onMs (fun m => { m with llc := mapPut m.llc line (mergeLine (mapGet { data := [] } m.llc line) (pa % 64) bs) }) s

/-! ### Poison (R348) -/

def poisoned (s : State) (pa n : Nat) : Bool :=
  !s.ms.poison.isEmpty && (upTo n).any (fun i => (mapFind s.ms.poison ((pa + i) / 32)).isSome)

/-- The marks of the two granules of a line. -/
def lineBad (s : State) (line : Nat) : Nat :=
  ofBool (poisoned s (64 * line) 32) + 2 * ofBool (poisoned s (64 * line + 32) 32)

/-- Sets the marks of a line. -/
def setBad (line bad : Nat) (s : State) : State :=
  onMs (fun m => { m with poison := (upTo 2).foldl (fun p g =>
    if bit bad g then mapPut p (2 * line + g) () else mapDel p (2 * line + g)) m.poison }) s

/-- Whether bytes of a copied line carry poison. -/
def LineCopy.badAt (l : LineCopy) (o n : Nat) : Bool :=
  (bit l.bad 0 && decide (o < 32)) || (bit l.bad 1 && decide (32 < o + n))

/-- The marks of a line after a write of bytes placed in it: a poisoned write marks, a clean write of a whole granule clears. -/
def marksAfter (bad : Bool) (bs : List (Option Byte)) (m : Nat) : Nat :=
  (upTo 2).foldl (fun n g =>
    let b := (bs.drop (32 * g)).take 32
    let old := bit m g
    n + 2 ^ g * ofBool (if bad then old || b.any Option.isSome else old && !b.all Option.isSome)) 0

/-- The marks after a write inside one line (R348). -/
def markPoison (bad : Bool) (pa : Nat) (bs : List (Option Byte)) (s : State) : State :=
  if !bad ∧ s.ms.poison.isEmpty then s else setBad (pa / 64) (marksAfter bad (inLine pa bs) (lineBad s (pa / 64))) s

/-! ### Isles of cores -/

/-- The isle of a core, reset when it has none. -/
def isleOfCore (s : State) (c : Nat) : Isle :=
  match (coreOf s c).isle with
  | some i => isleOf s i
  | none => {}

/-- The cores of an isle in row order (R100). -/
def isleCores (i : Isle) : List Nat :=
  (upTo i.height).flatMap (fun y => (upTo i.width).map (fun x => i.die * 1600 + (i.y0 + y) * 40 + i.x0 + x))

/-- The place of a core in the row order of an isle. -/
def rowPlace (i : Isle) (c : Nat) : Nat := (isleCores i).idxOf c

/-! ### Versions (R371) -/

/-- The core an agent belongs to, whose rings tag its writes (R371). -/
def coreOfAgent : Option CacheAgent → Option Nat
  | some (.pilot c) => some c
  | some (.fabric c) => some c
  | _ => none

/-- How the tags of a core's writes name it (R371). -/
def writerOf (s : State) (c : Nat) : Writer :=
  let i := isleOfCore s c
  { chip := s.hub.chipid, ctx := i.ctx, off := rowPlace i c, n := i.cocoonN }

/-- The author of an agent's writes on a chip: the core, and its rings that have a snapshot (R371). -/
def authorOf (s : State) (a : Option CacheAgent) (chip : Nat) : Author :=
  match coreOfAgent a with
  | none => {}
  | some c =>
    { who := some (writerOf s c)
      rings := (coreOf s c).rings.filterMap (fun (r, g) => g.snaps.getLast?.map (fun n =>
        { ring := r, index := n.index, regions := (g.regions.filter (·.1 == chip)).map (·.2) })) }

/-- The rings and indexes that tag an author's write to a line. -/
def tagsOf (au : Author) (line : Nat) : List (Nat × Nat) :=
  (au.rings.filter (fun t => t.regions.any (fun (b, n) => b / 64 ≤ line && line < (b + n) / 64))).map (fun t => (t.ring, t.index))

/-- The version carries this tag. -/
def Ver.tagged (v : Ver) (w : Writer) (t : Nat × Nat) : Bool := v.who == w && v.ring == t.1 && v.index == t.2

/-- The tags of a write for which the line has no version yet. -/
def freshTags (s : State) (au : Author) (line : Nat) : List (Nat × Nat) :=
  match au.who with
  | none => []
  | some w => (tagsOf au line).filter (fun t => !(mapGet {} s.ms.versions line).vers.any (fun v => v.tagged w t))

/-- A write's new versions find their ways: no set pins more than 12 of 16 (R371), and what is given up for them can be written. -/
def versionReady (s : State) (au : Author) (line : Nat) : Bool :=
  let fresh := (freshTags s au line).length
  let set := setOf line
  let own := Way16.line line
  let held := ofBool (mapFind s.ms.llc line).isSome
  let others := ((plainWays s.ms set ++ streamWays s.ms set).filter (fun w => w != own && mayGive s w)).length
  fresh == 0 || (decide (pinnedWays s.ms set + fresh ≤ 12) && mayGive s own && decide (waysUsed s.ms set + fresh ≤ 16 + held + others))

/-- The versions of a line after a write: new ones copy the newest first, a write under a tag reaches the versions of that tag and
of other cores, and one without a tag every version. -/
def versionsAfter (w : Option Writer) (tags : List (Nat × Nat)) (bs : List (Option Byte)) (bad : Bool) (vs : List Ver) : List Ver :=
  vs.map (fun v =>
    if tags.isEmpty || w != some v.who || tags.any (fun t => v.ring == t.1 && v.index == t.2) then
      let l := mergeLine { data := v.data, dirty := v.dirty } 0 bs
      { v with data := l.data, dirty := l.dirty, bad := marksAfter bad bs v.bad }
    else v)

/-- A line's first versions: its permanent data is in HBM from here on. -/
def openVersions (s : State) (key line : Nat) : State :=
  if (mapFind s.ms.versions line).isSome then s
  else onMs (fun m => { m with versions := mapPut m.versions line { key := key, bad := lineBad s line } }) (flushLine s line)

/-- The versions of fresh tags join the line, each a copy of the newest. -/
def addVersions (line : Nat) (w : Writer) (data : List Byte) (fresh : List (Nat × Nat)) (s : State) : State :=
  let bad := lineBad s line
  fresh.foldl (fun s t =>
    let s := makeRoom s (setOf line) false
    onMs (fun m =>
      let v := mapGet {} m.versions line
      let dirty := (v.vers.getLast?.map (·.dirty)).getD 0
      let x : Ver := { who := w, ring := t.1, index := t.2, data := data, dirty := dirty, bad := bad }
      let v := { v with vers := v.vers ++ [x] }
      tallySlice (64 * line) 0x105 { m with versions := mapPut m.versions line v }) s) s

/-- Performs a write of bytes inside one line whose write is tagged or which has tagged versions: HBM takes a write without a tag
(R371). DEDUCED: notes/assumptions/47.md. -/
def versionPut (s : State) (au : Author) (key pa : Nat) (bs : List (Option Byte)) (bad : Bool) : State :=
  let line := pa / 64
  let tags := tagsOf au line
  let data := lineData s key line
  let fresh := freshTags s au line
  let s := openVersions s key line
  let s := match au.who with | some w => addVersions line w data fresh s | none => s
  let v := mapGet {} s.ms.versions line
  let vers := versionsAfter au.who tags (inLine pa bs) bad v.vers
  let after := { v with bad := if tags.isEmpty then marksAfter bad (inLine pa bs) v.bad else v.bad, vers := vers }
  let s := if tags.isEmpty then hbmWrite s v.key pa bs else s
  let s := setBad line ((vers.getLast?.map (·.bad)).getD 0) s
  onMs (fun m => { m with versions := mapPut m.versions line after }) s

/-- Data and marks of a write of bytes inside one line at its home slice (R348, R371). -/
def linePut (s : State) (au : Author) (key cache pa : Nat) (bs : List (Option Byte)) (bad : Bool) : State :=
  if (mapFind s.ms.versions (pa / 64)).isSome ∨ ¬ (tagsOf au (pa / 64)).isEmpty then versionPut s au key pa bs bad
  else markPoison bad pa bs (homePut s key cache pa bs)

/-! ### Clocks (R278) -/

/-- The later of two times. -/
def latest (a b : Word) : Word := if a ≤ b then b else a

/-- What the clk that have passed add to every clock: 1 per 16 (R278). -/
def clkPts (s : State) : Word := BitVec.ofNat 64 (s.cycle / 16)

/-- The clock PTS of an agent; none is the hub, the host, or a message from another chip (R283, notes/assumptions/10.md). -/
def ptsOf (s : State) : Option CacheAgent → Word
  | none => s.ms.hostPts + clkPts s
  | some (.pilot c) => (coreOf s c).pts + clkPts s
  | some (.fabric c) => latest ((coreOf s c).fabricPts + clkPts s) (coreOf s c).readWts
  | some (.llc d) => mapGet 0 s.ms.llcPts d + clkPts s

/-- Raises the clock of an agent to a time. -/
def raisePts (t : Word) (s : State) (a : Option CacheAgent) : State :=
  let p := latest (ptsOf s a) t - clkPts s
  match a with
  | none => onMs (fun m => { m with hostPts := p }) s
  | some (.pilot c) => onCore c (fun k => { k with pts := p }) s
  | some (.fabric c) => onCore c (fun k => { k with fabricPts := p, readWts := 0 }) s
  | some (.llc d) => onMs (fun m => { m with llcPts := mapPut m.llcPts d p }) s

/-- The clocks of the fabric sides take what their cores have consumed, before clk pass (R278, R285). -/
def settleClocks (s : State) : State :=
  { s with cores := s.cores.map (fun (c, k) =>
      (c, if k.readWts = 0 then k
          else { k with fabricPts := latest (k.fabricPts + clkPts s) k.readWts - clkPts s, readWts := 0 })) }

/-- The die an agent asks from; the hub and the host have none. -/
def dieOfAgent : Option CacheAgent → Option Nat
  | none => none
  | some (.pilot c) => some (dieOfCore c)
  | some (.fabric c) => some (dieOfCore c)
  | some (.llc d) => some d

def stampOf (s : State) (line : Nat) : Stamp := mapGet {} s.ms.stamps line

/-- ReadFill of R278: the lease end granted and the state after it. -/
def readFill (s : State) (a : Option CacheAgent) (line : Nat) : Word × State :=
  let st := stampOf s line
  let rts := latest st.rts (ptsOf s a + 256)
  (rts, raisePts st.wts (onMs (fun m => { m with stamps := mapPut m.stamps line { st with rts := rts } }) s) a)

/-- Write of R278 on the clocks. -/
def stampWrite (s : State) (a : Option CacheAgent) (line : Nat) : State :=
  let st := stampOf s line
  let w := latest (ptsOf s a) (st.rts + 1)
  let s := if ptsOf s a ≤ st.rts then onMs (tallySlice (64 * line) 0x104) s else s
  raisePts w (onMs (fun m => { m with stamps := mapPut m.stamps line { wts := w, rts := w } }) s) a

/-! ### Vectors between dies (R280) -/

def vOf (s : State) (d k : Nat) : Word := mapGet 0 s.ms.vclock (4 * d + k)

def setV (d k : Nat) (n : Word) (s : State) : State := onMs (fun m => { m with vclock := mapPut m.vclock (4 * d + k) n }) s

/-- The messages on their way between two dies, oldest first. -/
def dieQueue (s : State) (src dst : Nat) : List DieMsg :=
  s.ms.dieMsgs.filter (fun m => m.src == src && m.dst == dst)

/-- A read reply of die h may be delivered to die d: no write is on its way to d that the stamp of the reply already counts, for the
test of that write would then fail for good (R280). DEDUCED: notes/assumptions/8.md. -/
def mergeReady (s : State) (d h : Nat) : Bool :=
  d == h || s.ms.dieMsgs.all (fun m => m.dst != d || m.core.isNone || decide (vOf s h m.src < m.stamp.getD m.src 0))

/-- The receiving die merges the stamp of a read reply, entry by entry, by maximum (R280). -/
def mergeV (d h : Nat) (s : State) : State :=
  if d = h then s else (upTo 4).foldl (fun s k => setV d k (latest (vOf s d k) (vOf s h k)) s) s

/-- Whether a die performs a message with this stamp (R280). -/
def stampOk (s : State) (src h : Nat) (stamp : List Word) : Bool :=
  vOf s h src == stamp.getD src 0 - 1 && (upTo 4).all (fun k => k == src || decide (stamp.getD k 0 ≤ vOf s h k))

/-- Raises V_s[s] for a write to die h; the other dies take the count as a message of their own, at once where nothing is on its
way before it (R280, notes/assumptions/8.md). -/
def raiseV (src h : Nat) (s : State) : State :=
  let n := vOf s src src + 1
  let s := setV src src n s
  let stamp := (upTo 4).map (vOf s src)
  (upTo 4).foldl (fun s d =>
    if d = src ∨ d = h then s
    else if (dieQueue s src d).isEmpty ∧ stampOk s src d stamp then setV d src n s
    else onMs (fun m => { m with dieMsgs := m.dieMsgs ++ [{ src := src, dst := d, stamp := stamp, core := none }] }) s) s

/-- Whether a read by an agent may be performed and its reply delivered. -/
def readReady (s : State) (a : Option CacheAgent) (cache pa : Nat) : Bool :=
  hbmReady s pa cache && (dieOfAgent a).all (fun d => mergeReady s d (homeDie pa))

/-- Whether a write from an agent could be sent and performed at once: nothing is on its way before it and the home die
has performed every write its sender had observed (R280). -/
def writeReady (s : State) (a : Option CacheAgent) (cache pa : Nat) (far : Option Author := none) : Bool :=
  readReady s a cache pa && versionReady s (far.getD (authorOf s a s.hub.chipid)) (pa / 64) &&
  match dieOfAgent a with
  | none => true
  | some d =>
    let h := homeDie pa
    d == h || ((dieQueue s d h).isEmpty && stampOk s d h ((upTo 4).map (fun k => vOf s d k + BitVec.ofNat 64 (ofBool (k == d)))))

/-- The counts after a write from an agent sent and performed at once. -/
def crossDie (a : Option CacheAgent) (pa : Nat) (s : State) : State :=
  match dieOfAgent a with
  | none => s
  | some d =>
    let h := homeDie pa
    if d = h then s else let s := raiseV d h s; setV h d (vOf s d d) s

/-! ### Accesses at the home slice -/

/-- A cache of 4 ways after it took a copy: a set that is full gives one up (R16, R145). DESIGN CHOICE:
notes/assumptions/75.md. -/
def cachePut {α : Type} (sets n key : Nat) (v : α) (m : Map α) : Map α :=
  let m := mapDel m key
  let same := m.filter (fun e => e.1 % sets == key % sets)
  if same.length < 4 then mapPut m key v
  else match same[Config.victim n % same.length]? with
    | some e => mapPut (mapDel m e.1) key v
    | none => mapPut m key v

/-- Performs a write of bytes inside one line by an agent, or by the author whom a message of another chip names: versions, clocks,
marks and data. -/
def performWrite (s : State) (a : Option CacheAgent) (key cache pa : Nat) (bs : List (Option Byte)) (bad : Bool)
    (far : Option Author := none) : State :=
  let au := far.getD (authorOf s a s.hub.chipid)
  linePut (stampWrite (onMs (tallySlice pa 0x102) s) a (pa / 64)) au key cache pa bs bad

/-- Versions of ring r of a writer become permanent below one index and are discarded from another on, on one line: it then shows its
newest version that remains, as after a write where that is an older one (R371 to R373). Permanent data goes to HBM while versions
remain, else into a held line. DEDUCED: notes/assumptions/47.md. -/
def settleLine (w : Writer) (ring below from_ : Nat) (a : Option CacheAgent) (s : State) (line : Nat) : State :=
  let v := mapGet {} s.ms.versions line
  let mine := fun (x : Ver) => x.who == w && x.ring == ring
  let gone := fun (x : Ver) => mine x && decide (from_ ≤ x.index)
  let taken := fun (x : Ver) => mine x && decide (x.index < below)
  if v.vers.all (fun x => !gone x && !taken x) then s
  else
    let kept := v.vers.filter (fun x => !gone x)
    let base := (kept.takeWhile taken).getLast?
    let rest := kept.filter (fun x => !taken x)
    let left := fun (bad : Nat) (m : Map VerLine) => if rest.isEmpty then mapDel m line else mapPut m line { v with bad := bad, vers := rest }
    let keep := fun (bad : Nat) => onMs (fun m => { m with versions := left bad m.versions })
    let s := match base with
      | none => keep v.bad s
      | some x =>
        if rest.isEmpty then onMs (fun m => { m with llc := mapPut m.llc line { data := x.data, dirty := x.dirty, key := v.key } }) (keep x.bad s)
        else keep x.bad (hbmWrite s v.key (64 * line) (dirtyBytes x.data x.dirty))
    let shown := match rest.getLast?, base with
      | some x, _ => x.bad
      | none, some x => x.bad
      | none, none => v.bad
    let s := setBad line shown s
    if v.vers.getLast?.any gone then stampWrite s a line else s

/-- Versions of ring r of a writer are settled on every line of this chip. -/
def settleVersions (w : Writer) (ring below from_ : Nat) (a : Option CacheAgent) (s : State) : State :=
  (s.ms.versions.map (·.1)).foldl (settleLine w ring below from_ a) s

/-- Performs a read of bytes inside one line at the home slice by an agent that keeps no copy. -/
def performRead (s : State) (a : Option CacheAgent) (key cache pa n : Nat) : List Byte × State :=
  let line := pa / 64
  let s := meetLine (onMs (tallySlice pa 0x100) s) key cache line
  let d := lineData s key line
  let s := (raisePts (stampOf s line).wts s a)
  let s := match dieOfAgent a with | some dd => mergeV dd (homeDie pa) s | none => s
  ((d.drop (pa % 64)).take n, s)

/-- A die keeps a guest copy of a line, for which a set of its slices makes room (R18, R279). -/
def putGuest (d line : Nat) (g : LineCopy) (s : State) : State :=
  let s := makeRoom s (guestSet d line) false
  onMs (fun m => { m with guests := mapPut m.guests d (mapPut (mapGet [] m.guests d) line g) }) s

/-- A line for an agent that keeps a copy under a lease: from its home, or from a live guest copy of its die
(R278, R279). The result is the data, the lease end and the WTS. -/
def fillLine (s : State) (a : CacheAgent) (key cache line : Nat) : LineCopy × State :=
  let h := homeDie (64 * line)
  let d := (dieOfAgent (some a)).getD h
  let s := { s with tick := s.tick + 1 }
  match mapFind (mapGet [] s.ms.guests d) line with
  | some g =>
    if d ≠ h ∧ cache = 0 ∧ ptsOf s (some (.llc d)) ≤ g.lease ∧ ptsOf s (some a) ≤ g.lease ∧ ¬ Config.evicted s.tick then
      (g, raisePts g.wts s (some a))
    else fromHome s h d
  | none => fromHome s h d
where
  /-- Read at the home; a line homed elsewhere leaves a guest copy when its page is LLC allocate and a set has room (R251, R279). -/
  fromHome (s : State) (h d : Nat) : LineCopy × State :=
    let s := meetLine (onMs (tallySlice (64 * line) 0x100) s) key cache line
    let data := lineData s key line
    let s := mergeV d h s
    let s := onMs (fun m => { m with guests := mapPut m.guests d (mapDel (mapGet [] m.guests d) line) }) s
    if d ≠ h ∧ cache = 0 ∧ roomReady s (guestSet d line) false then
      let (e, s) := readFill s (some (.llc d)) line
      let g : LineCopy := { data := data, lease := e, wts := (stampOf s line).wts, bad := lineBad s line }
      (g, raisePts g.wts (putGuest d line g s) (some a))
    else
      let (e, s) := readFill s (some a) line
      ({ data := data, lease := e, wts := (stampOf s line).wts, bad := lineBad s line }, s)

/-! ### Scratchpads: poison (R155, R259) and writes -/

/-- Bytes of a core's scratchpad carry poison. -/
def scratchBad (x : Core) (o n : Nat) : Bool :=
  !x.scratchPoison.isEmpty && (upTo n).any (fun i => (mapFind x.scratchPoison ((o + i) / 32)).isSome)

/-- The marks of the scratchpad after a write, as R348 gives them for memory. -/
def markScratch (bad : Bool) (o n : Nat) (x : Core) : Core :=
  let whole := fun (g : Nat) => decide (o ≤ 32 * g) && decide (32 * g + 32 ≤ o + n)
  if n = 0 then x
  else if bad then
    { x with scratchPoison := (upTo ((o + n - 1) / 32 + 1 - o / 32)).foldl (fun m i => mapPut m (o / 32 + i) ()) x.scratchPoison }
  else if x.scratchPoison.isEmpty then x
  else { x with scratchPoison := x.scratchPoison.filter (fun e => !whole e.1) }

/-- Marks bytes of the scratchpad as written in the window that holds them. -/
def stashMark (o n : Nat) (x : Core) : Core :=
  { x with stashes := x.stashes.map (fun (k, w) =>
      let own := (upTo n).filter (fun i => w.cfg.spbase ≤ o + i && o + i < w.cfg.spbase + w.cfg.len)
      (k, own.foldl (fun (w : Stash) i =>
        let b := o + i - w.cfg.spbase
        match mapFind w.lines (b / 64) with
        | some l => { w with lines := mapPut w.lines (b / 64) { l with dirty := if l.dirty.contains (b % 64) then l.dirty else l.dirty ++ [b % 64] } }
        | none => w) w)) }

/-- Writes bytes of a core's scratchpad, poisoned or not. -/
def putScratchAs (bad : Bool) (o : Nat) (bs : List Byte) (x : Core) : Core :=
  markScratch bad o bs.length (stashMark o bs.length { x with scratch := memStore x.scratch o bs })

/-- Writes bytes of a core's scratchpad. -/
def putScratch (o : Nat) (bs : List Byte) (x : Core) : Core := putScratchAs false o bs x

end Sys2Proof.Machine
end

