-- ==== Sys2Proof/Machine/Translate.lean ====
section
/-! DEFINITION. Translation: page tables (R251), the checks of R252, tensor 0 of a context (R27), and the accesses that
engines, the hub and the host make through a context's tables. -/

namespace Sys2Proof.Machine

/-! ### Cause codes (R150) -/

def causeIllegal : Nat := 0x01
def causeAlign : Nat := 0x02
def causeCfgbad : Nat := 0x03
def causeCfgid : Nat := 0x04
def causeStratum : Nat := 0x05
def causePagefault : Nat := 0x08
def causePerm : Nat := 0x09
def causeOwner : Nat := 0x0A
def causeOob : Nat := 0x0B
def causeAgovf : Nat := 0x0C
def causeMdpoison : Nat := 0x10
def causePoison : Nat := 0x11
def causeTbovf : Nat := 0x12
def causeSpillfull : Nat := 0x14
def causeSpillfault : Nat := 0x15
def causeStall : Nat := 0x18
def causeLsfloor : Nat := 0x19
def causeBrk : Nat := 0x1C
def causeSwtrap : Nat := 0x1D
def causePreempt : Nat := 0x1E

/-! ### Results of an access -/

/-- What an access gives: a value, a fault with its cause and the page it met, or a wait for readiness or order. -/
inductive Res (α : Type)
  | ok (a : α) (s : State)
  | fault (cause page : Nat) (s : State)
  | wait (s : State)
  deriving Repr

/-- Goes on with the value of an access. -/
def Res.andThen {α β : Type} (r : Res α) (f : α → State → Res β) : Res β :=
  match r with
  | .ok a s => f a s
  | .fault c p s => .fault c p s
  | .wait s => .wait s

/-- The state an access leaves. -/
def Res.state {α : Type} : Res α → State
  | .ok _ s => s
  | .fault _ _ s => s
  | .wait s => s

/-! ### Page tables (R251) -/

/-- The kinds of access that a page table entry allows (R251, R252). -/
inductive Access | read | write | both | fetch
  deriving DecidableEq, Repr

def pteAllows (e : Pte) : Access → Bool
  | .read => e.r
  | .write => e.w
  | .both => e.r && e.w
  | .fetch => e.x

/-- Why a walk gives no entry. -/
inductive WalkErr
  | clear
  | lost
  | wait
  deriving DecidableEq, Repr

/-- A walk read for a die: n bytes of a table at its home slice (R253, R347). -/
def walkRead (s : State) (die : Option Nat) (pa n : Nat) : Except WalkErr Nat :=
  if placeOf pa ≠ .hbm then .ok (ofBytes (absentBytes s pa n))
  else if !(hbmReady s pa && die.all (fun d => mergeReady s d (homeDie pa))) then .error .wait
  else if poisoned s pa n then .error .lost
  else .ok (ofBytes (((lineData s 0 (pa / 64)).drop (pa % 64)).take n))

/-- One upper level: the address of the next table. -/
def upperTable (s : State) (die : Option Nat) (table i : Nat) : Except WalkErr Nat :=
  match walkRead s die (table + 8 * i) 8 with
  | .error e => .error e
  | .ok x => if bit x 0 && bits x 1 11 == 0 && bits x 48 16 == 0 then .ok (bits x 12 36 * 4096) else .error .clear

/-- The fields of a leaf entry of 16 bytes; none when it counts as V clear. -/
def leafOf (page2m : Bool) (pa x : Nat) : Option Pte :=
  if bit x 32 && bits x 49 15 == 0 && bits x 88 8 == 0 && bits x 112 16 == 0 && bits x 36 2 != 3
      && (!page2m || bits x 0 5 == 0) then
    some { addr := pa, ppn := bits x 0 32, v := true, r := bit x 33, w := bit x 34, x := bit x 35, cache := bits x 36 2
           key := bits x 38 6, accthr := bits x 44 4, owner := bits x 64 12, home := bits x 76 12, cfgid := bits x 96 16 }
  else none

/-- The leaf entry of a page (R251). DESIGN CHOICE: notes/assumptions/14.md. -/
def walk (s : State) (die : Option Nat) (page2m : Bool) (ptb p : Nat) : Except WalkErr Pte :=
  match upperTable s die ptb (bits p 26 9) with
  | .error e => .error e
  | .ok t1 =>
    match upperTable s die t1 (bits p 17 9) with
    | .error e => .error e
    | .ok t2 =>
      match upperTable s die t2 (bits p 8 9) with
      | .error e => .error e
      | .ok t3 =>
        match walkRead s die (t3 + 16 * bits p 0 8) 16 with
        | .error e => .error e
        | .ok x => match leafOf page2m (t3 + 16 * bits p 0 8) x with | some e => .ok e | none => .error .clear

/-- The addresses that a walk reads, as far as it comes. -/
def walkAddrs (s : State) (die : Option Nat) (ptb p : Nat) : List Nat :=
  let a1 := ptb + 8 * bits p 26 9
  match upperTable s die ptb (bits p 26 9) with
  | .error _ => [a1]
  | .ok t1 =>
    match upperTable s die t1 (bits p 17 9) with
    | .error _ => [a1, t1 + 8 * bits p 17 9]
    | .ok t2 =>
      [a1, t1 + 8 * bits p 17 9, t2 + 8 * bits p 8 9] ++
        (match upperTable s die t2 (bits p 8 9) with | .error _ => [] | .ok t3 => [t3 + 16 * bits p 0 8])

/-- The reads of a walk as its home slices count them, and their replies as the walker's die merges them (R253, R280). -/
def walkReads (die : Option Nat) (ptb p : Nat) (s : State) : State :=
  (walkAddrs s die ptb p).foldl (fun s a =>
    if placeOf a = .hbm then
      let s := onMs (tallySlice a 0x100) s
      match die with | some d => mergeV d (homeDie a) s | none => s
    else s) s

/-- Whether a page number maps the trigger counters (R296). -/
def counterPage (ppn : Nat) : Bool := decide (0xF00000 ≤ ppn) && decide (ppn ≤ 0xF00031)

/-- Where a translated access goes. -/
structure Target where
  pa : Nat
  cache : Nat
  key : Nat
  home : Nat
  /-- The page of the tensor it was translated from. -/
  page : Nat := 0
  /-- The context it was translated for. -/
  ctx : Nat := 0
  deriving DecidableEq, Repr

/-- The checks of R252 after the walk, in their order; `cfgid` is the graph's loaded identity, none for pilots, copies
and the host. -/
def checkPte (e : Pte) (acc : Access) (ctx : Nat) (cfgid : Option Nat) (off : Nat) : Except Nat Target :=
  if !pteAllows e acc then .error causePerm
  else if e.owner ≠ ctx then .error causeOwner
  else if e.cfgid ≠ 0 ∧ cfgid.any (· ≠ e.cfgid) then .error causeCfgid
  else .ok { pa := e.ppn * 65536 + off, cache := if counterPage e.ppn then 2 else e.cache
             key := if counterPage e.ppn then 0 else e.key, home := e.home, ctx := ctx }

/-- Bytes of a page. -/
def pageSize (page2m : Bool) : Nat := if page2m then 2097152 else 65536

/-- A context's view of tensor 0 (R27). -/
structure View where
  ctx : Nat := 0
  ptb : Nat := 0
  page2m : Bool := false
  /-- The die whose walkers serve it. -/
  die : Option Nat := none
  deriving DecidableEq, Repr

/-- Translate for tensor 0: byte va of the context (R27, R252). The result carries the page number on a fault.
DESIGN CHOICE: notes/assumptions/14.md. -/
def translate (s : State) (v : View) (va : Nat) (acc : Access) : Res Target :=
  if Config.tensor0End ≤ va then .fault causeOob (2 ^ 35 - 1) s
  else
    let p := va / pageSize v.page2m
    let r := walk s v.die v.page2m v.ptb p
    let s := walkReads v.die v.ptb p s
    match r with
    | .error .clear => .fault causePagefault p s
    | .error .lost => .fault causeMdpoison p s
    | .error .wait => .wait s
    | .ok e =>
      match checkPte e acc v.ctx none (va % pageSize v.page2m) with
      | .error c => .fault c p s
      | .ok t => .ok { t with page := p } s

/-! ### Accesses at a translated address -/

/-- The entry of a chip in the chip route table (R346). -/
def routeEntry (s : State) (chip : Nat) : Nat := bits (mapGet 0 s.hub.cwrt (chip / 8)).toNat (8 * (chip % 8)) 8

/-- The way of a message to a chip: by a causeway port, not yet because the port is still to be trained (R91), or none because
the entry is invalid or the port has failed (R300, R346). -/
inductive Way
  | port (p : Nat)
  | later
  | gone
  deriving DecidableEq, Repr

/-- The way to a chip. DEDUCED: notes/assumptions/78.md. -/
def wayTo (s : State) (chip : Nat) : Way :=
  let e := routeEntry s chip
  let p := bits e 0 4
  if !bit e 7 || decide (12 ≤ p) then .gone
  else if bit s.host.readymap.toNat (32 + p) then .port p
  else if bit s.host.lost.toNat (32 + p) then .gone
  else .later

/-- A message leaves by a port (R293, R346). -/
def sendMsg (p : Nat) (m : ChipMsg) (s : State) : State :=
  tallyHub 0x303 (onMs (fun x => { x with outbound := x.outbound ++ [{ m with src := s.hub.chipid, port := p }] }) s)

/-- A message that no unit waits for leaves, waits for its port to be trained (R91), or ends (R300). -/
def tellChip (m : ChipMsg) (s : State) : State :=
  match wayTo s m.chip with
  | .port p => sendMsg p m s
  | .later => onMs (fun x => { x with unsent := x.unsent ++ [m] }) s
  | .gone => s

/-- The messages that waited for a port go on (R91). -/
def sendUnsent (s : State) : State := s.ms.unsent.foldl (fun s m => tellChip m s) (onMs (fun x => { x with unsent := [] }) s)

/-- A message that asks for an answer leaves, and is remembered until the answer comes. -/
def sendFar (p : Nat) (agent : Option CacheAgent) (entry : Nat) (m : ChipMsg) (s : State) (va : Nat := 0) : State :=
  let r : FarReq := { id := s.tick, agent := agent, entry := entry, chip := m.chip, body := m.body, va := va }
  sendMsg p { m with id := s.tick, author := authorOf s agent m.chip } (onMs (fun x => { x with far := x.far ++ [r] }) { s with tick := s.tick + 1 })

/-- A message asks for a write. -/
def isWrite : ChipBody → Bool
  | .write _ _ _ => true
  | _ => false

/-- The answer to message `id` has come (R293, R300): a write is done with, but for a pilot's that ended, which its pilot is told of;
the unit that asked takes any other answer. A port takes the answer to a write whose poison it must report (R348). -/
def answerFar (id : Nat) (b : ChipBody) (s : State) : State :=
  let told := fun (r : FarReq) => b == .ended && (match r.agent with | some (.pilot _) => true | _ => false : Bool)
  onMs (fun x => { x with far := x.far.filterMap (fun r =>
    if r.id ≠ id then some r else if isWrite r.body && !told r && decide (r.entry < 256) then none else some { r with answer := some b }) }) s

/-- A unit asks another chip and takes the answer once it has come (R252, R293); a message that has no way ends (R300, R346). A move
that must wait for one answer takes those it has already used again. -/
def farAsk (s : State) (agent : Option CacheAgent) (entry : Nat) (m : ChipMsg) : Res ChipBody :=
  let live := s.ms.far.filter (fun r => r.used == none || r.used == some s.moves)
  let put := fun (f : FarReq → FarReq) => onMs (fun x => { x with far := live.map f }) s
  let again := put (fun r => { r with used := none })
  match live.find? (fun r => r.used == none && r.agent == agent && r.entry == entry && r.chip == m.chip && r.body == m.body) with
  | some r =>
    match r.answer with
    | some b => .ok b (put (fun q => if q.id = r.id then { q with used := some s.moves } else q))
    | none => .wait again
  | none =>
    match wayTo s m.chip with
    | .port p => .wait (sendFar p agent entry m again)
    | .later => .wait again
    | .gone => .ok .ended s

/-- Whether no write of a unit to another chip is still to be performed there. -/
def farSettled (s : State) (agent : CacheAgent) : Bool :=
  !s.ms.far.any (fun r => r.agent == some agent && isWrite r.body && r.answer.isNone)

/-- Whether a unit waits for the answer of another chip. -/
def farWaits (s : State) (agent : CacheAgent) : Bool :=
  s.ms.far.any (fun r => r.agent == some agent && r.used == none && !isWrite r.body)

/-- Forgets what a unit has asked of other chips. -/
def forgetFar (agent : CacheAgent) (s : State) : State :=
  onMs (fun x => { x with far := x.far.filter (fun r => r.agent != some agent) }) s

/-- Where a translated access lands on the chip its page names. -/
def Target.far (t : Target) : FarPlace := .phys t.pa t.cache t.key

/-- The place of a translated access is no memory: mapped counters or service registers, of whichever chip, where an engine's
access raises PERM (R296, R345). -/
def specialTarget (t : Target) : Bool :=
  match placeOf t.pa with
  | .hbm => false
  | .host => false
  | .absent => false
  | _ => true

/-- Whether tensor 0 maps a special place at a byte address for an access. -/
def specialFlat (s : State) (v : View) (acc : Access) (va : Nat) : Bool :=
  match translate s v va acc with
  | .ok t _ => specialTarget t
  | _ => false

/-- Goes on with a message to a chip while there is a way to it; without one the access ends with PERM (R300).
DEDUCED: notes/assumptions/78.md. -/
def withWay {α : Type} (s : State) (chip page : Nat) (k : Nat → Res α) : Res α :=
  match wayTo s chip with
  | .port p => k p
  | .later => .wait s
  | .gone => .fault causePerm page s

/-- The bytes, poison and scale mark of the answer to a read of n bytes. -/
def answerBytes (n page : Nat) (b : ChipBody) (s : State) : Res (List Byte × Bool × Bool) :=
  match b with
  | .reply bs bad scale => .ok ((bs ++ List.replicate n 0).take n, bad, scale) s
  | _ => .fault causePerm page s

/-- A read of n bytes at another chip (R252). -/
def readFar (s : State) (a : Option CacheAgent) (t : Target) (n : Nat) : Res (List Byte × Bool × Bool) :=
  (farAsk s a 0 { chip := t.home, ctx := t.ctx, body := .read t.far n }).andThen fun b s => answerBytes n t.page b s

/-- A read of n bytes inside one line at a translated address, for an agent that keeps no copy: the bytes and whether
they carry poison. -/
def readTarget (s : State) (a : Option CacheAgent) (t : Target) (n : Nat) : Res (List Byte × Bool) :=
  if specialTarget t then .fault causePerm t.page s
  else if t.home ≠ s.hub.chipid then (readFar s a t n).andThen fun r s => .ok (r.1, r.2.1) s
  else
    match placeOf t.pa with
    | .hbm =>
      if readReady s a t.cache t.pa then
        let bad := poisoned s t.pa n
        let (b, s) := performRead s a t.key t.cache t.pa n
        .ok (b, bad) s
      else .wait s
    | .host => .ok (memBytes s.host.mem t.pa n, false) s
    | .absent => .ok (absentBytes s t.pa n, false) { s with tick := s.tick + 1 }
    | _ => .fault causePerm t.page s

/-- The line at a translated address and the marks of its two granules; one of another chip comes granule by granule (R252, R348). -/
def readLine (s : State) (a : Option CacheAgent) (t : Target) : Res (List Byte × Nat) :=
  let part := fun (h n : Nat) (s : State) => readTarget s a { t with pa := t.pa - t.pa % 64 + 32 * h } n
  if t.home = s.hub.chipid then
    (part 0 64 s).andThen fun r s => .ok (r.1, if placeOf t.pa = .hbm then lineBad s (t.pa / 64) else 0) s
  else
    (part 0 32 s).andThen fun lo s => (part 1 32 s).andThen fun hi s => .ok (lo.1 ++ hi.1, ofBool lo.2 + 2 * ofBool hi.2) s

/-- Stores those of the bytes that are present in host memory (R88, R89). -/
def hostPuts : Nat → List (Option Byte) → State → State
  | _, [], s => s
  | a, none :: bs, s => hostPuts (a + 1) bs s
  | a, some b :: bs, s => hostPuts (a + 1) bs (onHost (fun h => { h with mem := memSet h.mem a b }) s)

/-- A write at another chip leaves (R252); `va` is the address that a pilot's store names. -/
def writeFar (s : State) (a : Option CacheAgent) (va : Nat) (t : Target) (bs : List (Option Byte)) (bad : Bool) : Res Unit :=
  withWay s t.home t.page fun p => .ok () (sendFar p a 0 { chip := t.home, ctx := t.ctx, body := .write t.far bs bad } s va)

/-- A write of bytes inside one line at a translated address; `far` is the author whom a message of another chip names. -/
def writeTarget (s : State) (a : Option CacheAgent) (t : Target) (bs : List (Option Byte)) (bad : Bool)
    (far : Option Author := none) : Res Unit :=
  if specialTarget t then .fault causePerm t.page s
  else if t.home ≠ s.hub.chipid then writeFar s a 0 t bs bad
  else
    match placeOf t.pa with
    | .hbm =>
      if writeReady s a t.cache t.pa far then .ok () (performWrite (crossDie a t.pa s) a t.key t.cache t.pa bs bad far) else .wait s
    | .host => .ok () (hostPuts t.pa bs s)
    | .absent => .ok () s
    | _ => .fault causePerm t.page s

/-- Reads n bytes of tensor 0 in pieces that stay inside one line; `fuel` bounds the pieces. -/
def readFlatGo (a : Option CacheAgent) (v : View) (acc : Access) : Nat → Nat → Nat → State → Res (List Byte × Bool)
  | 0, _, _, s => .ok ([], false) s
  | fuel + 1, va, n, s =>
    if n = 0 then .ok ([], false) s
    else
      let k := min n (64 - va % 64)
      (translate s v va acc).andThen (fun t s =>
        (readTarget s a t k).andThen (fun (b, bad) s =>
          (readFlatGo a v acc fuel (va + k) (n - k) s).andThen (fun (bs, bad') s => .ok (b ++ bs, bad || bad') s)))

/-- Reads n bytes of tensor 0 of a context. -/
def readFlat (s : State) (a : Option CacheAgent) (v : View) (va n : Nat) : Res (List Byte × Bool) :=
  readFlatGo a v .read (n / 64 + 2) va n s

/-- Translates every line of a range for an access before any byte of it moves. -/
def probeFlatGo (v : View) (acc : Access) (a : Option CacheAgent) : Nat → Nat → Nat → State → Res Unit
  | 0, _, _, s => .ok () s
  | fuel + 1, va, n, s =>
    if n = 0 then .ok () s
    else
      let k := min n (64 - va % 64)
      (translate s v va acc).andThen (fun t s =>
        if specialTarget t then .fault causePerm t.page s
        else if t.home ≠ s.hub.chipid then withWay s t.home t.page fun _ => probeFlatGo v acc a fuel (va + k) (n - k) s
        else if placeOf t.pa = .hbm ∧ ¬ writeReady s a t.cache t.pa then .wait s
        else probeFlatGo v acc a fuel (va + k) (n - k) s)

def writeFlatGo (a : Option CacheAgent) (v : View) (bad : Bool) : Nat → Nat → List (Option Byte) → State → Res Unit
  | 0, _, _, s => .ok () s
  | fuel + 1, va, bs, s =>
    if bs.isEmpty then .ok () s
    else
      let k := min bs.length (64 - va % 64)
      (translate s v va .write).andThen (fun t s =>
        (writeTarget s a t (bs.take k) bad).andThen (fun _ s => writeFlatGo a v bad fuel (va + k) (bs.drop k) s))

/-- Writes bytes of tensor 0 of a context; a fault or wait on any of them comes before the first is written. -/
def writeFlat (s : State) (a : Option CacheAgent) (v : View) (va : Nat) (bs : List (Option Byte)) (bad : Bool) :
    Res Unit :=
  (probeFlatGo v .write a (bs.length / 64 + 2) va bs.length s).andThen
    (fun _ s => writeFlatGo a v bad (bs.length / 64 + 2) va bs s)

/-! ### Isles and contexts of cores -/

/-- The context's view of tensor 0 that a core uses (R27). -/
def viewOf (s : State) (c : Nat) : View :=
  let i := isleOfCore s c
  { ctx := i.ctx, ptb := i.t0ptb, page2m := i.t0page2m, die := some (dieOfCore c) }

/-- The origin core of an isle, whose pilot is the lead (R101). -/
def leadOf (i : Isle) : Nat := i.die * 1600 + i.y0 * 40 + i.x0

/-- The core at an offset from the origin of an isle (R9). -/
def coreAt (i : Isle) (dx dy : Int) : Option Nat :=
  if 0 ≤ dx ∧ dx < i.width ∧ 0 ≤ dy ∧ dy < i.height then
    some (i.die * 1600 + (i.y0 + dy.toNat) * 40 + i.x0 + dx.toNat)
  else none

/-- Whether an isle holds its cores for its context at this moment. -/
def phaseHolds : Phase → Bool
  | .free => false
  | .held => false
  | .saved => false
  | _ => true

/-- Whether a core is held by a launch of a context that is not drained or saved. -/
def coreRuns (s : State) (c ctx : Nat) : Bool :=
  match (coreOf s c).isle with
  | some i =>
    let k := isleOf s i
    k.ctx == ctx && (match k.phase with | .loading => k.resume.isNone | .running => true | .ending _ => true | _ => false)
  | none => false

/-- The saved launch of a context that is being resumed onto a core, and the core's place in it (R352). -/
def resumingAt (s : State) (c ctx : Nat) : Option (Nat × Nat) :=
  match (coreOf s c).isle with
  | some i =>
    let k := isleOf s i
    if k.ctx == ctx && k.phase == .loading then k.resume.map (fun r => (r.id, rowPlace k c)) else none
  | none => none

/-- The isle that is draining on a core for a context. -/
def drainingIsle (s : State) (c ctx : Nat) : Option Nat :=
  match (coreOf s c).isle with
  | some i =>
    let k := isleOf s i
    if k.ctx == ctx && (k.phase == .drain || k.phase == .owed) then some i else none
  | none => none

/-- Whether a core belonged to a saved isle of a context when it was saved. -/
def savedHere (k : Cocoon) (c ctx : Nat) : Bool := k.ctx == ctx && (isleCores k.isle).contains c

/-- The place that a core has in a saved launch of a context: that of its resume onto the core, else where it was saved. -/
def savedPlace (s : State) (k : Cocoon) (c ctx : Nat) : Option Nat :=
  match resumingAt s c ctx with
  | some (id, j) => if k.id = id then some j else none
  | none => if savedHere k c ctx then some (rowPlace k.isle c) else none

/-- Whether a core is held by a context, a drained or saved launch included (R296, R300). -/
def coreHeld (s : State) (c ctx : Nat) : Bool :=
  coreRuns s c ctx || (drainingIsle s c ctx).isSome || (resumingAt s c ctx).isSome || s.hub.saved.any (fun k => savedHere k c ctx)

/-- Counter k of a core as its context sees it: that of the launch on the core, else of the saved launch that holds it (R296). -/
def heldCounter (s : State) (c ctx k : Nat) : Word :=
  if coreRuns s c ctx || (drainingIsle s c ctx).isSome then (coreOf s c).counters.toList.getD k 0
  else
    match s.hub.saved.findSome? (fun q => (savedPlace s q c ctx).bind (fun j => q.cores[j]?)) with
    | some x => x.counters.toList.getD k 0
    | none => 0

end Sys2Proof.Machine
end

