-- ==== Sys2Proof/Machine/Sections.lean ====
section
/-! DEFINITION. The sections of a cocoon (R353, R371): what a save writes for each class, and how a restore reads it back.
R353 gives the contents of a class and their order; the words of each and what follows them are notes/assumptions/32.md. -/

namespace Sys2Proof.Machine

/-! ### Tokens (R164) -/

/-- The 12 control bits of a token. -/
def Tok.control (t : Tok) : Nat :=
  t.lmask.toNat + 16 * ofBool t.abort + 32 * ofBool t.retract + 64 * ofBool t.poison + 128 * t.level +
  1024 * (match t.kind with | .data => 0 | .scale => 1 | .mark => 2 | .ctrl => 3)

/-- A token from its data and control field. -/
def tokOf (data : Quad) (ctl : Nat) : Tok :=
  { data := data, kind := (match bits ctl 10 2 with | 0 => .data | 1 => .scale | 2 => .mark | _ => .ctrl), level := bits ctl 7 3
    poison := bit ctl 6, retract := bit ctl 5, abort := bit ctl 4, lmask := BitVec.ofNat 4 ctl }

/-! ### Words -/

/-- Values as 8-byte words. -/
def words8 (xs : List Nat) : List Byte := xs.flatMap (toBytes 8)

/-- At most n words of bytes. -/
def wordsGo : Nat → List Byte → List Nat
  | 0, _ => []
  | n + 1, b => ofBytes (b.take 8) :: wordsGo n (b.drop 8)

/-- The 8-byte words of bytes. -/
def wordsOf (b : List Byte) : List Nat := wordsGo (ceilDiv b.length 8) b

/-- Flags packed from bit 0. -/
def packBits : List Bool → Nat
  | [] => 0
  | b :: bs => ofBool b + 2 * packBits bs

/-- Reads a value from the front of words. -/
abbrev Get (α : Type) := List Nat → α × List Nat

/-- Reads n values. -/
def getMany {α : Type} (g : Get α) : Nat → Get (List α)
  | 0, ws => ([], ws)
  | n + 1, ws =>
    let a := g ws
    let r := getMany g n a.2
    (a.1 :: r.1, r.2)

/-- A list: its length, then its values. -/
def putList {α : Type} (f : α → List Nat) (xs : List α) : List Nat := xs.length :: xs.flatMap f

def getList {α : Type} (g : Get α) : Get (List α) := fun ws => getMany g (min (ws.headD 0) ws.length) (ws.drop 1)

def getWord : Get Nat := fun ws => (ws.headD 0, ws.drop 1)

def putNats (xs : List Nat) : List Nat := putList (fun n => [n]) xs

def getNats : Get (List Nat) := getList getWord

/-- Two words. -/
def getPair : Get (Nat × Nat) := fun ws => ((ws.getD 0 0, ws.getD 1 0), ws.drop 2)

/-- Three words. -/
def getTriple : Get (Nat × Nat × Nat) := fun ws => ((ws.getD 0 0, ws.getD 1 0, ws.getD 2 0), ws.drop 3)

/-- Something that may be absent, as a list of at most one. -/
def putOpt {α : Type} (f : α → List Nat) (x : Option α) : List Nat := putList f x.toList

def getOpt {α : Type} (g : Get α) : Get (Option α) := fun ws => let r := getList g ws; (r.1.head?, r.2)

/-- A map: its entries by rising key. -/
def putMap {α : Type} (f : α → List Nat) (m : Map α) : List Nat := putList (fun e => e.1 :: f e.2) m

def getEntry {α : Type} (g : Get α) : Get (Nat × α) := fun ws => let r := g (ws.drop 1); ((ws.headD 0, r.1), r.2)

def getMap {α : Type} (g : Get α) : Get (Map α) := fun ws =>
  let r := getList (getEntry g) ws
  (r.1.foldl (fun m e => mapPut m e.1 e.2) [], r.2)

/-- Signed numbers as 64-bit words. -/
def putInts (xs : List Int) : List Nat := putNats (xs.map (wrap 64))

def getInts : Get (List Int) := fun ws => let r := getNats ws; (r.1.map (sext 64), r.2)

/-! ### Tokens and requests in words -/

/-- A queued token, 32 bytes: its data, its control field with a place above it, and the WTS it carries. -/
def tokWords (place : Nat) (t : Tok) : List Nat :=
  [bits t.data.toNat 0 64, bits t.data.toNat 64 64, t.control + 2 ^ 16 * place, t.wts.toNat]

def getTok : Get (Nat × Tok) := fun ws =>
  let c := ws.getD 2 0
  ((c / 2 ^ 16, { tokOf (BitVec.ofNat 128 (ws.getD 0 0 + 2 ^ 64 * ws.getD 1 0)) (c % 2 ^ 12) with wts := BitVec.ofNat 64 (ws.getD 3 0) }), ws.drop 4)

def putToks (ts : List Tok) : List Nat := putList (tokWords 0) ts

def getToks : Get (List Tok) := fun ws => let r := getList getTok ws; (r.1.map (fun e => e.2), r.2)

def reqWords (r : Req) : List Nat :=
  [r.tid, packBits [r.write, r.commut, r.empty], r.slot, r.index] ++ putOpt (fun n => [n]) r.chip ++ putInts r.coord

def getReq : Get Req := fun ws =>
  let f := ws.getD 1 0
  let c := getOpt getWord (ws.drop 4)
  let x := getInts c.2
  ({ tid := ws.getD 0 0, coord := x.1, write := bit f 0, commut := bit f 1, chip := c.1, slot := ws.getD 2 0, index := ws.getD 3 0, empty := bit f 2 }, x.2)

/-! ### Exact accumulators and table entries (R50, R200, R210) -/

/-- PINF, NINF, NAN and OVF from bit 0. -/
def stickyBits (x : X160) : Nat := ofBool x.pinf + 2 * ofBool x.ninf + 4 * ofBool x.nan + 8 * ofBool x.ovf

/-- Sets the sticky bits of an accumulator. -/
def withSticky (n : Nat) (x : X160) : X160 := { x with pinf := bit n 0, ninf := bit n 1, nan := bit n 2, ovf := bit n 3 }

/-- An accumulator in three words: N, then COUNT with the sticky bits and RISK. -/
def accWords (e : X160) : List Nat :=
  [bits e.n.toNat 0 64, bits e.n.toNat 64 64, bits e.n.toNat 128 32 + 2 ^ 32 * (e.count + 2 ^ 17 * (stickyBits e + 16 * ofBool e.risk))]

def getAcc : Get X160 := fun ws =>
  let w := ws.getD 2 0
  (withSticky (bits w 49 4) { n := BitVec.ofNat 160 (ws.getD 0 0 + 2 ^ 64 * ws.getD 1 0 + 2 ^ 128 * bits w 0 32), count := bits w 32 17, risk := bit w 53 },
   ws.drop 3)

/-- FLAGS of an HA entry. -/
def HaSlot.flagBits (e : HaSlot) : Nat := 1 + 2 * ofBool e.del + 4 * ofBool e.changed + 8 * ofBool e.poison

/-- The values of a tile in row-major order. -/
def tileOf (m : Map X160) : List X160 := (upTo 1024).map (fun i => mapGet {} m i)

/-- The bytes of an entry in a table form (R200). -/
def HaSlot.bytes (form : Nat) (e : HaSlot) : List Byte :=
  let tail := toBytes 2 e.round.toNat ++ toBytes 2 e.flagBits
  match form with
  | 0 => toBytes 8 e.key.toNat ++ toBytes 8 e.weight.toNat ++ toBytes 8 e.wit.toNat ++ tail ++ toBytes 4 0
  | 1 =>
    toBytes 8 e.key.toNat ++ toBytes 20 e.x.n.toNat ++
    toBytes 4 (e.x.count + 2 ^ 17 * (stickyBits e.x + 16 * ofBool e.x.risk)) ++ tail ++ toBytes 12 0
  | _ =>
    let st := (tileOf e.tile).map stickyBits
    toBytes 8 e.key.toNat ++ toBytes 8 (e.x.count + 2 ^ 17 * ofBool e.x.risk) ++ tail ++ toBytes 12 0 ++
    (tileOf e.tile).flatMap (fun x => toBytes 20 x.n.toNat) ++
    (upTo 512).flatMap (fun i => toBytes 1 (st.getD (2 * i) 0 + 16 * st.getD (2 * i + 1) 0))

/-- The slot size of a form (R197). -/
def slotBytesOf (form : Nat) : Nat := match form with | 0 => 32 | 1 => 48 | _ => 21024

/-- The entry that bytes hold in a table form; none when VALID is clear (R200). -/
def haSlotOf (form : Nat) (b : List Byte) : Option HaSlot :=
  let flagsAt := match form with | 0 => 26 | 1 => 34 | _ => 18
  let f := fieldAt b flagsAt 0 16
  let e : HaSlot := { key := BitVec.ofNat 64 (fieldAt b 0 0 64), round := BitVec.ofNat 16 (fieldAt b (flagsAt - 2) 0 16), del := bit f 1
                      changed := bit f 2, poison := bit f 3 }
  let e := match form with
    | 0 => { e with weight := BitVec.ofNat 64 (fieldAt b 8 0 64), wit := BitVec.ofNat 64 (fieldAt b 16 0 64) }
    | 1 => { e with x := withSticky (fieldAt b 28 17 4) { n := BitVec.ofNat 160 (fieldAt b 8 0 160), count := fieldAt b 28 0 17, risk := fieldAt b 28 21 1 = 1 } }
    | _ =>
      let v := fun (i : Nat) => withSticky (fieldAt b (20512 + i / 2) (4 * (i % 2)) 4) { n := BitVec.ofNat 160 (fieldAt b (32 + 20 * i) 0 160) }
      { e with x := { count := fieldAt b 8 0 17, risk := fieldAt b 8 17 1 = 1 }
               tile := (upTo 1024).foldl (fun m i => if v i = {} then m else mapPut m i (v i)) [] }
  if bit f 0 then some e else none

def HsSlot.bytes (e : HsSlot) : List Byte :=
  toBytes 8 e.key.toNat ++ toBytes 4 e.count ++ toBytes 4 (1 + 2 * ofBool e.del + 4 * ofBool e.poison)

/-- The entry of the HS that bytes hold (R210). -/
def hsSlotOf (b : List Byte) : Option HsSlot :=
  let f := fieldAt b 12 0 32
  if bit f 0 then some { key := BitVec.ofNat 64 (fieldAt b 0 0 64), count := fieldAt b 8 0 32, del := bit f 1, poison := bit f 2 } else none

/-! ### Reports (R342) -/

/-- The 64 bytes of a report record. -/
def reportBytes (r : Report) (seq : Nat) : List Byte :=
  toBytes 1 r.code ++ toBytes 1 r.source ++ toBytes 1 (r.slot % 64 + 64 * r.ch) ++
  toBytes 1 (ofBool r.commut + 2 * ofBool r.elem) ++ toBytes 4 (r.tid % 2 ^ 20 + 2 ^ 20 * r.coord.length) ++
  toBytes 8 r.val.toNat ++ toBytes 8 seq ++ (upTo 8).flatMap (fun i => toBytes 5 (wrap 40 (r.coord.getD i 0)))

/-- The report that a record holds. -/
def reportOf (b : List Byte) : Report :=
  { code := fieldAt b 0 0 8, source := fieldAt b 1 0 4, slot := fieldAt b 2 0 6, ch := fieldAt b 2 6 2, commut := fieldAt b 3 0 1 = 1
    elem := fieldAt b 3 1 1 = 1, tid := fieldAt b 4 0 20, val := BitVec.ofNat 64 (fieldAt b 8 0 64)
    coord := (upTo (fieldAt b 4 20 4)).map (fun i => sext 40 (fieldAt b (24 + 5 * i) 0 40)) }

def getReport : Get Report := fun ws => (reportOf (words8 (ws.take 8)), ws.drop 8)

/-- The launch record of 64 bytes (R23). -/
def parseLaunch (r : List Byte) : LaunchRec :=
  { raw := r, version := fieldAt r 0 0 8, prio := fieldAt r 1 0 6, ctx := fieldAt r 2 0 12, cfgid := fieldAt r 4 0 16
    width := fieldAt r 6 0 8, height := fieldAt r 7 0 8, image := fieldAt r 8 0 64, entry := fieldAt r 16 0 64
    params := fieldAt r 24 0 64, dep0 := fieldAt r 32 0 32, dep1 := fieldAt r 36 0 32, thr0 := fieldAt r 40 0 64
    thr1 := fieldAt r 48 0 64, doneDep := fieldAt r 56 0 32, flags := fieldAt r 60 0 16, tag := fieldAt r 62 0 16 }

/-! ### PILOT -/

/-- WAITONLY in bit 0, which wait it is above it, and what the wait holds in two more words (R352). -/
def stageWords : Stage → List Nat
  | .none => [0, 0, 0]
  | .goWait k => [3, k, 0]
  | .stopWait k => [5, k, 0]
  | .sbarWait => [7, 0, 0]
  | .waitDone => [9, 0, 0]
  | .cfgldWait => [11, 0, 0]
  | .drain => [13, 0, 0]
  | .drainWait => [15, 0, 0]
  | .walk j n => [17, j, n]
  | .vote => [19, 0, 0]
  | .restore => [21, 0, 0]
  | .step _ _ _ _ _ => [0, 0, 0]

def stageOf (w j n : Nat) : Stage :=
  match w with
  | 3 => .goWait j
  | 5 => .stopWait j
  | 7 => .sbarWait
  | 9 => .waitDone
  | 11 => .cfgldWait
  | 13 => .drain
  | 15 => .drainWait
  | 17 => .walk j n
  | 19 => .vote
  | 21 => .restore
  | _ => .none

/-- g0–g31, PC, the trap registers, WAITONLY, the event latch, the selected slot, the report queue; then the waits' words, the
counts of reports, the launches that LWAIT knows, and the reports not yet queued. -/
def pilotState (p : Pilot) (selected : Option Nat) : List Nat :=
  (upTo 32).map (fun r => (p.regs.toList.getD r 0).toNat) ++
  [p.pc.toNat, p.trapCause.toNat, p.trapPc.toNat, p.trapVal.toNat, p.trapVec.toNat, ofBool p.inTrap, (stageWords p.stage).headD 0,
   ofBool p.eventLatch, selected.getD 4, p.reports.length] ++
  p.reports.zipIdx.flatMap (fun (r, k) => wordsOf (reportBytes r (p.reportSeq - p.reports.length + k + 1))) ++
  (stageWords p.stage).drop 1 ++ stageWords p.savedStage ++ [p.fixRounds, p.reportSeq, p.reportsTaken, ofBool p.running] ++ putNats p.launches ++
  putList (fun r => wordsOf (reportBytes r 0) ++ [r.page, packBits [r.bank, r.write, r.parked]]) p.raised

/-- A report not yet queued. -/
def getRaised : Get Report := fun ws =>
  let f := ws.getD 9 0
  ({ reportOf (words8 (ws.take 8)) with page := ws.getD 8 0, bank := bit f 0, write := bit f 1, parked := bit f 2 }, ws.drop 10)

def readPilot (ws : List Nat) (x : Core) : Core × List Nat :=
  let w := fun (i : Nat) => ws.getD i 0
  let v := fun (i : Nat) => BitVec.ofNat 64 (w i)
  let rs := getMany getReport (min (w 41) 16) (ws.drop 42)
  let e := fun (i : Nat) => rs.2.getD i 0
  let la := getNats (rs.2.drop 9)
  let ra := getList getRaised la.2
  let p : Pilot :=
    { x.pilot with regs := Vector.ofFn (fun (i : Fin 32) => v i.val), pc := v 32, trapCause := v 33, trapPc := v 34, trapVal := v 35, trapVec := v 36
                   inTrap := bit (w 37) 0, stage := stageOf (w 38) (e 0) (e 1), eventLatch := bit (w 39) 0, reports := rs.1
                   savedStage := stageOf (e 2) (e 3) (e 4), fixRounds := e 5, reportSeq := e 6, reportsTaken := e 7, running := bit (e 8) 0
                   launches := la.1, raised := ra.1 }
  ({ x with pilot := p, selected := if w 40 < 4 then some (w 40) else none }, ra.2)

/-! ### POSTED (R297) -/

/-- The range of LADDR lies in tensor 0 or inside the window (R148). -/
def laddrOk (a n : Nat) : Bool :=
  !(decide (Config.windowBase ≤ a) && decide (a < Config.windowBase + Config.scratchBytes)) || decide (a + n ≤ Config.windowBase + Config.scratchBytes)

/-- The 64-byte record; none where NPOST refuses it (R297). CHAINs are checked against the table apart. -/
def parsePost (r : List Byte) : Option PostRec :=
  let act := fieldAt r 1 0 3
  let len := fieldAt r 40 0 24
  let n := bits len 0 3
  let p : PostRec :=
    { trigk := fieldAt r 0 0 6, action := act, donek := fieldAt r 2 0 6, doneken := fieldAt r 2 6 1 = 1
      periodic := fieldAt r 3 0 1 = 1, template := fieldAt r 3 1 1 = 1, thresh := fieldAt r 8 0 64
      period := fieldAt r 16 0 64, laddr := fieldAt r 24 0 64, raddr := fieldAt r 32 0 64, len := len
      chip := fieldAt r 44 0 12, core := fieldAt r 46 0 13, rk := fieldAt r 48 0 6, rken := fieldAt r 48 6 1 = 1
      slots := if act = 4 then (upTo n).map (fun i => fieldAt r (49 + i) 0 8) else [], rinc := BitVec.ofNat 64 (fieldAt r 56 0 64) }
  let reserved := fieldAt r 0 6 2 + fieldAt r 1 3 5 + fieldAt r 2 7 1 + fieldAt r 3 2 6 + fieldAt r 4 0 32 + fieldAt r 43 0 8 +
    fieldAt r 44 12 4 + fieldAt r 46 13 3 + fieldAt r 48 7 1 + (if act = 4 then fieldAt r 55 0 8 else fieldAt r 49 0 56)
  let actOk : Bool := match act with
    | 0 => decide (len ≠ 0) && laddrOk p.laddr len
    | 1 => decide (len ≠ 0) && laddrOk p.laddr len
    | 2 => decide (bits len 0 4 ≤ 8) && decide (2 ≤ bits len 4 2) && decide (bits len 6 18 = 0) &&
           (decide (p.laddr = 0) || laddrOk p.laddr (2 ^ bits len 4 2))
    | 3 => decide (bits len 4 20 = 0) && (!bit len 3 || decide (5 ≤ bits len 0 3))
    | _ => decide (1 ≤ n) && decide (n ≤ 6) && decide (bits len 3 21 = 0) && !p.template && !p.rken
  if reserved = 0 ∧ act ≤ 4 ∧ (¬ p.periodic ∨ p.period ≠ 0) ∧ p.core < 6400 ∧ actOk then some p else none

/-- The state of an entry: 1 armed, 2 in progress. -/
def pstateCode : PState → Nat
  | .armed => 1
  | .ready _ => 1
  | .inProgress _ => 2
  | .parked _ => 2

/-- The state in full: armed, ready at a clk, in progress or parked with its place among the firings. -/
def pstateWords : PState → List Nat
  | .armed => [0, 0]
  | .ready n => [1, n]
  | .inProgress n => [2, n]
  | .parked n => [3, n]

def pstateOf (code kind n : Nat) : PState :=
  if code = 1 then (if kind = 1 then .ready n else .armed) else if kind = 3 then .parked n else .inProgress n

/-- 256 entries of 80 bytes, then the words of those in use. -/
def postedSection (x : Core) : List Byte :=
  (upTo 256).flatMap (fun e => match mapFind x.posted e with
    | some p => (p.raw ++ List.replicate 64 0).take 64 ++ words8 [pstateCode p.state, p.thresh]
    | none => List.replicate 80 0) ++
  words8 (x.fireSeq :: putMap (fun p => pstateWords p.state ++ [packBits [p.fired, p.cancelled], p.chainPos, p.lastCause, p.lastPage] ++
    putOpt (fun b => [ofBool b]) p.moved) x.posted)

/-- What follows an entry's state. -/
structure PostMore where
  kind : Nat := 0
  n : Nat := 0
  flags : Nat := 0
  chainPos : Nat := 0
  lastCause : Nat := 0
  lastPage : Nat := 0
  moved : Option Bool := none

def getPostMore : Get PostMore := fun ws =>
  let w := fun (i : Nat) => ws.getD i 0
  let m := getOpt getWord (ws.drop 6)
  ({ kind := w 0, n := w 1, flags := w 2, chainPos := w 3, lastCause := w 4, lastPage := w 5, moved := m.1.map (fun n => bit n 0) }, m.2)

def readPosted (b : List Byte) (x : Core) : Core :=
  let ws := wordsOf (b.drop 20480)
  let more := (getMap getPostMore (ws.drop 1)).1
  let entry := fun (e : Nat) =>
    let r := (b.drop (80 * e)).take 80
    let code := fieldAt r 64 0 64
    let m := mapGet ({} : PostMore) more e
    if code = 0 then none
    else (parsePost (r.take 64)).map fun p =>
      ({ post := p, raw := r.take 64, thresh := fieldAt r 72 0 64, state := pstateOf code m.kind m.n, fired := bit m.flags 0
         cancelled := bit m.flags 1, chainPos := m.chainPos, lastCause := m.lastCause, lastPage := m.lastPage, moved := m.moved } : Posted)
  { x with fireSeq := ws.headD 0
           posted := (upTo 256).foldl (fun m e => match entry e with | some p => mapPut m e p | none => m) [] }

/-! ### ELEMENT, CHANNEL and AG -/

/-- Every row of an element's local memory in a full save, else those that hold anything. -/
def savedRows (full : Bool) (y : Elem) : Map Quad := if full then (upTo 1536).map (fun k => (k, mapGet 0 y.rows k)) else y.rows

/-- c0–c3, ended, the DELAY positions, the rows, and the row poison bits; then the waves that have entered and the flags. No wave is
in flight between two moves, so that no stage bank holds one. -/
def elemWords (full : Bool) (y : Elem) : List Nat :=
  (upTo 4).map (fun i => y.c.getD i 0) ++ [ofBool y.ended] ++ putMap (fun n => [n]) y.dlyPos ++
  putMap (fun (v : Quad) => [bits v.toNat 0 64, bits v.toNat 64 64]) (savedRows full y) ++ putMap (fun (b : BitVec 4) => [b.toNat]) y.rowPoison ++
  [y.waves, y.flags.toNat]

def readElem (ws : List Nat) : Elem :=
  let d := getMap getWord (ws.drop 5)
  let r := getMap getPair d.2
  let p := getMap getWord r.2
  { c := (upTo 4).map (fun i => ws.getD i 0), ended := bit (ws.getD 4 0) 0, dlyPos := d.1
    rows := (r.1.map (fun (k, v) => (k, BitVec.ofNat 128 (v.1 + 2 ^ 64 * v.2)))).filter (fun e => e.2 != 0), rowPoison := p.1.map (fun (k, n) => (k, BitVec.ofNat 4 n))
    waves := p.2.getD 0 0, flags := BitVec.ofNat 7 (p.2.getD 1 0) }

/-- The queue of a token of a CHANNEL section: 0 an input channel, 1 an exit queue, 2 the wire of a route; with its key. -/
def queueTok (kind key : Nat) (t : Tok) : List Nat := tokWords (kind + 4 * key) t

/-- The tokens of a node: in its input channels, its exit queues, and on the wires that leave it. -/
def channelWords (x : Core) (routes : List Route) (node : Nat) : List Nat :=
  let put := fun (kind key : Nat) (q : List Tok) => q.flatMap (queueTok kind key)
  (x.chans.filter (fun e => e.1 / 4 == node)).flatMap (fun (k, q) => put 0 k q) ++
  (x.exits.filter (fun e => e.1 / 4 == node)).flatMap (fun (k, q) => put 1 k q) ++
  (x.wires.filter (fun e => (routes[e.1]?).any (fun r => r.src == node))).flatMap (fun (k, q) => put 2 k q)

/-- The queues of one kind. -/
def onQueues (kind : Nat) (f : Map (List Tok) → Map (List Tok)) (x : Core) : Core :=
  if kind = 0 then { x with chans := f x.chans } else if kind = 1 then { x with exits := f x.exits } else { x with wires := f x.wires }

def readChannel (b : List Byte) (x : Core) : Core :=
  (getMany getTok (b.length / 32) (wordsOf b)).1.foldl (fun x (p, t) =>
    onQueues (p % 4) (fun m => mapPut m (p / 4) (mapGet [] m (p / 4) ++ [t])) x) x

def agWords (a : Ag) : List Nat :=
  [a.n, ofBool a.stopped, packBits [a.lost, a.closed, a.owe0, a.owe1, a.ended], a.issued, a.ringPos] ++ putInts a.last

def readAg (ws : List Nat) : Ag :=
  let f := ws.getD 2 0
  { n := ws.getD 0 0, stopped := bit (ws.getD 1 0) 0, lost := bit f 0, closed := bit f 1, owe0 := bit f 2, owe1 := bit f 3, ended := bit f 4
    issued := ws.getD 3 0, ringPos := ws.getD 4 0, last := (getInts (ws.drop 5)).1 }

/-! ### MP -/

/-- A parked request, 32 bytes: its token with how it is parked (0 stalled, 1 diverted, 2 held), its channel and the cause it met,
and the page. -/
def parkedWords (how ch : Nat) (r : MpReq) : List Nat := (tokWords (how + 4 * ch + 16 * r.cause) r.tok).take 3 ++ [r.page]

def chanParked (ch : Nat) (k : MpChan) : List Nat :=
  k.stalled.toList.flatMap (parkedWords 0 ch) ++ k.diverted.flatMap (parkedWords 1 ch) ++ k.heldFull.toList.flatMap (parkedWords 2 ch)

def chanCount (k : MpChan) : Nat := k.stalled.toList.length + k.diverted.length + k.heldFull.toList.length

def chanFlags (k : MpChan) : List Nat :=
  [packBits [k.dead, k.ended, k.poisonReported, k.abortDue], k.replay] ++ putOpt (fun n => [n]) k.walked

/-- The requests of a channel in the order of `chanParked`. -/
def chanHeld (k : MpChan) : List MpReq := k.stalled.toList ++ k.diverted ++ k.heldFull.toList

def barWords (u : BarUpdate) : List Nat := [u.addr, u.arrivals, u.sectors, ofBool u.poison]

def getBarUpdate : Get BarUpdate := fun ws =>
  ({ addr := ws.getD 0 0, arrivals := ws.getD 1 0, sectors := ws.getD 2 0, poison := bit (ws.getD 3 0) 0 }, ws.drop 4)

/-- The parked requests in order, their spill-queue entries with identifier and coordinate, and the barrier arrivals owed; then the
flags of the channels. -/
def mpWords (m : Mp) (owed : List BarUpdate) : List Nat :=
  (m.chans.foldl (fun n e => n + chanCount e.2) 0) :: m.chans.flatMap (fun (ch, k) => chanParked ch k) ++
  putList (fun (r : MpReq) => putOpt reqWords r.tok.req) (m.chans.flatMap (fun e => chanHeld e.2)) ++ putList barWords owed ++ putMap chanFlags m.chans

/-- The MP sections of a core by slot: the arrivals that the core owes go with its lowest memory port. DESIGN CHOICE:
notes/assumptions/32.md. -/
def mpSections (x : Core) : List (Nat × List Nat) :=
  match x.mps with
  | [] => if x.barQueue.isEmpty then [] else [(8, mpWords {} x.barQueue)]
  | (k, m) :: rest => (k, mpWords m x.barQueue) :: rest.map (fun (k, m) => (k, mpWords m []))

def getParked : Get (Nat × MpReq) := fun ws =>
  let t := (getTok ws).1
  ((t.1 % 16, { tok := { t.2 with wts := 0 }, cause := t.1 / 16, page := ws.getD 3 0 }), ws.drop 4)

def getChanFlags : Get MpChan := fun ws =>
  let f := ws.getD 0 0
  let w := getOpt getWord (ws.drop 2)
  ({ dead := bit f 0, ended := bit f 1, poisonReported := bit f 2, abortDue := bit f 3, replay := ws.getD 1 0, walked := w.1 }, w.2)

/-- A parked request goes back to its channel. -/
def park (p : Nat) (r : MpReq) (k : MpChan) : MpChan :=
  if p % 4 = 0 then { k with stalled := some r } else if p % 4 = 1 then { k with diverted := k.diverted ++ [r] } else { k with heldFull := some r }

def readMp (slot : Nat) (ws : List Nat) (x : Core) : Core :=
  let rs := getList getParked ws
  let qs := getList (getOpt getReq) rs.2
  let bs := getList getBarUpdate qs.2
  let cs := getMap getChanFlags bs.2
  let held := rs.1.zipIdx.map (fun ((p, r), i) => (p, { r with tok := { r.tok with req := (qs.1[i]?).bind id } }))
  let m : Mp := { chans := held.foldl (fun m (p, r) => mapPut m (p / 4) (park p r (mapGet {} m (p / 4)))) cs.1 }
  { x with mps := if m = {} ∧ ¬ bs.1.isEmpty then x.mps else mapPut x.mps slot m, barQueue := x.barQueue ++ bs.1 }

/-! ### COPY -/

def tensorWords (t : TensorRec) : List Nat :=
  [t.tid, t.rank, t.fmt, t.oob, packBits [t.bank, t.twobank, t.page2m], t.blk, wrap 64 t.emax, t.ptb0, t.ptb1, t.scaletid, t.cbaddr] ++
  putNats t.tile ++ putNats t.ext

def getTensor : Get TensorRec := fun ws =>
  let w := fun (i : Nat) => ws.getD i 0
  let a := getNats (ws.drop 11)
  let b := getNats a.2
  ({ tid := w 0, rank := w 1, fmt := w 2, oob := w 3, bank := bit (w 4) 0, twobank := bit (w 4) 1, page2m := bit (w 4) 2, blk := w 5
     emax := sext 64 (w 6), ptb0 := w 7, ptb1 := w 8, scaletid := w 9, cbaddr := w 10, tile := a.1, ext := b.1 }, b.2)

def levelWords (l : CopyLevel) : List Nat := [l.extent, l.sdim, l.ddim, wrap 64 l.sstride, wrap 64 l.dstride]

def getLevel : Get CopyLevel := fun ws =>
  let w := fun (i : Nat) => ws.getD i 0
  ({ extent := w 0, sdim := w 1, ddim := w 2, sstride := sext 64 (w 3), dstride := sext 64 (w 4) }, ws.drop 5)

def copyWords (r : CopyRec) : List Nat :=
  [r.skind, r.dkind, r.oob, r.efmt, r.ck, packBits [r.cken, r.hcen, r.transpose], r.hctl, r.tbar, r.saddr, r.daddr] ++ putInts r.scoord ++
  putInts r.dcoord ++ putList levelWords r.levels

def getCopy : Get CopyRec := fun ws =>
  let w := fun (i : Nat) => ws.getD i 0
  let a := getInts (ws.drop 10)
  let b := getInts a.2
  let c := getList getLevel b.2
  ({ skind := w 0, dkind := w 1, oob := w 2, efmt := w 3, ck := w 4, cken := bit (w 5) 0, hcen := bit (w 5) 1, transpose := bit (w 5) 2, hctl := w 6
     tbar := w 7, saddr := w 8, daddr := w 9, scoord := a.1, dcoord := b.1, levels := c.1 }, c.2)

def segCode : SegState → Nat
  | .pending => 0
  | .parked => 1
  | .done => 2
  | .sent false => 3
  | .sent true => 4

def segState (n : Nat) : SegState :=
  match n with
  | 1 => .parked
  | 2 => .done
  | 3 => .sent false
  | 4 => .sent true
  | _ => .pending

def segWords (g : Seg) : List Nat := [segCode g.state, g.lastCause, g.lastPage, ofBool g.bad] ++ putNats g.iters ++ putNats g.sectors

def getSeg : Get Seg := fun ws =>
  let a := getNats (ws.drop 4)
  let b := getNats a.2
  ({ state := segState (ws.getD 0 0), lastCause := ws.getD 1 0, lastPage := ws.getD 2 0, bad := bit (ws.getD 3 0) 0, iters := a.1, sectors := b.1 }, b.2)

def tripleWords (t : Nat × Nat × Nat) : List Nat := [t.1, t.2.1, t.2.2]

def jobWords (j : CopyJob) : List Nat :=
  copyWords j.copy ++ [j.width, j.order] ++ tensorWords j.stensor ++ tensorWords j.dtensor ++ putList segWords j.segs ++
  putOpt tripleWords j.src ++ putOpt tripleWords j.dst ++ tripleWords j.ring ++ putOpt (fun n => [n]) j.refill ++
  [j.slotB] ++ putList (fun e => [e.1, e.2.1, ofBool e.2.2]) j.held ++ putNats j.slotsDone

def getJob : Get CopyJob := fun ws =>
  let r := getCopy ws
  let st := getTensor (r.2.drop 2)
  let dt := getTensor st.2
  let gs := getList getSeg dt.2
  let a := getOpt getTriple gs.2
  let b := getOpt getTriple a.2
  let g := getTriple b.2
  let f := getOpt getWord g.2
  let held := getList (fun ws => ((ws.getD 0 0, ws.getD 1 0, bit (ws.getD 2 0) 0), ws.drop 3)) (f.2.drop 1)
  let slots := getNats held.2
  ({ copy := r.1, width := r.2.getD 0 0, order := r.2.getD 1 0, stensor := st.1, dtensor := dt.1, segs := gs.1, src := a.1, dst := b.1, ring := g.1
     refill := f.1, slotB := f.2.getD 0 16, held := held.1, slotsDone := slots.1 }, slots.2)

/-- The copies in the scoreboard with their segments. -/
def copySection (x : Core) : List Nat := putMap jobWords x.jobs

def readCopies (ws : List Nat) (x : Core) : Core := { x with jobs := (getMap getJob ws).1 }

/-! ### HA and HS -/

/-- Present or not, then form, algebra, S, anchor and region. -/
def geomWords (g : Option Geom) : List Nat :=
  match g with
  | some g => [1, g.form, g.alg, g.s, wrap 64 g.anchor, g.spbase, g.spsize]
  | none => List.replicate 7 0

def geomOf (ws : List Nat) : Option Geom :=
  let w := fun (i : Nat) => ws.getD i 0
  if w 0 = 0 then none else some { form := w 1, alg := w 2, s := w 3, anchor := sext 64 (w 4), spbase := w 5, spsize := w 6 }

/-- A run as a section names it: its address and bytes; its entries stay in the region. -/
def runWords {α : Type} (r : Run α) : List Nat := [r.addr, r.bytes]

def getRun (α : Type) : Get (Run α) := fun ws => ({ addr := ws.getD 0 0, bytes := ws.getD 1 0, entries := [] }, ws.drop 2)

/-- Flags of run entries that are still to be written. -/
def owedWords (o : Nat × List Byte) : List Nat := o.1 :: putNats (o.2.map (·.toNat))

def getOwed : Get (Nat × List Byte) := fun ws =>
  let b := getNats (ws.drop 1)
  ((ws.headD 0, b.1.map (BitVec.ofNat 8)), b.2)

def openTileWords (o : OpenTile) : List Nat := [o.key.toNat, packBits [o.retract, o.poison]] ++ putToks o.toks

def getOpenTile : Get OpenTile := fun ws =>
  let t := getToks (ws.drop 2)
  ({ key := BitVec.ofNat 64 (ws.getD 0 0), retract := bit (ws.getD 1 0) 0, poison := bit (ws.getD 1 0) 1, toks := t.1 }, t.2)

/-- Geometry, ROUND, HOLD, the slots in the layouts of R200, the runs; then the words of the configuration, the open tile and the
tokens that wait to leave. -/
def haSection (h : Ha) : List Nat :=
  geomWords h.tab.geom ++ [h.round.toNat, ofBool h.hold] ++ putMap (fun e => wordsOf (e.bytes (h.tab.geom.getD {}).form)) h.tab.slots ++
  putList runWords h.tab.runs ++ putList owedWords h.tab.owed ++ putMap (fun n => [n]) h.words ++
  [packBits [h.ended, h.closed, h.mtEnded, h.await], h.flags.toNat] ++ putOpt openTileWords h.openTile ++ putList (fun (c, t) => tokWords c t) h.outq

/-- A slot of a table: its position and its bytes, of n words. -/
def getSlot (n : Nat) : Get (Nat × List Byte) := fun ws => ((ws.headD 0, words8 ((ws.drop 1).take n)), ws.drop (n + 1))

/-- The slots that hold an entry. -/
def slotMap {α : Type} (f : List Byte → Option α) (es : List (Nat × List Byte)) : Map α :=
  es.foldl (fun m (k, b) => match f b with | some e => mapPut m k e | none => m) []

def readHa (ws : List Nat) : Ha :=
  let g := geomOf ws
  let form := (g.getD {}).form
  let sl := getList (getSlot (slotBytesOf form / 8)) (ws.drop 9)
  let rs := getList (getRun HaSlot) sl.2
  let ow := getList getOwed rs.2
  let pw := getMap getWord ow.2
  let f := pw.2.getD 0 0
  let ot := getOpt getOpenTile (pw.2.drop 2)
  let oq := getList getTok ot.2
  { tab := { geom := g, slots := slotMap (haSlotOf form) sl.1, runs := rs.1, owed := ow.1 }, round := BitVec.ofNat 16 (ws.getD 7 0)
    hold := bit (ws.getD 8 0) 0, words := pw.1, ended := bit f 0, closed := bit f 1, mtEnded := bit f 2, await := bit f 3, flags := BitVec.ofNat 7 (pw.2.getD 1 0)
    openTile := ot.1, outq := oq.1 }

def hsSection (h : Hs) : List Nat :=
  geomWords h.tab.geom ++ putMap (fun e => wordsOf e.bytes) h.tab.slots ++ putList runWords h.tab.runs ++ putList owedWords h.tab.owed ++
  [ofBool h.ended, h.flags.toNat]

def readHs (ws : List Nat) : Hs :=
  let sl := getList (getSlot 2) (ws.drop 7)
  let rs := getList (getRun HsSlot) sl.2
  let ow := getList getOwed rs.2
  { tab := { geom := geomOf ws, slots := slotMap hsSlotOf sl.1, runs := rs.1, owed := ow.1 }, ended := bit (ow.2.getD 0 0) 0
    flags := BitVec.ofNat 7 (ow.2.getD 1 0) }

/-! ### MT (R231) -/

def tregWords (t : TReg) : List Nat :=
  [packBits [t.full, t.poison], t.cursor, t.seq, t.pos, t.nscales, t.filled] ++ putMap (fun n => [n]) t.scales ++ putNats t.cb ++
  putOpt (fun (m : Memory) => wordsOf (memBytes m 0 4096)) (if t.data.isEmpty then none else some t.data)

def getData : Get Memory := fun ws => (memStore [] 0 (words8 (ws.take 512)), ws.drop 512)

def getTReg : Get TReg := fun ws =>
  let w := fun (i : Nat) => ws.getD i 0
  let a := getMap getWord (ws.drop 6)
  let b := getNats a.2
  let d := getOpt getData b.2
  ({ full := bit (w 0) 0, poison := bit (w 0) 1, cursor := w 1, seq := w 2, pos := w 3, nscales := w 4, filled := w 5, scales := a.1, cb := b.1
     data := d.1.getD [] }, d.2)

def atagCode : ATag → Nat
  | .empty => 0
  | .acc => 1
  | .full => 2

def aregWords (a : AReg) : List Nat := [atagCode a.tag, a.count, a.key.toNat, packBits [a.poison, a.risk], wrap 64 a.anchor] ++ putMap accWords a.x

def getAReg : Get AReg := fun ws =>
  let w := fun (i : Nat) => ws.getD i 0
  let x := getMap getAcc (ws.drop 5)
  ({ tag := if w 0 = 1 then .acc else if w 0 = 2 then .full else .empty, count := w 1, key := BitVec.ofNat 64 (w 2), poison := bit (w 3) 0
     risk := bit (w 3) 1, anchor := sext 64 (w 4), x := x.1 }, x.2)

def mtJobWords : MtJob → List Nat
  | .mark t => 0 :: tokWords 0 t
  | .drain a key n => [1, a, key.toNat, n, 0]
  | .give a key => [2, a, key.toNat, 0, 0]

def getMtJob : Get MtJob := fun ws =>
  let w := fun (i : Nat) => ws.getD i 0
  (if w 0 = 1 then .drain (w 1) (BitVec.ofNat 64 (w 2)) (w 3) else if w 0 = 2 then .give (w 1) (BitVec.ofNat 64 (w 2)) else .mark (getTok (ws.drop 1)).1.2,
   ws.drop 5)

def getFill : Get CbFill := fun ws =>
  let e := getNats (ws.drop 2)
  ({ reg := ws.getD 0 0, poison := bit (ws.getD 1 0) 0, entries := e.1 }, e.2)

def getFiring : Get MtFiring := fun ws =>
  ({ op := ws.getD 0 0, dst := ws.getD 1 0, k := ws.getD 2 0, until_ := ws.getD 3 0 }, ws.drop 4)

def mtSection (m : Mt) : List Nat :=
  putMap tregWords m.t ++ putMap aregWords m.a ++ putMap putNats m.cb ++ [packBits [m.ping, m.ended], m.flags.toNat] ++ putMap (fun n => [n]) m.words ++
  putMap (fun n => [wrap 64 n]) m.anchors ++ putMap (fun (v : Word) => [v.toNat]) m.gate0 ++
  putMap (fun f => [f.reg, ofBool f.poison] ++ putNats f.entries) m.cbFill ++
  putOpt (fun f => [f.op, f.dst, f.k, f.until_]) m.firing ++ putList mtJobWords m.jobs ++ putNats m.endedCh

def readMt (ws : List Nat) : Mt :=
  let t := getMap getTReg ws
  let a := getMap getAReg t.2
  let cb := getMap getNats a.2
  let f := cb.2.getD 0 0
  let pw := getMap getWord (cb.2.drop 2)
  let an := getMap getWord pw.2
  let ga := getMap getWord an.2
  let fi := getMap getFill ga.2
  let fr := getOpt getFiring fi.2
  let js := getList getMtJob fr.2
  { t := t.1, a := a.1, cb := cb.1, ping := bit f 0, ended := bit f 1, flags := BitVec.ofNat 7 (cb.2.getD 1 0), words := pw.1
    anchors := an.1.map (fun (k, n) => (k, sext 64 n)), gate0 := ga.1.map (fun (k, n) => (k, BitVec.ofNat 64 n)), cbFill := fi.1, firing := fr.1
    jobs := js.1, endedCh := (getNats js.2).1 }

/-! ### RD, SG, SM, MJ, SK and the units without a class of their own -/

def rdWords (r : Rd) : List Nat :=
  [packBits [r.any, r.poison, r.ended], r.got.toNat, r.nonfin, r.amax, r.statNonfin, r.nseg, r.flags.toNat] ++ putMap (fun n => [n]) r.acc ++
  putMap accWords r.exact ++ putMap (fun n => [n]) r.bins

def readRd (ws : List Nat) : Rd :=
  let w := fun (i : Nat) => ws.getD i 0
  let a := getMap getWord (ws.drop 7)
  let e := getMap getAcc a.2
  { any := bit (w 0) 0, poison := bit (w 0) 1, ended := bit (w 0) 2, got := BitVec.ofNat 4 (w 1), nonfin := w 2, amax := w 3, statNonfin := w 4
    nseg := w 5, flags := BitVec.ofNat 7 (w 6), acc := a.1, exact := e.1, bins := (getMap getWord e.2).1 }

/-- K and C of z0–z63; then the sampler's weights. -/
def sgWords (g : Sg) : List Nat :=
  (upTo 64).flatMap (fun z => let t : Stream := mapGet {} g.z z; [t.k.toNat, t.c.toNat]) ++
  [packBits [g.poison, g.dropped, g.ended], g.flags.toNat] ++ putNats g.weights

def readSg (ws : List Nat) : Sg :=
  let s := fun (z : Nat) => ({ k := BitVec.ofNat 64 (ws.getD (2 * z) 0), c := BitVec.ofNat 64 (ws.getD (2 * z + 1) 0) } : Stream)
  let f := ws.getD 128 0
  { z := (upTo 64).foldl (fun m z => if s z = {} then m else mapPut m z (s z)) [], poison := bit f 0, dropped := bit f 1, ended := bit f 2
    flags := BitVec.ofNat 7 (ws.getD 129 0), weights := (getNats (ws.drop 130)).1 }

def smWords (y : Sm) : List Nat :=
  [ofBool y.body, y.count] ++ putOpt (tokWords 0) y.carry ++ putOpt (fun n => [n]) y.cur ++ putOpt (fun n => [n]) y.sel ++
  [y.lastServed, y.retired, packBits [y.curPoison, y.abort, y.ended]]

def readSm (ws : List Nat) : Sm :=
  let t := getOpt getTok (ws.drop 2)
  let c := getOpt getWord t.2
  let l := getOpt getWord c.2
  let f := l.2.getD 2 0
  { body := bit (ws.getD 0 0) 0, count := ws.getD 1 0, carry := t.1.map (fun e => e.2), cur := c.1, sel := l.1, lastServed := l.2.getD 0 0
    retired := l.2.getD 1 0, curPoison := bit f 0, abort := bit f 1, ended := bit f 2 }

def mjWords (y : Mj) : List Nat :=
  [y.bufKey.toNat, packBits [y.bufValid, y.bufPoison, y.filling, y.disorder, y.ended], y.pos, y.flags.toNat] ++ putToks y.buf ++
  putOpt (fun (k : Word) => [k.toNat]) y.lastA ++ putOpt (fun (k : Word) => [k.toNat]) y.lastB

def readMj (ws : List Nat) : Mj :=
  let f := ws.getD 1 0
  let b := getToks (ws.drop 4)
  let p := getOpt getWord b.2
  let q := getOpt getWord p.2
  { bufKey := BitVec.ofNat 64 (ws.getD 0 0), bufValid := bit f 0, bufPoison := bit f 1, filling := bit f 2, disorder := bit f 3, ended := bit f 4
    pos := ws.getD 2 0, flags := BitVec.ofNat 7 (ws.getD 3 0), buf := b.1, lastA := p.1.map (BitVec.ofNat 64), lastB := q.1.map (BitVec.ofNat 64) }

def skWords (y : Sk) : List Nat := putList (fun e => [e.1, e.2]) y.kept ++ [y.tokens, packBits [y.poison, y.ended]]

def readSk (ws : List Nat) : Sk :=
  let k := getList getPair ws
  { kept := k.1, tokens := k.2.getD 0 0, poison := bit (k.2.getD 1 0) 0, ended := bit (k.2.getD 1 0) 1 }

def wcWords (y : Wc) : List Nat := ofBool y.ended :: putToks y.part

def getWc : Get Wc := fun ws => let p := getToks (ws.drop 1); ({ ended := bit (ws.headD 0) 0, part := p.1 }, p.2)

def exWords (y : Ex) : List Nat := [y.n, y.k0.toNat, ofBool y.ended] ++ putToks y.packing ++ putList putToks y.ready

def getEx : Get Ex := fun ws =>
  let p := getToks (ws.drop 3)
  let r := getList getToks p.2
  ({ n := ws.getD 0 0, k0 := BitVec.ofNat 64 (ws.getD 1 0), ended := bit (ws.getD 2 0) 0, packing := p.1, ready := r.1 }, r.2)

def stashWords (w : Stash) : List Nat :=
  [w.cfg.spbase, w.cfg.len, w.cfg.tid, w.cfg.toff] ++ tensorWords w.tensor ++ putOpt (fun n => [n]) w.mu ++
  putMap (fun l => l.lease.toNat :: putNats l.dirty) w.lines ++ putNats w.wanted ++ putMap (fun (p : Nat × Nat × Bool) => [p.1, p.2.1, ofBool p.2.2]) w.parked

def getStashLine : Get StashLine := fun ws => let d := getNats (ws.drop 1); ({ lease := BitVec.ofNat 64 (ws.headD 0), dirty := d.1 }, d.2)

def getStash : Get Stash := fun ws =>
  let w := fun (i : Nat) => ws.getD i 0
  let t := getTensor (ws.drop 4)
  let m := getOpt getWord t.2
  let l := getMap getStashLine m.2
  let wa := getNats l.2
  let p := getMap getTriple wa.2
  ({ cfg := { spbase := w 0, len := w 1, tid := w 2, toff := w 3 }, tensor := t.1, mu := m.1, lines := l.1, wanted := wa.1
     parked := p.1.map (fun (k, a, b, c) => (k, a, b, bit c 0)) }, p.2)

/-! ### QUIESCE and SPEC (R322, R371) -/

def wstateCode : WState → Nat
  | .idle => 0
  | .w1 => 1
  | .w1done => 2
  | .w2 => 3

def wstateOf (n : Nat) : WState := match n with | 1 => .w1 | 2 => .w1done | 3 => .w2 | _ => .idle

/-- QS, QA, ACT and the wave state; then the vote in progress. -/
def quiesceWords (q : Quiesce) : List Nat :=
  [q.qs, q.qa, ofBool q.act, wstateCode q.wstate, packBits [q.counting, q.armed, q.fire, q.start1, q.start2, q.flag, q.cap, q.told], q.place, q.rid,
   q.capacity, q.maxRounds, q.kids, q.sumS, q.sumA, q.sumNC, q.sumLive, q.w1S] ++ putList (fun p => [p.1, p.2]) q.plist ++
  putOpt (fun n => [n]) q.restartAt ++ putOpt (fun d => [d.1, ofBool d.2]) q.decision

def readQuiesce (ws : List Nat) : Quiesce :=
  let w := fun (i : Nat) => ws.getD i 0
  let f := fun (i : Nat) => bit (w 4) i
  let p := getList getPair (ws.drop 15)
  let r := getOpt getWord p.2
  let d := getOpt getPair r.2
  { qs := w 0, qa := w 1, act := bit (w 2) 0, wstate := wstateOf (w 3), counting := f 0, armed := f 1, fire := f 2, start1 := f 3, start2 := f 4
    flag := f 5, cap := f 6, told := f 7, place := w 5, rid := w 6, capacity := w 7, maxRounds := w 8, kids := w 9, sumS := w 10, sumA := w 11
    sumNC := w 12, sumLive := w 13, w1S := w 14, plist := p.1, restartAt := r.1, decision := d.1.map (fun e => (e.1, bit e.2 0)) }

/-- n words, 0 where a list has none. -/
def padded (n : Nat) (vs : List Word) : List Nat := (upTo n).map (fun i => (vs.getD i 0).toNat)

/-- A snapshot, 160 bytes: INDEX, EXTENT0–3, C0–3, REG0–7. -/
def snapWords (n : Snap) : List Nat := n.index :: padded 4 n.extents ++ padded 4 n.cs ++ padded 8 n.regs ++ [0, 0, 0]

/-- The latched descriptor address, SEQ and LIVE, then the snapshots, oldest first. -/
def ringWords (g : Ring) : List Nat := [g.desc.toNat, g.seq, g.snaps.length] ++ g.snaps.flatMap snapWords

/-- What a ring keeps of its descriptor. -/
def ringKeeps (g : Ring) : List Nat := putNats g.rids ++ putNats g.zs ++ putNats g.regNos ++ putList tripleWords g.regions

def specWords (m : Map Ring) : List Nat :=
  (upTo 4).flatMap (fun k => ringWords (mapGet {} m k)) ++ (upTo 4).flatMap (fun k => ringKeeps (mapGet {} m k))

def getSnap : Get Snap := fun ws =>
  let v := fun (at0 n : Nat) => ((ws.drop at0).take n).map (BitVec.ofNat 64)
  ({ index := ws.headD 0, extents := v 1 4, cs := v 5 4, regs := v 9 8 }, ws.drop 20)

def getRing : Get Ring := fun ws =>
  let s := getMany getSnap (min (ws.getD 2 0) 16) (ws.drop 3)
  ({ desc := BitVec.ofNat 64 (ws.getD 0 0), seq := ws.getD 1 0, snaps := s.1 }, s.2)

/-- The four lists that a ring keeps of its descriptor. -/
def getKeeps : Get (List Nat × List Nat × List Nat × List (Nat × Nat × Nat)) := fun ws =>
  let a := getNats ws
  let b := getNats a.2
  let c := getNats b.2
  let d := getList getTriple c.2
  ((a.1, b.1, c.1, d.1), d.2)

/-- A ring with what it keeps of its descriptor; its snapshots hold as many values. -/
def withKeeps (g : Ring) (k : List Nat × List Nat × List Nat × List (Nat × Nat × Nat)) : Ring :=
  { g with rids := k.1, zs := k.2.1, regNos := k.2.2.1, regions := k.2.2.2
           snaps := g.snaps.map (fun n => { n with extents := n.extents.take k.1.length, cs := n.cs.take k.2.1.length, regs := n.regs.take k.2.2.1.length }) }

def readSpec (ws : List Nat) : Map Ring :=
  let r := getMany getRing 4 ws
  let k := getMany getKeeps 4 r.2
  ((r.1.zip k.1).zipIdx.map (fun ((g, q), i) => (i, withKeeps g q))).filter (fun e => e.2 != {})

/-! ### What a core keeps beside the classes -/

/-- Tokens that carry a request: the queue (0 to 2 as in CHANNEL), its key, and the place in it. -/
def heldReqs (x : Core) : List (Nat × Nat × Nat × Req) :=
  let q := fun (kind key : Nat) (ts : List Tok) => ts.zipIdx.filterMap (fun (t, i) => t.req.map (fun r => (kind, key, i, r)))
  x.chans.flatMap (fun (k, ts) => q 0 k ts) ++ x.exits.flatMap (fun (k, ts) => q 1 k ts) ++ x.wires.flatMap (fun (k, ts) => q 2 k ts)

def getHeldReq : Get (Nat × Nat × Nat × Req) := fun ws =>
  let r := getReq (ws.drop 3)
  ((ws.getD 0 0, ws.getD 1 0, ws.getD 2 0, r.1), r.2)

/-- A token takes its request back. -/
def giveReq (x : Core) (e : Nat × Nat × Nat × Req) : Core :=
  let (kind, key, i, r) := e
  onQueues kind (fun m => mapPut m key ((mapGet [] m key).modify i (fun t => { t with req := some r }))) x

/-- The state of a core that no class of R353 names. -/
def coreMore (x : Core) : List Nat :=
  [x.pts.toNat, x.fabricPts.toNat, x.readWts.toNat] ++ putNats (x.scratchPoison.map (fun e => e.1)) ++ putMap (fun n => [n]) x.workSince ++ putMap tensorWords x.tensors ++
  putNats x.cutRoutes ++ putMap (tokWords 0) x.heldMarks ++ putNats x.severed ++ putMap wcWords x.wcs ++ exWords x.ex ++ putMap stashWords x.stashes ++
  putList (fun (e : Nat × Nat × Nat × Req) => [e.1, e.2.1, e.2.2.1] ++ reqWords e.2.2.2) (heldReqs x)

def readMore (ws : List Nat) (x : Core) : Core :=
  let sp := getNats (ws.drop 3)
  let wk := getMap getWord sp.2
  let ts := getMap getTensor wk.2
  let cr := getNats ts.2
  let hm := getMap getTok cr.2
  let sv := getNats hm.2
  let wc := getMap getWc sv.2
  let ex := getEx wc.2
  let st := getMap getStash ex.2
  let x := { x with pts := BitVec.ofNat 64 (ws.getD 0 0), fabricPts := BitVec.ofNat 64 (ws.getD 1 0), readWts := BitVec.ofNat 64 (ws.getD 2 0), scratchPoison := sp.1.foldl (fun m k => mapPut m k ()) []
                    workSince := wk.1, tensors := ts.1, cutRoutes := cr.1, heldMarks := hm.1.map (fun (k, e) => (k, e.2)), severed := sv.1, wcs := wc.1
                    ex := ex.1, stashes := st.1 }
  (getList getHeldReq st.2).1.foldl giveReq x

/-! ### ISLEREG and the isle -/

/-- A graph of a slot as a restore needs it: selected, running, how it is being stopped, and the counter of its end. -/
def slotWords (g : IsleSlot) : List Nat :=
  [packBits [g.selected, g.running], (match g.stop with | none => 0 | some .drain => 1 | some .abort => 2), g.lastSelected] ++ putOpt (fun e => [e.1, e.2]) g.endK

def getIsleSlot : Get IsleSlot := fun ws =>
  let e := getOpt getPair (ws.drop 3)
  ({ selected := bit (ws.getD 0 0) 0, running := bit (ws.getD 0 0) 1
     stop := match ws.getD 1 0 with | 1 => some .drain | 2 => some .abort | _ => none
     lastSelected := ws.getD 2 0, endK := e.1 }, e.2)

/-- The isle's system registers and block scheduler; then the register that CTXSAVE answers in, the isle's place, its barrier and
the state of its graphs. -/
def isleWords (gd : Nat) (i : Isle) : List Nat :=
  [i.prio, i.fpflags.toNat, i.stallwd, i.ttbase.toNat, i.ttlen.toNat, i.rtbase.toNat, i.rtlen.toNat, i.rubase.toNat, i.rulen.toNat, i.blktab.toNat,
   i.blklen, i.threads.toNat] ++ putMap (fun b => [b.p, b.t0]) i.blocks ++ putOpt (fun (t : Nat × Word) => [t.1, t.2.toNat]) i.turn ++
  [packBits [i.turnOn, i.yielding, i.endForm], gd, i.die, i.x0, i.y0, i.preemptedBy] ++
  putList (fun (a : Nat × Option Nat) => a.1 :: putOpt (fun n => [n]) a.2) i.arrivals ++ putMap slotWords i.slots

def getArrival : Get (Nat × Option Nat) := fun ws => let k := getOpt getWord (ws.drop 1); ((ws.headD 0, k.1), k.2)

/-- The isle that a cocoon holds over what its header gave, and the register of CTXSAVE. -/
def readIsle (ws : List Nat) (i : Isle) : Isle × Nat :=
  let w := fun (k : Nat) => ws.getD k 0
  let v := fun (k : Nat) => BitVec.ofNat 64 (w k)
  let b := getMap getPair (ws.drop 12)
  let t := getOpt getPair b.2
  let f := t.2.getD 0 0
  let a := getList getArrival (t.2.drop 6)
  let g := (getMap getIsleSlot a.2).1
  let slot := fun (k : Nat) (o : IsleSlot) => let q := mapGet ({} : IsleSlot) g k
    { o with selected := q.selected, running := q.running, stop := q.stop, endK := q.endK, lastSelected := q.lastSelected }
  ({ i with prio := w 0, fpflags := v 1, stallwd := w 2, ttbase := v 3, ttlen := v 4, rtbase := v 5, rtlen := v 6, rubase := v 7, rulen := v 8, blktab := v 9
            blklen := w 10, threads := BitVec.ofNat 32 (w 11), blocks := b.1.map (fun (k, e) => (k, { p := e.1, t0 := e.2 }))
            turn := t.1.map (fun e => (e.1, BitVec.ofNat 64 e.2)), turnOn := bit f 0, yielding := bit f 1, endForm := bit f 2, die := t.2.getD 2 0
            x0 := t.2.getD 3 0, y0 := t.2.getD 4 0, preemptedBy := t.2.getD 5 0, arrivals := a.1, slots := i.slots.map (fun (k, o) => (k, slot k o)) },
   t.2.getD 1 0)

/-! ### Sections -/

/-- A section: its core's offset, class and unit, and its bytes. -/
structure Section where
  dx : Nat
  dy : Nat
  cls : Nat
  unit : Nat
  bytes : List Byte
  deriving DecidableEq, Repr

/-- The sections of a core (R353); a drain save omits those that are empty. DESIGN CHOICE: notes/assumptions/32.md. -/
def coreSections (full lead : Bool) (gd : Nat) (i : Isle) (routes : List Route) (dx dy : Nat) (x : Core) : List Section :=
  let sec := fun (cls unit : Nat) (used : Bool) (b : List Byte) =>
    if full || used then [({ dx := dx, dy := dy, cls := cls, unit := unit, bytes := b } : Section)] else []
  let m := fun (cls : Nat) (l : List (Nat × List Nat)) => l.flatMap (fun (u, ws) => sec cls (u % 64) true (words8 ws))
  let nodes := ((upTo 96).map (fun n => (n, channelWords x routes n))).filter (fun e => !e.2.isEmpty)
  sec 0x01 0 true (words8 (pilotState x.pilot x.selected ++ coreMore x)) ++ (if lead then sec 0x02 0 true (words8 (isleWords gd i)) else []) ++
  sec 0x03 0 true (words8 (x.counters.toList.map (·.toNat))) ++ sec 0x04 0 (!x.posted.isEmpty) (postedSection x) ++
  sec 0x05 0 (!x.scratch.isEmpty) (memBytes x.scratch 0 Config.scratchBytes) ++ m 0x06 (x.elems.map (fun (e, y) => (e, elemWords full y))) ++
  m 0x07 nodes ++ m 0x08 (x.ags.map (fun (k, a) => (k, agWords a))) ++ m 0x09 (mpSections x) ++
  sec 0x0A 0 (!x.jobs.isEmpty) (words8 (copySection x)) ++ sec 0x0B 0 (x.haU != {}) (words8 (haSection x.haU)) ++
  sec 0x0C 0 (x.hsU != {}) (words8 (hsSection x.hsU)) ++ sec 0x0D 0 (x.mt != {}) (words8 (mtSection x.mt)) ++
  m 0x0E (x.rds.map (fun (k, r) => (k, rdWords r))) ++ sec 0x0F 0 (x.sg != {}) (words8 (sgWords x.sg)) ++
  m 0x10 (x.sms.map (fun (k, y) => (k, smWords y))) ++ m 0x11 (x.mjs.map (fun (k, y) => (k, mjWords y))) ++
  sec 0x12 0 (x.sk != {}) (words8 (skWords x.sk)) ++ sec 0x13 0 (x.quiesce != {}) (words8 (quiesceWords x.quiesce)) ++
  sec 0x14 0 (!x.rings.isEmpty) (words8 (specWords x.rings))

/-- What a section other than PILOT and the isle's own gives its core. -/
def readSection (cls unit : Nat) (b : List Byte) (x : Core) : Core :=
  let ws := wordsOf b
  match cls with
  | 0x03 => { x with counters := Vector.ofFn (fun (i : Fin 64) => BitVec.ofNat 64 (ws.getD i.val 0)) }
  | 0x04 => readPosted b x
  | 0x05 => { x with scratch := memStore [] 0 (b.take Config.scratchBytes) }
  | 0x06 => { x with elems := mapPut x.elems unit (readElem ws) }
  | 0x07 => readChannel b x
  | 0x08 => { x with ags := mapPut x.ags unit (readAg ws) }
  | 0x09 => readMp unit ws x
  | 0x0A => readCopies ws x
  | 0x0B => { x with haU := readHa ws }
  | 0x0C => { x with hsU := readHs ws }
  | 0x0D => { x with mt := readMt ws }
  | 0x0E => { x with rds := mapPut x.rds unit (readRd ws) }
  | 0x0F => { x with sg := readSg ws }
  | 0x10 => { x with sms := mapPut x.sms unit (readSm ws) }
  | 0x11 => { x with mjs := mapPut x.mjs unit (readMj ws) }
  | 0x12 => { x with sk := readSk ws }
  | 0x13 => { x with quiesce := readQuiesce ws }
  | 0x14 => { x with rings := readSpec ws }
  | _ => x

/-- The core at an offset that sections hold. PILOT comes last, for what follows its queue goes with the tokens of the others. -/
def readCore (ss : List Section) (dx dy : Nat) : Core :=
  let mine := ss.filter (fun s => s.dx == dx && s.dy == dy)
  let x := mine.foldl (fun x s => readSection s.cls s.unit s.bytes x) ({} : Core)
  match mine.find? (fun s => s.cls == 1) with
  | some s =>
    let p := readPilot (wordsOf s.bytes) x
    readMore p.2 p.1
  | none => x

/-- The sections that a cocoon's directory names (R353). -/
def sectionsIn (b : List Byte) : List Section :=
  (upTo (fieldAt b 12 0 32)).map fun k =>
    let e := 256 + 16 * k
    { dx := fieldAt b e 0 6, dy := fieldAt b e 6 6, cls := fieldAt b e 12 8, unit := fieldAt b e 20 6
      bytes := (b.drop (fieldAt b (e + 8) 0 64)).take (fieldAt b (e + 4) 0 32) }

end Sys2Proof.Machine
end

