-- ==== Sys2Proof/Machine/Signals.lean ====
section
/-! DEFINITION. What units tell each other: trigger counters (R295), MSI-X (R87), the service ring (R345), fabric reports
(R342, R343), wake-ups (R350, R351), the ends of launches and contexts (R102, R355), and restoring a cocoon. -/

namespace Sys2Proof.Machine

/-- Whether the host lets a vector be sent (R87). -/
def vectorOpen (h : HostPort) (v : Nat) : Bool := h.msixOn && !(mapGet {} h.msixTab v).masked

/-- Sends an MSI-X vector, or sets its PBA bit while it is masked (R87). PRESUMED: notes/assumptions/76.md. -/
def sendVector (v : Nat) (s : State) : State :=
  onHost (fun h => if vectorOpen h v then { h with msix := h.msix ++ [v] } else { h with pba := h.pba ||| (1#64 <<< v) }) s

/-- Sends the vectors whose PBA bits are set and that are no longer masked (R87). -/
def sendPending (h : HostPort) : HostPort :=
  (upTo 8).foldl (fun h v =>
    if h.pba.getLsbD v && vectorOpen h v then { h with msix := h.msix ++ [v], pba := h.pba &&& ~~~(1#64 <<< v) } else h) h

/-! ### nydb breakpoints (R274, R312, R362) -/

/-- Freezes the isle of a core when nydb is attached to its launch and one of its breakpoints holds: its fabric and its
pilots stop on one clk. -/
def hitBreak (p : Break → Bool) (c : Nat) (s : State) : State :=
  if s.nydb.breaks.any p then
    match (coreOf s c).isle with
    | some i =>
      if (isleOf s i).attached then onIsle i (fun k => { k with frozen := true, frozenAt := if k.frozen then k.frozenAt else s.cycle }) s
      else s
    | none => s
  else s

/-! ### Trigger counters -/

/-- The entry after its trigger counter took a value: it becomes ready at its threshold (R298). -/
def testPosted (clk k : Nat) (v : Word) (p : Posted) : Posted :=
  if p.state = .armed ∧ p.post.trigk = k ∧ ¬ p.post.template ∧ ¬ p.cancelled ∧ p.thresh ≤ v.toNat then { p with state := .ready clk } else p

/-- A counter of a core (R295). -/
def counterOf (s : State) (c k : Nat) : Word := (coreOf s c).counters.toList.getD k 0

/-- Register gd set in a pilot; g0 discards (R147). -/
def Pilot.setReg (p : Pilot) (r : Nat) (v : Word) : Pilot := if r = 0 then p else { p with regs := p.regs.setIfInBounds r v }

/-- The pilot has completed the word that stands at its program counter: the word that `continue` lets it run is behind it, and one
of the words of `step` is spent (R378, R390). -/
def Pilot.wordDone (p : Pilot) : Pilot :=
  { p with passBreak := if p.passBreak = some p.pc then none else p.passBreak, steps := p.steps - 1, inWord := false }

/-- The WFE of a core ends with this result (R160). -/
def endWfeIn (v : Word) (x : Core) : Core :=
  { x with pilot := { (x.pilot.setReg x.pilot.wfeGd v).wordDone with pc := x.pilot.pc + 8, wfeUntil := none, stage := .none }
           evctrs := tallyMap x.evctrs 0 8 0x002 1 }

/-- The event latch of a core is set at a clk (R160). A WFE whose clk passed before has ended with 0, and the latch is kept. -/
def latchAt (clk : Nat) (x : Core) : Core :=
  let y := if x.pilot.wfeUntil.any (fun u => decide (u < clk)) && !x.pilot.eventLatch then endWfeIn 0 x else x
  { y with pilot := { y.pilot with eventLatch := true } }

/-- A core after one of its counters rises (R295): modulo 2^64, the event latch set, its posted entries tested. -/
def raiseIn (clk k : Nat) (inc : Word) (x : Core) : Core :=
  let v := x.counters.toList.getD k 0 + inc
  latchAt clk { x with counters := x.counters.setIfInBounds k v, posted := x.posted.map (fun e => (e.1, testPosted clk k v e.2)) }

/-- The launch of a core is one that nydb is attached to. -/
def attachedAt (s : State) (c : Nat) : Bool := (coreOf s c).isle.any (fun i => (isleOf s i).attached)

/-- A counter breakpoint that a counter's value has reached hits, once (R312). -/
def hitCounter (c k : Nat) (s : State) : State :=
  let p := fun (b : Break) => match b with | .counter c' k' v => c' == c && k' == k && v.ule (counterOf s c k) | _ => false
  if attachedAt s c then
    let s := hitBreak p c s
    { s with nydb := { s.nydb with breaks := s.nydb.breaks.filter (fun b => !p b) } }
  else s

/-- A queued launch watches counter k of core c by a dependence word d (R98). -/
def watches (c k d : Nat) : Bool := bit d 31 && bits d 0 13 == c && bits d 13 6 == k

/-- A queued launch after a counter took a value: an increment that meets one of its dependences is forwarded (R98). -/
def forwardTo (c k : Nat) (v : Word) (l : QLaunch) : QLaunch :=
  { l with hit0 := l.hit0 || (watches c k l.lrec.dep0 && decide (l.lrec.thr0 ≤ v.toNat))
           hit1 := l.hit1 || (watches c k l.lrec.dep1 && decide (l.lrec.thr1 ≤ v.toNat)) }

/-- The core forwards the increment of a counter that queued launches watch to the hub (R98). -/
def forwardWatch (c k : Nat) (s : State) : State :=
  if s.hub.fifos.any (fun (_, q) => q.any (fun l => forwardTo c k (counterOf s c k) l != l)) then
    onHub (fun h => { h with fifos := h.fifos.map (fun (p, q) => (p, q.map (forwardTo c k (counterOf s c k)))) }) s
  else s

/-- Raises a counter of a core (R295). -/
def raiseCounter (c k : Nat) (inc : Word) (s : State) : State :=
  hitCounter c k (forwardWatch c k (onCore c (raiseIn s.cycle k inc) s))

/-- Raises a counter when an enable bit is set. -/
def raiseIf (en : Bool) (c k : Nat) (inc : Word) (s : State) : State := if en then raiseCounter c k inc s else s

/-- The isle of a core that has a queue of messages for it: it is draining, or has been resumed and they are still to be applied. -/
def holdingIsle (s : State) (c ctx : Nat) : Option Nat :=
  match drainingIsle s c ctx with
  | some i => some i
  | none => if coreRuns s c ctx && !(isleOfCore s c).heldMsgs.isEmpty then (coreOf s c).isle else none

/-- A message for a core of a context is applied at once: its launch runs, and none is still to be applied before it (R300, R352). -/
def applies (s : State) (c ctx : Nat) : Bool := coreRuns s c ctx && (holdingIsle s c ctx).isNone

/-- The hub holds a message for a core whose launch of the context is drained or saved (R300). -/
def holdMsg (ctx c : Nat) (m : HeldMsg) (s : State) : State :=
  let put := fun (j : Nat) (x : Isle) => { x with heldMsgs := x.heldMsgs ++ [{ m with core := j }] }
  match holdingIsle s c ctx with
  | some i => onIsle i (fun x => put (rowPlace x c) x) s
  | none =>
    onHub (fun h => { h with saved := h.saved.map (fun x =>
      match savedPlace s x c ctx with | some j => { x with isle := put j x.isle } | none => x) }) s

/-- An increment waits at its core to be applied (R295). -/
def queueInc (c k : Nat) (inc : Word) : State → State := onCore c (fun x => { x with incoming := x.incoming ++ [(k, inc)] })

/-- A message with an increment arrives for a core (R295): it waits there, or with the hub when the context's launch is
drained or saved (R300). -/
def deliver (ctx c k : Nat) (inc : Word) (s : State) : State :=
  if applies s c ctx then queueInc c k inc s else holdMsg ctx c { core := 0, k := k, inc := inc } s

/-- The messages that the hub held for a launch that ends are answered as ended (R300). -/
def dropHeld (l : List HeldMsg) (s : State) : State :=
  l.foldl (fun s h =>
    match h.msg with
    | none => s
    | some m =>
      if m.src = s.hub.chipid then answerFar m.id .ended s else tellChip { chip := m.src, id := m.id, ctx := m.ctx, body := .ended } s) s

/-- The hub or the host raises a counter by number, whatever context holds the core (R88, R102): a message to the launch that
holds it, else to one that was saved from it; a core that no launch holds takes it at once. DEDUCED: notes/assumptions/37.md. -/
def hubRaise (c k : Nat) (inc : Word) (s : State) : State :=
  let i := isleOfCore s c
  if phaseHolds i.phase then deliver i.ctx c k inc s
  else
    match s.hub.saved.find? (fun x => (isleCores x.isle).contains c) with
    | some x => holdMsg x.ctx c { core := 0, k := k, inc := inc } s
    | none => raiseCounter c k inc s

/-! ### The service ring (R345) -/

/-- Slots of the ring; 0 disables it. -/
def frSlots (s : State) : Nat := bits s.hub.frslots.toNat 0 16

/-- Records written and not consumed. -/
def frUsed (s : State) : Nat := (s.hub.frtail - s.hub.frhead).toNat

/-- Whether a fault that makes a service record can be raised now: a source waits while the ring is full (R345).
DESIGN CHOICE: notes/assumptions/15.md. -/
def svcRoom (s : State) : Bool := frSlots s == 0 || (s.hub.svcHeld.isEmpty && decide (frUsed s < frSlots s))

/-- The 64 bytes of a service record. -/
def svcBytes (fid : Nat) (r : SvcRecord) : List Byte :=
  toBytes 1 r.code ++ toBytes 1 r.source ++ toBytes 2 r.ctx ++ toBytes 2 r.core ++ toBytes 2 r.tag ++ toBytes 8 r.value.toNat ++
  toBytes 8 fid ++ toBytes 4 (r.tid % 2 ^ 20 + 2 ^ 20 * ofBool r.bank + 2 ^ 21 * ofBool r.write) ++ toBytes 4 0 ++
  toBytes 8 r.page ++ toBytes 24 0

/-- Tells the service agent (R345, R87). -/
def svcSignal (s : State) : State :=
  let v := s.hub.svccfg.toNat
  if bit v 0 then hubRaise (bits v 1 13) (bits v 14 6) 1 s else sendVector 1 s

/-- Writes held records while the ring has room; `fuel` bounds them. -/
def svcFlush : Nat → State → State
  | 0, s => s
  | n + 1, s =>
    match s.hub.svcHeld with
    | [] => s
    | r :: rs =>
      let slots := frSlots s
      let pa := s.hub.frbase.toNat / 64 * 64 + 64 * (s.hub.frtail.toNat % slots)
      if slots = 0 then svcFlush n (onHub (fun h => { h with svcHeld := rs }) s)
      else if frUsed s < slots then
        match writeTarget s none { pa := pa, cache := 0, key := 0, home := s.hub.chipid }
            ((svcBytes s.hub.nextFid r).map some) false with
        | .ok _ s =>
          let s := onHub (fun h => { h with svcHeld := rs, frtail := h.frtail + 1, nextFid := h.nextFid + 1 }) s
          svcFlush n (svcSignal (tallyHub 0x305 s))
        | _ => s
      else s

/-- The hub writes a service record, or holds it while the ring is full (R345).
DESIGN CHOICE: notes/assumptions/15.md. -/
def svcEmit (r : SvcRecord) (s : State) : State :=
  let s := onHub (fun h => { h with svcHeld := h.svcHeld ++ [r] }) s
  svcFlush s.hub.svcHeld.length s

/-- The service record of a fault on a core. -/
def svcOf (s : State) (c : Nat) (r : Report) : SvcRecord :=
  let i := isleOfCore s c
  { code := r.code, source := r.source, ctx := i.ctx, core := c, tag := i.lrec.tag, value := r.val, tid := r.tid
    bank := r.bank, write := r.write, page := r.page }

/-- Whether a fault makes a service record; `tr` says that Translate raised it (R345). -/
def needsSvc (cause : Nat) (tr : Bool) : Bool :=
  cause == causePagefault || cause == causeOwner || cause == causeSpillfull || cause == causeSpillfault ||
  (tr && cause == causePerm)

/-- A fault of an access through a core's tables for its pilot, with its service record; while the ring is full it waits
(R345). -/
def svcFault {α : Type} (c : Nat) (r : Report) (s : State) : Res α :=
  if needsSvc r.code true then
    if svcRoom s then .fault r.code r.val.toNat (svcEmit (svcOf s c r) s) else .wait s
  else .fault r.code r.val.toNat s

/-! ### Fabric reports (R342, R343) -/

/-- Whether the queue of a core has room for one more report. -/
def reportRoom (s : State) (c : Nat) : Bool :=
  decide ((coreOf s c).pilot.raised.length + (coreOf s c).pilot.reports.length < 16)

/-- A unit of a core waits because the record of a report that it raised met a fault (R342). DEDUCED: notes/assumptions/15.md. -/
def unitHeld (x : Core) (source slot : Nat) : Bool := x.pilot.raised.any (fun r => r.parked && r.source == source && r.slot == slot)

/-- Whether a fault of a unit can be reported now (R342, R345). -/
def faultRoom (s : State) (c : Nat) : Bool := reportRoom s c && svcRoom s

/-- Causes that reach the pilot only while TRAPVEC is nonzero (R343). -/
def servedCause (cause : Nat) : Bool :=
  cause == causePagefault || cause == causePerm || cause == causeOwner || cause == causeSpillfull ||
  cause == causeSpillfault || cause == causePreempt

/-- The node that raises a report, by its SOURCE, SLOT and ELEM (R342); a pilot, a copy engine, a posted operation, the hub, a stash
window and a barrier are none. -/
def reportNode (r : Report) : Option Nat :=
  if r.source = 9 ∧ r.elem then some r.slot
  else
    let operator : Bool := match r.source with
      | 1 => r.slot == 8 || r.slot == 9
      | 2 => decide (r.slot < 8)
      | 5 | 6 | 7 => decide (10 ≤ r.slot)
      | 9 => decide (10 ≤ r.slot)
      | _ => false
    if operator then some (64 + r.slot) else none

/-- Raises a report of a unit of a core (R343); one of a node hits its fault breakpoint (R362). -/
def report (c : Nat) (r : Report) (s : State) (node : Option Nat := reportNode r) : State :=
  let s := tallyCore c 0x00A 1 s
  let s := hitBreak (fun b => match b with | .fault c' n => c' == c && node == some n | _ => false) c s
  if servedCause r.code ∧ (coreOf s c).pilot.trapVec = 0 then s
  else onPilot c (fun p => { p with raised := p.raised ++ [r] }) s

/-- Raises a report and, where R345 asks for one, its service record. -/
def fabricFault (c : Nat) (r : Report) (tr : Bool) (s : State) : State :=
  report c r (if needsSvc r.code tr then svcEmit (svcOf s c r) s else s)

/-- The copy form of a fault's TRAPVAL (R341). -/
def copyForm (page tid : Nat) (write : Bool) (entry : Nat) : Word :=
  BitVec.ofNat 64 (page % 2 ^ 35 + 2 ^ 35 * (tid % 2 ^ 20) + 2 ^ 55 * ofBool write + 2 ^ 56 * (entry % 16))

/-! ### Wake-ups (R350) -/

/-- Parked work of a core made to translate again. -/
def wakeParked (x : Core) : Core :=
  let chan := fun (k : MpChan) => { k with replay := k.diverted.length + ofBool k.stalled.isSome + ofBool k.heldFull.isSome, walked := none }
  let job := fun (j : CopyJob) =>
    { j with segs := j.segs.map (fun g => if g.state = .parked then { g with state := .pending } else g) }
  let post := fun (p : Posted) => match p.state with | .parked q => { p with state := .inProgress q } | _ => p
  let stash := fun (w : Stash) => { w with parked := w.parked.map (fun (l, c, p, _) => (l, c, p, false)) }
  { x with
    mps := x.mps.map (fun (k, m) => (k, { m with chans := m.chans.map (fun (j, q) => (j, chan q)) }))
    jobs := x.jobs.map (fun (k, j) => (k, job j))
    posted := x.posted.map (fun (k, p) => (k, post p))
    haU := { x.haU with tab := { x.haU.tab with retry := x.haU.tab.blocked.isSome } }
    hsU := { x.hsU with tab := { x.hsU.tab with retry := x.hsU.tab.blocked.isSome } }
    stashes := x.stashes.map (fun (k, w) => (k, stash w))
    quiesce := { x.quiesce with told := false }
    pilot := { x.pilot with raised := x.pilot.raised.map (fun r => { r with parked := false }) } }

/-- A wake-up for one core of a context (R350, R351). -/
def wakeCore (ctx : Nat) (s : State) (c : Nat) : State :=
  let now := if (isleOfCore s c).frozen then 0 else s.cycle
  let add := fun (l : List Nat) => if l.contains c then l else l ++ [c]
  if coreRuns s c ctx then onCore c (fun x => latchAt now (wakeParked x)) s
  else
    match drainingIsle s c ctx with
    | some i => onCore c (latchAt now) (onIsle i (fun k => { k with reply := add k.reply }) s)
    | none =>
      let saved := fun (k : Cocoon) =>
        match savedPlace s k c ctx with
        | some j => { k with isle := { k.isle with reply := add k.isle.reply }, cores := k.cores.modify j (latchAt 0) }
        | none => k
      onHub (fun h => { h with saved := h.saved.map saved }) s

/-- Every core a context holds or has saved (R360). -/
def contextCores (s : State) (ctx : Nat) : List Nat :=
  (s.hub.isles.flatMap (fun (_, i) => if i.ctx = ctx ∧ phaseHolds i.phase then isleCores i else [])) ++
  (s.hub.saved.flatMap (fun k => if k.ctx = ctx then isleCores k.isle else []))

/-- Messages that wait for the service of a context are tried again (R252, R300). -/
def wakeMessages (ctx : Nat) (s : State) : State :=
  let again := fun (x : ChipMsg) => if x.ctx = ctx then { x with parked := false } else x
  let held := fun (i : Isle) => { i with heldMsgs := i.heldMsgs.map (fun h => { h with msg := h.msg.map again }) }
  onMs (fun m => { m with inbound := m.inbound.map again }) (onHub (fun h => { h with isles := h.isles.map (fun e => (e.1, held e.2)) }) s)

/-- A wake-up (R360): one core, or every core of the context. -/
def wake (ctx : Nat) (core : Option Nat) (s : State) : State :=
  let s := wakeMessages ctx s
  match core with
  | some c => wakeCore ctx s c
  | none => (contextCores s ctx).foldl (wakeCore ctx) s

/-! ### The ends of launches (R102) -/

/-- DONE and vector 0 of a launch, and its end status (R102). -/
def announceEnd (r : LaunchRec) (seq status : Nat) (s : State) : State :=
  let s := onHub (fun h => { h with ends := mapPut h.ends seq status }) s
  let s := if bit r.doneDep 31 then hubRaise (bits r.doneDep 0 13) (bits r.doneDep 13 6) 1 s else s
  if bit r.flags 0 then sendVector 0 s else s

/-- Stops the pilot of a core at an instruction boundary, abandoning a wait. -/
def haltPilotOf (x : Core) : Core := { x with pilot := { x.pilot with running := false, stage := .none, wfeUntil := none } }

/-- Asks every running graph of an isle to stop (R119). -/
def stopGraphs (form : StopForm) (i : Isle) : Isle :=
  { i with slots := i.slots.map (fun (k, g) => (k, if g.running then { g with stop := some form } else g)) }

/-- A launch begins to end with a status: its pilots stop and its graphs are stopped (R102). LAUNCH_END completes it. -/
def beginEnd (i status : Nat) (s : State) : State :=
  let s := onIsle i (fun k => { stopGraphs (if status = 0 then .drain else .abort) k with phase := .ending status, resume := none, quiesceAt := none }) s
  (isleCores (isleOf s i)).foldl (fun s c => onCore c haltPilotOf s) s

/-- The launch of an isle has ended: the isle is held after SBAR.END, else free (R102). -/
def completeEnd (i status : Nat) (s : State) : State :=
  let k := isleOf s i
  let s := dropHeld k.heldMsgs (announceEnd k.lrec k.seq status s)
  onIsle i (fun k => { k with heldMsgs := [], phase := if status = 0 then .held else .free, holdUntil := s.cycle + 2 ^ 14
                              attached := false, frozen := false }) s

/-! ### Contexts that end (R355) -/

/-- The number by which messages name the core at place j of a saved launch; it is no core's. -/
def awayCore (id j : Nat) : Nat := Config.cores + 1600 * id + j

/-- The core of the agent that a message belongs to. -/
def farCore (r : FarReq) : Option Nat := coreOfAgent r.agent

/-- The place in saved launch `id` of the core that a message belongs to. -/
def awayPlace (id : Nat) (r : FarReq) : Option Nat :=
  (farCore r).bind (fun c => if awayCore id 0 ≤ c ∧ c < awayCore (id + 1) 0 then some (c - awayCore id 0) else none)

/-- An agent with its core renumbered. -/
def agentAt (f : Nat → Nat) : CacheAgent → CacheAgent
  | .pilot c => .pilot (f c)
  | .fabric c => .fabric (f c)
  | .llc d => .llc d

/-- What the cores of an isle have asked of other chips goes with its saved launch (R300, R352). -/
def sendAway (id : Nat) (cs : List Nat) : State → State :=
  onMs (fun m => { m with far := m.far.map (fun r =>
    { r with agent := r.agent.map (agentAt (fun c => if cs.contains c then awayCore id (cs.idxOf c) else c)) }) })

/-- Ends a context: every launch of it, running, drained, saved or queued, ends with status 1. -/
def endContext (ctx : Nat) (s : State) : State :=
  let live := s.hub.isles.filter (fun (_, i) => i.ctx == ctx && phaseHolds i.phase)
  let s := live.foldl (fun s (n, i) => if i.phase = .ending 0 ∨ i.phase = .ending 2 then s else beginEnd n 1 s) s
  let resuming := fun (k : Cocoon) => live.any (fun (_, i) => i.resume.any (fun r => r.id == k.id))
  let gone := s.hub.saved.filter (fun k => k.ctx == ctx)
  let s := gone.foldl (fun s k =>
    dropHeld k.isle.heldMsgs (if resuming k then s else announceEnd k.isle.lrec k.isle.seq 1 s)) s
  let s := gone.foldl (fun s k => onMs (fun m => { m with far := m.far.filter (fun r => (awayPlace k.id r).isNone) }) s) s
  let queued := s.hub.fifos.flatMap (fun (_, q) => q.filter (fun l => l.lrec.ctx == ctx && !l.saved))
  let s := queued.foldl (fun s l => announceEnd l.lrec l.seq 1 s) s
  onHub (fun h => { h with saved := h.saved.filter (fun k => k.ctx != ctx)
                           fifos := h.fifos.map (fun (p, q) => (p, q.filter (fun l => l.lrec.ctx != ctx))) }) s

/-! ### The isle descriptor and restoring a cocoon -/

/-- The 64 bytes of the isle descriptor (R34). -/
def descBytes (i : Isle) : List Byte :=
  let g := fun n => mapFind i.slots n
  let res := (upTo 4).foldl (fun a n => a + 2 ^ n * ofBool (g n).isSome) 0
  toBytes 1 i.die ++ toBytes 1 i.x0 ++ toBytes 1 i.y0 ++ toBytes 1 i.width ++ toBytes 1 i.height ++ toBytes 1 i.index ++
  toBytes 2 i.ctx ++ toBytes 1 i.prio ++ toBytes 1 i.ceil ++ toBytes 2 i.lrec.cfgid ++ toBytes 4 res ++
  (upTo 4).flatMap (fun n => toBytes 2 (match g n with | some x => x.cfgid | none => 0)) ++
  toBytes 8 i.seq ++ toBytes 2 i.lrec.tag ++ toBytes 6 0 ++ toBytes 8 i.lrec.params ++ toBytes 8 i.spillBase ++ toBytes 8 0

/-- Writes the descriptor into the scratchpad of every core of an isle (R34, R101). -/
def writeDescriptors (n : Nat) (s : State) : State :=
  let i := isleOf s n
  let d := descBytes i
  (isleCores i).foldl (fun s c => onCore c (fun x => { x with scratch := memStore x.scratch Config.descOffset d }) s) s

/-- Where a core of an isle stands after the isle moved. -/
def moveCore (old new : List Nat) (c : Nat) : Nat :=
  match old.idxOf? c with
  | some j => new.getD j c
  | none => c

/-- A core of a cocoon as it restarts on isle n over core y (R352, R359): caches empty, its parked work to translate again,
the images and event counters those of y. A pilot that nydb stopped stays stopped (R378). Messages that wait at y stay, but
for a resume by the hub, which brings those of the saved core. -/
def restartCore (n : Nat) (hub : Bool) (mv : Nat → Nat) (y x : Core) : Core :=
  let w := wakeParked x
  let p := { w.pilot with halted := false, dcache := [], icache := []
                          held := x.pilot.held || (!hub && y.pilot.held) }
  { w with isle := some n, slots := y.slots, evctrs := y.evctrs, pts := latest x.pts y.pts, fabricPts := latest x.fabricPts y.fabricPts
           incoming := if hub then x.incoming else y.incoming, lastMove := y.lastMove, pilot := p
           quiesce := { w.quiesce with plist := w.quiesce.plist.map (fun (h, c) => (h, mv c)) } }

/-- A slot as its image has just loaded, with what the cocoon keeps of it. -/
def restoredSlot (mv : Nat → Nat) (saved : Map IsleSlot) (k : Nat) (g : IsleSlot) : IsleSlot :=
  match mapFind saved k with
  | some h => { g with selected := h.selected, running := h.running, stop := h.stop, endK := h.endK.map (fun (c, j) => (mv c, j))
                       lastSelected := h.lastSelected }
  | none => g

/-- Isle a after a cocoon was restored onto it: the isle registers and block scheduler of the cocoon, and, when the hub
resumes a launch, the launch itself (R352, R353, R359). -/
def restoredIsle (k : Cocoon) (hub : Bool) (mv : Nat → Nat) (a : Isle) : Isle :=
  let o := k.isle
  let b : Isle := { a with prio := o.prio, fpflags := o.fpflags, stallwd := o.stallwd, ttbase := o.ttbase, ttlen := o.ttlen
                           rtbase := o.rtbase, rtlen := o.rtlen, rubase := o.rubase, rulen := o.rulen, blktab := o.blktab
                           blklen := o.blklen, blocks := o.blocks, turn := o.turn, turnOn := o.turnOn, yielding := o.yielding
                           threads := o.threads, arrivals := o.arrivals.map (fun (c, j) => (mv c, j)), endForm := o.endForm
                           slots := a.slots.map (fun (j, g) => (j, restoredSlot mv o.slots j g))
                           loader := none, loadFail := none, quiesceAt := none, rollback := false, resume := none }
  if hub then { b with phase := .running, lrec := o.lrec, ctx := o.ctx, ceil := o.ceil, seq := o.seq, spillBase := o.spillBase
                       srkey := o.srkey, t0ptb := o.t0ptb, t0page2m := o.t0page2m, cocoonN := o.cocoonN, commit := o.commit
                       attached := o.attached, frozen := o.frozen, frozenAt := o.frozenAt, preemptedBy := o.preemptedBy }
  else b

/-- A message that the hub held is applied to a core of the isle (R300, R352). -/
def applyHeld (cs : List Nat) (s : State) (m : HeldMsg) : State :=
  let c := cs.getD m.core 0
  let s := if m.bytes.isEmpty then s
    else onCore c (putScratchAs m.poison (m.addr - Config.windowBase) m.bytes) s
  raiseIf m.ken c m.k m.inc s

/-- The messages that the hub held are applied in arrival order; from the first on that asks for more than a counter and bytes of a
scratchpad, they stay with the isle and go on there (R300, R352). -/
def resumeHeld (n : Nat) (l : List HeldMsg) (cs : List Nat) (s : State) : State :=
  let (now, then_) := l.span (fun m => m.msg.isNone)
  let again := fun (h : HeldMsg) => { h with msg := h.msg.map (fun m => { m with parked := false }) }
  onIsle n (fun i => { i with heldMsgs := then_.map again }) (now.foldl (applyHeld cs) s)

/-- Messages between chips follow the cores of an isle to its new place: those that wait here for them, and those they have
sent (R300, R352). -/
def moveMsgs (id ctx : Nat) (old new : List Nat) : State → State :=
  onMs (fun m => { m with
    inbound := m.inbound.map (fun x => if x.ctx = ctx then { x with core := moveCore old new x.core } else x)
    far := m.far.map (fun r => match awayPlace id r with
      | some j => { r with agent := r.agent.map (agentAt (fun _ => new.getD j 0)) }
      | none => r) })

/-- The counter breakpoints that counters have reached as they stand hit (R312). -/
def hitCounters (s : State) : State :=
  s.nydb.breaks.foldl (fun s b => match b with | .counter c k _ => hitCounter c k s | _ => s) s

/-- Restores a cocoon onto isle n, whose rectangle has the cocoon's shape: the isle's registers, the cores, replays, and
the messages held for it (R350 to R352, R359). DEDUCED: notes/assumptions/42.md. -/
def restoreCocoon (k : Cocoon) (n : Nat) (s : State) : State :=
  let a := isleOf s n
  let hub := a.phase == .loading
  let cs := isleCores a
  let mv := moveCore (isleCores k.isle) cs
  let s := onIsle n (restoredIsle k hub mv) s
  let s := (cs.zip k.cores).foldl (fun s (c, x) => onCore c (fun y => restartCore n hub mv y x) s) s
  let s := writeDescriptors n (onMs (fun m => { m with exSlots := m.exSlots.filter (fun e => !cs.contains e.srcCore) }) s)
  let s := if hub then resumeHeld n k.isle.heldMsgs cs (moveMsgs k.id k.ctx (isleCores k.isle) cs s) else s
  hitCounters s

/-- The lead resumes after the CTXSAVE that made the cocoon, with this status (R355, R359). -/
def resumeLead (k : Cocoon) (n : Nat) (status : Word) (s : State) : State :=
  onPilot (leadOf (isleOf s n)) (fun p => p.setReg k.gd status) s

/-- Two rectangles of one die share a core. -/
def rectsMeet (x0 y0 w h : Nat) (i : Isle) : Bool :=
  decide (x0 < i.x0 + i.width) && decide (i.x0 < x0 + w) && decide (y0 < i.y0 + i.height) && decide (i.y0 < y0 + h)

/-- Begins a load of an image into a slot of an isle, which is first invalidated (R38, R116), also for the isles that stood
on its cores before (R136). -/
def beginLoad (n slot addr : Nat) (pilot : Option Nat) (s : State) : State :=
  let s := (isleCores (isleOf s n)).foldl (fun s c =>
    onCore c (fun x => { x with slots := mapDel x.slots slot, selected := if x.selected = some slot then none else x.selected }) s) s
  let i := isleOf s n
  let lose := fun (o : Isle) =>
    if o.phase == .free && o.die == i.die && rectsMeet i.x0 i.y0 i.width i.height o then { o with slots := mapDel o.slots slot } else o
  let s := onHub (fun h => { h with isles := h.isles.map (fun (k, o) => (k, lose o)) }) s
  let s := onIsle n (fun i => { i with slots := mapDel i.slots slot, loader := some { slot := slot, addr := addr, pilot := pilot }
                                       loadFail := none }) s
  writeDescriptors n s

/-- A cocoon by its number. -/
def cocoonOf (s : State) (id : Nat) : Option Cocoon := (s.hub.saved ++ s.hub.cocoons).find? (fun k => k.id == id)

/-- Every image is loaded: the state is restored and the lead resumes. A resume queues PREEMPT for it with the LAUNCHSEQ of
the launch that took its place (R352, R359); a rollback to a commit point, status 3, queues none (R355). -/
def endRestore (refill : Nat → State → State) (k : Cocoon) (status n : Nat) (s : State) : State :=
  let hub := (isleOf s n).phase == .loading
  let s := resumeLead k n (BitVec.ofNat 64 status) (restoreCocoon k n s)
  let s := if k.full then s else (isleCores (isleOf s n)).foldl (fun s c => refill c s) s
  let s := onHub (fun h => { h with saved := h.saved.filter (fun q => q.id != k.id), cocoons := h.cocoons.filter (fun q => q.id != k.id) }) s
  if (hub && status != 3) || (!hub && !k.full) then
    report (leadOf (isleOf s n)) { code := causePreempt, val := BitVec.ofNat 64 k.isle.preemptedBy, source := 12 } s
  else s

/-- The next move of a restore: the image of the next slot that the cocoon names loads, else the state is restored (R352,
R359). `refill` asks for the TABLE regions of a core (R172). DEDUCED: notes/assumptions/42.md. -/
def resumeStep (refill : Nat → State → State) (n : Nat) (s : State) : State :=
  match (isleOf s n).resume with
  | none => s
  | some r =>
    match cocoonOf s r.id with
    | none => s
    | some k =>
      match k.isle.slots.find? (fun (j, _) => decide (r.next ≤ j)) with
      | some (j, g) => beginLoad n j g.image none (onIsle n (fun i => { i with resume := some { r with next := j + 1 } }) s)
      | none => endRestore refill k r.status n s

/-- A restore of an isle begins (R355, R359): every graph stops as STOPG.ABORT does, then the images load. -/
def beginRestore (refill : Nat → State → State) (n : Nat) (r : Resume) (s : State) : State :=
  let s := onIsle n (fun i => { stopGraphs .abort i with resume := some r, loadFail := none, quiesceAt := none, rollback := false }) s
  if (isleOf s n).slots.any (fun (_, g) => g.running) then s else resumeStep refill n s

/-! ### Cocoons in memory (R353, R359) -/

/-- The header of a cocoon may be restored on an isle of this context and shape (R359). -/
def headerOk (ctx w h : Nat) (b : List Byte) : Bool :=
  fieldAt b 0 0 32 == 0x434F434E && fieldAt b 4 0 8 == 1 && decide (fieldAt b 5 0 2 ≤ 1) && fieldAt b 5 2 1 == 0 && fieldAt b 6 0 12 == ctx &&
  fieldAt b 8 0 8 == w && fieldAt b 9 0 8 == h

/-- No directory entry of the cocoon has a reserved class (R353). -/
def classesOk (b : List Byte) : Bool :=
  (upTo (fieldAt b 12 0 32)).all (fun i => let c := fieldAt b (256 + 16 * i) 12 8; c != 0 && decide (c ≤ 0x15))

/-- The CRC of a cocoon's bytes, the CRC field read as 0 (R353). -/
def cocoonCrc (b : List Byte) : Nat := (crcBytes 0xFFFFFFFF (b.take 128 ++ toBytes 4 0 ++ b.drop 132)) ^^^ 0xFFFFFFFF

/-- The entries of a run in the spill region, with the flags that the table still owes them (R208, R353). -/
def runEntries {α : Type} (size : Nat) (f : List Byte → Option α) (owed : List (Nat × List Byte)) (v : View) (s : State) (r : Run α) : Run α :=
  match readFlat s none v r.addr r.bytes with
  | .ok b _ =>
    let patch := fun (b : List Byte) (o : Nat × List Byte) =>
      if r.addr ≤ o.1 ∧ o.1 + o.2.length ≤ r.addr + r.bytes then b.take (o.1 - r.addr) ++ o.2 ++ b.drop (o.1 - r.addr + o.2.length) else b
    let b := owed.foldl patch b.1
    { r with entries := (upTo (min (fieldAt b 0 0 64) ((r.bytes - 64) / size))).filterMap (fun j => f ((b.drop (64 + size * j)).take size)) }
  | _ => r

/-- A tensor record's copy with the bank that the record has now (R28, R366). -/
def bankNow (v : View) (ttbase : Nat) (s : State) (t : TensorRec) : TensorRec :=
  if t.tid = 0 then t
  else match readFlat s none v (ttbase + 128 * t.tid + 4) 1 with
    | .ok b _ => { t with bank := bit (ofBytes b.1) 2 }
    | _ => t

/-- A core that a cocoon holds, with what it keeps of memory read from there: the entries of its runs and the banks of its tensor
records. DESIGN CHOICE: notes/assumptions/32.md. -/
def coreFromMemory (v : View) (ttbase : Nat) (s : State) (x : Core) : Core :=
  let form := (x.haU.tab.geom.getD {}).form
  let ha := x.haU.tab
  let hs := x.hsU.tab
  { x with haU := { x.haU with tab := { ha with runs := ha.runs.map (runEntries (slotBytesOf form) (haSlotOf form) ha.owed v s) } }
           hsU := { x.hsU with tab := { hs with runs := hs.runs.map (runEntries 16 hsSlotOf hs.owed v s) } }
           tensors := x.tensors.map (fun (k, t) => (k, bankNow v ttbase s t))
           stashes := x.stashes.map (fun (k, w) => (k, { w with tensor := bankNow v ttbase s w.tensor })) }

/-- The launch record in the header, and the slots whose image it names (R353). -/
def headerIsle (i : Isle) (b : List Byte) : Isle :=
  { i with seq := fieldAt b 24 0 64, lrec := parseLaunch ((b.drop 64).take 64)
           slots := (upTo 4).filterMap (fun n => let a := fieldAt b (32 + 8 * n) 0 64; if a = 0 then none else some (n, ({ image := a } : IsleSlot))) }

/-- What the bytes of a cocoon hold: the isle, whose context and tables are those of isle i, and its cores (R353).
DESIGN CHOICE: notes/assumptions/32.md. -/
def parseCocoon (i : Isle) (b : List Byte) (s : State) : Cocoon :=
  let v : View := { ctx := i.ctx, ptb := i.t0ptb, page2m := i.t0page2m }
  let ss := sectionsIn b
  let h := headerIsle i b
  let r := match ss.find? (fun x => x.cls == 2) with | some x => readIsle (wordsOf x.bytes) h | none => (h, 0)
  let reply := match ss.find? (fun x => x.cls == 0x15) with | some x => wordsOf x.bytes | none => []
  { id := s.tick, ctx := i.ctx, isle := { r.1 with reply := reply }, full := fieldAt b 5 0 2 == 1, rollback := fieldAt b 5 2 1 == 1
    commit := fieldAt b 5 3 1 == 1, gd := r.2
    cores := (upTo (i.width * i.height)).map (fun j => coreFromMemory v r.1.ttbase.toNat s (readCore ss (j % i.width) (j / i.width))) }

/-- The cocoon that stands at an address, if it may be restored on an isle of this context and shape (R359); an uncorrectable error
in it is a fault POISON, which R355 makes unrecoverable. -/
def cocoonAt (i : Isle) (addr : Nat) (s : State) : Res (Option Cocoon) :=
  let v : View := { ctx := i.ctx, ptb := i.t0ptb, page2m := i.t0page2m }
  (readFlat s none v addr 256).andThen fun h s =>
    if !headerOk i.ctx i.width i.height h.1 then .ok none s
    else
      (readFlat s none v addr (fieldAt h.1 16 0 64)).andThen fun b s =>
        if h.2 || b.2 then .fault causePoison 0 s
        else if !classesOk b.1 || cocoonCrc b.1 != fieldAt h.1 128 0 32 then .ok none s
        else .ok (some (parseCocoon i b.1 s)) { s with tick := s.tick + 1 }

/-- The cocoon at an address for isle n. -/
def findCocoon (n addr : Nat) (s : State) : Res (Option Cocoon) := cocoonAt (isleOf s n) addr s

/-- Restores a cocoon that was read from memory onto isle n. Those that no restore names any more are dropped. -/
def restoreRead (refill : Nat → State → State) (n : Nat) (k : Cocoon) (status : Nat) (s : State) : State :=
  let named := fun (h : Hub) (q : Cocoon) => h.isles.any (fun (_, i) => i.resume.any (fun r => r.id == q.id))
  beginRestore refill n { id := k.id, status := status } (onHub (fun h => { h with cocoons := k :: h.cocoons.filter (named h) }) s)

/-- An unrecoverable error of an isle (R87, R355): ERROR, a service record, then the commit point or the end of the context. -/
def unrecoverable (n c cause source : Nat) (val : Word) (s : State) : State :=
  let i := isleOf s n
  let s := sendVector 3 s
  let s := svcEmit { code := cause, source := source, ctx := i.ctx, core := c, tag := i.lrec.tag, value := val } s
  match i.commit with
  | none => endContext i.ctx s
  | some a =>
    match findCocoon n a.toNat s with
    | .ok (some k) s => restoreRead (fun _ s => s) n k 3 s
    | .ok none s => endContext i.ctx s
    | .fault _ _ s => endContext i.ctx s
    | .wait s => endContext i.ctx s

end Sys2Proof.Machine
end

