-- ==== Sys2Proof/Machine/Tensors.lean ====
section
/-! DEFINITION. Tensor, relation and rule records (R22, R25, R29, R30), the layout unit (R26, R250) and translation of a
tensor's elements (R252). -/

namespace Sys2Proof.Machine

/-! ### Parsing records -/

/-- A signed n-bit field. -/
def sfield (rec : List Byte) (lo len : Nat) : Int := sext len (field rec lo len)

/-- The tensor record of 128 bytes; none where R25 raises CFGBAD. DEDUCED: notes/assumptions/29.md. -/
def parseTensor (tid : Nat) (r : List Byte) : Option TensorRec :=
  let rank := field r 24 4
  let fmt := field r 28 4
  let tile := (upTo 8).map (fun i => field r (8 * 24 + 4 * i) 4)
  let ext := (upTo 8).map (fun i => field r (8 * (40 + 8 * i)) 40)
  let words := (upTo 8).map (fun i => fieldAt r (40 + 8 * i) 0 64)
  let hi := (upTo 8).drop rank
  let blk := fieldAt r 4 5 3
  if field r 0 20 = tid ∧ 1 ≤ rank ∧ rank ≤ 8 ∧ (fmtOf fmt).isSome ∧ fieldAt r 4 0 2 ≠ 3 ∧ blk ≤ 3 ∧
      (fieldAt r 4 2 1 = 0 ∨ fieldAt r 4 3 1 = 1) ∧ hi.all (fun i => tile.getD i 0 == 0 && words.getD i 0 == 0) then
    some { tid := tid, rank := rank, fmt := fmt, oob := fieldAt r 4 0 2, bank := fieldAt r 4 2 1 = 1
           twobank := fieldAt r 4 3 1 = 1, page2m := fieldAt r 4 4 1 = 1, blk := if blk = 0 then 0 else 8 * 2 ^ blk
           emax := sext 8 (fieldAt r 4 8 8), ptb0 := fieldAt r 8 0 64, ptb1 := fieldAt r 16 0 64
           tile := tile.take rank, scaletid := fieldAt r 28 0 20, cbaddr := fieldAt r 32 0 64, ext := ext.take rank }
  else none

/-- The record of tensor 0 of a context (R27). -/
def tensor0 (v : View) : TensorRec := { ptb0 := v.ptb, page2m := v.page2m }

/-- The active bank's page table (R25). -/
def TensorRec.ptb (t : TensorRec) : Nat := if t.bank then t.ptb1 else t.ptb0

def TensorRec.width (t : TensorRec) : Nat := match fmtOf t.fmt with | some f => fmtWidth f | none => 8

/-- A relation record (R29). -/
structure RelRec where
  rid : Nat
  arity : Nat
  alg : Nat
  stratum : Nat
  recursive : Bool
  keymask : Nat
  npart : Nat
  tuples : Nat
  srcidx : Nat
  dstidx : Nat
  extent : Nat
  capacity : Nat
  spill : Nat
  spillsz : Nat
  deriving DecidableEq, Repr

/-- A relation record; one whose fields lie outside their ranges is a bad record (R29). DESIGN CHOICE: notes/assumptions/87.md. -/
def parseRel (rid : Nat) (r : List Byte) : Option RelRec :=
  let x : RelRec := { rid := fieldAt r 0 0 12, arity := fieldAt r 2 0 4, alg := fieldAt r 2 4 4, stratum := fieldAt r 3 0 4
                      recursive := fieldAt r 3 4 1 = 1, keymask := fieldAt r 4 0 8, npart := fieldAt r 6 0 16
                      tuples := fieldAt r 8 0 20, srcidx := fieldAt r 12 0 20, dstidx := fieldAt r 16 0 20
                      extent := fieldAt r 24 0 64, capacity := fieldAt r 32 0 64, spill := fieldAt r 40 0 64
                      spillsz := fieldAt r 48 0 64 }
  if x.rid = rid ∧ 1 ≤ x.arity ∧ x.arity ≤ 8 ∧ x.alg ≤ 7 ∧ x.keymask ≠ 0 ∧ x.keymask < 2 ^ x.arity ∧ 1 ≤ x.npart ∧
      x.npart ≤ 6400 ∧ x.spill % 65536 = 0 ∧ x.spillsz % 65536 = 0 then some x else none

/-- A body atom of a rule (R30). -/
structure AtomRec where
  rid : Nat
  neg : Bool
  access : Nat
  /-- The variable of each column. -/
  vars : List Nat
  deriving DecidableEq, Repr

/-- A rule record (R30). -/
structure RuleRec where
  rule : Nat
  nbody : Nat
  head : Nat
  cfgid : Nat
  stratum : Nat
  atoms : List AtomRec
  headVars : List Nat
  deriving DecidableEq, Repr

def parseAtom (a : Nat) : AtomRec :=
  { rid := bits a 0 12, neg := bit a 12, access := bits a 13 2, vars := (upTo 8).map (fun j => bits a (24 + 5 * j) 5) }

def parseRule (n : Nat) (r : List Byte) : Option RuleRec :=
  let nb := fieldAt r 1 0 3
  let atoms := (upTo 4).map (fun i => fieldAt r (8 + 8 * i) 0 64)
  if fieldAt r 0 0 8 = n ∧ 1 ≤ nb ∧ nb ≤ 4 ∧ (atoms.drop nb).all (· == 0) then
    some { rule := n, nbody := nb, head := fieldAt r 2 0 12, cfgid := fieldAt r 4 0 16, stratum := fieldAt r 6 0 4
           atoms := (atoms.take nb).map parseAtom, headVars := (upTo 8).map (fun j => fieldAt r 40 (5 * j) 5) }
  else none

/-! ### Reading records -/

/-- Reads a record of a core's context whole; a fault carries the record's address, a poisoned record is lost metadata
(R345, R347). -/
def readRecord (s : State) (a : Option CacheAgent) (c va n : Nat) : Res (List Byte) :=
  match readFlat s a (viewOf s c) va n with
  | .ok (b, false) s => .ok b s
  | .ok (_, true) s => .fault causeMdpoison va s
  | .fault cause page s => svcFault c { code := cause, val := BitVec.ofNat 64 va, page := page } s
  | .wait s => .wait s

/-- Reads an indexed record: PERM at or above the length, CFGBAD where it breaks its map (R22, R25). -/
def readIndexed {α : Type} (s : State) (a : Option CacheAgent) (c base len size id : Nat)
    (parse : Nat → List Byte → Option α) : Res α :=
  if len ≤ id then .fault causePerm id s
  else
    (readRecord s a c (base + size * id) size).andThen (fun b s =>
      match parse id b with
      | some r => .ok r s
      | none => .fault causeCfgbad id s)

/-- The tensor record of a core's context (R22, R27). -/
def readTensor (s : State) (a : Option CacheAgent) (c tid : Nat) : Res TensorRec :=
  let i := isleOfCore s c
  if tid = 0 then .ok (tensor0 (viewOf s c)) s
  else readIndexed s a c i.ttbase.toNat i.ttlen.toNat 128 tid parseTensor

/-- The relation record of a core's context. -/
def readRel (s : State) (a : Option CacheAgent) (c rid : Nat) : Res RelRec :=
  let i := isleOfCore s c
  readIndexed s a c i.rtbase.toNat i.rtlen.toNat 64 rid parseRel

/-- The rule record of a core's context. -/
def readRule (s : State) (a : Option CacheAgent) (c n : Nat) : Res RuleRec :=
  let i := isleOfCore s c
  readIndexed s a c i.rubase.toNat i.rulen.toNat 64 n parseRule

/-! ### The layout unit (R26, R250) -/

/-- The element's place: page, byte offset, and whether it is the high nibble of its byte. -/
structure Spot where
  page : Nat
  off : Nat
  high : Bool
  deriving DecidableEq, Repr

/-- Where an element that lies inside the extents is stored (R26). -/
def layoutGo (w ps : Nat) : List (Int × Nat × Nat) → Nat → Nat → Nat → Nat → Spot
  | [], e, m, ti, _ =>
    let tb := m * w / 8
    { page := ti * tb / ps, off := ti * tb % ps + e * w / 8, high := w == 4 && e % 2 == 1 }
  | (c, l, ext) :: rest, e, m, ti, n =>
    layoutGo w ps rest (e + (c.toNat % 2 ^ l) * m) (m * 2 ^ l) (ti + (c.toNat / 2 ^ l) * n) (n * ceilDiv ext (2 ^ l))

/-- Bytes of a tile. -/
def TensorRec.tileBytes (t : TensorRec) : Nat := t.tile.foldl (fun m l => m * 2 ^ l) 1 * t.width / 8

/-- Whether a tile fits in a page and holds 32 bytes at least; otherwise CFGBAD (R26). -/
def TensorRec.tileOk (t : TensorRec) : Bool := decide (32 ≤ t.tileBytes) && decide (t.tileBytes ≤ pageSize t.page2m)

/-- The first RANK coordinates, missing ones 0. -/
def coordOf (t : TensorRec) (c : List Int) : List Int := (upTo t.rank).map (fun i => c.getD i 0)

/-- Every component lies inside its extent. -/
def inside (t : TensorRec) (c : List Int) : Bool :=
  (upTo t.rank).all (fun i => decide (0 ≤ c.getD i 0) && decide (c.getD i 0 < (t.ext.getD i 0 : Nat)))

/-- Each component clamped into its extent (R250). -/
def clampCoord (t : TensorRec) (c : List Int) : List Int :=
  (upTo t.rank).map (fun i => max 0 (min (c.getD i 0) ((t.ext.getD i 0 : Nat) - 1)))

/-- Layout of R26 for a coordinate inside the extents. -/
def layout (t : TensorRec) (c : List Int) : Spot :=
  layoutGo t.width (pageSize t.page2m) ((coordOf t c).zip (t.tile.zip t.ext)) 0 1 0 1

/-- What the layout unit says of an element under an OOB policy (R250). -/
inductive Elt
  | at_ (p : Spot)
  | zero
  | outside
  deriving DecidableEq, Repr

/-- The layout unit with the policy given (R250); a page number at or above 2^35 counts as outside (R251). -/
def eltOf (t : TensorRec) (oob : Nat) (c : List Int) : Elt :=
  let far := fun (p : Spot) => decide (2 ^ 35 ≤ p.page)
  if inside t c && !far (layout t c) then .at_ (layout t c)
  else if oob = 0 then .zero
  else if oob = 1 then
    let p := layout t (clampCoord t c)
    if far p then .outside else .at_ p
  else .outside

/-- Translate for an element of a tensor, without a translation cache (R252); a page at or above 2^35 is outside (R251). -/
def translateSpot (s : State) (v : View) (t : TensorRec) (p : Spot) (acc : Access) (cfgid : Option Nat) : Res Target :=
  let r := walk s v.die t.page2m t.ptb p.page
  if 2 ^ 35 ≤ p.page then .fault causeOob p.page s
  else
  let s := walkReads v.die t.ptb p.page s
  match r with
  | .error .clear => .fault causePagefault p.page s
  | .error .lost => .fault causeMdpoison p.page s
  | .error .wait => .wait s
  | .ok e =>
    match checkPte e acc v.ctx cfgid p.off with
    | .error c => .fault c p.page s
    | .ok t => .ok { t with page := p.page } s

/-- Byte o of a tensor as a flat sequence of pages, as a stash window names it (R263); its page number may pass 2^35. -/
def byteSpot (t : TensorRec) (o : Nat) : Spot := { page := o / pageSize t.page2m, off := o % pageSize t.page2m, high := false }

end Sys2Proof.Machine
end

