-- ==== Sys2Proof/Machine/Ops.lean ====
section
/-! DEFINITION. The named operations of the pilot whose turn it is: registers and the program counter (R146, R147), taking
a trap and returning from one (R151, R160), stash windows (R263, R264), and the pilot's loads and stores (R144, R155). -/

namespace Sys2Proof.Machine

/-- The outcome of an instruction that left this state: the spec stops the machine nowhere. -/
def done (s : State) : Host.Outcome State Fault Refusal := .next s

/-! ### Registers -/

/-- The pilot whose turn it is. -/
def pilot (s : State) : Pilot := (coreOf s s.turn).pilot

/-- A register of a pilot as read; g0 reads as zero (R147). -/
def Pilot.reg (p : Pilot) (r : Nat) : Word := if r = 0 then 0 else p.regs.toList.getD r 0

/-- Reads a register (R147). -/
def reg (s : State) (r : Reg) : Word := (pilot s).reg r.toNat

/-- Writes a register; writes to g0 are discarded (R147). -/
def setReg (r : Reg) (v : Word) (s : State) : State := onPilot s.turn (fun p => p.setReg r.toNat v) s

/-- Goes on at an address: the instruction has completed. -/
def goto (pc : Word) (s : State) : State :=
  onCore s.turn (fun k => { k with pilot := { k.pilot.wordDone with pc := pc, stage := .none, wfeUntil := none }
                                   evctrs := tallyMap k.evctrs 0 8 0x002 1 }) s

/-- Goes on at the next instruction. -/
def advance (s : State) : State := goto ((pilot s).pc + 8) s

/-- Writes the result and goes on. -/
def writeBack (gd : Reg) (v : Word) (s : State) : State := advance (setReg gd v s)

/-- A value the spec does not state (notes/assumptions/6.md). -/
def freeVal (s : State) : Word × State := (Config.freeWord s.tick, { s with tick := s.tick + 1 })

/-! ### Traps (R151) -/

/-- The pilot after trap entry; nothing else of it changes. -/
def Pilot.enterTrap (p : Pilot) (cause : Nat) (fabric soft : Bool) (val pc : Word) : Pilot :=
  { p with trapCause := BitVec.ofNat 64 (cause + 2 ^ 8 * ofBool fabric + 2 ^ 9 * ofBool soft)
           trapVal := val, trapPc := pc, inTrap := true, pc := p.trapVec, stage := .none, savedStage := p.stage.kept, inWord := false
           wfeUntil := none }

/-- TakeTrap of R151: entry, or the halt of the pilot, which R355 makes unrecoverable. -/
def takeTrap (c cause : Nat) (fabric soft : Bool) (val pc : Word) (s : State) : State :=
  let p := (coreOf s c).pilot
  if p.inTrap ∨ p.trapVec = 0 then
    let s := onPilot c (fun p => { p with halted := true }) s
    match (coreOf s c).isle with
    | some n => unrecoverable n c cause 0 val s
    | none => s
  else onPilot c (fun p => p.enterTrap cause fabric soft val pc) s

/-- A precise trap of the pilot whose turn it is: its instruction has no effect (R151). -/
def trapAt (cause : Nat) (val : Word) (s : State) : State :=
  takeTrap s.turn cause false false val (pilot s).pc (onPilot s.turn (fun p => { p with stage := .none, fixRounds := 0, steps := p.steps - 1 }) s)

/-- A precise trap whose TRAPVAL the spec does not state. DESIGN CHOICE: notes/assumptions/6.md. -/
def trapFree (cause : Nat) (s : State) : State := let (v, s) := freeVal s; trapAt cause v s

/-- Goes on with the value of a pilot's access; a fault traps with its value, and a wait leaves the instruction to run
again. -/
def onRes {α : Type} (r : Res α) (k : α → State → State) : State :=
  match r with
  | .ok a s => k a s
  | .fault c v s => trapAt c (BitVec.ofNat 64 v) s
  | .wait s => s

/-- ERET of R160: with INTRAP clear PERM, else INTRAP clears, the wait of the trap resumes as a wait only, and the pilot
goes on at TRAPPC. -/
def returnFromTrap (s : State) : State :=
  if (pilot s).inTrap then
    onCore s.turn (fun k => { k with pilot := { k.pilot.wordDone with inTrap := false, pc := k.pilot.trapPc, stage := k.pilot.savedStage
                                                                      savedStage := .none }
                                     evctrs := tallyMap k.evctrs 0 8 0x002 1 }) s
  else trapFree causePerm s

/-! ### Acquire and release (R277) -/

/-- The latest WTS of any line: the clock of an agent that has acquired lies at or above it, so no copy older than a
write already performed is live for it (notes/assumptions/10.md). -/
def latestWts (s : State) : Word := s.ms.stamps.foldl (fun n (_, x) => latest n x.wts) 0

/-- The pilot of a core acquires every release made so far. -/
def acquire (c : Nat) (s : State) : State := raisePts (latestWts s) s (some (.pilot c))

/-- The fabric side of a core acquires every release made so far. -/
def acquireFabric (c : Nat) (s : State) : State := raisePts (latestWts s) s (some (.fabric c))

/-! ### Stash windows (R263, R264) -/

/-- The live window that a scratchpad byte lies in. -/
def stashAt (x : Core) (o : Nat) : Option (Nat × Stash) :=
  x.stashes.find? (fun (_, w) => w.cfg.spbase ≤ o && o < w.cfg.spbase + w.cfg.len)

/-- Where line n of a window lies in its tensor. -/
def stashSpot (w : Stash) (line : Nat) : Spot := byteSpot w.tensor (w.cfg.toff + 64 * line)

/-- Whether a line may be used as it stands: dirty, or clean under a live lease. -/
def stashLive (s : State) (c : Nat) (w : Stash) (line : Nat) : Bool :=
  match mapFind w.lines line with
  | some l => !l.dirty.isEmpty || decide (ptsOf s (some (.fabric c)) ≤ l.lease)
  | none => false

/-- A window after a line of it filled. -/
def Stash.filled (w : Stash) (line : Nat) (lease : Word) : Stash :=
  { w with lines := mapPut w.lines line { lease := lease }, wanted := w.wanted.filter (· != line)
           parked := mapDel w.parked line }

/-- A core after line `line` of window n filled with these bytes. -/
def putStashLine (n : Nat) (w : Stash) (line : Nat) (lease : Word) (b : List Byte) (bad : Nat) (x : Core) : Core :=
  let o := w.cfg.spbase + 64 * line
  markScratch (bit bad 0) o 32 (markScratch (bit bad 1) (o + 32) 32
    { x with scratch := memStore x.scratch o b, stashes := mapPut x.stashes n (w.filled line lease) })

/-- Fills a line of a window: a translated read that needs R and carries a lease (R263). -/
def stashFill (c n line : Nat) (s : State) : Res Unit :=
  let w := mapGet { cfg := { spbase := 0, len := 0, tid := 0, toff := 0 } } (coreOf s c).stashes n
  (translateSpot s (viewOf s c) w.tensor (stashSpot w line) .read none).andThen fun t s =>
    if t.home = s.hub.chipid ∧ placeOf t.pa = .hbm then
      if readReady s (some (.fabric c)) t.cache t.pa then
        let (g, s) := fillLine s (.fabric c) t.key t.cache (t.pa / 64)
        .ok () (onCore c (putStashLine n w line g.lease g.data g.bad) s)
      else .wait s
    else
      (readLine s (some (.fabric c)) t).andThen fun b s =>
        .ok () (onCore c (putStashLine n w line (ptsOf s (some (.fabric c))) b.1 b.2) s)

/-- Makes the line under a scratchpad byte ready for an access: a fill on first touch, and the W check of a first store
(R263). -/
def stashTouch (c o : Nat) (store : Bool) (s : State) : Res Unit :=
  match stashAt (coreOf s c) o with
  | none => .ok () s
  | some (n, w) =>
    let line := (o - w.cfg.spbase) / 64
    (if stashLive s c w line then Res.ok () s else stashFill c n line s).andThen (fun _ s =>
      if store ∧ (mapGet { lease := 0 } w.lines line).dirty.isEmpty then
        (translateSpot s (viewOf s c) w.tensor (stashSpot w line) .write none).andThen (fun _ s => .ok () s)
      else .ok () s)

/-- A core after a dirty line of window n was written back: the line stays live and clean (R264). -/
def cleanLine (n line : Nat) (l : StashLine) (x : Core) : Core :=
  { x with stashes := x.stashes.map (fun (k, w) =>
      (k, if k = n then { w with lines := mapPut w.lines line { l with dirty := [] } } else w)) }

/-- Writes the dirty bytes of one line back (R264). -/
def writeBackLine (c n : Nat) (w : Stash) (line : Nat) (l : StashLine) (s : State) : Res Unit :=
  if l.dirty.isEmpty then .ok () s
  else
    let x := coreOf s c
    let o := w.cfg.spbase + 64 * line
    let half := fun (h : Nat) => (upTo 64).map (fun i =>
      if l.dirty.contains i ∧ i / 32 = h then some (memByte x.scratch (o + i)) else none)
    let put := fun (t : Target) (h : Nat) (s : State) =>
      if (half h).all Option.isNone then Res.ok () s else writeTarget s (some (.fabric c)) t (half h) (scratchBad x (o + 32 * h) 32)
    (translateSpot s (viewOf s c) w.tensor (stashSpot w line) .write none).andThen fun t s =>
      (put t 0 s).andThen fun _ s => (put t 1 s).andThen fun _ s => .ok () (onCore c (cleanLine n line l) s)

/-- Writes dirty lines back, oldest index first; a fault or wait stops at its line. -/
def writeBackGo (c : Nat) : List (Nat × Stash × Nat × StashLine) → State → Res Unit
  | [], s => .ok () s
  | (n, w, line, l) :: rest, s => (writeBackLine c n w line l s).andThen (fun _ s => writeBackGo c rest s)

/-- Writes back every dirty line of the windows that a test picks (R264). DEDUCED: notes/assumptions/67.md. -/
def writeBackStash (c : Nat) (pick : Nat → Bool) (s : State) : Res Unit :=
  writeBackGo c ((coreOf s c).stashes.flatMap (fun (n, w) =>
    if pick n then w.lines.map (fun (k, l) => (n, w, k, l)) else [])) s

/-- The first dirty line of the windows that a test picks. -/
def firstDirty (x : Core) (pick : Nat → Bool) : Option (Stash × Nat) :=
  x.stashes.findSome? (fun (n, w) => if pick n then (w.lines.find? (fun (_, l) => !l.dirty.isEmpty)).map (fun e => (w, e.1)) else none)

/-- A write-back that the pilot of a core asks for, until it is performed on other chips too; a fault carries the scratchpad address
of the line (R264, R341). DEDUCED: notes/assumptions/67.md. -/
def coreBack (c : Nat) (pick : Nat → Bool) (s : State) : Res Unit :=
  match writeBackStash c pick s with
  | .fault cause page s =>
    match firstDirty (coreOf s c) pick with
    | some (w, line) =>
      svcFault c { code := cause, val := BitVec.ofNat 64 (Config.windowBase + w.cfg.spbase + 64 * line), tid := w.cfg.tid, page := page
                   bank := w.tensor.bank, write := true } s
    | none => .fault cause page s
  | .ok _ s => if farSettled s (.fabric c) then .ok () s else .wait s
  | .wait s => .wait s

/-- The key under which a window keeps the fault of its write-back. -/
def backKey : Nat := 2 ^ 18

/-- A write-back of the windows that a test picks waits for a wake-up. -/
def windowsParked (x : Core) (pick : Stash → Bool) : Bool :=
  x.stashes.any (fun (_, w) => pick w && (mapGet (0, 0, false) w.parked backKey).2.2)

/-- The write-back of the windows that a test picks met a fault: it is reported once and waits for a wake-up (R350). -/
def parkWindows (c : Nat) (pick : Stash → Bool) (cause page : Nat) (s : State) : State :=
  let park := onCore c (fun x => { x with stashes := x.stashes.map (fun (k, w) =>
    (k, if pick w then { w with parked := mapPut w.parked backKey (cause, page, true) } else w)) })
  match (coreOf s c).stashes.find? (fun (_, w) => pick w) with
  | none => s
  | some (_, w) =>
    let last := mapGet (0, 0, false) w.parked backKey
    if last.1 = cause ∧ last.2.1 = page then park s
    else if faultRoom s c then
      park (fabricFault c { code := cause, val := copyForm page w.cfg.tid true 0, source := 9, tid := w.cfg.tid, page := page
                            write := true, bank := w.tensor.bank } true s)
    else s

/-! ### The store buffer (R144) -/

/-- Whether every earlier store of a core's pilot has been performed, on other chips too. -/
def storesDone (s : State) (c : Nat) : Bool := (coreOf s c).pilot.storeBuf.isEmpty && farSettled s (.pilot c)

/-- A store of the buffer overlaps bytes addr to addr + n - 1 of its kind of place and chip. -/
def BufStore.overlaps (b : BufStore) (scratch : Bool) (home addr n : Nat) : Bool :=
  b.scratch == scratch && b.home == home && decide (b.addr < addr + n) && decide (addr < b.addr + b.bytes.length)

/-- The bytes lie within the store. -/
def BufStore.covers (b : BufStore) (scratch : Bool) (home addr n : Nat) : Bool :=
  b.scratch == scratch && b.home == home && decide (b.addr ≤ addr) && decide (addr + n ≤ b.addr + b.bytes.length)

/-- What the buffer says of a load: nothing overlaps, the bytes to forward, or a wait (R144). -/
inductive Forward | none | bytes (b : List Byte) | wait
  deriving DecidableEq, Repr

/-- The newest covering store when no store overlaps in part (R144). -/
def forward (buf : List BufStore) (scratch : Bool) (home addr n : Nat) : Forward :=
  let hits := buf.filter (fun b => b.overlaps scratch home addr n)
  if hits.all (fun b => b.covers scratch home addr n) then
    match hits.getLast? with
    | some b => .bytes ((b.bytes.drop (addr - b.addr)).take n)
    | none => .none
  else .wait

/-! ### Locations of a pilot access (R148, R155, R262) -/

/-- A location: a byte of the scratchpad, or a translated address. -/
inductive Loc
  | scratch (o : Nat)
  | phys (t : Target)
  deriving DecidableEq, Repr

/-- The address lies in the scratchpad window (R148). -/
def inWindow (ea : Nat) : Bool := decide (Config.windowBase ≤ ea) && decide (ea < Config.windowBase + Config.scratchBytes)

/-- Whether a copy's interval in a space overlaps the bytes. -/
def hitsInterval (i : Option (Nat × Nat × Nat)) (space a n : Nat) : Bool :=
  match i with
  | some (sp, lo, hi) => sp == space && decide (lo < a + n) && decide (a ≤ hi)
  | none => false

/-- The access overlaps a scoreboard entry it must wait for: a destination, and for a store or atomic also a source
(R262). -/
def scoreboardHit (x : Core) (store : Bool) (ea n : Nat) : Bool :=
  let space := if inWindow ea then 1 else 0
  let a := if inWindow ea then ea - Config.windowBase else ea
  x.jobs.any (fun (_, j) => j.refill.isNone && (hitsInterval j.dst space a n || (store && hitsInterval j.src space a n)))

/-- Translate for the pilot whose turn it is: a fault carries the address, and makes its service record (R345). -/
def pilotTranslate (s : State) (ea : Nat) (acc : Access) : Res Target :=
  match translate s (viewOf s s.turn) ea acc with
  | .fault cause page s =>
    svcFault s.turn { code := cause, val := BitVec.ofNat 64 ea, page := page, write := acc == .write || acc == .both } s
  | r => r

/-- The stash line under a pilot's scratchpad access is made ready; a fault is precise (R263). -/
def pilotTouch (s : State) (ea : Nat) (store : Bool) : Res Unit :=
  let o := ea - Config.windowBase
  match stashTouch s.turn o store s with
  | .fault c page s =>
    let t := (stashAt (coreOf s s.turn) o).elim ({} : TensorRec) (fun e => e.2.tensor)
    svcFault s.turn { code := c, val := BitVec.ofNat 64 ea, tid := t.tid, page := page, bank := t.bank, write := store } s
  | r => r

/-- The location of a pilot access of n bytes after its checks, waits included (R155, R262, R263). -/
def locate (s : State) (ea n : Nat) (acc : Access) : Res Loc :=
  let store := acc != .read && acc != .fetch
  if ea % n ≠ 0 then .fault causeAlign ea s
  else if inWindow ea then
    let o := ea - Config.windowBase
    if store ∧ Config.descOffset < o + n then .fault causePerm ea s
    else if scoreboardHit (coreOf s s.turn) store ea n then .wait s
    else (pilotTouch s ea store).andThen fun _ s => .ok (.scratch o) s
  else if Config.tensor0End < ea + n then .fault causeOob ea s
  else
    (pilotTranslate s ea acc).andThen (fun t s =>
      if scoreboardHit (coreOf s s.turn) store ea n then .wait s else .ok (.phys t) s)

/-! ### Service registers (R345) -/

/-- Reads a service register. -/
def serviceRead (s : State) (off : Nat) : Word :=
  let h := s.hub
  if off = 0x000 then h.ctxtab else if off = 0x008 then h.granttab else if off = 0x010 then h.frbase
  else if off = 0x018 then h.frslots else if off = 0x020 then h.frhead else if off = 0x028 then h.frtail
  else if off = 0x030 then h.svccfg else if off = 0x048 then BitVec.ofNat 64 (ofBool h.tinvBusy)
  else if off = 0x058 then BitVec.ofNat 64 h.drainlim else if off = 0x060 then BitVec.ofNat 64 h.chipid
  else if 0x1000 ≤ off ∧ off < 0x2000 then mapGet 0 h.cwrt ((off - 0x1000) / 8)
  else if 0x2000 ≤ off ∧ off < 0x2000 + 32 * 192 then mapGet 0 s.ms.frr ((off - 0x2000) / 8)
  else 0

/-- A wake-up in the operand form of FRSP: the context, and the core or ALL (R353, R360).
DEDUCED: notes/assumptions/11.md. -/
def frspDoor (ctx core : Word) (all : Bool) (s : State) : State := wake ctx.toNat (if all then none else some core.toNat) s

/-- The operand of a wake-up that is out of range, which raises PERM (R360). -/
def frspBad (ctx core : Word) (all : Bool) : Option Word :=
  if 4096 ≤ ctx.toNat then some ctx else if !all && decide (Config.cores ≤ core.toNat) then some core else none

/-- The operands that a write to FRSPDOOR carries, and whether it names every core. DEDUCED: notes/assumptions/11.md. -/
def frspParts (v : Word) : Word × Word × Bool := (v &&& 0xFFF, (v >>> 12) &&& 0x1FFF, v.getLsbD 25)

/-- A write to a service register that raises PERM, with the operand: a wake-up whose operand is out of range, or with bits outside
its fields (R360). -/
def serviceBad (off : Nat) (v : Word) : Option Word :=
  let (ctx, core, all) := frspParts v
  if off ≠ 0x038 then none else if 2 ^ 26 ≤ v.toNat then some v else frspBad ctx core all

/-- Invalidates the cached translations of a context's tensor (R345). -/
def dropTranslations (s : State) (v : Nat) : State :=
  let ctx := bits v 0 12
  let tid := bits v 12 20
  let bank := fun (c : Core) (e : TcEntry) =>
    match mapFind c.tensors e.tid with
    | some t => (bit v 32 && e.ptb == t.ptb0) || (bit v 33 && e.ptb == t.ptb1)
    | none => true
  let core := fun (c : Core) =>
    if (c.isle.map (fun i => (isleOf s i).ctx)) = some ctx then
      { c with mps := c.mps.map (fun (k, m) => (k, { m with tcache := m.tcache.filter (fun e => !(e.tid == tid && bank c e)) })) }
    else c
  { s with cores := s.cores.map (fun (k, c) => (k, core c)) }

/-- The bits of a service register that are not reserved (R5, R266, R345, R346). -/
def serviceMask (off : Nat) : Word :=
  if off = 0x018 then 0xFFFF else if off = 0x030 then 0xFFFFF
  else if 0x1000 ≤ off ∧ off < 0x2000 then 0x8F8F8F8F8F8F8F8F
  else if 0x2000 ≤ off then (match off / 8 % 4 with | 0 => 0xFFFFFFFFFFFF007F | 1 => 0xFFFFFFFFFFFF0000 | _ => BitVec.allOnes 64)
  else BitVec.allOnes 64

/-- Writes a service register, with its effect (R345, R346, R355). DEDUCED: notes/assumptions/61.md. -/
def serviceWrite (off : Nat) (w : Word) (s : State) : State :=
  let v := w &&& serviceMask off
  if off = 0x000 then onHub (fun h => { h with ctxtab := v }) s
  else if off = 0x008 then onHub (fun h => { h with granttab := v }) s
  else if off = 0x010 then onHub (fun h => { h with frbase := v }) s
  else if off = 0x018 then onHub (fun h => { h with frslots := v }) s
  else if off = 0x020 then
    let s := onHub (fun h => { h with frhead := v }) s
    svcFlush s.hub.svcHeld.length s
  else if off = 0x030 then onHub (fun h => { h with svccfg := v }) s
  else if off = 0x038 then (if (serviceBad off v).isSome then s else let (ctx, core, all) := frspParts v; frspDoor ctx core all s)
  else if off = 0x040 then onHub (fun h => { h with tinvBusy := true }) (dropTranslations s v.toNat)
  else if off = 0x050 then endContext (bits v.toNat 0 12) s
  else if off = 0x058 then onHub (fun h => { h with drainlim := bits v.toNat 0 5 }) s
  else if off = 0x060 then onHub (fun h => { h with chipid := bits v.toNat 0 12 }) s
  else if 0x1000 ≤ off ∧ off < 0x2000 then sendUnsent (onHub (fun h => { h with cwrt := mapPut h.cwrt ((off - 0x1000) / 8) v }) s)
  else if 0x2000 ≤ off ∧ off < 0x2000 + 32 * 192 then onMs (fun m => { m with frr := mapPut m.frr ((off - 0x2000) / 8) v }) s
  else s

/-! ### Pilot loads (R145, R155) -/

/-- A pilot's read of n bytes at a translated HBM address, through its data cache unless the page is uncached (R145): the
bytes and whether they carry poison. -/
def cachedRead (s : State) (c : Nat) (t : Target) (n : Nat) : (List Byte × Bool) × State :=
  if t.cache = 2 then
    let r := performRead s (some (.pilot c)) t.key t.cache t.pa n
    ((r.1, poisoned s t.pa n), r.2)
  else
    let line := t.pa / 64
    let s := { s with tick := s.tick + 1 }
    let cut := fun (l : LineCopy) => ((l.data.drop (t.pa % 64)).take n, l.badAt (t.pa % 64) n)
    let fill := fun (s : State) =>
      let (l, s) := fillLine s (.pilot c) t.key t.cache line
      (cut l, onPilot c (fun p => { p with dcache := cachePut 64 s.tick line l p.dcache }) { s with tick := s.tick + 1 })
    match mapFind (coreOf s c).pilot.dcache line with
    | some l => if ptsOf s (some (.pilot c)) ≤ l.lease ∧ ¬ Config.evicted s.tick then (cut l, s) else fill s
    | none => fill s

/-- The checks that this chip makes of a pilot's access to a page of another chip: only plain accesses of 8 bytes reach counters
and service registers, and these only from context 0 (R296, R345). -/
def farAllowed (s : State) (t : Target) (n : Nat) (plain : Bool) : Bool :=
  match placeOf t.pa with
  | .counter _ _ => plain && n == 8
  | .counterHole => false
  | .service _ => plain && n == 8 && (viewOf s s.turn).ctx == 0
  | _ => true

/-- The pilot of the core reads at another chip: a failure carries the address of the access. -/
def farLoad (s : State) (c ea : Nat) (t : Target) (n : Nat) : Res (List Byte × Bool) :=
  match readFar s (some (.pilot c)) t n with
  | .ok r s => .ok (r.1, r.2.1) s
  | .fault cause _ s => .fault cause ea s
  | .wait s => .wait s

/-- A pilot's load of n bytes at a translated address: `plain` says that it is an LD (R155, R296, R345). -/
def loadTarget (s : State) (ea : Nat) (t : Target) (n : Nat) (plain : Bool) : Res (List Byte × Bool) :=
  let c := s.turn
  if t.home ≠ s.hub.chipid then
    if farAllowed s t n plain then farLoad s c ea t n else .fault causePerm ea s
  else
    match placeOf t.pa with
    | .hbm => if readReady s (some (.pilot c)) t.cache t.pa then let r := cachedRead s c t n; .ok r.1 r.2 else .wait s
    | .counter k j =>
      let ctx := (viewOf s c).ctx
      if plain ∧ n = 8 ∧ coreHeld s k ctx then .ok (toBytes 8 (heldCounter s k ctx j).toNat, false) s
      else .fault causePerm ea s
    | .counterHole => .fault causePerm ea s
    | .service off =>
      if plain ∧ n = 8 ∧ (viewOf s c).ctx = 0 then .ok (toBytes 8 (serviceRead s off).toNat, false) s
      else .fault causePerm ea s
    | .host => readTarget s (some (.pilot c)) t n
    | .absent => readTarget s (some (.pilot c)) t n

/-- A pilot load of n bytes (R155): the bytes, from the buffer or the location; poison traps. A load of a mapped counter or a
service register forwards nothing: it waits for the stores before it (R144, R296). -/
def pilotLoad (s : State) (ea n : Nat) (plain : Bool) : Res (List Byte) :=
  (locate s ea n .read).andThen (fun l s =>
    match l with
    | .scratch o =>
      match forward (pilot s).storeBuf true 0 o n with
      | .bytes b => .ok b s
      | .wait => .wait s
      | .none =>
        if scratchBad (coreOf s s.turn) o n then .fault causePoison ea s else .ok (memBytes (coreOf s s.turn).scratch o n) s
    | .phys t =>
      let f := forward (pilot s).storeBuf false t.home t.pa n
      let load := (loadTarget s ea t n plain).andThen (fun (b, bad) s => if bad then .fault causePoison ea s else .ok b s)
      if specialTarget t then load.andThen (fun b s' => if f = .none then .ok b s' else .wait s)
      else match f with
        | .bytes b => .ok b s
        | .wait => .wait s
        | .none => load)

/-- A pilot load of a record of n bytes, 8 bytes at a time (R111, R268, R306). -/
def pilotRecordGo : Nat → Nat → State → Res (List Byte)
  | 0, _, s => .ok [] s
  | k + 1, ea, s =>
    (pilotLoad s ea 8 true).andThen (fun b s => (pilotRecordGo k (ea + 8) s).andThen (fun bs s => .ok (b ++ bs) s))

/-- A pilot load of a record of n bytes, n a multiple of 8. -/
def pilotRecord (s : State) (ea n : Nat) : Res (List Byte) := pilotRecordGo (n / 8) ea s

/-! ### Pilot stores (R144, R155) -/

/-- The checks of a store to a translated place that is no memory (R296, R345). -/
def storeAllowed (s : State) (t : Target) (n : Nat) : Bool :=
  if t.home ≠ s.hub.chipid then farAllowed s t n true
  else
    match placeOf t.pa with
    | .counter k _ => n == 8 && coreHeld s k (viewOf s s.turn).ctx
    | .counterHole => false
    | .service _ => n == 8 && (viewOf s s.turn).ctx == 0
    | _ => true

/-- Enters a store into the buffer, which must have room (R144, R155). -/
def pilotStore (s : State) (ea : Nat) (bs : List Byte) (rel : Bool) : Res Unit :=
  (locate s ea bs.length .write).andThen (fun l s =>
    if 8 ≤ (pilot s).storeBuf.length then .wait s
    else
      let push := fun (b : BufStore) => Res.ok () (onPilot s.turn (fun p => { p with storeBuf := p.storeBuf ++ [b] }) s)
      match l with
      | .scratch o => push { scratch := true, addr := o, va := ea, bytes := bs, rel := rel }
      | .phys t =>
        if storeAllowed s t bs.length then
          push { scratch := false, addr := t.pa, va := ea, bytes := bs, rel := rel, cache := t.cache
                 key := t.key, home := t.home }
        else .fault causePerm ea s)

/-! ### Waits of a release -/

/-- Goes on once every earlier store of the pilot has been performed (R306, R308). -/
def afterStores (s : State) (k : State → State) : State := if storesDone s s.turn then k s else s

/-- Goes on once every earlier store has been performed and the stash windows are written back (R156, R264). A write-back
that faults traps precisely. DESIGN CHOICE: notes/assumptions/71.md. -/
def afterRelease (s : State) (k : State → State) : State :=
  afterStores s (fun s => onRes (coreBack s.turn (fun _ => true) s) (fun _ s => k s))

/-- Whether the pilot whose turn it is leads its isle (R101). -/
def isLead (s : State) : Bool :=
  match (coreOf s s.turn).isle with
  | some i => leadOf (isleOf s i) == s.turn
  | none => false

/-- The number of the isle of the pilot whose turn it is. -/
def myIsle (s : State) : Nat := (coreOf s s.turn).isle.getD 0

end Sys2Proof.Machine
end

