-- ==== Sys2Proof/Machine/Operands.lean ====
section
/-! DEFINITION. The operand forms of pilot words: immediates (R63), branch targets (R64), effective addresses (R155),
sizes (R61) and counters (R305). -/

namespace Sys2Proof.Machine

/-- A sign-extended imm32 (R63). -/
def immOf (imm : BitVec 32) : Word := imm.signExtend 64

/-- The target of a taken branch or JAL: the own address plus 8 × SEXT(imm32) (R64). -/
def branchTarget (s : State) (off : BitVec 32) : Word := (pilot s).pc + 8 * immOf off

/-- The effective address of a MEM word (R155). -/
def effAddr (s : State) (ga : Reg) (d : BitVec 32) : Nat := (reg s ga + immOf d).toNat

/-- The bytes of an access size (R61). -/
def szBytes : Sz → Nat
  | .b => 1 | .h => 2 | .w => 4 | .d => 8

/-- The bytes of an AMO or CAS (R66, R157). -/
def aszBytes : ASz → Nat
  | .w => 4 | .d => 8

/-- The counter that TADD, TRD or TWAIT names (R305). -/
def ctrOf (s : State) : CtrRef → Nat
  | .imm k => k.toNat
  | .reg gb => bits (reg s gb).toNat 0 6

/-- A value zero-extended from its bytes (R155). -/
def zext (b : List Byte) : Word := BitVec.ofNat 64 (ofBytes b)

/-- A value sign-extended from its bytes (R155). -/
def sextBytes (b : List Byte) : Word := uint64 (sext (8 * b.length) (ofBytes b))

/-- 1 when a condition holds, else 0. -/
def flagWord (b : Bool) : Word := if b then 1 else 0

end Sys2Proof.Machine
end

