-- ==== Sys2Proof/Machine/Atomics.lean ====
section
/-! DEFINITION. AMO, CAS, AMOF and FENCE (R157, R158, R59, R294). -/

namespace Sys2Proof.Machine

/-- The function of an AMO on values of w bits (R157). -/
def amoFun (f : AmoFn) (w : Nat) (a b : Nat) : Nat :=
  match f with
  | .add => (a + b) % 2 ^ w
  | .and => a &&& b
  | .or => a ||| b
  | .xor => a ^^^ b
  | .mins => if sext w a < sext w b then a else b
  | .maxs => if sext w a < sext w b then b else a
  | .minu => min a b
  | .maxu => max a b
  | .swap => b

/-- The sum of an AMOF of BF16 in SR takes the draw of its slice (R55, R59, R294). -/
def amofVal (f : AmofFn) (old v : Nat) (r : Nat) : Nat :=
  match f with
  | .f32rne => (addRound .fp32 .rne 0 (decodeFmt .fp32 [] old) (decodeFmt .fp32 [] v)).1
  | .bf16rne => (addRound .bf16 .rne 0 (decodeFmt .bf16 [] old) (decodeFmt .bf16 [] v)).1
  | .bf16sr => (addRound .bf16 .sr r (decodeFmt .bf16 [] old) (decodeFmt .bf16 [] v)).1

/-- What an atomic of n bytes stores over an old value at a slice of this chip, and the slice's sequence counter after it
(R157, R294). -/
def runAtom (op : AtomOp) (n slice old : Nat) (s : State) : Nat × State :=
  match op with
  | .amo f v => (amoFun f (8 * n) old v, s)
  | .cas o v => (if old = o then v else old, s)
  | .amof f v srkey =>
    let k := mapGet 0 s.ms.srSeq slice
    (amofVal f old v (srBits (drawZ srkey k)), if f = .bf16sr then onMs (fun m => { m with srSeq := mapPut m.srSeq slice (k + 1) }) s else s)

/-- An atomic of an agent at an HBM address of this chip, in one event at the home slice (R157); the result is the old value. -/
def homeAtomic (s : State) (a : Option CacheAgent) (pa key cache n : Nat) (op : AtomOp) (far : Option Author := none) : Nat × State :=
  let s := onMs (tallySlice pa 0x103) s
  let (b, s) := performRead s a key cache pa n
  let (v, s) := runAtom op n (homeSlice pa) (ofBytes b) s
  (ofBytes b, performWrite (crossDie a pa s) a key cache pa ((toBytes n v).map some) false far)

/-- An atomic of an agent at a translated address (R157, R293): at the home slice, or asked of the chip that its page names.
A fault carries the page. DEDUCED: notes/assumptions/19.md. -/
def atomicTarget (s : State) (a : Option CacheAgent) (entry n : Nat) (t : Target) (op : AtomOp) (far : Option Author := none) : Res Nat :=
  if specialTarget t then .fault causePerm t.page s
  else if t.home ≠ s.hub.chipid then
    (farAsk s a entry { chip := t.home, ctx := t.ctx, body := .atomic op t.far n }).andThen fun b s =>
      (answerBytes n t.page b s).andThen fun r s => .ok (ofBytes r.1) s
  else
    match placeOf t.pa with
    | .hbm => if writeReady s a t.cache t.pa far then let r := homeAtomic s a t.pa t.key t.cache n op far; .ok r.1 r.2 else .wait s
    | .host | .absent =>
      (readTarget s a t n).andThen fun r s =>
        let (v, s) := runAtom op n (homeSlice t.pa) (ofBytes r.1) s
        (writeTarget s a t ((toBytes n v).map some) false far).andThen fun _ s => .ok (ofBytes r.1) s
    | _ => .fault causePerm t.page s

/-- The location of an atomic read as a number of n bytes and written, in one event (R157). -/
def atomicAt (s : State) (ea n : Nat) (l : Loc) (op : AtomOp) : Res Nat :=
  match l with
  | .scratch o =>
    let old := memNat (coreOf s s.turn).scratch o n
    let (v, s) := runAtom op n 0 old s
    .ok old (onCore s.turn (putScratch o (toBytes n v)) s)
  | .phys t =>
    match atomicTarget s (some (.pilot s.turn)) 0 n t op with
    | .fault cause _ s => .fault cause ea s
    | r => r

/-- The buffered stores that overlap a location have been performed (R157). -/
def noOverlap (s : State) (l : Loc) (n : Nat) : Bool :=
  match l with
  | .scratch o => !(pilot s).storeBuf.any (fun b => b.overlaps true 0 o n)
  | .phys t => !(pilot s).storeBuf.any (fun b => b.overlaps false t.home t.pa n)

/-- An atomic of n bytes (R157): checks, the waits of .rel and of overlapping stores, the event, then .acq and gd.
`window` says whether the scratchpad window may hold the location. -/
def atomic (ea n : Nat) (acq rel window : Bool) (gd : Reg) (op : AtomOp) (s : State) : State :=
  onRes (if ea % n = 0 ∧ inWindow ea ∧ ¬ window then .fault causePerm ea s else locate s ea n .both) fun l s =>
    let act := fun (s : State) =>
      if noOverlap s l n then
        onRes (atomicAt s ea n l op) fun old s =>
          writeBack gd (BitVec.ofNat 64 old) (if acq then acquire s.turn s else s)
      else s
    if rel then afterRelease s act else act s

def execAmo (f : AmoFn) (sz : ASz) (acq rel : Bool) (gd ga gb : Reg) (s : State) :=
  let n := aszBytes sz
  done (atomic (reg s ga).toNat n acq rel true gd (.amo f ((reg s gb).toNat % 2 ^ (8 * n))) s)

def execCas (sz : ASz) (acq rel : Bool) (gd ga gb gc : Reg) (s : State) :=
  let n := aszBytes sz
  done (atomic (reg s ga).toNat n acq rel true gd (.cas ((reg s gb).toNat % 2 ^ (8 * n)) ((reg s gc).toNat % 2 ^ (8 * n))) s)

def execAmof (f : AmofFn) (acq rel : Bool) (gd ga gb : Reg) (s : State) :=
  let n := match f with | .f32rne => 4 | _ => 2
  done (atomic (reg s ga).toNat n acq rel false gd (.amof f ((reg s gb).toNat % 2 ^ (8 * n)) (isleOfCore s s.turn).srkey) s)

/-- FENCE (R158): every earlier store performed, the stash windows written back, the instruction cache discarded. The
stores are performed to every agent of the package, so the scopes differ in nothing else here.
DESIGN CHOICE: notes/assumptions/71.md. -/
def execFence (_scope : Scope) (s : State) :=
  done (afterRelease s fun s => advance (onPilot s.turn (fun p => { p with icache := [] }) s))

end Sys2Proof.Machine
end

