-- ==== Sys2Proof/Machine/Barrier.lean ====
section
/-! DEFINITION. Transaction barriers (R261, R269, R270) and the bytes of element local memory that hold them (R257). -/

namespace Sys2Proof.Machine

/-! ### Fabric touches of the scratchpad (R263) -/

/-- The stash lines under scratchpad bytes o to o + n - 1 that may not be used as they stand: window and line (R263). -/
def linesMissing (s : State) (c o n : Nat) : List (Nat × Nat) :=
  (upTo (n / 64 + 2)).filterMap (fun i =>
    let b := o + 64 * i - (o + 64 * i) % 64
    if o + n ≤ b then none
    else (stashAt (coreOf s c) (max o b)).bind (fun (k, w) =>
      let line := (max o b - w.cfg.spbase) / 64
      if stashLive s c w line then none else some (k, line)))

/-- A fabric unit needs scratchpad bytes o to o + n - 1: true when every line under them may be used; else the lines are
asked for (R263). -/
def fabricTouch (c o n : Nat) (s : State) : Bool × State :=
  let missing := linesMissing s c o n
  (missing.isEmpty,
   missing.foldl (fun s (k, line) => onCore c (fun x => { x with stashes := x.stashes.map (fun (k', w) =>
     (k', if k' = k ∧ ¬ w.wanted.contains line then { w with wanted := w.wanted ++ [line] } else w)) }) s) s)

/-- An access to the scratchpad of a core by an engine: ready once the stash lines under it are. -/
def withScratch {α : Type} (c o n : Nat) (s : State) (k : State → Res α) : Res α :=
  let (ok, s) := fabricTouch c o n s
  if ok then k s else .wait s

/-! ### Local memory by byte address (R257) -/

/-- The element and byte offset of a local address of the issuing core. -/
def localPlace (a : Nat) : Option (Nat × Nat) :=
  if Config.localBase ≤ a then
    let o := a - Config.localBase
    if o / 65536 < 64 ∧ o % 65536 < 24576 then some (o / 65536, o % 65536) else none
  else none

/-- A row of an element's local memory. -/
def Elem.row (e : Elem) (r : Nat) : Quad := mapGet 0 e.rows r

def Elem.putRow (e : Elem) (r : Nat) (v : Quad) : Elem :=
  { e with rows := if v = 0 then mapDel e.rows r else mapPut e.rows r v }

/-- A byte of an element's local memory. -/
def Elem.byte (e : Elem) (o : Nat) : Byte := ((e.row (o / 16)).extractLsb' (8 * (o % 16)) 8)

/-- Stores a byte of an element's local memory. -/
def Elem.putByte (e : Elem) (o : Nat) (b : Byte) : Elem :=
  let q := (e.row (o / 16)).toNat
  let k := 8 * (o % 16)
  e.putRow (o / 16) (BitVec.ofNat 128 (q - bits q k 8 * 2 ^ k + b.toNat * 2 ^ k))

def elemOf (x : Core) (e : Nat) : Elem := mapGet {} x.elems e
def onElem (e : Nat) (f : Elem → Elem) (x : Core) : Core := { x with elems := mapPut x.elems e (f (elemOf x e)) }

/-! ### Barriers -/

/-- The fields of a barrier word (R261). -/
structure Bar where
  phase : Nat := 0
  poison : Bool := false
  phk : Nat := 0
  phken : Bool := false
  fanin : Nat := 0
  arrivals : Nat := 0
  sectors : Nat := 0
  deriving DecidableEq, Repr

def barOf (x : Nat) : Bar :=
  { phase := bits x 124 4, poison := bit x 123, phk := bits x 117 6, phken := bit x 116, fanin := bits x 96 20
    arrivals := bits x 64 32, sectors := bits x 0 64 }

def Bar.word (b : Bar) : Nat :=
  b.sectors + 2 ^ 64 * b.arrivals + 2 ^ 96 * b.fanin + 2 ^ 116 * ofBool b.phken + 2 ^ 117 * b.phk + 2 ^ 123 * ofBool b.poison +
  2 ^ 124 * b.phase

/-- A subtraction from a barrier (R261): none below 0, else the barrier and whether its phase completed. -/
def Bar.sub (b : Bar) (arrivals sectors : Nat) (poison : Bool) : Option (Bar × Bool) :=
  if b.arrivals < arrivals ∨ b.sectors < sectors then none
  else
    let b := { b with arrivals := b.arrivals - arrivals, sectors := b.sectors - sectors, poison := b.poison || poison }
    if b.arrivals = 0 ∧ b.sectors = 0 then some ({ b with phase := (b.phase + 1) % 16, arrivals := b.fanin }, true)
    else some (b, false)

/-- A barrier operand names the scratchpad window or local memory, 16-byte aligned (R269).
DEDUCED: notes/assumptions/17.md. -/
def barPlaceOk (a : Nat) : Bool := a % 16 == 0 && (inWindow a || (localPlace a).isSome)

/-- The barrier at an operand address of a core. -/
def readBar (x : Core) (a : Nat) : Bar :=
  barOf (if inWindow a then memNat x.scratch (a - Config.windowBase) 16
         else match localPlace a with | some (e, o) => ((elemOf x e).row (o / 16)).toNat | none => 0)

/-- Writes the barrier at an operand address of a core. -/
def putBar (a : Nat) (b : Bar) (x : Core) : Core :=
  if inWindow a then putScratch (a - Config.windowBase) (toBytes 16 b.word) x
  else match localPlace a with
    | some (e, o) => onElem e (fun y => y.putRow (o / 16) (BitVec.ofNat 128 b.word)) x
    | none => x

/-- Goes on once the stash line under a barrier that a pilot names is ready (R263). -/
def withBar (a : Nat) (store : Bool) (s : State) (k : State → State) : State :=
  if inWindow a then onRes (pilotTouch s a store) (fun _ s => k s) else k s

/-- Applies a subtraction at a core; none leaves the barrier unchanged (R261). -/
def subBar (c a arrivals sectors : Nat) (poison : Bool) (s : State) : Option State :=
  match (readBar (coreOf s c) a).sub arrivals sectors poison with
  | none => none
  | some (b, flip) => some (raiseIf (flip && b.phken) c b.phk 1 (onCore c (putBar a b) s))

/-- A running graph of the core has a memory port that names the barrier (R248, R261). -/
def barInUse (s : State) (c a : Nat) : Bool :=
  inWindow a &&
  (isleOfCore s c).slots.any (fun (n, g) => g.running && g.cores.contains c &&
    [8, 9].any (fun sl =>
      let w := mapGet [] (mapGet {} (coreOf s c).slots n).ops sl
      bit (mapGet 0 w 0) 2 && bits (mapGet 0 w 1) 0 18 == a - Config.windowBase))

/-- TBINIT (R269). -/
def execTbinit (ga gb : Reg) (s : State) :=
  let a := (reg s ga).toNat
  let v := reg s gb
  done (
    if !barPlaceOk a then trapAt causeAlign (reg s ga) s
    else if inWindow a ∧ Config.descOffset < a - Config.windowBase + 16 then trapAt causePerm (reg s ga) s
    else if bits v.toNat 27 37 ≠ 0 then trapAt causePerm v s
    else if barInUse s s.turn a then trapFree causePerm s
    else
      let f := bits v.toNat 0 20
      withBar a true s fun s => advance (onCore s.turn (putBar a { phk := bits v.toNat 20 6, phken := bit v.toNat 26, fanin := f, arrivals := f }) s))

/-- TBARV (R270): a release of the pilot's earlier stores, then the subtraction; TBOVF is precise.
DEDUCED: notes/assumptions/17.md. -/
def execTbarv (n : Bool) (ga gb : Reg) (s : State) :=
  let a := (reg s ga).toNat
  done (
    if !barPlaceOk a then trapAt causeAlign (reg s ga) s
    else if inWindow a ∧ Config.descOffset < a - Config.windowBase + 16 then trapAt causePerm (reg s ga) s
    else
      afterStores s fun s => withBar a true s fun s =>
        match subBar s.turn a (if n then (reg s gb).toNat else 1) 0 false s with
        | some s => advance s
        | none => trapAt causeTbovf (reg s ga) s)

/-- The end of TBWAIT and TBTEST: gd takes PHASE, the releases are acquired, and POISON traps after gd is written (R270). -/
def showPhase (gd : Reg) (a : Word) (b : Bar) (s : State) : State :=
  let s := setReg gd (BitVec.ofNat 64 b.phase) (acquire s.turn s)
  if b.poison then trapAt causePoison a s else advance s

/-- TBWAIT (R270): a defined wait until PHASE ≠ gb[3:0]. -/
def execTbwait (gd ga gb : Reg) (s : State) :=
  let a := (reg s ga).toNat
  done (
    if !barPlaceOk a then trapAt causeAlign (reg s ga) s
    else withBar a false s fun s =>
      let b := readBar (coreOf s s.turn) a
      if b.phase = bits (reg s gb).toNat 0 4 then s else showPhase gd (reg s ga) b s)

/-- TBTEST (R270). -/
def execTbtest (gd ga : Reg) (s : State) :=
  let a := (reg s ga).toNat
  done (
    if !barPlaceOk a then trapAt causeAlign (reg s ga) s
    else withBar a false s fun s => showPhase gd (reg s ga) (readBar (coreOf s s.turn) a) s)

/-- An update that subtracts nothing: an abandoned segment whose sectors others still owe leaves its POISON (R259). -/
def taintBar (c a : Nat) (poison : Bool) (s : State) : State :=
  onCore c (fun x => putBar a { readBar x a with poison := (readBar x a).poison || poison } x) s

/-- The oldest update that engines of a core owe a barrier is performed, unless nydb has frozen the isle (R274); TBOVF is a fabric
report (R261). -/
def barrierUpdate (c : Nat) (s : State) : State :=
  match (coreOf s c).barQueue with
  | [] => s
  | u :: us =>
    if (isleOfCore s c).frozen then s
    else
    let pop := onCore c (fun x => { x with barQueue := us })
    let (ready, s) := if inWindow u.addr then fabricTouch c (u.addr - Config.windowBase) 16 s else (true, s)
    if !ready then s
    else if u.arrivals = 0 ∧ u.sectors = 0 then pop (taintBar c u.addr u.poison s)
    else
    match subBar c u.addr u.arrivals u.sectors u.poison s with
    | some s => pop s
    | none =>
      if reportRoom s c then
        report c { code := causeTbovf, val := BitVec.ofNat 64 u.addr, source := if u.arrivals = 0 then 3 else 1 } (pop s)
      else s

def execBarrierUpdate (core : Nat) (s : State) := done (barrierUpdate core s)

end Sys2Proof.Machine
end

