-- ==== Sys2Proof/Machine/Branch.lean ====
section
/-! DEFINITION. Branches and jumps (R64, R154). -/

namespace Sys2Proof.Machine

/-- A conditional branch: the target when the test holds, else the next instruction. -/
def branchIf (taken : Bool) (off : BitVec 32) (s : State) : State :=
  if taken then goto (branchTarget s off) s else advance s

def execBeq (ga gb : Reg) (off : BitVec 32) (s : State) := done (branchIf (reg s ga == reg s gb) off s)
def execBne (ga gb : Reg) (off : BitVec 32) (s : State) := done (branchIf (reg s ga != reg s gb) off s)
def execBlt (ga gb : Reg) (off : BitVec 32) (s : State) := done (branchIf ((reg s ga).slt (reg s gb)) off s)
def execBge (ga gb : Reg) (off : BitVec 32) (s : State) := done (branchIf (!(reg s ga).slt (reg s gb)) off s)
def execBltu (ga gb : Reg) (off : BitVec 32) (s : State) := done (branchIf ((reg s ga).ult (reg s gb)) off s)
def execBgeu (ga gb : Reg) (off : BitVec 32) (s : State) := done (branchIf (!(reg s ga).ult (reg s gb)) off s)

/-- JAL: gd takes the next address, then the jump (R154). -/
def execJal (gd : Reg) (off : BitVec 32) (s : State) :=
  done (goto (branchTarget s off) (setReg gd ((pilot s).pc + 8) s))

/-- JALR reads ga before it writes gd; a target off 8 bytes traps ALIGN and changes nothing else (R154). -/
def execJalr (gd ga : Reg) (imm : BitVec 32) (s : State) :=
  let t := reg s ga + immOf imm
  done (if t.toNat % 8 ≠ 0 then trapAt causeAlign t s else goto t (setReg gd ((pilot s).pc + 8) s))

end Sys2Proof.Machine
end

