-- ==== Sys2Proof/Machine/Flags.lean ====
section
/-! DEFINITION. The floating-point flags of R45: every element and operator keeps its own seven, and a graph that stops
gathers those of the isle's cores into FPFLAGS. -/

namespace Sys2Proof.Machine

/-- The OR of the copies of a core. -/
def coreFlags (x : Core) : FpFlags :=
  let e := x.elems.foldl (fun a (_, e) => a ||| e.flags) 0
  let r := x.rds.foldl (fun a (_, r) => a ||| r.flags) 0
  let j := x.mjs.foldl (fun a (_, m) => a ||| m.flags) 0
  e ||| r ||| j ||| x.haU.flags ||| x.hsU.flags ||| x.mt.flags ||| x.sg.flags

/-- A core with its copies clear. -/
def clearFlags (x : Core) : Core :=
  { x with elems := x.elems.map (fun (k, e) => (k, { e with flags := 0 }))
           rds := x.rds.map (fun (k, r) => (k, { r with flags := 0 }))
           mjs := x.mjs.map (fun (k, m) => (k, { m with flags := 0 }))
           haU := { x.haU with flags := 0 }, hsU := { x.hsU with flags := 0 }, mt := { x.mt with flags := 0 }
           sg := { x.sg with flags := 0 } }

/-- A graph of an isle stops: FPFLAGS receives the OR of the copies of every core, and the copies clear (R45). -/
def gatherFlags (n : Nat) (s : State) : State :=
  let cs := isleCores (isleOf s n)
  let f := cs.foldl (fun a c => a ||| coreFlags (coreOf s c)) 0
  let s := cs.foldl (fun s c => onCore c clearFlags s) s
  onIsle n (fun i => { i with fpflags := i.fpflags ||| f.setWidth 64 }) s

end Sys2Proof.Machine
end

