-- ==== Sys2Proof/WellFormed.lean ====
section
/-! DEFINITION. Which instructions are well formed: the operand values that a decoded word can hold (R62, R66, R110,
R149, R150, R159, R216, R239, R267), and events that name units the package has (R8, R16). -/

namespace Sys2Proof

/-- The cause codes of R150. -/
def causeCodes : List Nat :=
  [0x01, 0x02, 0x03, 0x04, 0x05, 0x08, 0x09, 0x0A, 0x0B, 0x0C, 0x10, 0x11, 0x12, 0x14, 0x15, 0x18, 0x19, 0x1C, 0x1D, 0x1E]

/-- The system register numbers of R149. -/
def sysRegs : List Nat :=
  [0x000, 0x001, 0x002, 0x003, 0x004, 0x005, 0x008, 0x009, 0x00A, 0x00B, 0x00C, 0x010, 0x011, 0x012, 0x013, 0x014,
   0x018, 0x019, 0x01A, 0x01B, 0x01C, 0x01D, 0x020, 0x021]

/-- A core of the package (R8). -/
def coreOk (c : Nat) : Bool := decide (c < Config.cores)

/-- A node of a core: element 0 to 63, or 64 + slot. -/
def nodeOk (n : Nat) : Bool := decide (n < 96)

/-- A channel number. -/
def chOk (j : Nat) : Bool := decide (j < 4)

/-- An isle: 64 × die + index (R121). -/
def isleOk (i : Nat) : Bool := decide (i < 256)

/-- A slot within a range (R77). -/
def slotOk (lo hi s : Nat) : Bool := decide (lo ≤ s) && decide (s ≤ hi)

/-- Whether a caching agent exists (R278). -/
def agentOk : CacheAgent → Bool
  | .pilot c => coreOk c
  | .fabric c => coreOk c
  | .llc d => decide (d < 4)

/-- Whether an instruction is well formed. -/
def wellFormed : Instr → Bool
  | .lds sz _ _ _ => sz != .d
  | .tbarv n _ gb => n || gb == 0
  | .rngset conly ga _ _ => !conly || ga == 0
  | .trap _ cause => causeCodes.contains cause.toNat
  | .sysrd _ n => sysRegs.contains n.toNat
  | .syswr _ n => sysRegs.contains n.toNat
  | .storeBufferDrain c => coreOk c
  | .takeTrap c => coreOk c
  | .wave c e => coreOk c && decide (e < 64)
  | .markStep c e => coreOk c && decide (e < 64)
  | .exitQueueEmit c n j => coreOk c && nodeOk n && chOk j
  | .routeArrival c r => coreOk c && decide (r < 448)
  | .stall c n j => coreOk c && nodeOk n && chOk j
  | .detachCut c r => coreOk c && decide (r < 448)
  | .borderCrossing c r => coreOk c && decide (r < 448)
  | .straitMeterTick i => isleOk i
  | .agIteration c s => coreOk c && slotOk 0 7 s
  | .agWriteStreamToken c s => coreOk c && slotOk 0 7 s
  | .ringSlotRead c s => coreOk c && slotOk 0 7 s
  | .mpRequest c s j => coreOk c && slotOk 8 9 s && chOk j
  | .tableWalk c s j => coreOk c && slotOk 8 9 s && chOk j
  | .copySegmentLand c e _ => coreOk c && decide (e < 272)
  | .barrierUpdate c => coreOk c
  | .stashLineFill c w l => coreOk c && decide (w < 8) && decide (l < 4096)
  | .exSlotHandoff c => coreOk c
  | .atollLanding c => coreOk c
  | .graphEnd i s => isleOk i && decide (s < 4)
  | .haAbsorb c => coreOk c
  | .spillfault c => coreOk c
  | .spillLanding c => coreOk c
  | .haProbe c => coreOk c
  | .haOverdel c => coreOk c
  | .haTileTransfer c => coreOk c
  | .hsToken c => coreOk c
  | .mjStep c s => coreOk c && slotOk 10 11 s
  | .rdFold c s => coreOk c && slotOk 15 16 s
  | .rdSegmentClose c s => coreOk c && slotOk 15 16 s
  | .mtFillToken c j => coreOk c && chOk j
  | .codebook c j => coreOk c && chOk j
  | .mtScratchpadFill c t => coreOk c && decide (t < 8)
  | .mtFire c => coreOk c
  | .mtFireEnd c => coreOk c
  | .mtClose c j => coreOk c && chOk j
  | .mtDrain c => coreOk c
  | .param c => coreOk c
  | .skOffer c => coreOk c
  | .skEmit c => coreOk c
  | .sgDraw c => coreOk c
  | .split c s => coreOk c && slotOk 19 22 s
  | .join c s => coreOk c && slotOk 19 22 s
  | .steerGroup c s => coreOk c && slotOk 23 30 s
  | .merge c s => coreOk c && slotOk 23 30 s
  | .loop c s => coreOk c && slotOk 23 30 s
  | .counterIncrement c => coreOk c
  | .postedFire c e => coreOk c && decide (e < 256)
  | .postedComplete c e => coreOk c && decide (e < 256)
  | .postedFailure c e => coreOk c && decide (e < 256)
  | .wave1Start c => coreOk c
  | .wave1Report c => coreOk c
  | .wave2Start c => coreOk c
  | .wave2Report c => coreOk c
  | .waveRestart c => coreOk c
  | .fabricReport c => coreOk c
  | .baseDiePacket _ pa g => decide (pa % 32 = 0) && decide (pa < Config.hbmEnd) && slotOk 1 32 g.granules && decide (g.key < 64)
  | .baseDieReply sl st t => decide (sl < 256) && decide (st < 12) && decide (t < 8)
  | .dieMessage d s => decide (d < 4) && decide (s < 4)
  | .causewayMessage p => decide (p.port < 12) && p.msg.all (fun m => decide (m.chip < 4096) && decide (m.src < 4096) && coreOk m.core && decide (m.k < 64))
  | .ptsTick a => agentOk a
  | .eventCounterOverflow u i k => decide (u < 4) && decide (i < (if u = 0 then 6400 else 256)) && decide (k < 16)
  | .launchWrite off _ => decide (off < 0x1000)
  | .dependenceWatch i => decide (i < 1024)
  | .launchEnd i => isleOk i
  | .isleRelease i => isleOk i
  | .drainQuiet i => isleOk i
  | .drainLimit i => isleOk i
  | .owedDone i => isleOk i
  | .blockSwitch i => isleOk i
  | .hdrFrame i => isleOk i
  | .eiFrame i => isleOk i
  | .epFrame i => isleOk i
  | .xsFrame i => isleOk i
  | .opFrame i => isleOk i
  | .agFrame i => isleOk i
  | .muFrame i => isleOk i
  | .ldFrame i => isleOk i
  | .endFrame i => isleOk i
  | .wbAccess off _ => decide (off < 2 ^ 36)
  | .hrdoor n _ => decide (n < 8)
  | .registerWrite (.hrcfg n) _ => decide (n < 8)
  | .registerWrite (.cwrt n) _ => decide (n < 512)
  | .registerWrite (.frr s n w) _ => decide (s < 12) && decide (n < 16) && decide (w < 4)
  | .keySlotWrite s _ => slotOk 1 63 s
  | .readySet b => decide (b < 47)
  | .readyClear b => decide (b < 47)
  | .parityResend c r => coreOk c && decide (r < 448)
  | .breakWave c e _ => coreOk c && decide (e < 64)
  | .breakMark c n j l => coreOk c && nodeOk n && chOk j && decide (l < 8)
  | .breakCounter c k _ => coreOk c && decide (k < 64)
  | .breakFault c n => coreOk c && nodeOk n
  | .pilotBreakpointHit c => coreOk c
  | .step c _ => coreOk c
  | .waveCommand c e _ => coreOk c && decide (e < 64)
  | .chan c n j _ => coreOk c && nodeOk n && chOk j
  | .ha c => coreOk c
  | .trig c => coreOk c
  | .instructionFetch c => coreOk c
  | .wfeTimeout c => coreOk c
  | .quiesceBound i => isleOk i
  | _ => true

end Sys2Proof
end

