-- ==== Sys2Proof/Decode.lean ====
section
/-! DEFINITION. The pilot word (R60 to R66, R110, R159, R216, R239, R267, R305, R332, R357, R376): decoding, total on
any word and rejecting by name what R62 calls ILLEGAL, and after it the encoder. The events of the opcode table have
no encoding in spec/, so no word decodes to one. -/

namespace Sys2Proof

/-- Why a word is ILLEGAL (R62). -/
inductive Reject
  /-- The major opcode is 0x00, 0xFF or a slot that R65 leaves unassigned. -/
  | unassigned
  /-- A reserved field or bit is nonzero. -/
  | reserved
  /-- func holds a value that the entry does not assign. -/
  | badFunc
  /-- SZ holds a value that the entry does not assign. -/
  | badSize
  /-- A cause code or system register number that R150 or R149 does not list. -/
  | badNumber
  /-- Fewer bytes than a word. -/
  | truncated
  deriving DecidableEq, Repr

/-- The fields of a pilot word (R60). -/
structure Fields where
  op : BitVec 8
  gd : Reg
  ga : Reg
  gb : Reg
  gc : Reg
  fn : BitVec 4
  imm : BitVec 32
  deriving DecidableEq, Repr

/-- The fields of a word, from the most significant bit on (R60). -/
def fieldsOf (w : Word) : Fields :=
  ⟨w.extractLsb' 56 8, w.extractLsb' 51 5, w.extractLsb' 46 5, w.extractLsb' 41 5, w.extractLsb' 36 5,
   w.extractLsb' 32 4, w.extractLsb' 0 32⟩

/-- The word of its fields (R60). -/
def packFields (f : Fields) : Word := f.op ++ f.gd ++ f.ga ++ f.gb ++ f.gc ++ f.fn ++ f.imm

/-- Accepts when a condition holds, else rejects by name. -/
def accept (ok : Bool) (r : Reject) (i : Instr) : Except Reject Instr := if ok then .ok i else .error r

/-- RR with two sources: gc, func and imm32 are reserved (R61, R152). -/
def decRR (f : Fields) (mk : Reg → Reg → Reg → Instr) : Except Reject Instr :=
  accept (f.gc == 0 && f.fn == 0 && f.imm == 0) .reserved (mk f.gd f.ga f.gb)

/-- RR with one source: gb is reserved too (R152). -/
def decUnary (f : Fields) (mk : Reg → Reg → Instr) : Except Reject Instr :=
  accept (f.gb == 0 && f.gc == 0 && f.fn == 0 && f.imm == 0) .reserved (mk f.gd f.ga)

/-- RI (R61, R63). -/
def decRI (f : Fields) (mk : Reg → Reg → BitVec 32 → Instr) : Except Reject Instr :=
  accept (f.gb == 0 && f.gc == 0 && f.fn == 0) .reserved (mk f.gd f.ga f.imm)

/-- RI shifts: imm32 [31:6] must be 0 (R63). -/
def decShift (f : Fields) (mk : Reg → Reg → BitVec 6 → Instr) : Except Reject Instr :=
  accept (f.gb == 0 && f.gc == 0 && f.fn == 0 && f.imm.extractLsb' 6 26 == 0) .reserved
    (mk f.gd f.ga (f.imm.extractLsb' 0 6))

/-- Conditional branches (R61, R154). -/
def decBranch (f : Fields) (mk : Reg → Reg → BitVec 32 → Instr) : Except Reject Instr :=
  accept (f.gd == 0 && f.gc == 0 && f.fn == 0) .reserved (mk f.ga f.gb f.imm)

/-- The SZ code in func [1:0] (R61). -/
def szOf (fn : BitVec 4) : Sz :=
  match fn.extractLsb' 0 2 with
  | 0 => .b
  | 1 => .h
  | 2 => .w
  | _ => .d

/-- The SZ code of a size (R61). -/
def szCode : Sz → BitVec 2
  | .b => 0 | .h => 1 | .w => 2 | .d => 3

/-- LD: gb and gc are 0, func [3] is 0 (R61, R155). -/
def decLd (f : Fields) : Except Reject Instr :=
  accept (f.gb == 0 && f.gc == 0 && f.fn.getLsbD 3 == false) .reserved (.ld (szOf f.fn) (f.fn.getLsbD 2) f.gd f.ga f.imm)

/-- LDS: ORD and SZ 11 are refused (R62). -/
def decLds (f : Fields) : Except Reject Instr :=
  if f.gb == 0 && f.gc == 0 && f.fn.getLsbD 3 == false && f.fn.getLsbD 2 == false then
    accept (szOf f.fn != .d) .badSize (.lds (szOf f.fn) f.gd f.ga f.imm)
  else .error .reserved

/-- ST: gd and gc are 0 (R61). -/
def decSt (f : Fields) : Except Reject Instr :=
  accept (f.gd == 0 && f.gc == 0 && f.fn.getLsbD 3 == false) .reserved (.st (szOf f.fn) (f.fn.getLsbD 2) f.ga f.gb f.imm)

/-- The functions of AMO (R66). -/
def amoOf : Nat → Option AmoFn
  | 0 => some .add | 1 => some .and | 2 => some .or | 3 => some .xor | 4 => some .mins | 5 => some .maxs
  | 6 => some .minu | 7 => some .maxu | 8 => some .swap | _ => none

def amoCode : AmoFn → BitVec 4
  | .add => 0 | .and => 1 | .or => 2 | .xor => 3 | .mins => 4 | .maxs => 5 | .minu => 6 | .maxu => 7 | .swap => 8

/-- The functions of AMOF (R66). -/
def amofOf : Nat → Option AmofFn
  | 0 => some .f32rne | 8 => some .bf16rne | 12 => some .bf16sr | _ => none

def amofCode : AmofFn → BitVec 4
  | .f32rne => 0 | .bf16rne => 8 | .bf16sr => 12

/-- The scopes of FENCE (R66). -/
def scopeOf : Nat → Option Scope
  | 0 => some .core | 1 => some .isle | 2 => some .die | 3 => some .package | 4 => some .system | _ => none

def scopeCode : Scope → BitVec 4
  | .core => 0 | .isle => 1 | .die => 2 | .package => 3 | .system => 4

/-- SZ of AMO and CAS in imm32 [1:0] (R66). -/
def aszOf : Nat → Option ASz
  | 2 => some .w | 3 => some .d | _ => none

def aszCode : ASz → BitVec 2
  | .w => 2 | .d => 3

/-- AMO (R66). -/
def decAmo (f : Fields) : Except Reject Instr :=
  if f.gc == 0 && f.imm.extractLsb' 4 28 == 0 then
    match amoOf f.fn.toNat, aszOf (f.imm.extractLsb' 0 2).toNat with
    | some fn, some sz => .ok (.amo fn sz (f.imm.getLsbD 2) (f.imm.getLsbD 3) f.gd f.ga f.gb)
    | none, _ => .error .badFunc
    | _, none => .error .badSize
  else .error .reserved

/-- CAS (R66). -/
def decCas (f : Fields) : Except Reject Instr :=
  if f.fn == 0 && f.imm.extractLsb' 4 28 == 0 then
    match aszOf (f.imm.extractLsb' 0 2).toNat with
    | some sz => .ok (.cas sz (f.imm.getLsbD 2) (f.imm.getLsbD 3) f.gd f.ga f.gb f.gc)
    | none => .error .badSize
  else .error .reserved

/-- AMOF (R66). -/
def decAmof (f : Fields) : Except Reject Instr :=
  if f.gc == 0 && f.imm.extractLsb' 4 28 == 0 && f.imm.extractLsb' 0 2 == 0 then
    match amofOf f.fn.toNat with
    | some fn => .ok (.amof fn (f.imm.getLsbD 2) (f.imm.getLsbD 3) f.gd f.ga f.gb)
    | none => .error .badFunc
  else .error .reserved

/-- FENCE (R66). -/
def decFence (f : Fields) : Except Reject Instr :=
  if f.gd == 0 && f.ga == 0 && f.gb == 0 && f.gc == 0 && f.imm == 0 then
    match scopeOf f.fn.toNat with
    | some s => .ok (.fence s)
    | none => .error .badFunc
  else .error .reserved

/-- An ENG word whose func must be 0, with the conditions on its other fields. -/
def decEng (f : Fields) (ok : Bool) (i : Instr) : Except Reject Instr :=
  if f.fn == 0 then accept (ok && f.gc == 0) .reserved i else .error .badFunc

/-- An ENG word whose func [0] selects between two forms. -/
def decEng2 (f : Fields) (ok0 : Bool) (i0 : Instr) (ok1 : Bool) (i1 : Instr) : Except Reject Instr :=
  if f.fn == 0 then accept (ok0 && f.gc == 0) .reserved i0
  else if f.fn == 1 then accept (ok1 && f.gc == 0) .reserved i1
  else .error .badFunc

/-- The counter of GO and SBAR: [5:0] with [6] valid (R110). -/
def goCtr (imm : BitVec 32) : Option Ctr := if imm.getLsbD 6 then some (imm.extractLsb' 0 6) else none

/-- imm32 of GO and SBAR is legal: [31:7] 0, and [5:0] 0 when [6] is clear (R110). -/
def goImmOk (imm : BitVec 32) : Bool :=
  imm.extractLsb' 7 25 == 0 && (imm.getLsbD 6 || imm.extractLsb' 0 6 == 0)

def goImm : Option Ctr → BitVec 32
  | none => 0
  | some k => (0 : BitVec 25) ++ (1 : BitVec 1) ++ k

/-- CFGSEL (R110). -/
def decCfgsel (f : Fields) : Except Reject Instr :=
  if f.gb == 0 && f.gc == 0 && f.imm == 0 then
    if f.fn.getLsbD 3 then .error .badFunc
    else if f.fn.getLsbD 2 then
      accept (f.fn.extractLsb' 0 2 == 0) .badFunc (.cfgselId f.gd f.ga)
    else .ok (.cfgsel f.gd f.ga (f.fn.extractLsb' 0 2))
  else .error .reserved

/-- DRAIN (R216). -/
def decDrain (f : Fields) : Except Reject Instr :=
  if f.fn.getLsbD 3 then .error .badFunc
  else accept (f.gb == 0 && f.gc == 0 && f.imm.extractLsb' 11 21 == 0) .reserved
    (.drain (f.fn.getLsbD 0) (f.fn.getLsbD 1) (f.fn.getLsbD 2) f.gd f.ga (f.imm.extractLsb' 0 3) (f.imm.getLsbD 3)
      (f.imm.extractLsb' 4 6) (f.imm.getLsbD 10))

/-- NPOST (R305). -/
def decNpost (f : Fields) : Except Reject Instr :=
  decEng2 f (f.gb == 0 && f.imm == 0) (.npost none f.gd f.ga)
    (f.gb == 0 && f.imm.extractLsb' 8 24 == 0) (.npost (some (f.imm.extractLsb' 0 8)) f.gd f.ga)

/-- The counter operand of TADD, TRD and TWAIT (R305); `ok` is the condition on the other fields. -/
def decCtr (f : Fields) (ok : Bool) (mk : CtrRef → Instr) : Except Reject Instr :=
  decEng2 f (ok && f.gb == 0 && f.imm.extractLsb' 6 26 == 0) (mk (.imm (f.imm.extractLsb' 0 6)))
    (ok && f.imm == 0) (mk (.reg f.gb))

/-- The instruction of a pilot word's fields (R65 gives the opcodes in order). -/
def decodeFields (f : Fields) : Except Reject Instr :=
  match f.op.toNat with
  | 0x01 => decRR f .add | 0x02 => decRR f .sub | 0x03 => decRR f .and | 0x04 => decRR f .or
  | 0x05 => decRR f .xor | 0x06 => decRR f .sll | 0x07 => decRR f .srl | 0x08 => decRR f .sra
  | 0x09 => decRR f .mul | 0x0A => decRR f .mulhs | 0x0B => decRR f .mulhu | 0x0C => decRR f .divs
  | 0x0D => decRR f .divu | 0x0E => decRR f .rems | 0x0F => decRR f .remu | 0x10 => decRR f .mins
  | 0x11 => decRR f .maxs | 0x12 => decRR f .minu | 0x13 => decRR f .maxu | 0x14 => decRR f .seq
  | 0x15 => decRR f .sne | 0x16 => decRR f .slt | 0x17 => decRR f .sltu
  | 0x18 => accept (f.fn == 0 && f.imm == 0) .reserved (.sel f.gd f.ga f.gb f.gc)
  | 0x19 => decUnary f .clz | 0x1A => decUnary f .ctz | 0x1B => decUnary f .popc | 0x1C => decUnary f .brev
  | 0x20 => decRI f .addi | 0x21 => decRI f .andi | 0x22 => decRI f .ori | 0x23 => decRI f .xori
  | 0x24 => decShift f .slli | 0x25 => decShift f .srli | 0x26 => decShift f .srai
  | 0x27 => decRI f .slti | 0x28 => decRI f .sltui | 0x29 => decRI f .lih
  | 0x40 => decBranch f .beq | 0x41 => decBranch f .bne | 0x42 => decBranch f .blt | 0x43 => decBranch f .bge
  | 0x44 => decBranch f .bltu | 0x45 => decBranch f .bgeu
  | 0x46 => accept (f.ga == 0 && f.gb == 0 && f.gc == 0 && f.fn == 0) .reserved (.jal f.gd f.imm)
  | 0x47 => accept (f.gb == 0 && f.gc == 0 && f.fn == 0) .reserved (.jalr f.gd f.ga f.imm)
  | 0x50 => decLd f | 0x51 => decLds f | 0x52 => decSt f
  | 0x60 => decAmo f | 0x61 => decCas f | 0x62 => decAmof f | 0x63 => decFence f
  | 0x70 => decEng f (f.gd == 0 && f.gb == 0 && f.imm == 0) (.cpy f.ga)
  | 0x71 => decEng f (f.gd == 0 && f.gb == 0 && f.imm == 0) (.cpyt f.ga)
  | 0x72 => decEng f (f.gd == 0 && f.imm == 0) (.tbinit f.ga f.gb)
  | 0x73 => decEng2 f (f.gd == 0 && f.gb == 0 && f.imm == 0) (.tbarv false f.ga 0)
      (f.gd == 0 && f.imm == 0) (.tbarv true f.ga f.gb)
  | 0x74 => decEng f (f.imm == 0) (.tbwait f.gd f.ga f.gb)
  | 0x75 => decEng f (f.gb == 0 && f.imm == 0) (.tbtest f.gd f.ga)
  | 0x76 => decEng f (f.gd == 0 && f.gb == 0 && f.imm.extractLsb' 3 29 == 0) (.stash f.ga (f.imm.extractLsb' 0 3))
  | 0x77 => decEng f (f.gd == 0 && f.ga == 0 && f.gb == 0 && f.imm.extractLsb' 3 29 == 0)
      (.unstash (f.imm.extractLsb' 0 3))
  | 0x80 => decEng2 f (f.gb == 0 && f.imm == 0) (.lnch f.gd f.ga) (f.imm == 0) (.lnchNear f.gd f.ga f.gb)
  | 0x81 => decEng2 f (f.gb == 0 && f.imm == 0) (.lwait f.gd f.ga) (f.gb == 0 && f.imm == 0) (.lwaitTest f.gd f.ga)
  | 0x82 => if f.fn.getLsbD 3 then .error .badFunc
      else accept (f.gc == 0 && f.imm == 0) .reserved (.spawn f.gd f.ga f.gb (f.fn.extractLsb' 0 3))
  | 0x83 => decEng f (f.gd == 0 && f.ga == 0 && f.gb == 0 && f.imm == 0) .yield
  | 0x84 => decEng f (f.gb == 0 && f.imm == 0) (.prio f.gd f.ga)
  | 0x85 => if f.fn.extractLsb' 2 2 == 0 then
        accept (f.gd == 0 && f.gb == 0 && f.gc == 0 && f.imm == 0) .reserved (.cfgld f.ga (f.fn.extractLsb' 0 2))
      else .error .badFunc
  | 0x86 => decCfgsel f
  | 0x87 => decEng2 f (f.gd == 0 && f.gb == 0 && goImmOk f.imm) (.go f.ga (goCtr f.imm))
      (f.gd == 0 && f.gb == 0 && goImmOk f.imm) (.goWait f.ga (goCtr f.imm))
  | 0x88 => decEng2 f (f.gd == 0 && f.gb == 0 && f.imm == 0) (.stopg f.ga)
      (f.gd == 0 && f.gb == 0 && f.imm == 0) (.stopgAbort f.ga)
  | 0x89 => decEng2 f (f.gd == 0 && f.ga == 0 && f.gb == 0 && goImmOk f.imm) (.sbar (goCtr f.imm))
      (f.gd == 0 && f.ga == 0 && f.gb == 0 && goImmOk f.imm) (.sbarEnd (goCtr f.imm))
  | 0x90 => decEng f (f.gd == 0 && f.ga == 0 && f.gb == 0 && f.imm == 0) .haclr
  | 0x91 => decDrain f
  | 0x92 => decEng f (f.gd == 0 && f.ga == 0 && f.gb == 0 && f.imm == 0) .hsclr
  | 0x93 => decEng2 f (f.gd == 0 && f.imm.extractLsb' 6 26 == 0) (.rngset false f.ga f.gb (f.imm.extractLsb' 0 6))
      (f.gd == 0 && f.ga == 0 && f.imm.extractLsb' 6 26 == 0) (.rngset true 0 f.gb (f.imm.extractLsb' 0 6))
  | 0x94 => decEng2 f (f.ga == 0 && f.gb == 0 && f.imm.extractLsb' 6 26 == 0)
        (.rngget false f.gd (f.imm.extractLsb' 0 6))
      (f.ga == 0 && f.gb == 0 && f.imm.extractLsb' 6 26 == 0) (.rngget true f.gd (f.imm.extractLsb' 0 6))
  | 0x95 => decEng f (f.gd == 0 && f.gb == 0 && f.imm.extractLsb' 1 31 == 0) (.tblld f.ga (f.imm.extractLsb' 0 1))
  | 0xA0 => decNpost f
  | 0xA1 => decEng f (f.gb == 0 && f.imm == 0) (.ncancel f.gd f.ga)
  | 0xA2 => decCtr f (f.gd == 0) (.tadd f.ga)
  | 0xA3 => decCtr f (f.ga == 0) (.trd f.gd)
  | 0xA4 => decCtr f (f.gd == 0) (.twait f.ga)
  | 0xB0 => decEng f (f.gb == 0 && f.imm == 0) (.rfire f.gd f.ga)
  | 0xB1 => decEng2 f (f.gb == 0 && f.imm == 0) (.fix false f.gd f.ga) (f.gb == 0 && f.imm == 0) (.fix true f.gd f.ga)
  | 0xB2 => decEng f (f.gb == 0 && f.imm == 0) (.qvote f.gd f.ga)
  | 0xB3 => decEng f (f.imm == 0) (.retr f.gd f.ga f.gb)
  | 0xB4 => decEng f (f.imm.extractLsb' 20 12 == 0)
      (.gwalk f.gd f.ga f.gb (f.imm.extractLsb' 0 16) (f.imm.extractLsb' 16 3) (f.imm.getLsbD 19))
  | 0xC0 => if f.fn == 0 then
        if f.gd == 0 && f.gb == 0 && f.gc == 0 && f.imm.extractLsb' 8 24 == 0 then
          accept (causeCodes.contains (f.imm.extractLsb' 0 8).toNat) .badNumber (.trap f.ga (f.imm.extractLsb' 0 8))
        else .error .reserved
      else .error .badFunc
  | 0xC1 => decEng f (f.gd == 0 && f.ga == 0 && f.gb == 0 && f.imm == 0) .eret
  | 0xC2 => if f.fn == 0 then
        if f.ga == 0 && f.gb == 0 && f.gc == 0 && f.imm.extractLsb' 12 20 == 0 then
          accept (sysRegs.contains (f.imm.extractLsb' 0 12).toNat) .badNumber (.sysrd f.gd (f.imm.extractLsb' 0 12))
        else .error .reserved
      else .error .badFunc
  | 0xC3 => if f.fn == 0 then
        if f.gd == 0 && f.gb == 0 && f.gc == 0 && f.imm.extractLsb' 12 20 == 0 then
          accept (sysRegs.contains (f.imm.extractLsb' 0 12).toNat) .badNumber (.syswr f.ga (f.imm.extractLsb' 0 12))
        else .error .reserved
      else .error .badFunc
  | 0xC4 => decEng f (f.ga == 0 && f.gb == 0) (.wfe f.gd f.imm)
  | 0xC5 => decEng f (f.gd == 0 && f.ga == 0 && f.gb == 0) (.brk f.imm)
  | 0xC6 => decEng2 f (f.gb == 0 && f.imm == 0) (.ctxsave false f.gd f.ga) (f.gb == 0 && f.imm == 0)
      (.ctxsave true f.gd f.ga)
  | 0xC7 => decEng f (f.gb == 0 && f.imm == 0) (.ctxload f.gd f.ga)
  | 0xC8 => decEng2 f (f.gd == 0 && f.imm == 0) (.frsp false f.ga f.gb) (f.gd == 0 && f.imm == 0) (.frsp true f.ga f.gb)
  | 0xD0 => decEng f (f.gb == 0 && f.imm.extractLsb' 2 30 == 0) (.spmark f.gd f.ga (f.imm.extractLsb' 0 2))
  | 0xD1 => decEng f (f.gb == 0 && f.imm.extractLsb' 2 30 == 0) (.spacc f.gd f.ga (f.imm.extractLsb' 0 2))
  | 0xD2 => decEng f (f.gb == 0 && f.imm == 0) (.stepcmt f.gd f.ga)
  | 0xD3 => decEng f (f.gd == 0 && f.gb == 0 && f.imm == 0) (.stepabt f.ga)
  | 0xD4 => decEng f (f.imm == 0) (.lsupd f.gd f.ga f.gb)
  | 0xD5 => decEng f (f.gd == 0 && f.gb == 0) (.evsel f.ga f.imm)
  | 0xD6 => decEng f (f.ga == 0 && f.gb == 0) (.evrd f.gd f.imm)
  | _ => .error .unassigned

/-- The instruction of a pilot word, or why the word is ILLEGAL (R62). -/
def decodeWord (w : Word) : Except Reject Instr := decodeFields (fieldsOf w)

/-- The word that eight bytes hold, byte 0 lowest (R4, R60), and the bytes after it. -/
def wordOfBytes : List Byte → Option (Word × List Byte)
  | b0 :: b1 :: b2 :: b3 :: b4 :: b5 :: b6 :: b7 :: rest => some (b7 ++ b6 ++ b5 ++ b4 ++ b3 ++ b2 ++ b1 ++ b0, rest)
  | _ => none

/-- The bytes of a word in address order (R4). -/
def bytesOfWord (w : Word) : List Byte :=
  [w.extractLsb' 0 8, w.extractLsb' 8 8, w.extractLsb' 16 8, w.extractLsb' 24 8,
   w.extractLsb' 32 8, w.extractLsb' 40 8, w.extractLsb' 48 8, w.extractLsb' 56 8]

/-- The instruction at the front of any bytes, with the rest of them. -/
def decodeBytes (bs : List Byte) : Except Reject (Instr × List Byte) :=
  match wordOfBytes bs with
  | none => .error .truncated
  | some (w, rest) =>
    match decodeWord w with
    | .ok i => .ok (i, rest)
    | .error r => .error r

/-- What the decoder reads from an instruction whose bits are w: a pilot word is one word of 64 bits, and bits at or
above nbits are 0. -/
def decodeTableWord (nbits w : Nat) : Option Instr :=
  match decodeBytes (bytesOfWord (BitVec.ofNat 64 (w % 2 ^ nbits))) with
  | .ok (i, _) => some i
  | .error _ => none

/-! ### The encoder -/

/-- func with a flag in bit 0. -/
def fnOf (b : Bool) : BitVec 4 := if b then 1 else 0

/-- func of the MEM format: SZ in [1:0], ORD in [2] (R61). -/
def memFn (sz : Sz) (ord : Bool) : BitVec 4 := (0 : BitVec 1) ++ BitVec.ofBool ord ++ szCode sz

/-- imm32 of AMO and CAS: SZ, ACQ, REL (R66). -/
def atomImm (sz : BitVec 2) (acq rel : Bool) : BitVec 32 :=
  (0 : BitVec 28) ++ BitVec.ofBool rel ++ BitVec.ofBool acq ++ sz

/-- A 6-bit field in imm32 [5:0]. -/
def imm6 (n : BitVec 6) : BitVec 32 := (0 : BitVec 26) ++ n

/-- The fields of TADD, TRD and TWAIT (R305). -/
def ctrFields (op : BitVec 8) (gd ga : Reg) : CtrRef → Fields
  | .imm k => ⟨op, gd, ga, 0, 0, 0, imm6 k⟩
  | .reg gb => ⟨op, gd, ga, gb, 0, 1, 0⟩

/-- The fields of a pilot instruction; none for an event. -/
def encodeFields : Instr → Option Fields
  | .add gd ga gb => some ⟨0x01, gd, ga, gb, 0, 0, 0⟩
  | .sub gd ga gb => some ⟨0x02, gd, ga, gb, 0, 0, 0⟩
  | .and gd ga gb => some ⟨0x03, gd, ga, gb, 0, 0, 0⟩
  | .or gd ga gb => some ⟨0x04, gd, ga, gb, 0, 0, 0⟩
  | .xor gd ga gb => some ⟨0x05, gd, ga, gb, 0, 0, 0⟩
  | .sll gd ga gb => some ⟨0x06, gd, ga, gb, 0, 0, 0⟩
  | .srl gd ga gb => some ⟨0x07, gd, ga, gb, 0, 0, 0⟩
  | .sra gd ga gb => some ⟨0x08, gd, ga, gb, 0, 0, 0⟩
  | .mul gd ga gb => some ⟨0x09, gd, ga, gb, 0, 0, 0⟩
  | .mulhs gd ga gb => some ⟨0x0A, gd, ga, gb, 0, 0, 0⟩
  | .mulhu gd ga gb => some ⟨0x0B, gd, ga, gb, 0, 0, 0⟩
  | .divs gd ga gb => some ⟨0x0C, gd, ga, gb, 0, 0, 0⟩
  | .divu gd ga gb => some ⟨0x0D, gd, ga, gb, 0, 0, 0⟩
  | .rems gd ga gb => some ⟨0x0E, gd, ga, gb, 0, 0, 0⟩
  | .remu gd ga gb => some ⟨0x0F, gd, ga, gb, 0, 0, 0⟩
  | .mins gd ga gb => some ⟨0x10, gd, ga, gb, 0, 0, 0⟩
  | .maxs gd ga gb => some ⟨0x11, gd, ga, gb, 0, 0, 0⟩
  | .minu gd ga gb => some ⟨0x12, gd, ga, gb, 0, 0, 0⟩
  | .maxu gd ga gb => some ⟨0x13, gd, ga, gb, 0, 0, 0⟩
  | .seq gd ga gb => some ⟨0x14, gd, ga, gb, 0, 0, 0⟩
  | .sne gd ga gb => some ⟨0x15, gd, ga, gb, 0, 0, 0⟩
  | .slt gd ga gb => some ⟨0x16, gd, ga, gb, 0, 0, 0⟩
  | .sltu gd ga gb => some ⟨0x17, gd, ga, gb, 0, 0, 0⟩
  | .sel gd ga gb gc => some ⟨0x18, gd, ga, gb, gc, 0, 0⟩
  | .clz gd ga => some ⟨0x19, gd, ga, 0, 0, 0, 0⟩
  | .ctz gd ga => some ⟨0x1A, gd, ga, 0, 0, 0, 0⟩
  | .popc gd ga => some ⟨0x1B, gd, ga, 0, 0, 0, 0⟩
  | .brev gd ga => some ⟨0x1C, gd, ga, 0, 0, 0, 0⟩
  | .addi gd ga i => some ⟨0x20, gd, ga, 0, 0, 0, i⟩
  | .andi gd ga i => some ⟨0x21, gd, ga, 0, 0, 0, i⟩
  | .ori gd ga i => some ⟨0x22, gd, ga, 0, 0, 0, i⟩
  | .xori gd ga i => some ⟨0x23, gd, ga, 0, 0, 0, i⟩
  | .slli gd ga n => some ⟨0x24, gd, ga, 0, 0, 0, imm6 n⟩
  | .srli gd ga n => some ⟨0x25, gd, ga, 0, 0, 0, imm6 n⟩
  | .srai gd ga n => some ⟨0x26, gd, ga, 0, 0, 0, imm6 n⟩
  | .slti gd ga i => some ⟨0x27, gd, ga, 0, 0, 0, i⟩
  | .sltui gd ga i => some ⟨0x28, gd, ga, 0, 0, 0, i⟩
  | .lih gd ga i => some ⟨0x29, gd, ga, 0, 0, 0, i⟩
  | .beq ga gb o => some ⟨0x40, 0, ga, gb, 0, 0, o⟩
  | .bne ga gb o => some ⟨0x41, 0, ga, gb, 0, 0, o⟩
  | .blt ga gb o => some ⟨0x42, 0, ga, gb, 0, 0, o⟩
  | .bge ga gb o => some ⟨0x43, 0, ga, gb, 0, 0, o⟩
  | .bltu ga gb o => some ⟨0x44, 0, ga, gb, 0, 0, o⟩
  | .bgeu ga gb o => some ⟨0x45, 0, ga, gb, 0, 0, o⟩
  | .jal gd o => some ⟨0x46, gd, 0, 0, 0, 0, o⟩
  | .jalr gd ga i => some ⟨0x47, gd, ga, 0, 0, 0, i⟩
  | .ld sz acq gd ga d => some ⟨0x50, gd, ga, 0, 0, memFn sz acq, d⟩
  | .lds sz gd ga d => some ⟨0x51, gd, ga, 0, 0, memFn sz false, d⟩
  | .st sz rel ga gb d => some ⟨0x52, 0, ga, gb, 0, memFn sz rel, d⟩
  | .amo f sz acq rel gd ga gb => some ⟨0x60, gd, ga, gb, 0, amoCode f, atomImm (aszCode sz) acq rel⟩
  | .cas sz acq rel gd ga gb gc => some ⟨0x61, gd, ga, gb, gc, 0, atomImm (aszCode sz) acq rel⟩
  | .amof f acq rel gd ga gb => some ⟨0x62, gd, ga, gb, 0, amofCode f, atomImm 0 acq rel⟩
  | .fence s => some ⟨0x63, 0, 0, 0, 0, scopeCode s, 0⟩
  | .cpy ga => some ⟨0x70, 0, ga, 0, 0, 0, 0⟩
  | .cpyt ga => some ⟨0x71, 0, ga, 0, 0, 0, 0⟩
  | .tbinit ga gb => some ⟨0x72, 0, ga, gb, 0, 0, 0⟩
  | .tbarv n ga gb => some ⟨0x73, 0, ga, gb, 0, fnOf n, 0⟩
  | .tbwait gd ga gb => some ⟨0x74, gd, ga, gb, 0, 0, 0⟩
  | .tbtest gd ga => some ⟨0x75, gd, ga, 0, 0, 0, 0⟩
  | .stash ga w => some ⟨0x76, 0, ga, 0, 0, 0, (0 : BitVec 29) ++ w⟩
  | .unstash w => some ⟨0x77, 0, 0, 0, 0, 0, (0 : BitVec 29) ++ w⟩
  | .lnch gd ga => some ⟨0x80, gd, ga, 0, 0, 0, 0⟩
  | .lnchNear gd ga gb => some ⟨0x80, gd, ga, gb, 0, 1, 0⟩
  | .lwait gd ga => some ⟨0x81, gd, ga, 0, 0, 0, 0⟩
  | .lwaitTest gd ga => some ⟨0x81, gd, ga, 0, 0, 1, 0⟩
  | .spawn gd ga gb n => some ⟨0x82, gd, ga, gb, 0, (0 : BitVec 1) ++ n, 0⟩
  | .yield => some ⟨0x83, 0, 0, 0, 0, 0, 0⟩
  | .prio gd ga => some ⟨0x84, gd, ga, 0, 0, 0, 0⟩
  | .cfgld ga s => some ⟨0x85, 0, ga, 0, 0, (0 : BitVec 2) ++ s, 0⟩
  | .cfgsel gd ga s => some ⟨0x86, gd, ga, 0, 0, (0 : BitVec 2) ++ s, 0⟩
  | .cfgselId gd ga => some ⟨0x86, gd, ga, 0, 0, 4, 0⟩
  | .go ga k => some ⟨0x87, 0, ga, 0, 0, 0, goImm k⟩
  | .goWait ga k => some ⟨0x87, 0, ga, 0, 0, 1, goImm k⟩
  | .stopg ga => some ⟨0x88, 0, ga, 0, 0, 0, 0⟩
  | .stopgAbort ga => some ⟨0x88, 0, ga, 0, 0, 1, 0⟩
  | .sbar k => some ⟨0x89, 0, 0, 0, 0, 0, goImm k⟩
  | .sbarEnd k => some ⟨0x89, 0, 0, 0, 0, 1, goImm k⟩
  | .haclr => some ⟨0x90, 0, 0, 0, 0, 0, 0⟩
  | .drain ord chg clr gd ga lvl marken k ken =>
    some ⟨0x91, gd, ga, 0, 0, (0 : BitVec 1) ++ BitVec.ofBool clr ++ BitVec.ofBool chg ++ BitVec.ofBool ord,
      (0 : BitVec 21) ++ BitVec.ofBool ken ++ k ++ BitVec.ofBool marken ++ lvl⟩
  | .hsclr => some ⟨0x92, 0, 0, 0, 0, 0, 0⟩
  | .rngset conly ga gb z => some ⟨0x93, 0, ga, gb, 0, fnOf conly, imm6 z⟩
  | .rngget key gd z => some ⟨0x94, gd, 0, 0, 0, fnOf key, imm6 z⟩
  | .tblld ga cb => some ⟨0x95, 0, ga, 0, 0, 0, (0 : BitVec 31) ++ cb⟩
  | .npost none gd ga => some ⟨0xA0, gd, ga, 0, 0, 0, 0⟩
  | .npost (some e) gd ga => some ⟨0xA0, gd, ga, 0, 0, 1, (0 : BitVec 24) ++ e⟩
  | .ncancel gd ga => some ⟨0xA1, gd, ga, 0, 0, 0, 0⟩
  | .tadd ga c => some (ctrFields 0xA2 0 ga c)
  | .trd gd c => some (ctrFields 0xA3 gd 0 c)
  | .twait ga c => some (ctrFields 0xA4 0 ga c)
  | .rfire gd ga => some ⟨0xB0, gd, ga, 0, 0, 0, 0⟩
  | .fix e gd ga => some ⟨0xB1, gd, ga, 0, 0, fnOf e, 0⟩
  | .qvote gd ga => some ⟨0xB2, gd, ga, 0, 0, 0, 0⟩
  | .retr gd ga gb => some ⟨0xB3, gd, ga, gb, 0, 0, 0⟩
  | .gwalk gd ga gb r lvl m => some ⟨0xB4, gd, ga, gb, 0, 0, (0 : BitVec 12) ++ BitVec.ofBool m ++ lvl ++ r⟩
  | .trap ga c => some ⟨0xC0, 0, ga, 0, 0, 0, (0 : BitVec 24) ++ c⟩
  | .eret => some ⟨0xC1, 0, 0, 0, 0, 0, 0⟩
  | .sysrd gd n => some ⟨0xC2, gd, 0, 0, 0, 0, (0 : BitVec 20) ++ n⟩
  | .syswr ga n => some ⟨0xC3, 0, ga, 0, 0, 0, (0 : BitVec 20) ++ n⟩
  | .wfe gd t => some ⟨0xC4, gd, 0, 0, 0, 0, t⟩
  | .brk t => some ⟨0xC5, 0, 0, 0, 0, 0, t⟩
  | .ctxsave c gd ga => some ⟨0xC6, gd, ga, 0, 0, fnOf c, 0⟩
  | .ctxload gd ga => some ⟨0xC7, gd, ga, 0, 0, 0, 0⟩
  | .frsp all ga gb => some ⟨0xC8, 0, ga, gb, 0, fnOf all, 0⟩
  | .spmark gd ga r => some ⟨0xD0, gd, ga, 0, 0, 0, (0 : BitVec 30) ++ r⟩
  | .spacc gd ga r => some ⟨0xD1, gd, ga, 0, 0, 0, (0 : BitVec 30) ++ r⟩
  | .stepcmt gd ga => some ⟨0xD2, gd, ga, 0, 0, 0, 0⟩
  | .stepabt ga => some ⟨0xD3, 0, ga, 0, 0, 0, 0⟩
  | .lsupd gd ga gb => some ⟨0xD4, gd, ga, gb, 0, 0, 0⟩
  | .evsel ga i => some ⟨0xD5, 0, ga, 0, 0, 0, i⟩
  | .evrd gd i => some ⟨0xD6, gd, 0, 0, 0, 0, i⟩
  | _ => none

/-- The word of a pilot instruction (R60 to R66); none for an event. -/
def encode (i : Instr) : Option Word := (encodeFields i).map packFields

/-- Whether an instruction is a pilot word rather than an event. -/
def isPilot (i : Instr) : Bool := (encodeFields i).isSome

end Sys2Proof
end

