-- ==== Sys2Proof/Machine/Copy.lean ====
section
/-! DEFINITION. Copies and stash windows: CPY, CPYT, STASH, UNSTASH (R257 to R264, R268, R271, R272) and the landing of
segments and stash lines. -/

namespace Sys2Proof.Machine

/-! ### The copy record (R257) -/

def parseLevel (r : List Byte) (i : Nat) : CopyLevel :=
  let x := fieldAt r (112 + 16 * i) 0 128
  { extent := bits x 0 40, sdim := bits x 40 3, ddim := bits x 43 3, sstride := sext 40 (bits x 48 40)
    dstride := sext 40 (bits x 88 40) }

/-- The copy record of 256 bytes; none where it breaks the map (R257). -/
def parseCopy (transpose : Bool) (r : List Byte) : Option CopyRec :=
  let n := fieldAt r 1 4 4
  let c : CopyRec :=
    { skind := fieldAt r 0 0 4, dkind := fieldAt r 0 4 4, oob := fieldAt r 1 0 2, efmt := fieldAt r 2 0 4
      ck := fieldAt r 3 0 6, cken := fieldAt r 3 6 1 = 1, hctl := fieldAt r 4 0 12, hcen := fieldAt r 4 12 1 = 1
      tbar := fieldAt r 8 0 64, saddr := fieldAt r 16 0 64, daddr := fieldAt r 24 0 64
      scoord := (upTo 8).map (fun i => sext 40 (fieldAt r (32 + 5 * i) 0 40))
      dcoord := (upTo 8).map (fun i => sext 40 (fieldAt r (72 + 5 * i) 0 40))
      levels := (upTo n).map (parseLevel r), transpose := transpose }
  let reserved := fieldAt r 1 2 2 + fieldAt r 2 4 4 + fieldAt r 3 7 1 + fieldAt r 4 13 19 + fieldAt r 240 0 128
  let unused := ((upTo 8).drop n).map (fun i => fieldAt r (112 + 16 * i) 0 128)
  let levelsOk := (upTo n).all (fun i => fieldAt r (112 + 16 * i) 46 2 == 0) && c.levels.all (fun l => l.extent != 0)
  if c.skind ≤ 2 ∧ c.dkind ≤ 3 ∧ c.oob ≠ 3 ∧ 1 ≤ n ∧ n ≤ 8 ∧ reserved = 0 ∧ unused.all (· == 0) ∧ levelsOk ∧
      (c.tbar = 0 ∨ barPlaceOk c.tbar) ∧ (c.skind ≠ 0 ∨ c.saddr < 2 ^ 20) ∧ (c.dkind ≠ 0 ∨ c.daddr < 2 ^ 20) ∧
      (c.dkind ≠ 3 ∨ c.daddr < 16) ∧ (c.skind = 0 ∨ c.dkind = 0 ∨ (fmtOf c.efmt).isSome) then some c else none

/-- The terms of one side: (extent, dimension, stride) per level; CPYT exchanges the destination terms of levels 0 and 1
(R260). -/
def CopyRec.srcTerms (c : CopyRec) : List (Nat × Nat × Int) := c.levels.map (fun l => (l.extent, l.sdim, l.sstride))

def CopyRec.dstTerms (c : CopyRec) : List (Nat × Nat × Int) :=
  let own := c.levels.map (fun l => (l.ddim, l.dstride))
  let t := if c.transpose then match own with | a :: b :: rest => b :: a :: rest | o => o else own
  (c.levels.zip t).map (fun (l, d, st) => (l.extent, d, st))

/-- The number of iterations. -/
def CopyRec.count (c : CopyRec) : Nat := c.levels.foldl (fun n l => n * l.extent) 1

/-- The coordinate of iteration n: the origin plus the strided terms, innermost level first (R243, R258). -/
def coordAt (origin : List Int) : List (Nat × Nat × Int) → Nat → List Int
  | [], _ => origin
  | (ext, d, st) :: rest, n =>
    coordAt (origin.set d (origin.getD d 0 + ((n % ext : Nat) : Int) * st)) rest (n / ext)

/-- The least and greatest value of one component over every iteration. -/
def spanOf (origin : Int) (terms : List (Nat × Nat × Int)) (d : Nat) : Int × Int :=
  terms.foldl (fun (lo, hi) (ext, dim, st) =>
    let t := ((ext - 1 : Nat) : Int) * st
    if dim = d then (lo + min 0 t, hi + max 0 t) else (lo, hi)) (origin, origin)

/-- No term reaches 2^47 and no component leaves 40 bits (R243, R258). -/
def termsOk (origin : List Int) (terms : List (Nat × Nat × Int)) : Bool :=
  terms.all (fun (ext, _, st) => decide ((((ext - 1 : Nat) : Int) * st).natAbs < 2 ^ 47)) &&
  (upTo 8).all (fun d => let (lo, hi) := spanOf (origin.getD d 0) terms d
                         decide (-2 ^ 39 ≤ lo) && decide (hi < 2 ^ 39))

/-- The bytes first to last that a one-dimensional side covers, from its address. -/
def flatSpan (addr w : Nat) (origin : Int) (terms : List (Nat × Nat × Int)) : Int × Int :=
  let (lo, hi) := spanOf origin terms 0
  ((addr : Int) + lo * w / 8, (addr : Int) + (hi * w + (w - 1)) / 8)

/-- A one-dimensional side: its DIM fields are 0 and it stays in its place (R148, R257). -/
def flatOk (kind addr w : Nat) (origin : Int) (terms : List (Nat × Nat × Int)) : Bool :=
  let (lo, hi) := flatSpan addr w origin terms
  terms.all (fun (_, d, _) => d == 0) &&
  (if kind = 1 then decide ((Config.windowBase : Int) ≤ lo) && decide (hi < (Config.windowBase + Config.scratchBytes : Nat))
   else match localPlace lo.toNat, localPlace hi.toNat with
     | some (e, _), some (e', _) => decide (0 ≤ lo) && e == e'
     | _, _ => false)

/-- The granule edge of CPYT (R260). -/
def granuleEdge (w : Nat) : Nat := if w = 64 then 0 else 256 / w

/-- CPYT's own conditions (R260). -/
def transposeOk (c : CopyRec) (w : Nat) : Bool :=
  match c.levels with
  | a :: b :: _ =>
    let g := granuleEdge w
    decide (g ≠ 0) && a.sdim == 0 && b.sdim == 1 && a.extent % g == 0 && b.extent % g == 0
  | _ => false

/-- The atoll of the selected slot of a core. -/
def atollOf (x : Core) (n : Nat) : Option AtollCfg :=
  x.selected.bind (fun sl => mapFind (mapGet {} x.slots sl).atolls n)

/-- Bytes of the scratchpad that an atoll occupies (R79). -/
def atollExtent (a : AtollCfg) : Nat := (a.slots * a.slotw * 18 + 15) / 16 * 16

/-- Everything R257, R258 and R260 ask of a record once its tensors are known. -/
def copyOk (x : Core) (c : CopyRec) (w : Nat) (st dt : TensorRec) : Bool :=
  termsOk c.scoord c.srcTerms && (c.dkind == 3 || termsOk c.dcoord c.dstTerms) &&
  (c.skind != 0 || c.srcTerms.all (fun (_, d, _) => decide (d < st.rank))) &&
  (c.dkind != 0 || c.dstTerms.all (fun (_, d, _) => decide (d < dt.rank))) &&
  (c.skind != 0 || c.dkind != 0 || st.width == dt.width) &&
  (c.skind == 0 || flatOk c.skind c.saddr w (c.scoord.getD 0 0) c.srcTerms) &&
  (c.dkind == 0 || c.dkind == 3 || flatOk c.dkind c.daddr w (c.dcoord.getD 0 0) c.dstTerms) &&
  (!c.transpose || transposeOk c w) &&
  (c.dkind != 3 || match atollOf x c.daddr with
    | some a => a.slotw != 0 && c.count * w % (128 * a.slotw) == 0
    | none => false)

/-! ### Elements of the two sides -/

/-- Where an element of a side lies. -/
inductive Side
  | spot (p : Spot)
  | scratch (o : Nat) (high : Bool)
  | loc (e o : Nat) (high : Bool)
  | ring (o : Nat) (high : Bool)
  | zero
  | outside
  deriving DecidableEq, Repr

/-- The element of a side at a coordinate; byte addresses for one-dimensional sides (R257). -/
def sideOf (kind addr w oob : Nat) (t : TensorRec) (c : List Int) (n : Nat) : Side :=
  let a := ((addr : Int) + c.getD 0 0 * w / 8).toNat
  let high := w == 4 && c.getD 0 0 % 2 != 0
  if kind = 0 then
    match eltOf t oob c with
    | .at_ p => .spot p
    | .zero => .zero
    | .outside => .outside
  else if kind = 1 then .scratch (a - Config.windowBase) high
  else if kind = 2 then match localPlace a with | some (e, o) => .loc e o high | none => .outside
  else .ring (n * w / 8) (w == 4 && n % 2 == 1)

def CopyJob.srcSide (j : CopyJob) (n : Nat) : Side :=
  sideOf j.copy.skind j.copy.saddr j.width j.copy.oob j.stensor (coordAt j.copy.scoord j.copy.srcTerms n) n

def CopyJob.dstSide (j : CopyJob) (n : Nat) : Side :=
  sideOf j.copy.dkind j.copy.daddr j.width j.copy.oob j.dtensor (coordAt j.copy.dcoord j.copy.dstTerms n) n

/-- The page that places an element in a segment; an element outside takes the page of the element it clamps to.
DEDUCED: notes/assumptions/18.md. -/
def sidePage (t : TensorRec) (c : List Int) : Side → Nat
  | .spot p => p.page + 1
  | .zero => (layout t (clampCoord t c)).page + 1
  | .outside => (layout t (clampCoord t c)).page + 1
  | _ => 0

/-- The 32-byte destination sector that an element writes, numbered within its page or memory; an atoll's slots land from its
tail at issue on (R261). DEDUCED: notes/assumptions/18.md. -/
def sectorOf (ring : Nat × Nat × Nat) : Side → Option Nat
  | .spot p => some (p.page * 2 ^ 17 + p.off / 32)
  | .scratch o _ => some (o / 32)
  | .loc e o _ => some (e * 2 ^ 17 + o / 32)
  | .ring o _ => some ((ring.1 + (ring.2.2 + o) % ring.2.1) / 32)
  | _ => none

/-- Adds an iteration to the segment of its pages. -/
def addIter (k : Nat × Nat) (n : Nat) (sec : Option Nat) : List ((Nat × Nat) × Seg) → List ((Nat × Nat) × Seg)
  | [] => [(k, { iters := [n], sectors := sec.toList })]
  | (k', g) :: rest =>
    if k = k' then
      (k, { g with iters := g.iters ++ [n]
                   sectors := match sec with | some x => if g.sectors.contains x then g.sectors else g.sectors ++ [x] | none => g.sectors }) :: rest
    else (k', g) :: addIter k n sec rest

/-- The segments of a copy (R259): one per pair of pages. DEDUCED: notes/assumptions/18.md. -/
def segmentsOf (j : CopyJob) : List Seg :=
  ((upTo j.copy.count).foldl (fun acc n =>
    let d := j.dstSide n
    let key := (sidePage j.stensor (coordAt j.copy.scoord j.copy.srcTerms n) (j.srcSide n),
                sidePage j.dtensor (coordAt j.copy.dcoord j.copy.dstTerms n) d)
    addIter key n (sectorOf j.ring d) acc) []).map (fun e => e.2)

/-- The distinct sectors of some segments. -/
def sectorsOf (gs : List Seg) : List Nat := gs.foldl (fun acc g => acc ++ g.sectors.filter (fun x => !acc.contains x)) []

/-- The bounding byte interval of a side that the scoreboard records (R262). -/
def intervalOf (kind addr w : Nat) (t : TensorRec) (origin : List Int) (terms : List (Nat × Nat × Int)) :
    Option (Nat × Nat × Nat) :=
  let (lo, hi) := flatSpan addr w (origin.getD 0 0) terms
  if kind = 1 then some (1, lo.toNat - Config.windowBase, hi.toNat - Config.windowBase)
  else if kind = 2 then some (2, lo.toNat, hi.toNat)
  else if kind = 0 ∧ t.tid = 0 then
    let (lo, hi) := flatSpan 0 8 (origin.getD 0 0) terms
    some (0, lo.toNat, hi.toNat)
  else none

/-- A scratchpad side overlaps a live stash window (R262). -/
def overlapsStash (x : Core) (i : Option (Nat × Nat × Nat)) : Bool :=
  match i with
  | some (1, lo, hi) => x.stashes.any (fun (_, w) => decide (w.cfg.spbase ≤ hi) && decide (lo < w.cfg.spbase + w.cfg.len))
  | _ => false

/-- The lowest free scoreboard entry. -/
def freeEntry (x : Core) : Option Nat := (upTo 16).find? (fun e => (mapFind x.jobs e).isNone)

/-- Issues a copy whose record has been read and checked (R268). -/
def issueCopy (ga : Word) (c : CopyRec) (st dt : TensorRec) (s : State) : State :=
  let x := coreOf s s.turn
  let w := if c.skind = 0 then st.width else if c.dkind = 0 then dt.width else match fmtOf c.efmt with | some f => fmtWidth f | none => 8
  if !copyOk x c w st dt then trapAt causeCfgbad ga s
  else
    let src := intervalOf c.skind c.saddr w st c.scoord c.srcTerms
    let atoll := if c.dkind = 3 then atollOf x c.daddr else none
    let dst := match atoll with
      | some a => some (1, a.base, a.base + atollExtent a - 1)
      | none => intervalOf c.dkind c.daddr w dt c.dcoord c.dstTerms
    let ring := atoll.elim (0, 1, 0) (fun a =>
      (a.base, 16 * a.slots * a.slotw, 16 * a.slotw * ((x.counters.toList.getD a.tailk 0).toNat % a.slots)))
    let j : CopyJob := { copy := c, width := w, stensor := st, dtensor := dt, segs := [], src := src, dst := dst, order := s.tick, ring := ring
                         slotB := atoll.elim 16 (16 * ·.slotw) }
    if overlapsStash x src || overlapsStash x dst then trapAt causePerm ga s
    else
      match freeEntry x with
      | none => s
      | some e =>
        afterStores s fun s =>
          let j := { j with segs := segmentsOf j }
          let s := { acquireFabric s.turn s with tick := s.tick + 1 }
          let take := onCore s.turn (fun x => { x with jobs := mapPut x.jobs e j })
          if c.tbar = 0 then advance (take s)
          else withBar c.tbar true s fun s =>
            let b := readBar (coreOf s s.turn) c.tbar
            let n := b.sectors + (sectorsOf j.segs).length
            if 2 ^ 64 ≤ n then trapAt causeTbovf (BitVec.ofNat 64 c.tbar) s
            else advance (take (onCore s.turn (putBar c.tbar { b with sectors := n }) s))

/-- The tensor record of a side of a copy, read at issue; a tile that fits no page is refused by its TID (R25, R26). -/
def copyTensor (kind addr : Nat) (s : State) : Res TensorRec :=
  if kind = 0 then
    (readTensor s (some (.fabric s.turn)) s.turn addr).andThen fun t s => if t.tileOk then .ok t s else .fault causeCfgbad addr s
  else .ok {} s

/-- CPY and CPYT (R260, R268). -/
def copyInstr (transpose : Bool) (ga : Reg) (s : State) : State :=
  let a := reg s ga
  if a.toNat % 256 ≠ 0 then trapAt causeAlign a s
  else
    onRes (pilotRecord s a.toNat 256) fun b s =>
      match parseCopy transpose b with
      | none => trapAt causeCfgbad a s
      | some c =>
        onRes (copyTensor c.skind c.saddr s) fun st s =>
          onRes (copyTensor c.dkind c.daddr s) fun dt s => issueCopy a c st dt s

def execCpy (ga : Reg) (s : State) := done (copyInstr false ga s)
def execCpyt (ga : Reg) (s : State) := done (copyInstr true ga s)

/-! ### Landing a segment (R259) -/

/-- The value of one element as read, and whether it carries poison. -/
def readSide (c : Nat) (j : CopyJob) (sd : Side) (s : State) : Res (Nat × Bool) :=
  let n := max 1 (j.width / 8)
  let cut := fun (b : List Byte) (high : Bool) => if j.width = 4 then bits (ofBytes b) (if high then 4 else 0) 4 else ofBytes b
  match sd with
  | .spot p =>
    (translateSpot s (viewOf s c) j.stensor p .read none).andThen fun t s =>
      (readTarget s (some (.fabric c)) t n).andThen fun (b, bad) s => .ok (cut b p.high, bad) s
  | .scratch o high => .ok (cut (memBytes (coreOf s c).scratch o n) high, scratchBad (coreOf s c) o n) s
  | .loc e o high =>
    let y := elemOf (coreOf s c) e
    let bad := mapGet 0 y.rowPoison (o / 16) != 0
    .ok (cut ((upTo n).map (fun i => y.byte (o + i))) high, bad) s
  | .outside => .fault causeOob (2 ^ 35 - 1) s
  | _ => .ok (0, false) s

/-- Reads the elements of a segment in order. -/
def readSeg (c : Nat) (j : CopyJob) : List Nat → State → Res (List (Nat × Nat × Bool))
  | [], s => .ok [] s
  | n :: ns, s =>
    (readSide c j (j.srcSide n) s).andThen fun (v, bad) s =>
      (readSeg c j ns s).andThen fun rest s => .ok ((n, v, bad) :: rest) s

/-- Bytes gathered for a destination: value, mask of its bits that are written, and poison, by byte offset. -/
abbrev Gather := Map (Nat × Nat × Bool)

/-- Adds an element of w bits at a byte offset. -/
def gatherElt (w o : Nat) (high : Bool) (v : Nat) (bad : Bool) (m : Gather) : Gather :=
  if w = 4 then
    let (b, k, p) := mapGet (0, 0, false) m o
    let sh := if high then 4 else 0
    mapPut m o (b - bits b sh 4 * 2 ^ sh + v * 2 ^ sh, k ||| (15 * 2 ^ sh), p || bad)
  else (upTo (w / 8)).foldl (fun m i => mapPut m (o + i) (bits v (8 * i) 8, 255, bad)) m

/-- The destination offset of an element within its place: page, scratchpad or element. -/
def sideOffset : Side → Option (Nat × Bool)
  | .spot p => some (p.off, p.high)
  | .scratch o h => some (o, h)
  | .loc e o h => some (e * 65536 + o, h)
  | .ring o h => some (o, h)
  | _ => none

def gatherSeg (j : CopyJob) (xs : List (Nat × Nat × Bool)) : Gather :=
  xs.foldl (fun m (n, v, bad) =>
    match sideOffset (j.dstSide n) with
    | some (o, h) => gatherElt j.width o h v bad m
    | none => m) []

/-- A gathered byte over the old one. -/
def mergeByte (old : Byte) (g : Nat × Nat × Bool) : Byte :=
  BitVec.ofNat 8 ((old.toNat &&& (255 - g.2.1)) ||| (g.1 &&& g.2.1))

/-- Writes the gathered bytes of one 32-byte sector of a page at its home: clean and poisoned bytes apart (R348). -/
def putSector (c : Nat) (t : Target) (sec : Nat) (m : Gather) (s : State) : Res Unit :=
  let at0 := { t with pa := t.pa + 32 * sec }
  let pick := fun (i : Nat) => mapFind m (32 * sec + i)
  let part := (upTo 32).any (fun i => (pick i).any (fun g => g.2.1 != 255))
  (if part then readTarget s (some (.fabric c)) at0 32 else .ok (List.replicate 32 0, false) s).andThen fun (old, _) s =>
    let bs := fun (bad : Bool) => (upTo 32).map (fun i =>
      (pick i).bind (fun g => if g.2.2 == bad then some (mergeByte (old.getD i 0) g) else none))
    (writeTarget s (some (.fabric c)) at0 (bs false) false).andThen fun _ s =>
      if (bs true).all Option.isNone then .ok () s else writeTarget s (some (.fabric c)) at0 (bs true) true

def putSectors (c : Nat) (t : Target) (m : Gather) : List Nat → State → Res Unit
  | [], s => .ok () s
  | x :: xs, s => (putSector c t x m s).andThen fun _ s => putSectors c t m xs s

/-- The poison of a row after a write of lanes of it: poisoned lanes are marked, clean ones cleared (R190). -/
def Elem.markLane (row lane : Nat) (bad : Bool) (y : Elem) : Elem :=
  let old := mapGet 0 y.rowPoison row
  let bit := BitVec.ofNat 4 (2 ^ lane)
  let new := if bad then old ||| bit else old &&& ~~~bit
  { y with rowPoison := if new = 0 then mapDel y.rowPoison row else mapPut y.rowPoison row new }

/-- Writes gathered bytes into an element's local memory; a row takes the poison of the data written, by lane (R173, R190). -/
def putLocal (m : Gather) (x : Core) : Core :=
  let x := m.foldl (fun x (o, g) => onElem (o / 65536) (fun y => y.putByte (o % 65536) (mergeByte (y.byte (o % 65536)) g)) x) x
  let lanes := m.foldl (fun l (o, g) => mapPut l (o / 4) (mapGet false l (o / 4) || g.2.2)) ([] : Map Bool)
  lanes.foldl (fun x (q, bad) => onElem (4 * q / 65536) (Elem.markLane (4 * q % 65536 / 16) (q % 4) bad) x) x

/-- The control field of the DATA tokens that a copy lands in an atoll: LMASK 0b1111 (R164, R258). -/
def dataCtl : Nat := 0x00F

/-- Notes the clk at which the queue of an atoll became nonempty (R108). -/
def noteWork (c n : Nat) (a : AtollCfg) (s : State) : State :=
  if counterOf s c a.tailk = counterOf s c a.headk then onCore c (fun x => { x with workSince := mapPut x.workSince n s.cycle }) s else s

/-- Lands a whole slot at the tail of an atoll of this core, poisoned data with POISON in their control fields; a full atoll
waits (R142, R258, R259). -/
def putSlot (c : Nat) (a : AtollCfg) (j : CopyJob) (m : Gather) (s : State) : Res Unit :=
  let head := counterOf s c a.headk
  let tail := counterOf s c a.tailk
  if a.slots ≤ (tail - head).toNat then .wait s
  else
    let pos := tail.toNat % a.slots * a.slotw
    let lo := match m with | (o, _) :: _ => o - o % (16 * a.slotw) | [] => 0
    let bytes := (upTo (16 * a.slotw)).map (fun i => mergeByte 0 (mapGet (0, 255, false) m (lo + i)))
    let bad := fun (i : Nat) => (upTo 16).any (fun k => (mapGet (0, 255, false) m (lo + 16 * i + k)).2.2)
    let ctl := (upTo a.slotw).flatMap (fun i =>
      toBytes 2 ((if i = 0 ∧ j.copy.hcen then j.copy.hctl else dataCtl) ||| 64 * ofBool (bad i)))
    withScratch c a.base (atollExtent a) s fun s =>
      let s := onCore c (fun x => putScratch (a.base + 16 * a.slots * a.slotw + 2 * pos) ctl (putScratch (a.base + 16 * pos) bytes x)) s
      .ok () (raiseCounter c a.tailk 1 (noteWork c j.copy.daddr a s))

/-- Gathered bytes land in the scratchpad with their poison: the clean ones, then those that carry it (R259). -/
def putGather (m : Gather) (x : Core) : Core :=
  let put := fun (x : Core) (e : Nat × Nat × Nat × Bool) => putScratchAs e.2.2.2 e.1 [mergeByte (memByte x.scratch e.1) e.2] x
  let x := (m.filter (fun e => !e.2.2.2)).foldl put x
  let whole := fun (g : Nat) => (upTo 32).all (fun i => (mapFind m (32 * g + i)).any (fun q => !q.2.2))
  let x := if x.scratchPoison.isEmpty then x else { x with scratchPoison := x.scratchPoison.filter (fun e => !whole e.1) }
  (m.filter (fun e => e.2.2.2)).foldl put x

/-- Lands gathered bytes at the destination of a segment. -/
def putSeg (c : Nat) (j : CopyJob) (g : Seg) (m : Gather) (s : State) : Res Unit :=
  if m.isEmpty then .ok () s
  else
    match j.copy.dkind with
    | 0 =>
      match g.iters.findSome? (fun n => match j.dstSide n with | .spot p => some p | _ => none) with
      | none => .ok () s
      | some p =>
        (translateSpot s (viewOf s c) j.dtensor { p with off := 0 } .write none).andThen fun t s =>
          let secs := m.foldl (fun acc (o, _) => if acc.contains (o / 32) then acc else acc ++ [o / 32]) []
          if secs.all (fun x => t.home ≠ s.hub.chipid || placeOf (t.pa + 32 * x) != .hbm || writeReady s (some (.fabric c)) t.cache (t.pa + 32 * x)) then
            putSectors c t m secs s
          else .wait s
    | 1 =>
      if m.any (fun (o, _) => decide (Config.descOffset ≤ o)) then .fault causePerm 0 s
      else .ok () (onCore c (fun x => putGather m x) s)
    | 2 => .ok () (onCore c (putLocal m) s)
    | _ =>
      match atollOf (coreOf s c) j.copy.daddr with
      | some a => putSlot c a j m s
      | none => .wait s

/-- The slot of an ATOLL destination that an iteration fills. -/
def CopyJob.slotOf (j : CopyJob) (n : Nat) : Nat := n * j.width / 8 / j.slotB

/-- The next slot of an ATOLL destination of which a segment has elements to read. -/
def nextSlot (j : CopyJob) (g : Seg) : Option Nat :=
  (g.iters.find? (fun n => !j.slotsDone.contains (j.slotOf n) && !j.held.any (fun e => e.1 == n))).map j.slotOf

/-- A segment moves its elements of the next slot: the slot lands with the last of its elements, and until then they are kept. The value
is whether they carry poison, and the job after. DEDUCED: notes/assumptions/18.md. -/
def moveSlotPart (c : Nat) (j : CopyJob) (g : Seg) (s : State) : Res (Bool × CopyJob) :=
  match nextSlot j g with
  | none => .ok (false, j) s
  | some z =>
    (readSeg c j (g.iters.filter (j.slotOf · == z)) s).andThen fun xs s =>
      let bad := xs.any (fun (_, _, bad) => bad)
      let all := j.held.filter (fun e => j.slotOf e.1 == z) ++ xs
      if all.length * j.width < 8 * j.slotB then .ok (bad, { j with held := j.held ++ xs }) s
      else
        (putSeg c j g (gatherSeg j all) s).andThen fun _ s =>
          .ok (bad, { j with held := j.held.filter (fun e => j.slotOf e.1 != z), slotsDone := j.slotsDone ++ [z] }) s

/-- The segment moved whole: every source element read, a destination outside the extents refused under FAULT, then every
byte written; of an ATOLL destination, one slot of it. The value says whether poison landed, and gives the job after. -/
def moveSeg (c : Nat) (j : CopyJob) (g : Seg) (s : State) : Res (Bool × CopyJob) :=
  if j.copy.dkind = 3 then moveSlotPart c j g s
  else if g.iters.any (fun n => match j.dstSide n with | .outside => true | _ => false) then .fault causeOob (2 ^ 35 - 1) s
  else
    (readSeg c j g.iters s).andThen fun xs s =>
      (putSeg c j g (gatherSeg j xs) s).andThen fun _ s => .ok (xs.any (fun (_, _, bad) => bad), j) s

/-- Sectors that no other unfinished segment still writes. -/
def lastSectors (j : CopyJob) (seg : Nat) : Nat :=
  match j.segs[seg]? with
  | none => 0
  | some g =>
    (g.sectors.filter (fun x =>
      !(j.segs.zipIdx.any (fun (h, i) => i != seg && h.state != .done && h.sectors.contains x)))).length

/-- A segment is finished: its sectors are owed no more, and the copy retires with its last (R259). -/
def finishSeg (c e seg : Nat) (j : CopyJob) (poison : Bool) (s : State) : State :=
  let n := lastSectors j seg
  let j' := { j with segs := j.segs.modify seg (fun g => { g with state := .done }) }
  let s := if j.copy.tbar = 0 ∨ (n = 0 ∧ ¬ poison) then s
    else onCore c (fun x => { x with barQueue := x.barQueue ++ [{ addr := j.copy.tbar, arrivals := 0, sectors := n, poison := poison }] }) s
  let s := tallyCore c 0x00B n s
  if j'.segs.all (fun g => g.state == .done) then
    let s := onCore c (fun x => { x with jobs := mapDel x.jobs e }) s
    raiseIf j.copy.cken c j.copy.ck 1 s
  else onCore c (fun x => { x with jobs := mapPut x.jobs e j' }) s

/-- The first iteration of a segment whose source faults. -/
def badSource (c : Nat) (j : CopyJob) (g : Seg) (s : State) : Option Nat :=
  g.iters.find? (fun n => match readSide c j (j.srcSide n) s with | .fault _ _ _ => true | _ => false)

/-- The iteration at which a segment's destination faults: one outside the extents under FAULT, else the first that it writes. -/
def badDest (j : CopyJob) (g : Seg) : Option Nat :=
  (g.iters.find? (fun n => match j.dstSide n with | .outside => true | _ => false)).orElse fun _ =>
    g.iters.find? (fun n => (sideOffset (j.dstSide n)).isSome)

/-- Whether the fault of a segment comes from its destination, and the coordinate of the element that faulted. -/
def segFault (c : Nat) (j : CopyJob) (g : Seg) (s : State) : Bool × List Int :=
  let out := j.copy.dkind ≠ 3 && g.iters.any (fun n => match j.dstSide n with | .outside => true | _ => false)
  match if out then none else badSource c j g s with
  | some n => (false, coordAt j.copy.scoord j.copy.srcTerms n)
  | none => (true, (badDest j g).elim [] (coordAt j.copy.dcoord j.copy.dstTerms))

/-- A segment is abandoned: it writes nothing, and the slots that it would fill in part do not land (R259).
DEDUCED: notes/assumptions/18.md. -/
def dropSlots (g : Seg) (j : CopyJob) : CopyJob :=
  if j.copy.dkind = 3 then
    let zs := g.iters.map j.slotOf
    { j with held := j.held.filter (fun e => !zs.contains (j.slotOf e.1))
             slotsDone := j.slotsDone ++ (zs.filter (fun z => !j.slotsDone.contains z)).eraseDups }
  else j

/-- Segments that the copy engine of a core has parked (R350). -/
def parkedSegs (x : Core) : Nat := x.jobs.foldl (fun n (_, j) => n + (j.segs.filter (·.state == .parked)).length) 0

/-- The rows of an abandoned segment of a TABLE refill: zero, their poison bits set (R172). -/
def abandonRows (j : CopyJob) (g : Seg) (x : Core) : Core :=
  match j.refill with
  | none => x
  | some e =>
    let rows := g.iters.filterMap (fun n => match j.dstSide n with | .loc _ o _ => some (o / 16) | _ => none)
    onElem e (fun y => rows.foldl (fun y r => { (y.putRow r 0) with rowPoison := mapPut y.rowPoison r 15 }) y) x

/-- The faulting side of a segment lies on mapped counters or service registers, which abandons it (R296, R345). -/
def segSpecial (c : Nat) (j : CopyJob) (g : Seg) (write : Bool) (s : State) : Bool :=
  g.iters.any (fun n => match if write then j.dstSide n else j.srcSide n with
    | .spot p =>
      match translateSpot s (viewOf s c) (if write then j.dtensor else j.stensor) p (if write then .write else .read) none with
      | .ok t _ => specialTarget t
      | _ => false
    | _ => false)

/-- A segment's destination lies in the isle descriptor's bytes (R34, R259). -/
def intoDescriptor (j : CopyJob) (g : Seg) : Bool :=
  g.iters.any (fun n => match j.dstSide n with | .scratch o _ => decide (Config.descOffset ≤ o) | _ => false)

/-- A segment lands, parks on a fault that the service can cure, or is abandoned (R259). -/
def landSegment (c e seg : Nat) (s : State) : State :=
  match mapFind (coreOf s c).jobs e with
  | none => s
  | some j =>
    match j.segs[seg]? with
    | none => s
    | some g =>
      if (isleOfCore s c).frozen || unitHeld (coreOf s c) 3 0 then s
      else
        match g.state with
        | .parked => s
        | .done => s
        | .sent bad => if farSettled s (.fabric c) then finishSeg c e seg j bad s else s
        | .pending =>
        match moveSeg c j g s with
        | .wait s => s
        | .ok (bad, j) s =>
          let bad := g.bad || bad
          let keep := fun (f : Seg → Seg) => onCore c (fun x => { x with jobs := mapPut x.jobs e { j with segs := j.segs.modify seg f } }) s
          if j.copy.dkind = 3 ∧ (nextSlot j g).isSome then keep (fun g => { g with bad := bad })
          else if farSettled s (.fabric c) then finishSeg c e seg j bad s
          else keep (fun g => { g with state := .sent bad })
        | .fault cause page s =>
          let (write, coord) := segFault c j g s
          let tid := if write then j.dtensor.tid else j.stensor.tid
          let entry := if j.refill.isSome then 0 else e
          let r : Report := { code := cause, val := copyForm page tid write entry, source := 3, tid := tid, page := page, write := write
                              bank := (if write then j.dtensor else j.stensor).bank
                              coord := coord }
          let parked := { j with segs := j.segs.modify seg (fun g => { g with state := .parked, lastCause := cause, lastPage := page }) }
          let park := fun (s : State) => onCore c (fun x => { x with jobs := mapPut x.jobs e parked }) s
          let cured := cause = causePagefault ∨ cause = causePerm ∨ cause = causeOwner
          let intoDesc := cause = causePerm ∧ write ∧ intoDescriptor j g
          if cured ∧ ¬ intoDesc ∧ ¬ (cause = causePerm ∧ segSpecial c j g write s) then
            if 256 ≤ parkedSegs (coreOf s c) then s
            else if g.lastCause = cause ∧ g.lastPage = page then park s
            else if faultRoom s c then park (fabricFault c r true s) else s
          else if faultRoom s c then
            finishSeg c e seg (dropSlots g j) true (onCore c (abandonRows j g) (fabricFault c r false s)) else s

def execCopySegmentLand (core entry seg : Nat) (s : State) := done (landSegment core entry seg s)

/-! ### Stash windows (R263, R271, R272) -/

/-- The fields of a stash window are as R79 asks. -/
def stashOk (w : StashCfg) : Bool :=
  w.spbase % 64 == 0 && w.len != 0 && w.len % 64 == 0 && w.toff % 64 == 0 && decide (w.spbase + w.len ≤ Config.scratchBytes)

/-- The window would overlap another live window, an atoll of the selected slot, or the isle descriptor (R79, R271). -/
def stashOverlap (x : Core) (n : Nat) (w : StashCfg) : Bool :=
  let hit := fun b l => decide (w.spbase < b + l) && decide (b < w.spbase + w.len)
  hit Config.descOffset 64 ||
  x.stashes.any (fun (k, v) => k != n && hit v.cfg.spbase v.cfg.len) ||
  (match x.selected with
   | some sl => (mapGet {} x.slots sl).atolls.any (fun (_, a) => hit a.base (atollExtent a))
   | none => false)

/-- A running graph's MU frame defines the window (R271). -/
def stashByGraph (s : State) (c n : Nat) : Bool :=
  match mapFind (coreOf s c).stashes n with
  | some w => match w.mu with
    | some sl => (mapFind (isleOfCore s c).slots sl).any (fun g => g.running)
    | none => false
  | none => false

/-- STASH (R271). -/
def execStash (ga : Reg) (w : BitVec 3) (s : State) :=
  let a := reg s ga
  done (
    if a.toNat % 32 ≠ 0 then trapAt causeAlign a s
    else
      onRes (pilotRecord s a.toNat 32) fun b s =>
        let cfg : StashCfg := { spbase := fieldAt b 0 0 18, len := fieldAt b 4 0 18, toff := fieldAt b 8 0 64, tid := fieldAt b 16 0 20 }
        let reserved := fieldAt b 0 18 14 + fieldAt b 4 18 14 + fieldAt b 16 20 44 + fieldAt b 24 0 64
        if reserved ≠ 0 ∨ !stashOk cfg then trapAt causeCfgbad a s
        else if stashOverlap (coreOf s s.turn) w.toNat cfg || stashByGraph s s.turn w.toNat then trapFree causePerm s
        else
          onRes (readTensor s (some (.fabric s.turn)) s.turn cfg.tid) fun t s =>
            afterStores s fun s => onRes (coreBack s.turn (· == w.toNat) s) fun _ s =>
              advance (onCore s.turn (fun x => { x with stashes := mapPut x.stashes w.toNat { cfg := cfg, tensor := t } }) s))

/-- UNSTASH (R272). -/
def execUnstash (w : BitVec 3) (s : State) :=
  done (
    match mapFind (coreOf s s.turn).stashes w.toNat with
    | none => advance s
    | some _ =>
      if stashByGraph s s.turn w.toNat then trapAt causePerm (w.setWidth 64) s
      else
        afterStores s fun s =>
          onRes (coreBack s.turn (· == w.toNat) s) fun _ s =>
            advance (onCore s.turn (fun x => { x with stashes := mapDel x.stashes w.toNat }) s))

/-- A line of a window fills; a fabric touch that faults reports once and waits for a wake-up (R263, R350). -/
def stashLineFill (c n line : Nat) (s : State) : State :=
  match mapFind (coreOf s c).stashes n with
  | none => s
  | some w =>
    let last := mapGet (0, 0, false) w.parked line
    if 64 * line ≥ w.cfg.len ∨ stashLive s c w line ∨ last.2.2 ∨ (isleOfCore s c).frozen then s
    else
      match stashFill c n line s with
      | .ok _ s => s
      | .wait s => s
      | .fault cause page s =>
        let park := onCore c (fun x => { x with stashes := mapPut x.stashes n { w with parked := mapPut w.parked line (cause, page, true) } })
        if last.1 = cause ∧ last.2.1 = page then park s
        else if faultRoom s c then
          park (fabricFault c { code := cause, val := copyForm page w.cfg.tid false 0, source := 9, tid := w.cfg.tid, page := page
                                bank := w.tensor.bank } true s)
        else s

def execStashLineFill (core window line : Nat) (s : State) := done (stashLineFill core window line s)

end Sys2Proof.Machine
end

