-- ==== Sys2Proof/Machine/Trigger.lean ====
section
/-! DEFINITION. Trigger counters and posted operations: TADD, TRD, TWAIT, NPOST, NCANCEL (R295 to R310), the engine's
firings and completions (R298 to R300). -/

namespace Sys2Proof.Machine

/-! ### Counters -/

/-- TADD (R308). -/
def execTadd (ga : Reg) (c : CtrRef) (s : State) :=
  done (afterStores s fun s => advance (raiseCounter s.turn (ctrOf s c) (reg s ga) s))

/-- TRD (R309). -/
def execTrd (gd : Reg) (c : CtrRef) (s : State) := done (writeBack gd (counterOf s s.turn (ctrOf s c)) s)

/-- TWAIT (R310): a defined wait until the counter is at or above ga; then it acquires. -/
def execTwait (ga : Reg) (c : CtrRef) (s : State) :=
  done (if (reg s ga).ule (counterOf s s.turn (ctrOf s c)) then advance (acquire s.turn s) else s)

/-- A CHAIN names only entries that hold a TEMPLATE (R297). -/
def chainOk (x : Core) (p : PostRec) : Bool :=
  p.slots.all (fun n => match mapFind x.posted n with | some q => q.post.template | none => false)

/-! ### NPOST and NCANCEL -/

/-- The lowest free entry that NPOST may take (R306). -/
def freePosted (x : Core) : Option Nat :=
  (upTo (if x.quiesce.armed then 252 else 256)).find? (fun e => (mapFind x.posted e).isNone)

/-- Fills an entry and tests it (R306, R298). -/
def fillPosted (e : Nat) (p : PostRec) (raw : List Byte) (s : State) : State :=
  let q : Posted := { post := p, raw := raw, thresh := p.thresh }
  onCore s.turn (fun x => { x with posted := mapPut x.posted e (testPosted s.cycle p.trigk (x.counters.toList.getD p.trigk 0) q) }) s

/-- NPOST (R306). -/
def execNpost (at_ : Option Byte) (gd ga : Reg) (s : State) :=
  let a := reg s ga
  done (
    if a.toNat % 64 ≠ 0 then trapAt causeAlign a s
    else
      onRes (pilotRecord s a.toNat 64) fun b s =>
        let x := coreOf s s.turn
        match parsePost b with
        | none => trapAt causeCfgbad a s
        | some p =>
          if !chainOk x p then trapAt causeCfgbad a s
          else
            let post := fun (e : Nat) => afterStores s fun s =>
              writeBack gd (BitVec.ofNat 64 e) (fillPosted e p b (acquireFabric s.turn s))
            match at_ with
            | some n =>
              if (mapFind x.posted n.toNat).isSome ∨ (252 ≤ n.toNat ∧ x.quiesce.armed) then trapAt causePerm (n.setWidth 64) s
              else post n.toNat
            | none =>
              match freePosted x with
              | none => writeBack gd (BitVec.allOnes 64) s
              | some e => post e)

/-- The entry is in progress, parked included. -/
def inFlight (p : Posted) : Bool := match p.state with | .inProgress _ => true | .parked _ => true | _ => false

/-- NCANCEL (R307). -/
def execNcancel (gd ga : Reg) (s : State) :=
  let a := reg s ga
  let x := coreOf s s.turn
  done (
    if 256 ≤ a.toNat then trapAt causePerm a s
    else if x.posted.any (fun (_, q) => inFlight q && q.post.slots.contains a.toNat) then s
    else
      match mapFind x.posted a.toNat with
      | none => writeBack gd 0 s
      | some p =>
        if inFlight p then onCore s.turn (fun x => { x with posted := mapPut x.posted a.toNat { p with cancelled := true } }) s
        else writeBack gd (if p.fired then 2 else 1) (onCore s.turn (fun x => { x with posted := mapDel x.posted a.toNat }) s))

/-! ### Firing (R298) -/

/-- The entry comes before another in the order of firing: the earlier clk, then the lower number. -/
def firesBefore (a b : Nat × Posted) : Bool :=
  match a.2.state, b.2.state with
  | .ready x, .ready y => decide (x < y) || (x == y && decide (a.1 < b.1))
  | .ready _, _ => true
  | _, _ => false

/-- A core's fabric and engines move: its isle runs or ends and is not frozen. -/
def fabricOn (s : State) (c : Nat) : Bool :=
  let i := isleOfCore s c
  (coreOf s c).isle.isSome && phaseHolds i.phase && i.phase != .loading && !i.frozen

/-- Sources stop while an isle is drained or saved in full (R352, R354). -/
def sourcesOn (s : State) (c : Nat) : Bool :=
  fabricOn s c && (isleOfCore s c).phase != .drain && (isleOfCore s c).phase != .owed && (isleOfCore s c).quiesceAt.isNone

/-- The engine starts the firing of an entry that is next and finds room among its 16 (R298). -/
def postedFire (c e : Nat) (s : State) : State :=
  let x := coreOf s c
  match mapFind x.posted e with
  | none => s
  | some p =>
    match p.state with
    | .ready _ =>
      if sourcesOn s c && !(x.posted.any (fun q => q.1 != e && firesBefore q (e, p))) &&
          decide ((x.posted.filter (fun q => inFlight q.2)).length < 16) && x.firedAt != some s.cycle then
        let s := tallyCore c 0x00C 1 (acquireFabric c s)
        onCore c (fun x => { x with posted := mapPut x.posted e { p with state := .inProgress x.fireSeq, fired := true, chainPos := 0, moved := none }
                                    fireSeq := x.fireSeq + 1, firedAt := some s.cycle }) s
      else s
    | _ => s

def execPostedFire (core e : Nat) (s : State) := done (postedFire core e s)

/-! ### Performing an action (R297) -/

/-- The operation is bound for this chip. -/
def localChip (s : State) (p : PostRec) : Bool := p.chip == s.hub.chipid

/-- A remote range passes the window's last byte (R148). DEDUCED: notes/assumptions/35.md. -/
def raddrBad (a n : Nat) : Bool := inWindow a && decide (Config.windowBase + Config.scratchBytes < a + n)

/-- The bytes that an operation moves. -/
def PostRec.bytes (p : PostRec) : Nat :=
  match p.action with | 0 => p.len | 1 => p.len | 2 => 2 ^ bits p.len 4 2 | _ => 0

/-- A range of tensor 0 meets mapped counters or service registers, which a posted operation may not reach (R345). -/
def specialRange (s : State) (c : Nat) (acc : Access) (a n : Nat) : Bool :=
  !inWindow a && (upTo (n / 65536 + 2)).any (fun i => specialFlat s (viewOf s c) acc (a + min (65536 * i) (n - 1)))

/-- A local side of the operation lies on mapped counters or service registers (R345).
DEDUCED: notes/assumptions/35.md. -/
def postSpecial (s : State) (c : Nat) (p : PostRec) : Bool :=
  match p.action with
  | 0 => specialRange s c .read p.laddr p.len || (localChip s p && specialRange s c .write p.raddr p.len)
  | 1 => specialRange s c .write p.laddr p.len || (localChip s p && specialRange s c .read p.raddr p.len)
  | 2 => (p.laddr ≠ 0 && specialRange s c .write p.laddr p.bytes) || (localChip s p && specialRange s c .both p.raddr p.bytes)
  | _ => false

/-- What an entry has asked of another chip. -/
def farEntry (s : State) (c e : Nat) : Option FarReq :=
  s.ms.far.find? (fun r => r.agent == some (.fabric c) && r.entry == e + 1)

/-- The entry has done with what it asked of another chip. -/
def dropEntry (c e : Nat) (s : State) : State :=
  onMs (fun x => { x with far := x.far.filter (fun r => !(r.agent == some (.fabric c) && r.entry == e + 1)) }) s

/-- The operation ends under R300: it reaches a special place, its target core is not held, its range passes the window,
or no message reaches its chip or comes back performed. -/
def actionFails (s : State) (c e : Nat) (p : PostRec) : Bool :=
  if p.action = 4 then false
  else if postSpecial s c p || (p.action != 3 && raddrBad p.raddr p.bytes) then true
  else match farEntry s c e with
    | some r => r.answer == some .ended
    | none => if localChip s p then !coreHeld s p.core (viewOf s c).ctx else wayTo s p.chip == .gone

/-- Reads n bytes of tensor 0 or of a core's window for an engine of core c. -/
def engineRead (c target a n : Nat) (s : State) : Res (List Byte × Bool) :=
  if inWindow a then
    let o := a - Config.windowBase
    withScratch target o n s fun s => .ok (memBytes (coreOf s target).scratch o n, scratchBad (coreOf s target) o n) s
  else readFlat s (some (.fabric c)) (viewOf s c) a n

/-- Writes bytes of tensor 0 or of a core's window for an engine of core c. -/
def engineWrite (c target a : Nat) (bs : List Byte) (bad : Bool) (s : State) : Res Unit :=
  if inWindow a then
    withScratch target (a - Config.windowBase) bs.length s fun s => .ok () (onCore target (putScratchAs bad (a - Config.windowBase) bs) s)
  else writeFlat s (some (.fabric c)) (viewOf s c) a (bs.map some) bad

/-- A fault that the engine's write of n bytes would meet, before anything moves (R300).
DEDUCED: notes/assumptions/36.md. -/
def engineProbe (c a n : Nat) (s : State) : Res Unit :=
  if inWindow a then .ok () s else probeFlatGo (viewOf s c) .write (some (.fabric c)) (n / 64 + 2) a n s

/-- An entry asks another chip once, by a message that `make` gives, and waits for the answer (R293). -/
def askChip (c e chip : Nat) (make : State → Res ChipMsg) (s : State) : Res ChipBody :=
  match farEntry s c e with
  | some r => match r.answer with | some b => .ok b s | none => .wait s
  | none =>
    match wayTo s chip with
    | .port p => (make s).andThen fun m s => .wait (sendFar p (some (.fabric c)) (e + 1) m s)
    | _ => .wait s

/-- The message of an operation bound for another chip, which raises RK there (R297). -/
def postMsg (s : State) (c e : Nat) (p : PostRec) (body : ChipBody) : ChipMsg :=
  { chip := p.chip, core := p.core, ctx := (viewOf s c).ctx, k := p.rk, ken := p.rken, origin := BitVec.ofNat 64 e
    inc := if p.action = 2 then 1 else p.rinc, body := body }

/-- An entry asks for an operation on a core of this chip whose launch is drained or saved, or has messages before it: the hub holds
the message, which raises RK, and its answer comes once it has been performed (R300). -/
def askHeld (c e : Nat) (p : PostRec) (body : ChipBody) (s : State) : Res ChipBody :=
  match farEntry s c e with
  | some r => match r.answer with | some b => .ok b s | none => .wait s
  | none =>
    let own := s.hub.chipid
    let r : FarReq := { id := s.tick, agent := some (.fabric c), entry := e + 1, chip := own, body := body }
    let m : ChipMsg := { postMsg s c e p body with src := own, id := s.tick }
    let s := onMs (fun x => { x with far := x.far ++ [r] }) { s with tick := s.tick + 1 }
    .wait (holdMsg m.ctx p.core { core := 0, k := 0, inc := 0, ken := false, msg := some m } s)

/-- The AMO functions by code (R66). -/
def amoByCode (n : Nat) : AmoFn := (amoOf n).getD .add

/-- The atomic of an ATOM. -/
def PostRec.op (p : PostRec) : AtomOp := .amo (amoByCode (bits p.len 0 4)) (p.rinc.toNat % 2 ^ (8 * p.bytes))

/-- The atomic of an ATOM at a byte address of this chip's tables, performed as one event; the value is the old bytes (R297).
DEDUCED: notes/assumptions/36.md. -/
def engineAtom (c e : Nat) (p : PostRec) (s : State) : Res Nat :=
  let n := p.bytes
  if p.raddr % n ≠ 0 then .fault causeAlign 0 s
  else if inWindow p.raddr then
    let o := p.raddr - Config.windowBase
    withScratch p.core o n s fun s =>
      let old := memNat (coreOf s p.core).scratch o n
      let (v, s) := runAtom p.op n 0 old s
      .ok old (onCore p.core (putScratch o (toBytes n v)) s)
  else
    (translate s (viewOf s c) p.raddr .both).andThen fun t s =>
      if t.home = s.hub.chipid then atomicTarget s (some (.fabric c)) 0 n t p.op
      else
        (askChip c e t.home (fun s => .ok { chip := t.home, ctx := t.ctx, body := .atomic p.op t.far n, origin := BitVec.ofNat 64 e } s) s).andThen fun b s =>
          (answerBytes n t.page b s).andThen fun r s => .ok (ofBytes r.1) s

/-- The vector that a SIGNAL names is sent (R87, R297). -/
def signalVector (p : PostRec) (s : State) : State :=
  if p.action = 3 ∧ bit p.len 3 then sendVector (bits p.len 0 3) s else s

/-- Performs one action other than CHAIN whose target is on another chip (R293, R297): RK rises there. -/
def performFar (c e : Nat) (p : PostRec) (s : State) : Res Bool :=
  let ask := fun (body : State → Res ChipBody) =>
    askChip c e p.chip (fun s => (body s).andThen fun b s => .ok (postMsg s c e p b) (signalVector p s)) s
  match p.action with
  | 0 => (ask fun s => (engineRead c c p.laddr p.len s).andThen fun (b, bad) s => .ok (.put p.raddr b bad) s).andThen fun _ s => .ok false s
  | 1 =>
    (ask fun s => .ok (.get p.raddr p.len) s).andThen fun b s =>
      (answerBytes p.len 0 b s).andThen fun r s => (engineWrite c c p.laddr r.1 r.2.1 s).andThen fun _ s => .ok false s
  | 2 =>
    (ask fun s => (if p.laddr = 0 then Res.ok () s else engineProbe c p.laddr p.bytes s).andThen fun _ s =>
      .ok (.atom (amoByCode (bits p.len 0 4)) p.raddr p.bytes p.rinc) s).andThen fun b s =>
      (answerBytes p.bytes 0 b s).andThen fun r s =>
        (if p.laddr = 0 then Res.ok () s else engineWrite c c p.laddr r.1 false s).andThen fun _ s => .ok false s
  | _ => (ask fun s => .ok .signal s).andThen fun _ s => .ok false s

/-- Performs one action other than CHAIN on this chip (R297); the value says whether RK is still to be raised. One on the window of a
core whose launch is drained or saved is held by the hub, with its RK (R300). -/
def performNear (c e : Nat) (p : PostRec) (s : State) : Res Bool :=
  let ctx := (viewOf s c).ctx
  let away := (!applies s p.core ctx || (farEntry s c e).isSome) && inWindow p.raddr
  match p.action with
  | 0 =>
    (engineRead c c p.laddr p.len s).andThen fun (b, bad) s =>
      if away then
        .ok false (holdMsg ctx p.core { core := 0, k := p.rk, inc := p.rinc, ken := p.rken, addr := p.raddr, bytes := b, poison := bad } s)
      else (engineWrite c p.core p.raddr b bad s).andThen fun _ s => .ok true s
  | 1 =>
    if away then
      (askHeld c e p (.get p.raddr p.len) s).andThen fun b s =>
        (answerBytes p.len 0 b s).andThen fun r s => (engineWrite c c p.laddr r.1 r.2.1 s).andThen fun _ s => .ok false s
    else
      (engineRead c p.core p.raddr p.len s).andThen fun (b, bad) s =>
        (engineWrite c c p.laddr b bad s).andThen fun _ s => .ok true s
  | 2 =>
    if away then
      (askHeld c e p (.atom (amoByCode (bits p.len 0 4)) p.raddr p.bytes p.rinc) s).andThen fun b s =>
        (answerBytes p.bytes 0 b s).andThen fun r s =>
          (if p.laddr = 0 then Res.ok () s else engineWrite c c p.laddr r.1 false s).andThen fun _ s => .ok false s
    else
      (if p.laddr = 0 then Res.ok () s else engineProbe c p.laddr p.bytes s).andThen fun _ s =>
        (engineAtom c e p s).andThen fun v s =>
          (if p.laddr = 0 then Res.ok () s else engineWrite c c p.laddr (toBytes p.bytes v) false s).andThen fun _ s => .ok true s
  | _ => .ok true (signalVector p s)

/-- Performs one action other than CHAIN whose target may be reached (R297). -/
def perform (c e : Nat) (p : PostRec) (s : State) : Res Bool :=
  if localChip s p then performNear c e p s else performFar c e p s

/-- RK of an operation on this chip rises, once every byte has been performed (R297); an ATOM's by 1. -/
def raiseRk (rk : Bool) (c : Nat) (p : PostRec) (s : State) : State :=
  if rk && p.rken then deliver (viewOf s c).ctx p.core p.rk (if p.action = 2 then 1 else p.rinc) s else s

/-- After an operation completed (R298): DONEK, and the entry free, re-armed, or kept for the NCANCEL that waits. -/
def finishPosted (c e : Nat) (s : State) : State :=
  match mapFind (coreOf s c).posted e with
  | none => s
  | some p =>
    let s := onCore c (fun x =>
      let t := p.thresh + p.post.period
      let v := x.counters.toList.getD p.post.trigk 0
      { x with posted :=
          if p.cancelled then mapPut x.posted e { p with state := .armed }
          else if p.post.periodic ∧ t < 2 ^ 64 then
            mapPut x.posted e (testPosted s.cycle p.post.trigk v { p with state := .armed, thresh := t, lastCause := 0, lastPage := 0, moved := none })
          else mapDel x.posted e }) s
    raiseIf p.post.doneken c p.post.donek 1 s

/-- Whether an operation is bound for the same target as another: the same core of this chip, or the same far chip (R299). -/
def sameTarget (s : State) (p q : PostRec) : Bool :=
  q.chip == p.chip && (q.core == p.core || !localChip s p)

/-- The operations that an entry has still to perform: its own, or the TEMPLATEs that a CHAIN has not passed. -/
def stillToDo (x : Core) (q : Posted) : List PostRec :=
  if q.post.action = 4 then (q.post.slots.drop q.chainPos).filterMap (fun n => (mapFind x.posted n).map (fun t => t.post)) else [q.post]

/-- An earlier firing of the core, parked or not, has an operation for the same target to perform (R299). -/
def olderToTarget (s : State) (x : Core) (p : PostRec) (seq : Nat) : Bool :=
  x.posted.any (fun (_, q) =>
    let n := match q.state with | .inProgress n => some n | .parked n => some n | _ => none
    n.any (fun n => decide (n < seq)) && (stillToDo x q).any (sameTarget s p))

/-- Whether an operation's fault is that of its write: of its local side for GET and ATOM, of its remote side for PUT, but for a fault
that its read meets first (R345). -/
def postWrites (s : State) (c : Nat) (p : PostRec) : Bool :=
  match p.action with
  | 0 => match engineRead c c p.laddr p.len s with | .fault _ _ _ => false | _ => true
  | 1 => !localChip s p || match engineRead c p.core p.raddr p.len s with | .fault _ _ _ => false | _ => true
  | _ => true

/-- A fault of an operation: a report with the entry number, once per cause, and the operation parks (R300, R350). -/
def parkPosted (c e seq cause page : Nat) (p : Posted) (write : Bool) (s : State) : State :=
  let park := onCore c (fun x => { x with posted := mapPut x.posted e { p with state := .parked seq, lastCause := cause, lastPage := page } })
  if p.lastCause = cause ∧ p.lastPage = page then park s
  else if faultRoom s c then
    park (fabricFault c { code := cause, val := BitVec.ofNat 64 e, source := 4, page := page, write := write } true s)
  else s

/-- One operation of a fired entry goes on; `fin` follows its completion, RK raised and DONEK not (R297, R298). Bytes sent to
pages of other chips are performed there before it completes (R293). -/
def runPost (c e seq : Nat) (q : Posted) (p : PostRec) (fin : State → State) (s : State) : State :=
  let note := fun (m : Option Bool) => onCore c (fun x => { x with posted := mapPut x.posted e { q with moved := m } })
  let settled := fun (rk : Bool) (s : State) =>
    if farSettled s (.fabric c) then fin (raiseRk rk c p (dropEntry c e s)) else note (some rk) s
  match q.moved with
  | some rk => settled rk s
  | none =>
    if actionFails s c e p || olderToTarget s (coreOf s c) p seq then s
    else
      match perform c e p s with
      | .ok rk s => settled rk s
      | .fault cause page s => parkPosted c e seq cause page q (postWrites s c p) s
      | .wait s => s

/-- The next TEMPLATE of a CHAIN is performed in full; a free slot is skipped (R297, R298). -/
def chainStep (c e seq : Nat) (p : Posted) (s : State) : State :=
  let next := onCore c (fun x => { x with posted := mapPut x.posted e { p with chainPos := p.chainPos + 1, moved := none } })
  match p.post.slots[p.chainPos]? with
  | none => finishPosted c e s
  | some n =>
    match mapFind (coreOf s c).posted n with
    | none => next s
    | some q => runPost c e seq p q.post (fun s => next (raiseIf q.post.doneken c q.post.donek 1 s)) s

/-- A fired operation goes on: it completes, parks, or (a CHAIN) performs its next TEMPLATE (R298, R300). -/
def postedComplete (c e : Nat) (s : State) : State :=
  match mapFind (coreOf s c).posted e with
  | none => s
  | some p =>
    match p.state with
    | .inProgress seq =>
      if !fabricOn s c then s
      else if p.post.action = 4 then chainStep c e seq p s
      else runPost c e seq p p.post (finishPosted c e) s
    | _ => s

def execPostedComplete (core e : Nat) (s : State) := done (postedComplete core e s)

/-- The operation that fails: the entry's own, or the TEMPLATE a CHAIN has reached. -/
def failingPost (x : Core) (p : Posted) : PostRec :=
  if p.post.action = 4 then
    match (p.post.slots[p.chainPos]?).bind (fun n => mapFind x.posted n) with
    | some q => q.post
    | none => p.post
  else p.post

/-- A fired operation whose target is not held or whose causeway is down ends with PERM (R300). -/
def postedFailure (c e : Nat) (s : State) : State :=
  match mapFind (coreOf s c).posted e with
  | none => s
  | some p =>
    if inFlight p && p.moved.isNone && actionFails s c e (failingPost (coreOf s c) p) && reportRoom s c then
      let s := report c { code := causePerm, val := BitVec.ofNat 64 (e + 2 ^ 8), source := 4 } (dropEntry c e s)
      onCore c (fun x => { x with posted := if p.cancelled then mapPut x.posted e { p with state := .armed } else mapDel x.posted e }) s
    else s

def execPostedFailure (core e : Nat) (s : State) := done (postedFailure core e s)

end Sys2Proof.Machine
end

