-- ==== Sys2Proof/Machine/Nodes.lean ====
section
/-! DEFINITION. The nodes of a core and what joins them: the selected configuration, input channels and exit queues
(R161, R163), routes and their targets (R76, R125), tokens (R164), parameter words (R77), and TABLE regions (R172). -/

namespace Sys2Proof.Machine

/-! ### The selected configuration -/

/-- The configuration of the slot that a core has selected. -/
def selCfg (x : Core) : CoreCfg := match x.selected with | some n => mapGet {} x.slots n | none => {}

/-- The isle's slot that a core has selected. -/
def slotOf (s : State) (c : Nat) : Option IsleSlot := (coreOf s c).selected.bind (mapFind (isleOfCore s c).slots)

/-- Route number i of the selected slot of a core. -/
def routeAt (x : Core) (i : Nat) : Option Route := (selCfg x).routes[i]?

/-- A graph runs on the core. -/
def graphRuns (s : State) (c : Nat) : Bool := match slotOf s c with | some g => g.running | none => false

/-- How the graph of the core is being stopped. -/
def stopOf (s : State) (c : Nat) : Option StopForm := match slotOf s c with | some g => g.stop | none => none

/-- Tokens move on the core: its graph runs, and its fabric is neither frozen nor being saved in full (R274, R354). -/
def tokensOn (s : State) (c : Nat) : Bool := fabricOn s c && graphRuns s c && (isleOfCore s c).quiesceAt.isNone

/-- Sources of the core make tokens: no STOPG stops them, and the isle is not being drained (R119, R352). -/
def sourceOn (s : State) (c : Nat) : Bool := tokensOn s c && sourcesOn s c && (stopOf s c).isNone

/-- A parameter word of an operator slot (R77). -/
def opPar (x : Core) (slot i : Nat) : Nat := mapGet 0 (mapGet [] (selCfg x).ops slot) i

/-- Field [lo + len - 1 : lo] of a parameter word. -/
def opField (x : Core) (slot i lo len : Nat) : Nat := bits (opPar x slot i) lo len

/-- The operator of a slot is configured. -/
def hasOp (x : Core) (slot : Nat) : Bool := (mapFind (selCfg x).ops slot).isSome

/-! ### Tokens (R164) -/

/-- Lane l of a token's data. -/
def Tok.lane (t : Tok) (l : Nat) : Nat := bits t.data.toNat (32 * l) 32

/-- The LMASK bit of lane l. -/
def Tok.has (t : Tok) (l : Nat) : Bool := t.lmask.getLsbD l

/-- The data of four lanes. -/
def laneData (f : Nat → Nat) : Quad :=
  BitVec.ofNat 128 ((upTo 4).foldl (fun n l => n + f l % 2 ^ 32 * 2 ^ (32 * l)) 0)

/-- The data of four lanes listed. -/
def quadOf (a b c d : Nat) : Quad := laneData (fun l => [a, b, c, d].getD l 0)

/-- Lanes 1:0 as a UINT64, lane 1 high (R191). -/
def Tok.key (t : Tok) : Word := BitVec.ofNat 64 (bits t.data.toNat 0 64)

/-- Lanes 3:2 as a UINT64. -/
def Tok.high (t : Tok) : Word := BitVec.ofNat 64 (bits t.data.toNat 64 64)

/-- A MARK of a level. -/
def markTok (level : Nat) (abort poison : Bool) : Tok := { kind := .mark, level := level, abort := abort, poison := poison }

/-- The token is a MARK that ends its stream. -/
def Tok.ends (t : Tok) : Bool := t.kind == .mark && t.level == 7

/-! ### Channels and exit queues -/

/-- Channel or output ch of a node: elements are 0 to 63, slot n is 64 + n. -/
def chanKey (node ch : Nat) : Nat := 4 * node + ch

/-- The tokens of an input channel, head first. -/
def chanQ (x : Core) (node ch : Nat) : List Tok := mapGet [] x.chans (chanKey node ch)

/-- The head of an input channel. -/
def headTok (x : Core) (node ch : Nat) : Option Tok := (chanQ x node ch).head?

/-- Sets a queue; an empty one is unlisted. -/
def putQ (m : Map (List Tok)) (k : Nat) (q : List Tok) : Map (List Tok) := if q.isEmpty then mapDel m k else mapPut m k q

/-- The head of a channel is consumed, and with it the WTS of the line it was read from (R285); an abort MARK that the switch
held takes the slot that frees (R129, R133).
DEDUCED: notes/assumptions/69.md. -/
def popChan (node ch : Nat) (x : Core) : Core :=
  let k := chanKey node ch
  let x := { x with readWts := latest x.readWts (((mapGet [] x.chans k).head?.map (Tok.wts)).getD 0) }
  let q := (mapGet [] x.chans k).drop 1
  match mapFind x.heldMarks k with
  | some m => { x with chans := putQ x.chans k (q ++ [m]), heldMarks := mapDel x.heldMarks k }
  | none => { x with chans := putQ x.chans k q }

/-- A token joins an input channel. -/
def pushChan (node ch : Nat) (t : Tok) (x : Core) : Core :=
  let k := chanKey node ch
  { x with chans := mapPut x.chans k (mapGet [] x.chans k ++ [t]) }

/-- A MARK that the switch makes for a channel joins it, or is held until a slot frees (R129).
DEDUCED: notes/assumptions/69.md. -/
def pushHeld (node ch : Nat) (t : Tok) (x : Core) : Core :=
  if (chanQ x node ch).length < 4 then pushChan node ch t x else { x with heldMarks := mapPut x.heldMarks (chanKey node ch) t }

/-- The routes that leave an output, with their indexes (R76). -/
def outRoutes (x : Core) (node ch : Nat) : List (Nat × Route) :=
  ((selCfg x).routes.zipIdx.map (fun (r, i) => (i, r))).filter (fun (_, r) => r.src == node && r.sch == ch)

/-- The output has a route. -/
def routed (x : Core) (node ch : Nat) : Bool := !(outRoutes x node ch).isEmpty

/-- The tokens of an exit queue, head first. -/
def exitQ (x : Core) (node ch : Nat) : List Tok := mapGet [] x.exits (chanKey node ch)

/-- The output has room for n more tokens; one without a route takes any number (R163). A generator makes its next tokens when the last
have left (R361). DESIGN CHOICE: notes/assumptions/23.md. -/
def exitRoom (x : Core) (node ch n : Nat) : Bool :=
  !routed x node ch || if 64 ≤ node ∧ node < 72 then (exitQ x node ch).isEmpty else decide ((exitQ x node ch).length + n ≤ 12)

/-- Room for n tokens on every output of a node. -/
def exitsRoom (x : Core) (node n : Nat) : Bool := (upTo 4).all (fun ch => exitRoom x node ch n)

/-- A token enters an exit queue; without a route it goes nowhere. DESIGN CHOICE: notes/assumptions/23.md. -/
def emitTok (node ch : Nat) (t : Tok) (x : Core) : Core :=
  if routed x node ch then { x with exits := mapPut x.exits (chanKey node ch) (exitQ x node ch ++ [t]) } else x

/-- A token enters the exit queue of every output of a node. -/
def emitAll (node : Nat) (t : Tok) (x : Core) : Core := (upTo 4).foldl (fun x ch => emitTok node ch t x) x

/-! ### Targets of routes (R76, R125) -/

/-- The target core of a route of core c, when it lies on the die. -/
def routeCore (c : Nat) (r : Route) : Option Nat :=
  let x := ((c % 1600 % 40 : Nat) : Int) + r.dx
  let y := ((c % 1600 / 40 : Nat) : Int) + r.dy
  if 0 ≤ x ∧ x < 40 ∧ 0 ≤ y ∧ y < 40 then some (c / 1600 * 1600 + y.toNat * 40 + x.toNat) else none

/-- The route leaves its isle: a strait route (R130). -/
def isStrait (s : State) (c : Nat) (r : Route) : Bool :=
  match routeCore c r with
  | some d => !(isleCores (isleOfCore s c)).contains d
  | none => true

/-- Tokens of a route that have left their output and not reached their channel. -/
def wireQ (x : Core) (route : Nat) : List Tok := mapGet [] x.wires route

/-- The target channel of a route has a free slot for one more token, those on the way counted (R127). -/
def targetRoom (s : State) (c : Nat) (i : Nat) (r : Route) : Bool :=
  match routeCore c r with
  | some d => decide ((chanQ (coreOf s d) r.dst r.dch).length + (wireQ (coreOf s c) i).length +
      ofBool (mapFind (coreOf s d).heldMarks (chanKey r.dst r.dch)).isSome < 4)
  | none => false

/-- Every route that feeds an input channel, within the isle of its core: the source core and the route. -/
def feeders (s : State) (c node ch : Nat) : List (Nat × Route) :=
  (isleCores (isleOfCore s c)).flatMap (fun d =>
    if (coreOf s d).selected = (coreOf s c).selected then
      ((selCfg (coreOf s d)).routes.filter (fun r => r.dst == node && r.dch == ch && routeCore d r == some c)).map (fun r => (d, r))
    else [])

/-- A strait route of a selected graph ends at the input channel (R130). -/
def straitFed (s : State) (c node ch : Nat) : Bool :=
  s.cores.any (fun (d, x) => x.selected.isSome && (coreOf s c).isle != x.isle &&
    (selCfg x).routes.any (fun r => r.dst == node && r.dch == ch && routeCore d r == some c))

/-- The input channel has a route into it. -/
def fed (s : State) (c node ch : Nat) : Bool := !(feeders s c node ch).isEmpty || straitFed s c node ch

/-! ### Straits: grants (R131, R132) -/

/-- The isle that holds a core, if any. -/
def isleHolding (s : State) (c : Nat) : Option Nat :=
  (coreOf s c).isle.bind (fun n => if (isleOf s n).phase == .free then none else some n)

/-- The first entry of the strait that a token of a strait route enters, with the isle and entry number (R132). -/
def grantFor (s : State) (c : Nat) (r : Route) : Option (Nat × Nat × Grant) :=
  (routeCore c r).bind fun d =>
    (isleHolding s d).bind fun n =>
      ((isleOf s n).grants.find? (fun (_, g) => g.dst == (isleOf s n).ctx && g.src == (isleOfCore s c).ctx)).map
        (fun (k, g) => (n, k, g))

/-- The stream of a strait route is under way: its graph runs and its last token has not crossed, or tokens of it wait at the strait. -/
def crossing (s : State) (c : Nat) (e : Nat × Route) : Bool :=
  let x := coreOf s c
  let sentEnd := (mapGet [] x.sent (chanKey e.2.src e.2.sch)).head?.any Tok.ends
  !x.severed.contains e.1 && (!(wireQ x e.1).isEmpty || (graphRuns s c && !sentEnd))

/-- The strait ends the stream of route i of core c: its tokens that have not crossed wait as a refused stream, and the target channel
of one that a matching entry let cross receives a level-7 abort MARK (R133). DEDUCED: notes/assumptions/38.md. -/
def severRoute (c : Nat) (s : State) (e : Nat × Route) : State :=
  if !crossing s c e then s
  else
    let open_ := (grantFor s c e.2).isSome
    let s := onCore c (fun x => { x with severed := x.severed ++ [e.1] }) s
    match routeCore c e.2 with
    | some d => if open_ then onCore d (pushHeld e.2.dst e.2.dch (markTok 7 true false)) s else s
    | none => s

/-- The stream of a strait route goes on: the strait has not ended it, and neither isle is being drained (R133). -/
def straitOpen (s : State) (c i : Nat) (r : Route) : Bool :=
  let up := fun (k : Isle) => match k.phase with | .ending _ => false | .drain => false | .owed => false | _ => true
  !(coreOf s c).severed.contains i && up (isleOfCore s c) && (routeCore c r).all (fun d => up (isleOfCore s d))

/-- The routes of a core that leave its isle, with their indexes. -/
def straitRoutes (s : State) (c : Nat) : List (Nat × Route) :=
  ((selCfg (coreOf s c)).routes.zipIdx.map (fun (r, i) => (i, r))).filter (fun (_, r) => isStrait s c r)

/-- Every stream that leaves isle n over a strait ends (R133). DEDUCED: notes/assumptions/38.md. -/
def severFrom (n : Nat) (s : State) : State := (isleCores (isleOf s n)).foldl (fun s c => (straitRoutes s c).foldl (severRoute c) s) s

/-- Every stream that enters isle n over its strait ends; one that waits for an entry waits on for the next dispatch (R133). -/
def severInto (n : Nat) (s : State) : State :=
  let mine := isleCores (isleOf s n)
  s.cores.foldl (fun s (c, _) =>
    ((straitRoutes s c).filter (fun (_, r) => (routeCore c r).any (fun d => mine.contains d) && (grantFor s c r).isSome)).foldl (severRoute c) s) s

/-- Notes that tokens of a core moved, for the quiet clk of R352. -/
def moved (c : Nat) (f : Core → Core) (s : State) : State := onCore c (fun x => { f x with lastMove := s.cycle }) s

/-! ### Round counting (R302) -/

/-- A change of QS or QA sets ACT. -/
def countSent (n : Nat) (x : Core) : Core :=
  if x.quiesce.counting ∧ n ≠ 0 then { x with quiesce := { x.quiesce with qs := x.quiesce.qs + n, act := true } } else x

def countTaken (x : Core) : Core :=
  if x.quiesce.counting then { x with quiesce := { x.quiesce with qa := x.quiesce.qa + 1, act := true } } else x

/-- Routes into an HA i0 or an EX i0 among those that a token takes, unless a RING AG emits it. -/
def sentOn (x : Core) (node : Nat) (rs : List (Nat × Route)) (t : Tok) : Nat :=
  let ring := decide (64 ≤ node) && decide (node < 72) && (match mapFind (selCfg x).ags (node - 64) with | some a => a.mode == 3 | none => false)
  if t.kind = .data ∧ ¬ ring then (rs.filter (fun (_, r) => (r.dst == 76 || r.dst == 95) && r.dch == 0)).length else 0

/-! ### Tensor records that a graph keeps (R28) -/

/-- The copy of a tensor record that the units of a core keep. DEDUCED: notes/assumptions/58.md. -/
def keptTensor (x : Core) (tid : Nat) : TensorRec := mapGet {} x.tensors tid

/-! ### Tables of the HA and HS (R208, R209) -/

/-- No write of a table to its region is owed or under way. -/
def Table.idle {α : Type} (t : Table α) : Bool := t.pending.isNone && t.owed.isEmpty

/-! ### TABLE regions (R172) -/

/-- A tensor read as its pages' bytes in page order. -/
def flatTensor (t : TensorRec) (n : Nat) : TensorRec :=
  { t with rank := 1, fmt := 0, blk := 0, oob := 2, tile := [if t.page2m then 21 else 16], ext := [n] }

/-- The bytes of a TABLE region, read with read permission, 16 at a time: rows and their poison.
DEDUCED: notes/assumptions/27.md. -/
def readTable (c : Nat) (t : TensorRec) : Nat → Nat → State → Res (List (List Byte × Bool))
  | 0, _, s => .ok [] s
  | n + 1, o, s =>
    match (translateSpot s (viewOf s c) t (byteSpot t o) .read none).andThen (fun p s => readTarget s (some (.fabric c)) p 16) with
    | .ok b s => (readTable c t n (o + 16) s).andThen (fun bs s => .ok (b :: bs) s)
    | .fault cause page s => svcFault c { code := cause, val := BitVec.ofNat 64 o, tid := t.tid, page := page, bank := t.bank } s
    | .wait s => .wait s

/-- Rows from a start take their contents; poisoned data sets the rows' poison (R190). -/
def putRows : Nat → List (List Byte × Bool) → Elem → Elem
  | _, [], y => y
  | r, (b, bad) :: bs, y =>
    let y := y.putRow r (BitVec.ofNat 128 (ofBytes b))
    putRows (r + 1) bs { y with rowPoison := if bad then mapPut y.rowPoison r 15 else mapDel y.rowPoison r }

/-- The refill of a TABLE region at a resume, as a copy into the element's local memory (R172).
DESIGN CHOICE: notes/assumptions/70.md. -/
def refillJob (s : State) (c e : Nat) (g : Region) : CopyJob :=
  let n := 16 * g.rows
  let lev : CopyLevel := { extent := n, sdim := 0, ddim := 0, sstride := 1, dstride := 1 }
  let j : CopyJob :=
    { copy := { dkind := 2, oob := 2, saddr := g.tid, daddr := Config.localBase + 65536 * e + 16 * g.start
                scoord := List.replicate 8 0, dcoord := List.replicate 8 0, levels := [lev] }
      stensor := flatTensor (keptTensor (coreOf s c) g.tid) n, segs := [], src := none, dst := none, order := s.tick, refill := some e }
  { j with segs := segmentsOf j }

/-- Refills every TABLE region of the selected slot of a core. DESIGN CHOICE: notes/assumptions/70.md. -/
def refillTables (c : Nat) (s : State) : State :=
  (selCfg (coreOf s c)).regions.foldl (fun s (e, rs) => rs.foldl (fun s (i, g) =>
    if g.role = 2 then
      let j := refillJob s c e g
      onCore c (fun x => { x with jobs := mapPut x.jobs (16 + 4 * e + i) j }) s
    else s) s) s

/-- A refill of an element's TABLE regions has not landed. -/
def refilling (x : Core) (e : Nat) : Bool := x.jobs.any (fun (_, j) => j.refill == some e)

end Sys2Proof.Machine
end

