-- ==== Sys2Proof/Machine/Hub.lean ====
section
/-! DEFINITION. The hub: context entries (R96), the checks and queues of launches (R97 to R99), placement and dispatch
(R100, R101), dependences, the ends of launches and isles (R102), and the choice of victims (R103). -/

namespace Sys2Proof.Machine

/-! ### The context table (R96) -/

/-- An entry of the context table. -/
structure CtxEntry where
  valid : Bool := false
  ceil : Nat := 0
  islemax : Nat := 0
  spillBase : Nat := 0
  srkey : Word := 0
  page2m : Bool := false
  ptb : Nat := 0
  deriving DecidableEq, Repr

/-- Bytes of a table that the hub reads at a physical address; none while its stack is not ready (R91). -/
def hubBytes (s : State) (pa n : Nat) : Option (List Byte) :=
  if (upTo n).all (fun i => placeOf (pa + i) != .hbm || hbmReady s (pa + i)) then
    some ((upTo n).map (fun i =>
      if placeOf (pa + i) = .hbm then (lineData s 0 ((pa + i) / 64)).getD ((pa + i) % 64) 0
      else (absentBytes s (pa + i) 1).getD 0 0))
  else none

/-- Reads the entry of a context, at its physical address; none while its stack is not ready. -/
def ctxEntry (s : State) (ctx : Nat) : Option CtxEntry :=
  (hubBytes s (s.hub.ctxtab.toNat + 32 * ctx) 32).map (fun b =>
    { valid := fieldAt b 0 0 1 = 1, ceil := fieldAt b 1 0 6, islemax := fieldAt b 2 0 16, spillBase := fieldAt b 8 0 64
      srkey := BitVec.ofNat 64 (fieldAt b 16 0 64), page2m := fieldAt b 24 0 1 = 1, ptb := fieldAt b 24 12 52 * 4096 })

/-! ### Launch records (R23, R97) -/

/-- The reserved fields of the record. -/
def launchReserved (r : LaunchRec) : Bool :=
  fieldAt r.raw 1 6 2 != 0 || fieldAt r.raw 2 12 4 != 0 || bits r.dep0 19 12 != 0 || bits r.dep1 19 12 != 0 ||
  bits r.doneDep 19 12 != 0 || bits r.flags 2 14 != 0

/-- A valid dependence names a core the package lacks. -/
def depBad (d : Nat) : Bool := bit d 31 && decide (Config.cores ≤ bits d 0 13)

/-- A dependence is met: not valid, or its counter at or above the threshold (R98). -/
def depMet (s : State) (d thr : Nat) : Bool := !bit d 31 || decide (thr ≤ (counterOf s (bits d 0 13) (bits d 13 6)).toNat)

/-- The slot of an isle that holds an image by its identity (R117). -/
def slotOfId (i : Isle) (id : Nat) : Option Nat := (i.slots.find? (fun (_, g) => g.cfgid == id)).map (fun e => e.1)

/-- An isle keeps the image for the context at the record's shape (R100), as RESONLY asks (R97). DEDUCED: notes/assumptions/88.md. -/
def keepsImage (r : LaunchRec) (i : Isle) : Bool :=
  i.ctx == r.ctx && i.width == r.width && i.height == r.height && (slotOfId i r.cfgid).isSome

/-- Dependence watches in use, one for each dependence that is not met (R97, R98).
DESIGN CHOICE: notes/assumptions/79.md. -/
def watchesUsed (s : State) : Nat :=
  s.hub.fifos.foldl (fun n (_, q) => q.foldl (fun n l => n + ofBool (!l.met0) + ofBool (!l.met1)) n) 0

/-- The first failing check of a record, 0 for none (R97). -/
def checkLaunch (s : State) (e : CtxEntry) (r : LaunchRec) : Nat :=
  if r.version ≠ 1 then 1
  else if launchReserved r then 2
  else if !e.valid then 3
  else if e.ceil < r.prio then 4
  else if r.cfgid = 0 then 5
  else if r.width = 0 ∨ 40 < r.width ∨ r.height = 0 ∨ 40 < r.height then 6
  else if r.image % 32 ≠ 0 ∨ r.entry % 8 ≠ 0 ∨ r.params % 64 ≠ 0 then 7
  else if depBad r.dep0 ∨ depBad r.dep1 ∨ depBad r.doneDep then 8
  else if bit r.flags 1 ∧ ¬ s.hub.isles.any (fun (_, i) => keepsImage r i) then 9
  else
    let need := ofBool (!depMet s r.dep0 r.thr0) + ofBool (!depMet s r.dep1 r.thr1)
    if 128 ≤ (mapGet [] s.hub.fifos r.prio).length ∨ (need ≠ 0 ∧ 1024 < watchesUsed s + need) then 10 else 0

/-- Accepts a record: it takes the next LAUNCHSEQ (R34). -/
def takeSeq (s : State) : Nat × State :=
  (s.hub.nextSeq, tallyHub 0x300 (onHub (fun h => { h with nextSeq := h.nextSeq + 1 }) s))

/-- Queues an accepted record (R98). -/
def enqueue (r : LaunchRec) (seq : Nat) (attached : Bool) (s : State) : State :=
  let q : QLaunch := { lrec := r, seq := seq, met0 := depMet s r.dep0 r.thr0, met1 := depMet s r.dep1 r.thr1, attached := attached, waitRun := attached }
  onHub (fun h => { h with fifos := mapPut h.fifos r.prio (mapGet [] h.fifos r.prio ++ [q]) }) s

/-! ### Placement (R99, R100) -/

/-- Every core of the rectangle lies in a ready quadrant (R90, R91). -/
def quadrantsReady (s : State) (die x0 y0 w h : Nat) : Bool :=
  let r := s.host.readymap.toNat
  [x0, x0 + w - 1].all (fun x => [y0, y0 + h - 1].all (fun y => bit r (4 + 4 * die + x / 20 + 2 * (y / 20))))

/-- An isle's cores may be taken by a launch of this priority. -/
def takeable (prio : Nat) (i : Isle) : Bool := i.phase == .free || (i.phase == .held && decide (48 ≤ prio))

/-- The rectangle is free for a launch of this priority. -/
def rectFree (s : State) (prio die x0 y0 w h : Nat) : Bool :=
  s.hub.isles.all (fun (_, i) => i.die != die || takeable prio i || !rectsMeet x0 y0 w h i)

/-- The die may hold one more isle on a rectangle: 64 at most, those that the launch takes over not counted (R100, R121). -/
def dieRoom (s : State) (prio die x0 y0 w h : Nat) : Bool :=
  decide ((s.hub.isles.filter (fun (_, i) => i.die == die && i.phase != .free && !(takeable prio i && rectsMeet x0 y0 w h i))).length < 64)

/-- Every place of a rectangle, by die, y0 and x0. -/
def places (w h : Nat) : List (Nat × Nat × Nat) :=
  (upTo 4).flatMap (fun d => (upTo (41 - h)).flatMap (fun y => (upTo (41 - w)).map (fun x => (d, x, y))))

/-- A resident rectangle for the record, lowest first (R100). -/
def residentPlace (s : State) (r : LaunchRec) : Option Nat :=
  let c := s.hub.isles.filter (fun (_, i) => keepsImage r i && takeable r.prio i && quadrantsReady s i.die i.x0 i.y0 i.width i.height &&
    rectFree s r.prio i.die i.x0 i.y0 i.width i.height && dieRoom s r.prio i.die i.x0 i.y0 i.width i.height)
  let before := fun (a b : Nat × Isle) =>
    decide (a.2.die < b.2.die) || (a.2.die == b.2.die && (decide (a.2.y0 < b.2.y0) || (a.2.y0 == b.2.y0 && decide (a.2.x0 < b.2.x0))))
  (c.foldl (fun best e => match best with | none => some e | some b => if before e b then some e else some b) none).map (fun e => e.1)

/-- The place the hub takes: (die, x0, y0) (R100). -/
def findPlace (s : State) (r : LaunchRec) : Option (Nat × Nat × Nat) :=
  match residentPlace s r with
  | some n => let i := isleOf s n; some (i.die, i.x0, i.y0)
  | none =>
    (places r.width r.height).find? (fun (d, x, y) =>
      quadrantsReady s d x y r.width r.height && rectFree s r.prio d x y r.width r.height && dieRoom s r.prio d x y r.width r.height)

/-- The record fits no rectangle of the quadrants now ready (R99). -/
def fitsNowhere (s : State) (r : LaunchRec) : Bool :=
  (places r.width r.height).all (fun (d, x, y) => !quadrantsReady s d x y r.width r.height)

/-- Isles a context holds at once (R96). -/
def islesOf (s : State) (ctx : Nat) : Nat := (s.hub.isles.filter (fun (_, i) => i.ctx == ctx && i.phase != .free)).length

/-- The lowest cocoon index that no held or saved isle of the context uses (R344). -/
def freeCocoon (s : State) (ctx : Nat) : Nat :=
  let used := (s.hub.isles.filterMap (fun (_, i) => if i.ctx == ctx && i.phase != .free then some i.cocoonN else none)) ++
    s.hub.saved.filterMap (fun k => if k.ctx == ctx then some k.isle.cocoonN else none)
  ((upTo 256).find? (fun n => !used.contains n)).getD 0

/-! ### Starting a launch (R100, R101) -/

/-- A core as a launch finds it: cleared when the last use of its rectangle was by another context; else its scratchpad, local
memories, HA, HS, streams, codebooks and slots stay (R100, R136, R230, R234). -/
def freshCore (n : Nat) (cleared : Bool) (x : Core) : Core :=
  let y : Core := { isle := some n, pts := x.pts, fabricPts := x.fabricPts, readWts := x.readWts
                    pilot := { dcache := x.pilot.dcache, icache := x.pilot.icache } }
  if cleared then y
  else { y with scratch := x.scratch, scratchPoison := x.scratchPoison, haU := { x.haU with flags := 0, ended := false }
                hsU := { x.hsU with flags := 0, ended := false }, sg := { z := x.sg.z }, mt := { cb := x.mt.cb }
                elems := x.elems.map (fun (k, e) => (k, { rows := e.rows, rowPoison := e.rowPoison })), slots := x.slots }

/-- Registers at entry (R101). -/
def entryPilot (i : Isle) (c : Nat) (p : Pilot) : Pilot :=
  let p : Pilot := { p with regs := Vector.replicate 32 0, pc := BitVec.ofNat 64 i.lrec.entry, running := true }
  (((p.setReg 2 0x00007F000003FFC0).setReg 28 (BitVec.ofNat 64 i.lrec.params)).setReg 29 (BitVec.ofNat 64 c)).setReg 30
    0x00007F000003FFC0

/-- Writes the descriptors and starts every pilot of an isle on one clk (R101); pilots and graphs acquire the increments that met the
launch's dependences (R98, R277), and what the host wrote before the launch write, whether it had a dependence or not (R35).
DEDUCED: notes/assumptions/85.md. -/
def startPilots (n : Nat) (s : State) : State :=
  let s := onIsle n (fun i => { i with phase := .running, loadFail := none }) s
  let i := isleOf s n
  hitCounters ((isleCores i).foldl (fun s c => acquire c (acquireFabric c (onPilot c (entryPilot i c) s))) (writeDescriptors n s))

/-- The number of a new isle: the lowest index that is free on its die, one that the launch itself takes over included
(R121). -/
def isleIndex (s : State) (die x0 y0 w h : Nat) : Nat :=
  64 * die + ((upTo 64).find? (fun k => match mapFind s.hub.isles (64 * die + k) with
    | none => true
    | some o => o.phase == .free || (o.phase == .held && rectsMeet x0 y0 w h o))).getD 0

/-- The slot a load takes: the lowest that is invalid on all cores, else the one least recently selected (R100). -/
def loadSlot (s : State) (i : Isle) : Nat :=
  match (upTo 4).find? (fun k => (isleCores i).all (fun c => (mapFind (coreOf s c).slots k).isNone)) with
  | some k => k
  | none => leastRecent (fun _ => true) i
where
  /-- The slot least recently selected among those allowed; an invalid one has never been selected. -/
  leastRecent (ok : Nat → Bool) (i : Isle) : Nat :=
    let last := fun (k : Nat) => (mapGet {} i.slots k).lastSelected
    ((upTo 4).filter ok).foldl (fun b k => if last k < last b || !ok b then k else b) 0

/-- The last use of the rectangle was by another context (R100). -/
def stranger (s : State) (ctx : Nat) (cs : List Nat) : Bool := cs.any (fun c => (mapFind s.hub.lastCtx c).any (· ≠ ctx))

/-- A number above those of isles, for the record of an isle that has lost its index and that still says what is resident. -/
def pastKey (m : Map Isle) : Nat := 256 + ((upTo (m.length + 1)).find? (fun k => (mapFind m (256 + k)).isNone)).getD 0

/-- Makes room for isle n on a rectangle: the free and held isles that stand there, and the past one of that number, end. Those
whose slots stay valid are kept as past isles (R100, R136). DEDUCED: notes/assumptions/80.md. -/
def vacate (n die x0 y0 w h : Nat) (cleared : Bool) (s : State) : State :=
  let meets := fun (o : Isle) => o.die == die && rectsMeet x0 y0 w h o
  let out := s.hub.isles.filter (fun (k, o) => k == n || meets o)
  let same := fun (o : Isle) => o.die == die && o.x0 == x0 && o.y0 == y0 && o.width == w && o.height == h
  let past := out.filter (fun (_, o) => if meets o then !cleared && !same o else true)
  let rest := s.hub.isles.filter (fun (k, o) => !(k == n || meets o))
  let isles := past.foldl (fun m (_, o) => mapPut m (pastKey m) { o with phase := .free }) rest
  let unbind := fun (x : Core) => if x.isle.any (fun k => out.any (fun e => e.1 == k)) then { x with isle := none } else x
  onHub (fun h => { h with isles := isles }) { s with cores := s.cores.map (fun (c, x) => (c, unbind x)) }

/-- What is resident on a rectangle for a context: the slots of the isle that stood there (R100). -/
def residentSlots (s : State) (ctx die x0 y0 w h : Nat) : Map IsleSlot :=
  match s.hub.isles.find? (fun (_, o) => o.ctx == ctx && o.die == die && o.x0 == x0 && o.y0 == y0 && o.width == w && o.height == h &&
      (o.phase == .free || o.phase == .held)) with
  | some (_, o) => o.slots.map (fun (k, g) => (k, { g with selected := false, running := false, stop := none, endK := none }))
  | none => []

/-- Takes a place for an isle: its record, and its cores for the context (R100). -/
def takePlace (n : Nat) (i : Isle) (s : State) : State :=
  let cs := isleCores i
  let cleared := stranger s i.ctx cs
  let slots := if cleared then [] else residentSlots s i.ctx i.die i.x0 i.y0 i.width i.height
  let s := vacate n i.die i.x0 i.y0 i.width i.height cleared s
  let s := onHub (fun h => { h with isles := mapPut h.isles n { i with slots := slots }
                                    lastCtx := cs.foldl (fun m c => mapPut m c i.ctx) h.lastCtx }) s
  cs.foldl (fun s c => forgetFar (.pilot c) (forgetFar (.fabric c) (onCore c (freshCore n cleared) s))) s

/-- Takes a place for a launch as isle n: the isle's registers, its cores, and the load or the start (R100, R101). -/
def placeLaunch (e : CtxEntry) (l : QLaunch) (grants : Map Grant) (n die x0 y0 : Nat) (s : State) : State :=
  let r := l.lrec
  let s := takePlace n { die := die, x0 := x0, y0 := y0, width := r.width, height := r.height, index := n % 64, phase := .loading, lrec := r
                         ctx := r.ctx, prio := r.prio, ceil := e.ceil, seq := l.seq, spillBase := e.spillBase, srkey := e.srkey
                         t0ptb := e.ptb, t0page2m := e.page2m, cocoonN := freeCocoon s r.ctx, attached := l.attached, grants := grants } s
  match slotOfId (isleOf s n) r.cfgid with
  | some _ => startPilots n s
  | none => beginLoad n (loadSlot s (isleOf s n)) r.image none s

/-- Resumes a saved launch as isle n on a rectangle of its shape (R103, R352): its images reload, then its state is restored. -/
def placeSaved (k : Cocoon) (grants : Map Grant) (n die x0 y0 : Nat) (s : State) : State :=
  resumeStep refillTables n (takePlace n
    { die := die, x0 := x0, y0 := y0, width := k.isle.width, height := k.isle.height, index := n % 64, phase := .loading
      lrec := k.isle.lrec, ctx := k.isle.ctx, prio := k.isle.prio, seq := k.isle.seq, spillBase := k.isle.spillBase
      t0ptb := k.isle.t0ptb, t0page2m := k.isle.t0page2m, cocoonN := k.isle.cocoonN, grants := grants
      attached := k.isle.attached, resume := some { id := k.id, status := if k.commit then 3 else 2 } } s)

/-- The physical address of the grant record of an isle (R131). -/
def grantAddr (s : State) (n : Nat) : Nat := s.hub.granttab.toNat + 128 * n

/-- A valid grant entry with reserved bits set, or metered with no bucket (R131). -/
def grantBad (x : Nat) : Bool := bit x 31 && (bits x 24 7 != 0 || bits x 58 6 != 0 || (bits x 32 10 != 0 && bits x 42 16 == 0))

/-- A grant entry that counts, with its bucket full (R131, R134). -/
def grantOf (x : Nat) : Option Grant :=
  if bit x 31 && !grantBad x then
    some { src := bits x 0 12, dst := bits x 12 12, rate := bits x 32 10, burst := bits x 42 16, bucket := 1024 * bits x 42 16 }
  else none

/-- The grants of an isle as dispatch reads them; an entry that breaks its map is invalid and sends ERROR (R131, R134). None
while the record's stack is not ready. -/
def readGrants (n : Nat) (s : State) : Option (Map Grant × State) :=
  (hubBytes s (grantAddr s n) 128).map fun b =>
    let entries := (upTo 16).map (fun k => (k, fieldAt b (8 * k) 0 64))
    (entries.filterMap (fun (k, x) => (grantOf x).map (fun g => (k, g))),
     entries.foldl (fun s (_, x) => if grantBad x then sendVector 3 s else s) s)

/-- A ready record and what the hub may do with it. -/
inductive Pick
  | none
  | blocked
  | place (l : QLaunch) (e : CtxEntry) (at_ : Nat × Nat × Nat)
  deriving Repr

/-- Looks at the ready records of one FIFO in arrival order (R99). -/
def pickIn (s : State) : List QLaunch → Pick
  | [] => .none
  | l :: ls =>
    if !(l.met0 && l.met1) || l.waitRun then pickIn s ls
    else
      match ctxEntry s l.lrec.ctx with
      | none => .blocked
      | some e =>
        if e.islemax ≤ islesOf s l.lrec.ctx ∨ fitsNowhere s l.lrec then pickIn s ls
        else
          match findPlace s l.lrec with
          | some p => .place l e p
          | none => .blocked

/-- Looks at the FIFOs from a priority down (R99). -/
def pickFrom (s : State) : Nat → Pick
  | 0 => .none
  | p + 1 =>
    match pickIn s (mapGet [] s.hub.fifos p) with
    | .none => pickFrom s p
    | r => r

/-- Removes a record from its FIFO. -/
def unqueue (seq : Nat) (s : State) : State :=
  onHub (fun h => { h with fifos := h.fifos.map (fun (p, q) => (p, q.filter (fun l => l.seq != seq))) }) s

/-- Dispatches a record to a place, once the isle's grant record can be read. -/
def dispatchAt (l : QLaunch) (e : CtxEntry) (p : Nat × Nat × Nat) (s : State) : State :=
  let n := isleIndex s p.1 p.2.1 p.2.2 l.lrec.width l.lrec.height
  match readGrants n (unqueue l.seq s) with
  | none => s
  | some (grants, s) =>
    match (if l.saved then s.hub.saved.find? (fun k => k.isle.seq == l.seq) else none) with
    | some k => placeSaved k grants n p.1 p.2.1 p.2.2 s
    | none => placeLaunch e l grants n p.1 p.2.1 p.2.2 s

/-! ### Host launches and dependences -/

/-- A record from the host with its context entry: rejected with the ERROR vector and a record, whose CORE is 0, or queued (R86, R97).
DESIGN CHOICE: notes/assumptions/21.md. -/
def hostRecord (e : CtxEntry) (b : List Byte) (attached : Bool) (s : State) : State :=
  let r := parseLaunch b
  let c := checkLaunch s e r
  if c ≠ 0 then
    tallyHub 0x301 (svcEmit { code := 0, source := 11, ctx := r.ctx, core := 0, tag := r.tag, value := BitVec.ofNat 64 c } (sendVector 3 s))
  else let (q, s) := takeSeq s; enqueue r q attached s

/-- The hub checks the records that have arrived, in order, as far as it can read their context entries (R86, R91). -/
def checkArrived : List (List Byte × Bool) → State → State
  | [], s => onHub (fun h => { h with arrived := [] }) s
  | (b, attached) :: rest, s =>
    match ctxEntry s (parseLaunch b).ctx with
    | none => onHub (fun h => { h with arrived := (b, attached) :: rest }) s
    | some e => checkArrived rest (hostRecord e b attached s)

/-- A record arrives from the host or nydb (R86). -/
def hostLaunch (b : List Byte) (attached : Bool) (s : State) : State := checkArrived (s.hub.arrived ++ [(b, attached)]) s

/-- The hub places the first record that it may (R99 to R101). -/
def dispatch (s : State) : State :=
  if !bit s.host.readymap.toNat 45 then s
  else
    let s := checkArrived s.hub.arrived s
    match pickFrom s 64 with
    | .place l e p => dispatchAt l e p s
    | _ => s

def execDispatch (s : State) := done (dispatch s)

/-- A write to the launch window, as the pieces in which it came (R86): 64 aligned bytes in one, or dropped and counted once.
DESIGN CHOICE: notes/assumptions/21.md. -/
def launchWrite (off : Nat) (pieces : List (List Byte)) (s : State) : State :=
  if off % 64 ≠ 0 ∨ pieces.map List.length ≠ [64] then
    sendVector 3 (onHost (fun h => { h with lwdrop := if h.lwdrop = BitVec.allOnes 32 then h.lwdrop else h.lwdrop + 1 }) s)
  else if bit s.host.readymap.toNat 45 then hostLaunch pieces.flatten false s
  else s

/-- The dependence watches, by priority and arrival: sequence number and which dependence (R98). -/
def openWatches (s : State) : List (Nat × Bool) :=
  s.hub.fifos.flatMap (fun (_, q) => q.flatMap (fun l => (if l.met0 then [] else [(l.seq, false)]) ++ (if l.met1 then [] else [(l.seq, true)])))

/-- An increment that met the i-th watch reaches the hub; once met a dependence stays met (R98). -/
def dependenceWatch (i : Nat) (s : State) : State :=
  match (openWatches s)[i]? with
  | none => s
  | some (seq, second) =>
    let test := fun (l : QLaunch) =>
      if l.seq ≠ seq then l
      else if second then { l with met1 := l.met1 || l.hit1 }
      else { l with met0 := l.met0 || l.hit0 }
    onHub (fun h => { h with fifos := h.fifos.map (fun (p, q) => (p, q.map test)) }) s

def execDependenceWatch (i : Nat) (s : State) := done (dependenceWatch i s)

/-! ### The ends of launches and isles (R102) -/

/-- Every copy, store and far write of a core of an ending launch has been performed (R102). -/
def writesDone (s : State) (c : Nat) : Bool :=
  (coreOf s c).jobs.isEmpty && (coreOf s c).pilot.storeBuf.isEmpty && farSettled s (.pilot c) && farSettled s (.fabric c)

/-- A launch that is ending completes once its graphs have stopped and its copies are done (R102); the streams into its isle and
out of it end as it begins to end (R133). -/
def launchEnd (n : Nat) (s : State) : State :=
  let i := isleOf s n
  match i.phase with
  | .ending status =>
    let s := severFrom n (severInto n s)
    if i.slots.all (fun (_, g) => !g.running) && (isleCores i).all (writesDone s) then completeEnd n status s else s
  | _ => s

def execLaunchEnd (isle : Nat) (s : State) := done (launchEnd isle s)

/-- The hold after SBAR.END expires (R102). -/
def isleRelease (n : Nat) (s : State) : State :=
  let i := isleOf s n
  if i.phase = .held ∧ i.holdUntil ≤ s.cycle then onIsle n (fun i => { i with phase := .free }) s else s

def execIsleRelease (isle : Nat) (s : State) := done (isleRelease isle s)

/-! ### Pre-emption (R103) -/

/-- The running isles that a rectangle would take from. -/
def victimsOf (s : State) (die x0 y0 w h : Nat) : List (Nat × Isle) :=
  s.hub.isles.filter (fun (_, i) => i.die == die && i.phase != .free && i.phase != .held && rectsMeet x0 y0 w h i)

/-- Every victim of a candidate runs at a priority below p (R103). -/
def victimsOk (p : Nat) (vs : List (Nat × Isle)) : Bool :=
  !vs.isEmpty && vs.all (fun (_, i) => i.phase == .running && decide (i.prio < p))

/-- Highest victim priority, then the number of victims: the lower pair is chosen first. -/
def victimCost (vs : List (Nat × Isle)) : Nat := 65 * vs.foldl (fun m (_, i) => max m i.prio) 0 * 64 + vs.length

/-- The candidate whose cost is lowest, ties by die, y0 and x0 (R103). -/
def bestVictims (s : State) (r : LaunchRec) : Option (List (Nat × Isle)) :=
  (places r.width r.height).foldl (fun best (d, x, y) =>
    let vs := victimsOf s d x y r.width r.height
    if quadrantsReady s d x y r.width r.height && victimsOk r.prio vs then
      match best with
      | none => some vs
      | some b => if victimCost vs < victimCost b then some vs else some b
    else best) none

/-- Victims of a launch are still being drained and saved (R103). -/
def preempting (s : State) (l : QLaunch) : Bool :=
  s.hub.isles.any (fun (_, i) => i.preemptedBy == l.seq && (i.phase == .drain || i.phase == .owed))

/-- The context of a launch may hold one more isle (R96). -/
def belowMax (s : State) (ctx : Nat) : Bool := (ctxEntry s ctx).any (fun e => decide (islesOf s ctx < e.islemax))

/-- The first ready launch of the latency class that finds no place and has not yet chosen its victims (R103). -/
def preemptor (s : State) : Option QLaunch :=
  ((upTo 16).flatMap (fun k => (mapGet [] s.hub.fifos (63 - k)).filter (fun l => l.met0 && l.met1 && !l.waitRun))).find? (fun l =>
    !preempting s l && belowMax s l.lrec.ctx && (findPlace s l.lrec).isNone && !fitsNowhere s l.lrec)

/-- A victim stops (R352): its pilots at instruction boundaries, its sources with it. -/
def stopVictim (by_ : Nat) (s : State) (n : Nat) : State :=
  let s := onIsle n (fun i => { i with phase := .drain, stopAt := s.cycle, preemptedBy := by_ }) s
  let s := severFrom n (severInto n s)
  tallyHub 0x302 ((isleCores (isleOf s n)).foldl (fun s c => onCore c (fun x => { x with lastMove := s.cycle }) s) s)

/-- A latency-class launch without a place chooses the victims to drain and save (R103). -/
def preempt (s : State) : State :=
  match preemptor s with
  | none => s
  | some l =>
    match bestVictims s l.lrec with
    | none => s
    | some vs => vs.foldl (fun s (n, _) => stopVictim l.seq s n) s

def execPreempt (s : State) := done (preempt s)

end Sys2Proof.Machine
end

