-- ==== Sys2Proof/Machine/Select.lean ====
section
/-! DEFINITION. Selecting a graph (R117): what its units read and check at CFGSEL (R28, R78, R172, R199, R228, R249, R263),
the rule checks of R319, and the state its nodes start from. -/

namespace Sys2Proof.Machine

/-! ### Address-generator chains (R242) -/

/-- The slot that no other level names as NEXT. -/
def isInnermost (cfg : CoreCfg) (slot : Nat) : Bool :=
  (mapFind cfg.ags slot).isSome && cfg.ags.all (fun (_, a) => !(a.chain && a.next == slot))

/-- The levels of a chain from a slot outward; `fuel` bounds them. -/
def chainFrom (cfg : CoreCfg) : Nat → Nat → List (Nat × AgCfg)
  | 0, _ => []
  | n + 1, slot =>
    match mapFind cfg.ags slot with
    | none => []
    | some a => (slot, a) :: (if a.chain then chainFrom cfg n a.next else [])

/-- The chain of an innermost slot. -/
def chainOf (cfg : CoreCfg) (slot : Nat) : List (Nat × AgCfg) := chainFrom cfg 8 slot

/-- The chains that make memory requests: the innermost slot of each. -/
def requestChains (cfg : CoreCfg) : List Nat := (cfg.ags.filter (fun (k, a) => isInnermost cfg k && !a.token)).map (fun e => e.1)

/-- Bytes per request of the port that a chain's requests go to (R248). -/
def portSize (cfg : CoreCfg) (slot : Nat) : Nat :=
  match cfg.routes.find? (fun r => r.src == 64 + slot && r.sch == 0) with
  | some r => 4 * 2 ^ (bits (mapGet 0 (mapGet [] cfg.ops (r.dst - 64)) 0) 0 2)
  | none => 4

/-! ### Parameter words of a configuration -/

/-- A parameter word of a slot of a configuration. -/
def cfgPar (cfg : CoreCfg) (slot i : Nat) : Nat := mapGet 0 (mapGet [] cfg.ops slot) i

/-- A free value as the TRAPVAL of a fault that the spec gives none. DESIGN CHOICE: notes/assumptions/6.md. -/
def faultFree {α : Type} (cause : Nat) (s : State) : Res α := let (v, s) := freeVal s; .fault cause v.toNat s

/-! ### The HA and HS geometry (R199, R210) -/

/-- The geometry of the HA that a configuration gives, with the EMAX of ATID when it is read. -/
def haGeom (cfg : CoreCfg) (emax : Int) : Geom :=
  let w0 := cfgPar cfg 12 0
  let w2 := cfgPar cfg 12 2
  { form := bits w0 0 2, alg := bits w0 4 3, s := bits (cfgPar cfg 12 1) 0 15
    anchor := if bit w2 10 then sext 10 (bits w2 0 10) else if bits (cfgPar cfg 12 3) 0 20 = 0 then 128 else emax + 1
    spbase := cfgPar cfg 12 4 + 2 ^ 32 * cfgPar cfg 12 5, spsize := cfgPar cfg 12 6 + 2 ^ 32 * cfgPar cfg 12 7 }

/-- The configuration names an addend tensor for the HA (R42, R198). -/
def haReads (cfg : CoreCfg) : Bool := (mapFind cfg.ops 12).isSome && bits (cfgPar cfg 12 3) 0 20 != 0

def hsGeom (cfg : CoreCfg) : Geom :=
  { s := bits (cfgPar cfg 13 1) 0 14, spbase := cfgPar cfg 13 2 + 2 ^ 32 * cfgPar cfg 13 3
    spsize := cfgPar cfg 13 4 + 2 ^ 32 * cfgPar cfg 13 5 }

/-- The table may take a configuration's geometry: it is clear, or latched with the same one. -/
def geomOk (latched : Option Geom) (g : Geom) : Bool := match latched with | none => true | some h => h == g

/-! ### The anchors of the MT (R228) -/

/-- The valid operations that write accumulator a. -/
def mtWriters (cfg : CoreCfg) (a : Nat) : List Nat :=
  ((upTo 4).map (fun m => cfgPar cfg 14 (29 + m))).filter (fun w => bit w 0 && (bits w 8 2 == a || bits w 8 2 == 2))

/-- The operand format of a register, and whether it is scaled. -/
def mtFmt (cfg : CoreCfg) (n : Nat) : Nat := bits (cfgPar cfg 14 (5 + n)) 4 4

def mtScaled (cfg : CoreCfg) (n : Nat) : Bool := bit (cfgPar cfg 14 (5 + n)) 9

/-- The EMAX that bounds an operand: its tensor's, or the default of its format. -/
def mtEmax (cfg : CoreCfg) (cbs : Map (List Nat)) (ts : Map TensorRec) (etid n : Nat) : Int :=
  if etid ≠ 0 then (mapGet {} ts etid).emax
  else
    match fmtOf (mtFmt cfg n) with
    | some f => blockEmax f (mapGet defaultCodebook cbs (bits (cfgPar cfg 14 (5 + n)) 8 1))
    | none => 0

/-- The anchor that an operation derives. -/
def mtDerived (cfg : CoreCfg) (cbs : Map (List Nat)) (ts : Map TensorRec) (w : Nat) : Int :=
  let a := mtEmax cfg cbs ts (bits (cfgPar cfg 14 3) 0 20) (bits w 2 3)
  let b := mtEmax cfg cbs ts (bits (cfgPar cfg 14 4) 0 20) (bits w 5 3)
  (if bit w 1 then 2 * max a b + 3 else a + b + 1) + 1

/-- The anchor of an accumulator; none where CFGSEL refuses it. -/
def mtAnchor (cfg : CoreCfg) (cbs : Map (List Nat)) (ts : Map TensorRec) (a : Nat) : Option Int :=
  let w := cfgPar cfg 14 (1 + a)
  if bit w 10 then some (sext 10 (bits w 0 10))
  else
    let ops := mtWriters cfg a
    let bare := ops.any (fun w => (mtScaled cfg (bits w 2 3) && bits (cfgPar cfg 14 3) 0 20 == 0) ||
      (mtScaled cfg (bits w 5 3) && bits (cfgPar cfg 14 4) 0 20 == 0))
    match ops.map (mtDerived cfg cbs ts) with
    | [] => some 0
    | α :: rest => if bare || rest.any (· != α) || decide (α < -512) || decide (511 < α) then none else some α


/-! ### Tensor records (R28) -/

/-- Some accumulator that an operation of the MT writes takes its anchor from the ETID words: its SET is clear (R228).
DEDUCED: notes/assumptions/56.md. -/
def mtReads (cfg : CoreCfg) : Bool :=
  (mapFind cfg.ops 14).isSome && (upTo 2).any (fun a => !bit (cfgPar cfg 14 (1 + a)) 10 && !(mtWriters cfg a).isEmpty)

/-- The tensors that the HA and the MT name for their anchors (R42, R198, R228). -/
def anchorTids (cfg : CoreCfg) : List Nat :=
  (if haReads cfg then [bits (cfgPar cfg 12 3) 0 20] else []) ++
  (if mtReads cfg then [bits (cfgPar cfg 14 3) 0 20, bits (cfgPar cfg 14 4) 0 20] else [])

/-- Every tensor that a configuration names to a unit that reads its record. -/
def tidsOf (cfg : CoreCfg) : List Nat :=
  (requestChains cfg).flatMap (fun k => (chainOf cfg k).map (fun e => e.2.tid)) ++
  cfg.stashes.map (fun e => e.2.tid) ++
  cfg.regions.flatMap (fun (_, rs) => rs.filterMap (fun (_, g) => if g.role = 2 then some g.tid else none)) ++
  (anchorTids cfg).filter (· != 0)

/-- Reads the records of tensors. DEDUCED: notes/assumptions/58.md. -/
def readTensors (c : Nat) : List Nat → Map TensorRec → State → Res (Map TensorRec)
  | [], m, s => .ok m s
  | t :: ts, m, s =>
    if (mapFind m t).isSome then readTensors c ts m s
    else (readTensor s (some (.fabric c)) c t).andThen (fun r s => readTensors c ts (mapPut m t r) s)

/-- The tensor that breaks what a port, a window or an anchor asks of it, if one does (R26, R40, R78, R249). -/
def badTensor (cfg : CoreCfg) (ts : Map TensorRec) : Option Nat :=
  let chain := (requestChains cfg).findSome? (fun k =>
    (chainOf cfg k).findSome? (fun (_, a) =>
      let t := mapGet {} ts a.tid
      if t.rank ≤ a.dim ∨ !t.tileOk ∨ 2 ^ (t.tile.getD 0 0) * t.width < 8 * portSize cfg k then some a.tid else none))
  chain.or ((anchorTids cfg).find? (fun t => t != 0 && (mapGet {} ts t).fmt == 0))

/-! ### One core at CFGSEL -/

/-- What a core has read and settled for a configuration before anything of it changes. -/
structure CoreSel where
  tensors : Map TensorRec
  anchors : Map Int
  ha : Geom
  /-- TABLE regions: the element, the first row, and the rows. -/
  tables : List (Nat × Nat × List (List Byte × Bool))
  deriving Repr

/-- Reads the TABLE regions of a configuration (R172). DEDUCED: notes/assumptions/27.md. -/
def readTables (c : Nat) (ts : Map TensorRec) : List (Nat × Region) → State → Res (List (Nat × Nat × List (List Byte × Bool)))
  | [], s => .ok [] s
  | (e, g) :: rest, s =>
    (readTable c (mapGet {} ts g.tid) g.rows 0 s).andThen fun b s =>
      (readTables c ts rest s).andThen fun bs s => .ok ((e, g.start, b) :: bs) s

/-- The regions of a configuration whose role is TABLE. -/
def tableRegions (cfg : CoreCfg) : List (Nat × Region) :=
  cfg.regions.flatMap (fun (e, rs) => rs.filterMap (fun (_, g) => if g.role = 2 then some (e, g) else none))

/-- The reads and checks of one core (R28, R117, R199, R228, R249). -/
def prepareCore (c slot : Nat) (s : State) : Res CoreSel :=
  let x := coreOf s c
  let cfg := mapGet {} x.slots slot
  (readTensors c (tidsOf cfg) [] s).andThen fun ts s =>
    match badTensor cfg ts with
    | some t => .fault causeCfgbad t s
    | none =>
      let ha := haGeom cfg (mapGet {} ts (bits (cfgPar cfg 12 3) 0 20)).emax
      let hasHa := (mapFind cfg.ops 12).isSome
      let hasMt := (mapFind cfg.ops 14).isSome
      let α := fun a => mtAnchor cfg x.mt.cb ts a
      let feedsHa := hasMt && bits (cfgPar cfg 14 0) 0 2 == 1
      let differ := feedsHa && (upTo 2).any (fun a => !(mtWriters cfg a).isEmpty && α a != some ha.anchor)
      if hasMt ∧ (upTo 2).any (fun a => (α a).isNone) ∨ differ ∨ (hasHa ∧ (ha.anchor < -512 ∨ 511 < ha.anchor)) then faultFree causeCfgbad s
      else if hasHa ∧ !geomOk x.haU.tab.geom ha then .fault causeCfgbad 12 s
      else if (mapFind cfg.ops 13).isSome ∧ !geomOk x.hsU.tab.geom (hsGeom cfg) then .fault causeCfgbad 13 s
      else
        (readTables c ts (tableRegions cfg) s).andThen fun tb s =>
          .ok { tensors := ts, anchors := [(0, (α 0).getD 0), (1, (α 1).getD 0)], ha := ha, tables := tb } s

/-- Prepares every core that an image configures. -/
def prepareCores (slot : Nat) : List Nat → State → Res (List (Nat × CoreSel))
  | [], s => .ok [] s
  | c :: cs, s =>
    (prepareCore c slot s).andThen fun p s => (prepareCores slot cs s).andThen fun ps s => .ok ((c, p) :: ps) s

/-- The elements that hold state on a core or that a configuration names in a frame. -/
def elemKeys (cfg : CoreCfg) (x : Core) : List Nat :=
  (x.elems.map (·.1) ++ cfg.elems.map (·.1) ++ cfg.preload.map (·.1) ++ cfg.regions.map (·.1)).eraseDups

/-- An element at CFGSEL: counters at 0, its preload, then its TABLE rows, with an EI frame or without (R80, R170, R172). -/
def elemAt (cfg : CoreCfg) (p : CoreSel) (e : Nat) (old : Elem) : Elem :=
  let rows := mapGet [] cfg.preload e
  let y : Elem := { rows := rows, flags := old.flags }
  p.tables.foldl (fun y (e', r, b) => if e' = e then putRows r b y else y) y

/-- A core with a slot selected (R117): every node at its start, and the tables and streams that outlive graphs kept. -/
def selectOn (slot : Nat) (rules : Bool) (p : CoreSel) (x : Core) : Core :=
  let cfg := mapGet {} x.slots slot
  let mp := fun (k : Nat) => ({ tcache := (mapGet {} x.mps k).tcache } : Mp)
  { x with
    selected := some slot, tensors := p.tensors, chans := [], exits := [], wires := [], watch := [], cutRoutes := [], heldMarks := []
    severed := [], sent := [], seen := []
    elems := (elemKeys cfg x).foldl (fun m e => mapPut m e (elemAt cfg p e (mapGet {} m e))) x.elems
    ags := cfg.ags.map (fun (k, _) => (k, {})), mps := [(8, mp 8), (9, mp 9)], mjs := [], rds := [], wcs := [], sms := [], sk := {}, ex := {}
    haU := { x.haU with tab := { x.haU.tab with geom := if (mapFind cfg.ops 12).isSome then some p.ha else x.haU.tab.geom }, openTile := none, ended := false, mtEnded := false
                        closed := false, words := if (mapFind cfg.ops 12).isSome then mapGet [] cfg.ops 12 else x.haU.words }
    hsU := { x.hsU with tab := { x.hsU.tab with geom := if (mapFind cfg.ops 13).isSome then some (hsGeom cfg) else x.hsU.tab.geom }, ended := false }
    mt := { cb := x.mt.cb, anchors := p.anchors, flags := x.mt.flags }, sg := { z := x.sg.z, flags := x.sg.flags }
    quiesce := { x.quiesce with counting := rules, qs := 0, qa := 0, act := false } }

/-- A core whose slot another selection deselects. -/
def deselect (x : Core) : Core :=
  { x with selected := none, chans := [], exits := [], wires := [], severed := [], ags := [], tensors := []
           elems := x.elems.map (fun (k, e) => (k, { e with c := [0, 0, 0, 0] })) }

/-- The MU windows of a configuration become live on a core (R263). -/
def muStashes (slot : Nat) (ts : Map TensorRec) (cfg : CoreCfg) (x : Core) : Core :=
  cfg.stashes.foldl (fun x (n, w) =>
    { x with stashes := mapPut x.stashes n { cfg := w, tensor := mapGet {} ts w.tid, mu := some slot } }) x

/-- Writes back the windows that the MU frames of an image replace, once the stores that a core's pilot made before have reached them
(R263, R264). -/
def replaceWindows (slot : Nat) : List Nat → State → Res Unit
  | [], s => .ok () s
  | c :: cs, s =>
    let w := (mapGet {} (coreOf s c).slots slot).stashes
    let mine := fun (k : Nat) => (mapFind w k).isSome
    if (coreOf s c).stashes.any (fun (k, _) => mine k) && !storesDone s c then .wait s
    else (coreBack c mine s).andThen (fun _ s => replaceWindows slot cs s)

/-! ### Rule checks (R319) -/

/-- The bytes of record n of the rule table. -/
def ruleBytes (c n : Nat) (s : State) : Res (List Byte) :=
  readRecord s (some (.pilot c)) c ((isleOfCore s c).rubase.toNat + 64 * n) 64

/-- The rules of the table from record len - k up; a record that is no rule record of its number derives nothing (R30). -/
def readRules (c len : Nat) : Nat → State → Res (List RuleRec)
  | 0, s => .ok [] s
  | k + 1, s =>
    (ruleBytes c (len - (k + 1)) s).andThen fun b s =>
      (readRules c len k s).andThen fun rs s => .ok ((parseRule (len - (k + 1)) b).toList ++ rs) s

/-- Reads the relation records of a list of identifiers. -/
def readRels (c : Nat) : List Nat → State → Res (List RelRec)
  | [], s => .ok [] s
  | r :: rs, s => (readRel s (some (.pilot c)) c r).andThen fun x s => (readRels c rs s).andThen fun xs s => .ok (x :: xs) s

/-- The TUPLES and index records of a relation are as R316 and R318 lay them out. -/
def checkRelTensors (c : Nat) (r : RelRec) (s : State) : Res Unit :=
  (readTensor s (some (.pilot c)) c r.tuples).andThen fun t s =>
    if t.fmt ≠ 5 ∨ t.rank ≠ 2 ∨ t.ext.getD 0 0 ≠ 4 ∨ t.tile.getD 0 0 ≠ 2 ∨ t.ext.getD 1 0 ≠ r.npart * r.capacity then .fault causeCfgbad r.tuples s
    else
      let idx := fun (n : Nat) (s : State) =>
        if n = 0 then Res.ok () s
        else (readTensor s (some (.pilot c)) c n).andThen (fun t s => if t.fmt ≠ 5 ∨ t.rank ≠ 1 then .fault causeCfgbad n s else .ok () s)
      (idx r.srcidx s).andThen (fun _ s => idx r.dstidx s)

def checkRelsTensors (c : Nat) : List RelRec → State → Res Unit
  | [], s => .ok () s
  | r :: rs, s => (checkRelTensors c r s).andThen (fun _ s => checkRelsTensors c rs s)

/-- The first failing check of a rule whose relations are known, with its cause and TRAPVAL (R319).
DEDUCED: notes/assumptions/28.md. -/
def ruleFails (rules : List RuleRec) (r : RuleRec) (head : RelRec) (body : List RelRec) : Option (Nat × Nat) :=
  let atoms := (r.atoms.zip body).zipIdx
  let val := fun (i : Nat) => r.rule + 256 * i
  let bound := r.atoms.zip body |>.flatMap (fun (a, b) => if a.neg then [] else a.vars.take b.arity)
  let free := fun (vs : List Nat) => vs.any (fun v => !bound.contains v)
  let first := fun (cause : Nat) (p : AtomRec × RelRec → Bool) => (atoms.find? (fun e => p e.1)).map (fun e => (cause, val e.2))
  let compl := match algOf head.alg with | some g => algHasCompl g | none => false
  (first causeCfgbad (fun (_, b) => b.alg != head.alg)).or
  ((if (r.atoms.filter (fun a => a.access == 0)).length ≠ 1 then some (causeCfgbad, val 4) else none).or
  ((first causeCfgbad (fun (a, b) => a.neg && free (a.vars.take b.arity))).or
  ((if free (r.headVars.take head.arity) then some (causeCfgbad, val 4) else none).or
  ((first causeCfgbad (fun (a, _) => a.neg && !compl)).or
  ((first causeStratum (fun (_, b) => decide (r.stratum < b.stratum))).or
  ((first causeStratum (fun (a, b) => a.neg && (decide (r.stratum ≤ b.stratum) || a.access == 0))).or
   (first causeStratum (fun (a, _) => a.access != 0 && rules.any (fun q => q.head == a.rid && q.stratum == r.stratum)))))))))

/-- The checks of one rule; the last of them looks at every rule of the table. DEDUCED: notes/assumptions/28.md. -/
def checkRule (c len : Nat) (r : RuleRec) (s : State) : Res Unit :=
  let fail := fun (x : Option (Nat × Nat)) (s : State) => match x with | some (cause, v) => Res.fault cause v s | none => .ok () s
  (readRels c (r.head :: r.atoms.map (·.rid)) s).andThen fun rels s =>
    match rels with
    | [] => .ok () s
    | head :: body =>
      (checkRelsTensors c (head :: body) s).andThen fun _ s =>
        if r.stratum ≠ head.stratum then faultFree causeCfgbad s
        else
          (fail (ruleFails [] r head body) s).andThen fun _ s =>
            (readRules c len len s).andThen fun rules s => fail (ruleFails rules r head body) s

/-- The checks of the records of the table from number len - k up whose CFGID is the image's, in table order (R319). -/
def checkRules (c cfgid len : Nat) : Nat → State → Res Unit
  | 0, s => .ok () s
  | k + 1, s =>
    let n := len - (k + 1)
    (ruleBytes c n s).andThen fun b s =>
      (if fieldAt b 4 0 16 ≠ cfgid then Res.ok () s
       else match parseRule n b with | some r => checkRule c len r s | none => .fault causeCfgbad n s).andThen fun _ s =>
        checkRules c cfgid len k s

/-- The rule checks of R319 for an image's identity. -/
def checkImageRules (c cfgid : Nat) (s : State) : Res Unit :=
  let len := (isleOfCore s c).rulen.toNat
  checkRules c cfgid len len s

/-! ### Selecting and starting -/

/-- Deselects the slots of an isle that are not running and share a core with the new one (R117). -/
def deselectOthers (n slot : Nat) (cs : List Nat) (s : State) : State :=
  (isleOf s n).slots.foldl (fun s (k, g) =>
    if k ≠ slot ∧ g.selected ∧ !g.running ∧ g.cores.any (fun c => cs.contains c) then
      let s := g.cores.foldl (fun s c => onCore c (fun x => if x.selected = some k then deselect x else x) s) s
      onIsle n (fun i => { i with slots := mapPut i.slots k { g with selected := false } }) s
    else s) s

/-- Selects a slot whose checks have passed (R117). -/
def selectSlot (n slot : Nat) (g : IsleSlot) (ps : List (Nat × CoreSel)) (s : State) : State :=
  let s := deselectOthers n slot g.cores s
  let s := ps.foldl (fun s (c, p) => onCore c (fun x =>
    muStashes slot p.tensors (mapGet {} x.slots slot) (selectOn slot g.rules p x)) s) s
  onIsle n (fun i => { i with slots := mapPut i.slots slot { g with selected := true, lastSelected := s.cycle } }) s

/-- A graph of an isle runs on a core that a slot configures. -/
def coresBusy (s : State) (n : Nat) (cs : List Nat) : Bool :=
  (isleOf s n).slots.any (fun (_, g) => g.running && g.cores.any (fun c => cs.contains c))

/-- The reads and checks of a selection, made by the pilot of core c; nothing is selected when one fails (R117, R319). -/
def prepareSelect (c slot : Nat) (g : IsleSlot) (s : State) : Res (List (Nat × CoreSel)) :=
  (if g.rules then checkImageRules c g.cfgid s else .ok () s).andThen fun _ s =>
    (prepareCores slot g.cores s).andThen fun ps s =>
      (replaceWindows slot g.cores s).andThen fun _ s => .ok ps s

/-- A clear table latches the geometry of a graph that configures its unit (R199). -/
def latchTable {α : Type} (t : Table α) (configured : Bool) (g : Geom) : Table α :=
  if configured && t.geom.isNone then { t with geom := some g } else t

/-- The MT has a channel that must end: one that fills a register, or the parameter port (R227). Without one it ends as the graph
starts. -/
def mtFills (cfg : CoreCfg) (x : Core) : Bool :=
  let w := fun (i : Nat) => mapGet (cfgPar cfg 14 i) x.mt.words i
  (upTo 8).any (fun n => bits (w (5 + n)) 0 2 == 1) || bit (w 33) 2

/-- A core at a GO: what counts from GO starts again (R118, R142, R171, R215, R225, R347). -/
def goCore (x : Core) : Core :=
  let cfg := selCfg x
  let credk := bits (cfgPar cfg 31 1) 4 6
  { x with
    elems := x.elems.map (fun (k, e) => (k, { e with ended := false, tail := 0, waves := 0 }))
    ags := x.ags.map (fun (k, a) => (k, { n := a.n }))
    mps := x.mps.map (fun (k, m) => (k, { tcache := m.tcache }))
    mjs := x.mjs.map (fun (k, m) => (k, { flags := m.flags })), rds := x.rds.map (fun (k, r) => (k, { flags := r.flags }))
    sk := {}, wcs := [], sms := [], sg := { z := x.sg.z, flags := x.sg.flags }
    ex := { k0 := x.counters.toList.getD credk 0 }
    haU := { x.haU with openTile := none, ended := false, mtEnded := !mtFills cfg x && bits (cfgPar cfg 14 0) 0 2 == 1, closed := false
                        tab := latchTable x.haU.tab (mapFind cfg.ops 12).isSome (haGeom cfg (keptTensor x (bits (cfgPar cfg 12 3) 0 20)).emax) }
    hsU := { x.hsU with ended := false, tab := latchTable x.hsU.tab (mapFind cfg.ops 13).isSome (hsGeom cfg) }
    mt := { x.mt with endedCh := [], ended := !mtFills cfg x
                      t := x.mt.t.map (fun (k, t) => (k, { t with filled := 0 }))
                      gate0 := ((upTo 64).map (fun k => (k, x.counters.toList.getD k 0))).filter (fun e => e.2 != 0) }
    watch := [], cutRoutes := [], sent := [], seen := [] }

/-- The unit whose latched geometry a GO finds different: 12 or 13 (R199, R210). -/
def goRefused (x : Core) : Option Nat :=
  let cfg := selCfg x
  if (mapFind cfg.ops 12).isSome && !geomOk x.haU.tab.geom (haGeom cfg (keptTensor x (bits (cfgPar cfg 12 3) 0 20)).emax) then some 12
  else if (mapFind cfg.ops 13).isSome && !geomOk x.hsU.tab.geom (hsGeom cfg) then some 13
  else none

/-- Starts a selected graph (R118): its counter at the end, and its sources. -/
def startGraph (n slot : Nat) (g : IsleSlot) (endK : Option (Nat × Nat)) (s : State) : State :=
  let s := g.cores.foldl (fun s c => acquireFabric c (onCore c goCore s)) s
  onIsle n (fun i => { i with slots := mapPut i.slots slot { g with running := true, stop := none, endK := endK } }) s

end Sys2Proof.Machine
end

