-- ==== Sys2Proof/Machine/Launch.lean ====
section
/-! DEFINITION. Launching from pilots, blocks and graphs: LNCH, LWAIT, SPAWN, YIELD, PRIO, CFGLD, CFGSEL, GO, STOPG, SBAR
(R111 to R120), the end of a graph (R118) and the block scheduler (R106 to R108). -/

namespace Sys2Proof.Machine

/-! ### LNCH and LWAIT -/

/-- No launch of a higher priority waits (R111). -/
def noHigher (s : State) (prio : Nat) : Bool :=
  s.hub.fifos.all (fun (p, q) => decide (p ≤ prio) || q.isEmpty) && s.hub.arrived.all (fun (b, _) => decide ((parseLaunch b).prio ≤ prio))

/-- The conditions of NEAR for an isle of this die (R111). -/
def nearOk (s : State) (r : LaunchRec) (n : Nat) : Bool :=
  match mapFind s.hub.isles n with
  | some i =>
    i.phase == .held && keepsImage r i && quadrantsReady s i.die i.x0 i.y0 i.width i.height &&
    depMet s r.dep0 r.thr0 && depMet s r.dep1 r.thr1 && noHigher s r.prio
  | none => false

/-- The isle that a NEAR names: index gb of the pilot's die. -/
def nearIsle (s : State) (near : Option Word) : Option Nat :=
  near.bind (fun v => if v.toNat < 64 then some (64 * dieOfCore s.turn + v.toNat) else none)

/-- An accepted record is dispatched directly or queued; the pilot keeps its number (R111). A NEAR takes over its isle with the
isle's number. DEDUCED: notes/assumptions/80.md. -/
def acceptLaunch (near : Option Word) (gd : Reg) (e : CtxEntry) (r : LaunchRec) (s : State) : State :=
  let (q, s) := takeSeq s
  let s := onPilot s.turn (fun p => { p with launches := (q :: p.launches).take 8 }) s
  let s := match nearIsle s near with
    | some n =>
      match (if nearOk s r n then readGrants n s else none) with
      | some (grants, s) =>
        placeLaunch e { lrec := r, seq := q, met0 := true, met1 := true } grants n (isleOf s n).die (isleOf s n).x0 (isleOf s n).y0 s
      | none => enqueue r q false s
    | none => enqueue r q false s
  writeBack gd (BitVec.ofNat 64 q) s

/-- LNCH and LNCH.NEAR (R111). A record is checked and queued though READYMAP's LAUNCH is clear, and dispatched after it sets.
DESIGN CHOICE: notes/assumptions/21.md. -/
def launchFrom (near : Option Word) (gd ga : Reg) (s : State) : State :=
  let a := reg s ga
  if a.toNat % 64 ≠ 0 then trapAt causeAlign a s
  else
    onRes (pilotRecord s a.toNat 64) fun b s =>
      let r := parseLaunch b
      if r.ctx ≠ (viewOf s s.turn).ctx then trapAt causePerm a s
      else
        match ctxEntry s r.ctx with
        | none => s
        | some e =>
          let c := checkLaunch s e r
          if c ≠ 0 then
            let rec_ : SvcRecord := { code := 0, source := 11, ctx := r.ctx, core := s.turn, tag := r.tag, value := BitVec.ofNat 64 c }
            writeBack gd (BitVec.ofNat 64 (2 ^ 63 + c)) (tallyHub 0x301 (svcEmit rec_ s))
          else afterRelease s (acceptLaunch near gd e r)

def execLnch (gd ga : Reg) (s : State) := done (launchFrom none gd ga s)
def execLnchNear (gd ga gb : Reg) (s : State) := done (launchFrom (some (reg s gb)) gd ga s)

/-- LWAIT and LWAIT.T (R112). -/
def launchWait (test : Bool) (gd ga : Reg) (s : State) : State :=
  let q := (reg s ga).toNat
  if !(pilot s).launches.contains q then writeBack gd 0xFF s
  else
    match mapFind s.hub.ends q with
    | some status => writeBack gd (BitVec.ofNat 64 status) (acquire s.turn s)
    | none => if test then writeBack gd 0xFE s else s

def execLwait (gd ga : Reg) (s : State) := done (launchWait false gd ga s)
def execLwaitTest (gd ga : Reg) (s : State) := done (launchWait true gd ga s)

/-! ### The block table (R106) -/

/-- An entry of the block table. -/
structure BlockEntry where
  cfgid : Nat
  bonus : Nat
  atoll : Nat
  image : Nat
  deriving DecidableEq, Repr

def parseBlock (b : List Byte) : BlockEntry :=
  { cfgid := fieldAt b 0 0 16, bonus := fieldAt b 2 0 4, atoll := fieldAt b 2 4 4, image := fieldAt b 8 0 64 }

/-- Reads entry b of the block table of the isle of core c. -/
def readBlock (s : State) (c b : Nat) : Res BlockEntry :=
  let a := (isleOfCore s c).blktab.toNat + 16 * b
  match readFlat s none (viewOf s c) a 16 with
  | .ok (x, _) s => .ok (parseBlock x) s
  | .fault cause page s => svcFault c { code := cause, val := BitVec.ofNat 64 a, page := page } s
  | .wait s => .wait s

/-- The declaration of an atoll in the lead core: by the block's resident slot, else by any valid slot.
DEDUCED: notes/assumptions/20.md. -/
def blockAtoll (s : State) (lead : Nat) (e : BlockEntry) : Option AtollCfg :=
  let x := coreOf s lead
  let own := (slotOfId (isleOfCore s lead) e.cfgid).bind (fun k => mapFind (mapGet {} x.slots k).atolls e.atoll)
  own.or (x.slots.findSome? (fun (_, g) => mapFind g.atolls e.atoll))

/-- The header of a thread record (R107). -/
def threadHeader (thread block ntok pri : Nat) : Nat :=
  thread % 2 ^ 32 + 2 ^ 32 * (block % 32) + 2 ^ 37 * (ntok % 8) + 2 ^ 40 * (pri % 64)

/-- The tokens of an atoll before the slot that its tail counter names. -/
def tailPos (s : State) (lead : Nat) (a : AtollCfg) : Nat := (counterOf s lead a.tailk).toNat % a.slots * a.slotw

/-- The stash lines under that slot are brought in and marked (R263). -/
def touchTail (s : State) (lead : Nat) (a : AtollCfg) : Res Unit :=
  withScratch lead (a.base + 16 * tailPos s lead a) (16 * a.slotw) s fun s =>
    withScratch lead (a.base + 16 * a.slots * a.slotw + 2 * tailPos s lead a) (2 * a.slotw) s fun s => .ok () s

/-- Writes the record of a thread at the tail of its queue and raises the tail counter (R107, R113).
DEDUCED: notes/assumptions/20.md. -/
def putThread (lead : Nat) (e : BlockEntry) (a : AtollCfg) (b n : Nat) (toks : List Byte) (s : State) : State :=
  let i := isleOfCore s lead
  let pos := tailPos s lead a
  let head := toBytes 16 (threadHeader i.threads.toNat b n i.prio)
  let data := head ++ toks ++ List.replicate (16 * (a.slotw - 1 - n)) 0
  let ctl := toBytes 2 0xC0F ++ (upTo (a.slotw - 1)).flatMap (fun j => toBytes 2 (if j < n then dataCtl else 0))
  let s := onCore lead (fun x => putScratch (a.base + 16 * a.slots * a.slotw + 2 * pos) ctl (putScratch (a.base + 16 * pos) data x)) s
  raiseCounter lead a.tailk 1 (noteWork lead e.atoll a s)

/-- SPAWN (R113). -/
def execSpawn (gd ga gb : Reg) (n : BitVec 3) (s : State) :=
  let i := isleOfCore s s.turn
  let a := reg s ga
  let b := reg s gb
  done (
    if i.blklen ≤ b.toNat then trapAt causePerm b s
    else if a.toNat % 16 ≠ 0 then trapAt causeAlign a s
    else
      onRes (pilotRecord s a.toNat (16 * n.toNat)) fun toks s =>
        onRes (readBlock s s.turn b.toNat) fun e s =>
          let lead := leadOf i
          match blockAtoll s lead e with
          | none => s
          | some at_ =>
            if at_.slots ≤ (counterOf s lead at_.tailk - counterOf s lead at_.headk).toNat then s
            else
              afterStores s fun s => onRes (touchTail s lead at_) fun _ s =>
                let s := putThread lead e at_ b.toNat n.toNat toks s
                let s := onIsle (myIsle s) (fun i => { i with threads := i.threads + 1 }) s
                writeBack gd (i.threads.setWidth 64) s)

/-- YIELD (R114): with BLKLEN 0, or no turn, it has no effect. DEDUCED: notes/assumptions/39.md. -/
def execYield (s : State) :=
  let n := myIsle s
  done (
    if !isLead s then trapFree causePerm s
    else if (isleOf s n).blklen = 0 ∨ (isleOf s n).turn.isNone then advance s
    else advance (onIsle n (fun i => { stopGraphs .drain i with yielding := true }) s))

/-- PRIO (R115). -/
def execPrio (gd ga : Reg) (s : State) :=
  let n := myIsle s
  let i := isleOf s n
  let v := reg s ga
  done (
    if i.ceil < v.toNat then trapAt causePerm v s
    else writeBack gd (BitVec.ofNat 64 i.prio) (writeDescriptors n (onIsle n (fun i => { i with prio := bits v.toNat 0 6 }) s)))

/-! ### CFGLD, CFGSEL -/

/-- The block scheduler selects and starts the graphs of an isle: it is on, or its last turn has not finished (R106). -/
def schedulerOn (i : Isle) : Bool := i.blklen != 0 || i.turn.isSome

/-- The pilot may load and select graphs: it leads, and the block scheduler is off (R106, R116). -/
def mayConfigure (s : State) : Bool := isLead s && !schedulerOn (isleOf s (myIsle s))

/-- CFGLD (R116). -/
def execCfgld (ga : Reg) (sl : BitVec 2) (s : State) :=
  let n := myIsle s
  let i := isleOf s n
  let a := reg s ga
  done (
    if (pilot s).stage = .cfgldWait then
      if i.loader.isSome then s
      else
        match i.loadFail with
        | some f => trapAt f.1 (BitVec.ofNat 64 f.2) (onIsle n (fun i => { i with loadFail := none }) s)
        | none => advance s
    else if !mayConfigure s then trapFree causePerm s
    else if (mapFind i.slots sl.toNat).any (fun g => g.running) then trapAt causePerm (sl.setWidth 64) s
    else if a.toNat % 32 ≠ 0 then trapAt causeAlign a s
    else onPilot s.turn (fun p => { p with stage := .cfgldWait }) (beginLoad n sl.toNat a.toNat (some s.turn) s))

/-- Selects a slot that passed the identity checks (R117). -/
def chooseSlot (gd : Reg) (n sl : Nat) (g : IsleSlot) (s : State) : State :=
  if coresBusy s n g.cores then trapAt causePerm (BitVec.ofNat 64 sl) s
  else onRes (prepareSelect s.turn sl g s) fun ps s => writeBack gd (BitVec.ofNat 64 sl) (selectSlot n sl g ps s)

/-- CFGSEL of a slot by number (R117). -/
def execCfgsel (gd ga : Reg) (sl : BitVec 2) (s : State) :=
  let n := myIsle s
  let id := reg s ga
  done (
    if !mayConfigure s then trapFree causePerm s
    else
      match mapFind (isleOf s n).slots sl.toNat with
      | none => trapAt causeCfgbad (sl.setWidth 64) s
      | some g => if id ≠ 0 ∧ id.toNat ≠ g.cfgid then trapAt causeCfgid id s else chooseSlot gd n sl.toNat g s)

/-- CFGSEL.ID (R117). -/
def execCfgselId (gd ga : Reg) (s : State) :=
  let n := myIsle s
  let i := isleOf s n
  let id := if reg s ga ≠ 0 then reg s ga else BitVec.ofNat 64 i.lrec.cfgid
  done (
    if !mayConfigure s then trapFree causePerm s
    else
      match slotOfId i id.toNat with
      | none => trapAt causeCfgid id s
      | some sl => chooseSlot gd n sl (mapGet {} i.slots sl) s)

/-! ### GO, STOPG, SBAR -/

/-- The wait of GO.WAIT, STOPG or SBAR is over: it acquires and completes (R118, R120). -/
def endWait (s : State) : State := advance (acquire s.turn s)

/-- GO and GO.WAIT (R118). -/
def goInstr (wait : Bool) (ga : Reg) (k : Option Ctr) (s : State) : State :=
  let n := myIsle s
  let v := reg s ga
  match (pilot s).stage with
  | .goWait sl => if (mapFind (isleOf s n).slots sl).any (fun g => g.running) then s else endWait s
  | .waitDone => endWait s
  | _ =>
    if schedulerOn (isleOf s n) then trapFree causePerm s
    else
      match (if v.toNat ≤ 3 then mapFind (isleOf s n).slots v.toNat else none) with
      | none => trapAt causePerm v s
      | some g =>
        if !g.selected ∨ g.running then trapAt causePerm v s
        else
          match g.cores.findSome? (fun c => goRefused (coreOf s c)) with
          | some u => trapAt causeCfgbad (BitVec.ofNat 64 u) s
          | none =>
            afterRelease s fun s =>
              let s := startGraph n v.toNat g (k.map (fun k => (s.turn, k.toNat))) s
              if wait then onPilot s.turn (fun p => { p with stage := .goWait v.toNat }) s else advance s

def execGo (ga : Reg) (k : Option Ctr) (s : State) := done (goInstr false ga k s)
def execGoWait (ga : Reg) (k : Option Ctr) (s : State) := done (goInstr true ga k s)

/-- A stop is asked of a running slot; the abort form stays. -/
def askStop (form : StopForm) (g : IsleSlot) : IsleSlot :=
  { g with stop := some (if g.stop = some .abort then .abort else form) }

/-- STOPG and STOPG.ABORT (R119); a value above 3 names no slot whose graph runs, and nothing is done.
DEDUCED: notes/assumptions/39.md. -/
def stopInstr (form : StopForm) (ga : Reg) (s : State) : State :=
  let n := myIsle s
  let v := reg s ga
  match (pilot s).stage with
  | .stopWait sl => if (mapFind (isleOf s n).slots sl).any (fun g => g.running) then s else advance s
  | .waitDone => advance s
  | _ =>
    if schedulerOn (isleOf s n) then trapFree causePerm s
    else
      match (if v.toNat ≤ 3 then mapFind (isleOf s n).slots v.toNat else none) with
      | none => advance s
      | some g =>
        if !g.running then advance s
        else
          let s := onIsle n (fun i => { i with slots := mapPut i.slots v.toNat (askStop form g) }) s
          onPilot s.turn (fun p => { p with stage := .stopWait v.toNat }) s

def execStopg (ga : Reg) (s : State) := done (stopInstr .drain ga s)
def execStopgAbort (ga : Reg) (s : State) := done (stopInstr .abort ga s)

/-- The waiting instruction of the pilot of a core completes. -/
def finishWait (c : Nat) (s : State) : State :=
  onCore c (fun k => { k with pilot := { k.pilot.wordDone with pc := k.pilot.pc + 8, stage := .none }
                              evctrs := tallyMap k.evctrs 0 8 0x002 1 }) s

/-- Every waiting pilot of a barrier that completes goes on: it acquires, and one inside a handler finds its wait over. -/
def releasePilot (s : State) (c : Nat) : State :=
  let s := onPilot c (fun p => if p.savedStage = .sbarWait then { p with savedStage := .waitDone } else p) (acquire c s)
  if (coreOf s c).pilot.stage = .sbarWait then finishWait c s else s

/-- All pilots have arrived (R120): the counters named rise, then the barrier ends, or the launch does. -/
def completeBarrier (n : Nat) (s : State) : State :=
  let i := isleOf s n
  let s := i.arrivals.foldl (fun s (c, k) => match k with | some k => raiseCounter c k 1 s | none => s) s
  let s := onIsle n (fun i => { i with arrivals := [], endForm := false }) s
  if i.endForm then beginEnd n 0 s else (isleCores i).foldl releasePilot s

/-- A pilot arrives at the barrier, which completes once every pilot of the isle has (R120). -/
def arriveBarrier (ends : Bool) (k : Option Ctr) (s : State) : State :=
  let n := myIsle s
  let lead := isLead s
  let s := onPilot s.turn (fun p => { p with stage := .sbarWait }) s
  let s := onIsle n (fun i => { i with arrivals := i.arrivals ++ [(s.turn, k.map (·.toNat))]
                                       endForm := if lead then ends else i.endForm }) s
  if (isleCores (isleOf s n)).all (fun c => (isleOf s n).arrivals.any (fun e => e.1 == c)) then completeBarrier n s else s

/-- SBAR and SBAR.END (R120). -/
def barrierInstr (ends : Bool) (k : Option Ctr) (s : State) : State :=
  match (pilot s).stage with
  | .sbarWait => s
  | .waitDone => endWait s
  | _ => afterRelease s (arriveBarrier ends k)

def execSbar (k : Option Ctr) (s : State) := done (barrierInstr false k s)
def execSbarEnd (k : Option Ctr) (s : State) := done (barrierInstr true k s)

/-! ### The end of a graph (R118) -/

/-- Every input channel of a node that has a route has ended. -/
def mpEnded (s : State) (c slot : Nat) : Bool :=
  (upTo 4).all (fun ch => !fed s c (64 + slot) ch || (let k := mapGet {} (mapGet {} (coreOf s c).mps slot).chans ch; k.ended && !k.abortDue))

/-- The MT of the core feeds the HA. -/
def mtFeedsHa (x : Core) : Bool := hasOp x 14 && opField x 14 0 0 2 == 1

/-- Every input of the HA has ended: a routed i0, and an MT that feeds it (R201, R227). -/
def haEnded (s : State) (c : Nat) : Bool :=
  let x := coreOf s c
  (x.haU.ended || !fed s c 76 0) && (x.haU.mtEnded || !mtFeedsHa x)

/-- Every node of a core has passed its level-7 MARK. -/
def nodesEnded (s : State) (c : Nat) : Bool :=
  let x := coreOf s c
  let cfg := selCfg x
  let op := fun (k : Nat) (b : Bool) => !hasOp x k || b
  cfg.elems.all (fun (e, _) => (elemOf x e).ended) &&
  cfg.ags.all (fun (k, _) => !isInnermost cfg k || (mapGet {} x.ags k).ended) &&
  op 8 (mpEnded s c 8) && op 9 (mpEnded s c 9) &&
  op 10 (mapGet {} x.mjs 10).ended && op 11 (mapGet {} x.mjs 11).ended &&
  op 12 (haEnded s c) && op 13 (x.hsU.ended || !fed s c 77 0) &&
  op 14 x.mt.ended && op 15 (mapGet {} x.rds 15).ended && op 16 (mapGet {} x.rds 16).ended && op 17 x.sk.ended && op 18 x.sg.ended &&
  (upTo 4).all (fun i => op (19 + i) (mapGet {} x.wcs (19 + i)).ended) && (upTo 8).all (fun i => op (23 + i) (mapGet {} x.sms (23 + i)).ended) &&
  op 31 x.ex.ended

/-- No token of the core is on its way to a channel; those that a strait refuses after it ended their stream do not count (R133).
DEDUCED: notes/assumptions/38.md. -/
def wiresQuiet (x : Core) : Bool := x.wires.all (fun (i, q) => q.isEmpty || x.severed.contains i)

/-- Every channel is empty and every owed write of a core's units has been performed, on other chips too. -/
def coreQuiet (s : State) (c : Nat) : Bool :=
  let x := coreOf s c
  farSettled s (.fabric c) && x.chans.isEmpty && x.exits.isEmpty && wiresQuiet x && x.heldMarks.isEmpty &&
  x.mps.all (fun (_, m) => m.chans.all (fun (_, k) => k.stalled.isNone && k.diverted.isEmpty && k.heldFull.isNone)) &&
  x.haU.outq.isEmpty && x.haU.openTile.isNone && x.haU.tab.idle && x.haU.tab.blocked.isNone && x.hsU.tab.idle && x.hsU.tab.blocked.isNone &&
  x.mt.firing.isNone && x.mt.jobs.isEmpty && x.ex.packing.isEmpty && x.ex.ready.isEmpty && !s.ms.exSlots.any (fun e => e.srcCore == c) && x.barQueue.isEmpty

/-- The pilot of a core finds that a graph it waits for has ended. -/
def wakeWaiter (slot : Nat) (s : State) (c : Nat) : State :=
  let p := (coreOf s c).pilot
  let mine := fun (st : Stage) => st == .goWait slot || st == .stopWait slot
  if mine p.stage then
    finishWait c (if p.stage = .goWait slot then acquire c s else s)
  else if mine p.savedStage then onPilot c (fun p => { p with savedStage := .waitDone }) s
  else s

/-- Writes back the windows of the cores that the graph's MU frames defined (R264): true once all are. -/
def writeBackMu (slot : Nat) : List Nat → State → Bool × State
  | [], s => (true, s)
  | c :: cs, s =>
    let mine := fun (k : Nat) => (mapFind (coreOf s c).stashes k).any (fun w => w.mu == some slot)
    if windowsParked (coreOf s c) (fun w => w.mu == some slot) then (false, s)
    else
      match writeBackStash c mine s with
      | .ok _ s =>
        let r := writeBackMu slot cs s
        (r.1 && farSettled r.2 (.fabric c), r.2)
      | .fault cause page s => (false, parkWindows c (fun w => w.mu == some slot) cause page s)
      | .wait s => (false, s)

/-- What a graph's end clears on a core, whose event latch it sets (R160). A refused stream whose tokens wait at a strait waits on: they
are never dropped (R133). DESIGN CHOICE: notes/assumptions/38.md. -/
def endOnCore (clk : Nat) (x : Core) : Core :=
  let x := latchAt clk x
  { x with cutRoutes := [], severed := x.severed.filter (fun i => !(wireQ x i).isEmpty), heldMarks := [], watch := []
           haU := { x.haU with hold := false, await := false }, quiesce := { x.quiesce with counting := false } }

/-- The graph of a slot ends (R118): its flags gather, its counter rises, and the waits for it end. A restore that waited for
the last graph goes on (R359). -/
def finishGraph (n slot : Nat) (g : IsleSlot) (s : State) : State :=
  let s := g.cores.foldl (fun s c => onCore c (endOnCore s.cycle) s) s
  let s := gatherFlags n s
  let s := onIsle n (fun i => { i with slots := mapPut i.slots slot { g with running := false, stop := none, endK := none } }) s
  let s := match g.endK with | some (c, k) => raiseCounter c k 1 s | none => s
  let s := (isleCores (isleOf s n)).foldl (wakeWaiter slot) s
  let i := isleOf s n
  if i.resume.any (fun r => r.next == 0) && !i.slots.any (fun (_, g) => g.running) && i.loader.isNone then resumeStep refillTables n s else s

/-- A graph whose nodes have all ended, with nothing queued or owed, ends (R118). -/
def graphEnd (n slot : Nat) (s : State) : State :=
  match mapFind (isleOf s n).slots slot with
  | none => s
  | some g =>
    if !g.running ∨ (isleOf s n).frozen ∨ !g.cores.all (fun c => nodesEnded s c && coreQuiet s c) then s
    else
      match writeBackMu slot g.cores s with
      | (true, s) => finishGraph n slot g s
      | (false, s) => s

def execGraphEnd (isle slot : Nat) (s : State) := done (graphEnd isle slot s)

/-! ### The block scheduler (R106 to R108) -/

/-- Reads the first entries of the block table. -/
def readBlocks (c : Nat) : Nat → Nat → State → Res (List BlockEntry)
  | 0, _, s => .ok [] s
  | k + 1, b, s => (readBlock s c b).andThen fun e s => (readBlocks c k (b + 1) s).andThen fun es s => .ok (e :: es) s

/-- A block and its waiting count. -/
def waitingAt (s : State) (lead : Nat) (e : BlockEntry) : Nat :=
  match blockAtoll s lead e with
  | some a => (counterOf s lead a.tailk - counterOf s lead a.headk).toNat
  | none => 0

/-- T0 of a block: the later of the clk since which threads wait and the end of its last turn. -/
def blockT0 (s : State) (n lead b : Nat) (e : BlockEntry) : Nat :=
  max (mapGet {} (isleOf s n).blocks b).t0 (mapGet 0 (coreOf s lead).workSince e.atoll)

/-- The choice among the candidates (R108): the largest P once one has reached 32, else the largest Score; ties to the lower
index. -/
def chooseBlock (s : State) (n lead : Nat) (es : List BlockEntry) : Option Nat :=
  let cand := es.zipIdx.filter (fun (e, _) => waitingAt s lead e != 0)
  let p := fun (b : Nat) => (mapGet {} (isleOf s n).blocks b).p
  let aged := cand.any (fun (_, b) => decide (32 ≤ p b))
  let value := fun (e : BlockEntry) (b : Nat) =>
    if aged then p b else waitingAt s lead e * 2 ^ e.bonus + (s.cycle - blockT0 s n lead b e) / 2 ^ 14
  (cand.foldl (fun best (e, b) => match best with
    | none => some (value e b, b)
    | some (v, _) => if v < value e b then some (value e b, b) else best) none).map (fun x => x.2)

/-- The priorities after a choice (R108). -/
def ageBlocks (s : State) (lead : Nat) (es : List BlockEntry) (chosen : Nat) (i : Isle) : Isle :=
  { i with blocks := es.zipIdx.foldl (fun m (e, b) =>
      let old := mapGet ({} : Block) m b
      mapPut m b { old with p := if b = chosen ∨ waitingAt s lead e = 0 then 0 else old.p + 1 }) i.blocks }

/-- A failure inside a turn: the lead takes CFGBAD or the cause met, and the turn ends.
DEDUCED: notes/assumptions/30.md. -/
def failTurn (n b cause : Nat) (val : Word) (s : State) : State :=
  let lead := leadOf (isleOf s n)
  if !reportRoom s lead then s
  else
    let s := onIsle n (fun i => { i with turn := none, turnOn := false, yielding := false, loadFail := none
                                         blocks := mapPut i.blocks b { mapGet {} i.blocks b with t0 := s.cycle } }) s
    report lead { code := cause, val := val, source := 9 } s

/-- Begins a turn of a block: its queue's tail is recorded, and its image loads into the slot least recently selected when it is
not resident (R108).
DEDUCED: notes/assumptions/30.md. -/
def beginTurn (n lead : Nat) (es : List BlockEntry) (b : Nat) (s : State) : State :=
  match es[b]? with
  | none => s
  | some e =>
    match blockAtoll s lead e with
    | none => s
    | some a =>
      let s := onIsle n (fun i => { ageBlocks s lead es b i with turn := some (b, counterOf s lead a.tailk), turnOn := false, yielding := false }) s
      let i := isleOf s n
      if (slotOfId i e.cfgid).isSome then s
      else beginLoad n (loadSlot.leastRecent (fun k => !(mapGet {} i.slots k).running) i) e.image none s

/-- The turn of block b goes on: select and start its graph, restart it while threads below Q0 wait, stop it when the head
reaches Q0, and end the turn when it has ended (R108). -/
def runTurn (n lead b : Nat) (q0 : Word) (e : BlockEntry) (s : State) : State :=
  let i := isleOf s n
  let over_ := onIsle n (fun i => { i with turn := none, turnOn := false, yielding := false
                                           blocks := mapPut i.blocks b { mapGet {} i.blocks b with t0 := s.cycle } })
  match slotOfId i e.cfgid with
  | none =>
    if i.yielding then over_ s
    else match i.loader, i.loadFail with
    | some _, _ => s
    | none, some f => failTurn n b f.1 (BitVec.ofNat 64 f.2) s
    | none, none => failTurn n b causeCfgid (BitVec.ofNat 64 e.cfgid) s
  | some sl =>
    let g := mapGet {} i.slots sl
    let served : Bool := match blockAtoll s lead e with | some a => decide ((q0 - counterOf s lead a.headk).toNat = 0) | none => true
    if g.running then
      if served ∧ g.stop.isNone then onIsle n (fun i => { i with slots := mapPut i.slots sl (askStop .drain g) }) s else s
    else if i.yielding ∨ (i.turnOn ∧ served) then over_ s
    else if i.turnOn then startGraph n sl g none s
    else if coresBusy s n g.cores then s
    else
      match prepareSelect lead sl g s with
      | .wait s => s
      | .fault cause v s => failTurn n b cause (BitVec.ofNat 64 v) s
      | .ok ps s =>
        let s := onIsle n (fun i => { i with turnOn := true }) (selectSlot n sl g ps s)
        match g.cores.findSome? (fun c => goRefused (coreOf s c)) with
        | some u => failTurn n b causeCfgbad (BitVec.ofNat 64 u) s
        | none => startGraph n sl (mapGet {} (isleOf s n).slots sl) none s

/-- The block scheduler of an isle makes its next move (R106, R108). -/
def blockSwitch (n : Nat) (s : State) : State :=
  let i := isleOf s n
  let lead := leadOf i
  if i.phase ≠ .running ∨ i.frozen then s
  else
    match i.turn with
    | some (b, q0) =>
      match readBlock s lead b with
      | .ok e s => runTurn n lead b q0 e s
      | .fault cause v s => failTurn n b cause (BitVec.ofNat 64 v) s
      | .wait s => s
    | none =>
      if i.blklen = 0 ∨ i.loader.isSome then s
      else
        match readBlocks lead i.blklen 0 s with
        | .ok es s => match chooseBlock s n lead es with | some b => beginTurn n lead es b s | none => s
        | .fault _ _ s => s
        | .wait s => s

def execBlockSwitch (isle : Nat) (s : State) := done (blockSwitch isle s)

end Sys2Proof.Machine
end

