-- ==== Sys2Proof/Machine/Feed.lean ====
section
/-! DEFINITION. Address-generator chains (R242 to R247, R377) and memory ports (R248 to R256, R311, R341, R347, R348, R350,
R361). -/

namespace Sys2Proof.Machine

/-! ### Chains -/

/-- Level L of a chain of a core. -/
def agState (x : Core) (slot : Nat) : Ag := mapGet {} x.ags slot

def onAg (slot : Nat) (f : Ag → Ag) (x : Core) : Core := { x with ags := mapPut x.ags slot (f (agState x slot)) }

/-- The innermost AG's stream writes: a LINEAR or SCATTER chain with a route into i1 (R245, R246). -/
def writesStream (s : State) (c slot : Nat) : Bool := fed s c (64 + slot) 1

/-- The level is a GATHER or SCATTER. -/
def takesIndex (a : AgCfg) : Bool := a.mode == 1 || a.mode == 2

/-- The counter value of a level; the innermost one of a GATHER or SCATTER takes its index (R243). -/
def levelX (x : Core) (inner : Nat) (idx : Option Int) (slot : Nat) : Int :=
  match idx with
  | some v => if slot = inner then v else (agState x slot).n
  | none => (agState x slot).n

/-- What forming a coordinate gives: the vector, or the level and value of AgOvf (R243). -/
inductive Formed
  | coord (c : List Int)
  | ovf (slot : Nat) (x : Int)
  deriving DecidableEq, Repr

/-- The terms of the levels, innermost first. -/
def addLevels (x : Core) (inner : Nat) (idx : Option Int) : List (Nat × AgCfg) → List Int → Formed
  | [], c => .coord c
  | (k, a) :: rest, c =>
    let v := levelX x inner idx k
    let t := v * a.stride
    if 2 ^ 47 ≤ t.natAbs then .ovf k v else addLevels x inner idx rest (c.set a.dim (c.getD a.dim 0 + a.base + t))

/-- The coordinate vector of an iteration (R243). -/
def formCoord (x : Core) (inner : Nat) (idx : Option Int) (chain : List (Nat × AgCfg)) : Formed :=
  match addLevels x inner idx chain (List.replicate 8 0) with
  | .ovf k v => .ovf k v
  | .coord c =>
    match (upTo 8).find? (fun d => decide (c.getD d 0 < -2 ^ 39) || decide (2 ^ 39 ≤ c.getD d 0)) with
    | none => .coord c
    | some d =>
      match chain.find? (fun (_, a) => a.dim == d) with
      | some (k, _) => .ovf k (levelX x inner idx k)
      | none => .coord c

/-- The chain's counters advance: the core, whether the outermost level wrapped, and the level of the MARK that wraps make
(R244). -/
def advanceLevels : List (Nat × AgCfg) → Option Nat → Core → Core × Bool × Option Nat
  | [], m, x => (x, true, m)
  | (k, a) :: rest, m, x =>
    let n := (agState x k).n + 1
    if n = a.extent then
      let m := if a.marken then some (max a.mlvl (m.getD 0)) else m
      advanceLevels rest m (onAg k (fun g => { g with n := 0 }) x)
    else (onAg k (fun g => { g with n := n }) x, false, m)

/-- The chain has ended: its level-7 MARK has been emitted, and its inputs may owe tokens. -/
def closeChain (owe0 owe1 : Bool) (g : Ag) : Ag := { g with closed := true, owe0 := owe0, owe1 := owe1, ended := !owe0 && !owe1 }

/-- A report of a chain (R342). -/
def agReport (c slot tid cause : Nat) (val : Word) (s : State) : State :=
  report c { code := cause, val := val, source := 2, slot := slot, tid := tid, coord := (agState (coreOf s c) slot).last
             commut := (mapFind (selCfg (coreOf s c)).ags slot).any (·.commut) } s

/-- AgOvf (R243). -/
def agOvf (c inner tid k : Nat) (v : Int) (s : State) : State :=
  if !reportRoom s c then s
  else onCore c (onAg inner (fun g => { g with stopped := true })) (agReport c inner tid causeAgovf (BitVec.ofNat 64 (k % 8 + 8 * wrap 40 v)) s)

/-- The stream form of a fault's TRAPVAL (R341). -/
def streamForm (page tid : Nat) (write : Bool) (ch slot : Nat) : Word :=
  BitVec.ofNat 64 (page % 2 ^ 35 + 2 ^ 35 * (tid % 2 ^ 20) + 2 ^ 55 * ofBool write + 2 ^ 56 * (ch % 4) + 2 ^ 58 * ofBool (slot == 9))

/-- The port and channel that a chain's requests go to. -/
def chainPort (x : Core) (slot : Nat) : Nat × Nat :=
  match (outRoutes x (64 + slot) 0).head? with
  | some (_, r) => (r.dst - 64, r.dch)
  | none => (8, 0)

/-- A poisoned index: the chain stops before the request and its channel ends (R254, R347). -/
def agLost (c slot : Nat) (a : AgCfg) (write : Bool) (s : State) : State :=
  if !reportRoom s c then s
  else
    let x := coreOf s c
    let (sl, ch) := chainPort x slot
    let s := agReport c slot a.tid causeMdpoison (streamForm (agState x slot).issued a.tid write ch sl) s
    moved c (fun x => emitTok (64 + slot) 0 (markTok 7 true false) (onAg slot (fun g => { g with stopped := true, lost := true }) x)) s

/-- What a GATHER or SCATTER reads from an index token: the chip, when it is not this one, and the local part (R246). -/
def indexOf (s : State) (t : Tok) : Option Nat × Int :=
  let chip := bits t.key.toNat 52 12
  (if chip = s.hub.chipid then none else some chip, sext 52 (bits t.key.toNat 0 52))

/-- The token that an iteration emits: a coordinate token, or a request with its write data (R245, R246). -/
def iterTok (a : AgCfg) (slot : Nat) (chain : List (Nat × AgCfg)) (g : Ag) (coord : List Int) (idx data : Option Tok) (chip : Option Nat)
    (empty : Bool) : Tok :=
  if a.token then
    let lane := fun (d : Nat) => wrap 64 (coord.getD d 0)
    let hi := match chain with | _ :: (_, b) :: _ => lane b.dim | _ => 0
    { data := BitVec.ofNat 128 (lane a.dim + 2 ^ 64 * hi), lmask := 15 }
  else
    let d := data.getD {}
    { d with kind := .data, level := 0, abort := false, poison := d.poison || (empty && idx.any (·.poison))
             req := some { tid := a.tid, coord := coord, write := data.isSome, commut := a.commut, chip := chip, slot := slot
                           index := g.issued, empty := empty } }

/-- One iteration of a chain whose inputs are present (R243 to R245): the request or token, the counters, and the MARK. -/
def iterate (c slot : Nat) (a : AgCfg) (chain : List (Nat × AgCfg)) (idx data : Option Tok) (s : State) : State :=
  let x := coreOf s c
  let node := 64 + slot
  let empty := takesIndex a && idx.any (fun t => !(t.has 0 && t.has 1))
  let at_ := match idx with | some t => indexOf s t | none => (none, 0)
  match formCoord x slot (if idx.isSome then some (if empty then 0 else at_.2) else none) chain with
  | .ovf k v => agOvf c slot a.tid k v s
  | .coord coord =>
    let t := iterTok a slot chain (agState x slot) coord idx data (if empty then none else at_.1) empty
    let (x', wrapped, mark) := advanceLevels chain none x
    let marks := if wrapped then [markTok 7 false false] else match mark with | some l => [markTok l false false] | none => []
    if !exitRoom x node 0 (1 + marks.length) then s
    else
      let x' := if idx.isSome then popChan node 0 x' else x'
      let x' := if data.isSome then popChan node 1 x' else x'
      let x' := (t :: marks).foldl (fun x t => emitTok node 0 t x) x'
      let x' := onAg slot (fun g => { g with issued := g.issued + 1, last := coord }) x'
      moved c (fun _ => if wrapped then onAg slot (closeChain (takesIndex a) (writesStream s c slot)) x' else x') s

/-- The MARK that a GATHER or SCATTER meets on i0 is forwarded in request order; level 7 ends the chain (R246). -/
def forwardMark (c slot : Nat) (t : Tok) (s : State) : State :=
  let x := coreOf s c
  if !exitRoom x (64 + slot) 0 1 then s
  else
    let x := emitTok (64 + slot) 0 t (popChan (64 + slot) 0 x)
    moved c (fun _ => if t.ends then onAg slot (closeChain false (writesStream s c slot)) x else x) s

/-- The DATA token that a write stream's next request takes from i1 (R377). -/
def writeData (s : State) (c slot : Nat) : Option (Option Tok) :=
  if writesStream s c slot then
    match headTok (coreOf s c) (64 + slot) 1 with
    | some t => if t.kind = .data then some (some t) else none
    | none => none
  else some none

/-- A stop reaches a chain (R119, R243, R246, R361): a LINEAR or RING chain, or one stopped before a request in the ABORT
form, closes with a level-7 MARK. In the ABORT form a token that has not left never does. -/
def stopChain (c slot : Nat) (a : AgCfg) (form : StopForm) (s : State) : State :=
  let x := coreOf s c
  let g := agState x slot
  if g.stopped ∧ form ≠ .abort then s
  else if form ≠ .abort ∧ !exitRoom x (64 + slot) 0 1 then s
  else
    let w := writesStream s c slot
    let x := if g.lost then x
      else emitTok (64 + slot) 0 (markTok 7 (form == .abort) false) { x with exits := mapDel x.exits (chanKey (64 + slot) 0) }
    moved c (fun _ => onAg slot (fun g => { closeChain (takesIndex a) w g with ringPos := 0 }) x) s

/-- STOPG.ABORT finds tokens of a chain that has ended and that have not left (R361). -/
def abortExits (c slot : Nat) (s : State) : State :=
  moved c (fun x => { x with exits := mapPut x.exits (chanKey (64 + slot) 0) [markTok 7 true false] }) s

/-- An iteration of a running chain (R243, R246). -/
def nextIteration (c slot : Nat) (a : AgCfg) (s : State) : State :=
  let chain := chainOf (selCfg (coreOf s c)) slot
  if takesIndex a then
    match headTok (coreOf s c) (64 + slot) 0 with
    | none => s
    | some t =>
      if t.kind = .mark then forwardMark c slot t s
      else if t.poison ∧ t.has 0 ∧ t.has 1 then agLost c slot a (writesStream s c slot) s
      else match writeData s c slot with | some d => iterate c slot a chain (some t) d s | none => s
  else match writeData s c slot with | some d => iterate c slot a chain none d s | none => s

/-- AG_ITERATION (R243 to R246). -/
def agIteration (c slot : Nat) (s : State) : State :=
  let x := coreOf s c
  match mapFind (selCfg x).ags slot with
  | none => s
  | some a =>
    let g := agState x slot
    if !isInnermost (selCfg x) slot ∨ a.mode = 3 ∨ !tokensOn s c ∨ unitHeld x 2 slot then s
    else if g.closed then
      if stopOf s c = some .abort ∧ (exitQ x (64 + slot) 0).any (fun t => !t.abort) then abortExits c slot s
      else
      match headTok x (64 + slot) 0 with
      | some t =>
        if g.owe0 then
          moved c (fun _ => onAg slot (fun g => if t.ends then { g with owe0 := false, ended := !g.owe1 } else g) (popChan (64 + slot) 0 x)) s
        else s
      | none => s
    else
      match stopOf s c with
      | some form => if takesIndex a ∧ !g.stopped then nextIteration c slot a s else stopChain c slot a form s
      | none => if g.stopped ∨ !sourcesOn s c then s else nextIteration c slot a s

def execAgIteration (core slot : Nat) (s : State) := done (agIteration core slot s)

/-- AG_WRITE_STREAM_TOKEN: MARKs of i1, and what its chain's end leaves there (R377).
DEDUCED: notes/assumptions/50.md. -/
def agWriteToken (c slot : Nat) (s : State) : State :=
  let x := coreOf s c
  let g := agState x slot
  if !tokensOn s c ∨ !isInnermost (selCfg x) slot ∨ !writesStream s c slot then s
  else
    match headTok x (64 + slot) 1 with
    | none => s
    | some t =>
      let x := popChan (64 + slot) 1 x
      if t.ends then
        if g.closed ∧ g.owe1 then moved c (fun _ => onAg slot (fun g => { g with owe1 := false, ended := !g.owe0 }) x) s else s
      else if t.kind = .mark then moved c (fun _ => x) s
      else if g.closed ∧ g.owe1 ∧ (stopOf s c).isSome then moved c (fun _ => x) s
      else s

def execAgWriteStreamToken (core slot : Nat) (s : State) := done (agWriteToken core slot s)

/-! ### RING levels (R247) -/

/-- The token at a position of an atoll; lost bytes of it set POISON (R247, R347). -/
def atollTok (x : Core) (a : AtollCfg) (pos : Nat) : Tok :=
  let d := a.base + 16 * pos
  let k := a.base + 16 * a.slots * a.slotw + 2 * pos
  let t := tokOf (BitVec.ofNat 128 (memNat x.scratch d 16)) (memNat x.scratch k 2 % 2 ^ 12)
  { t with poison := t.poison || scratchBad x d 16 || scratchBad x k 2 }

/-- The head counter is less than the tail counter as UINT64, and below the Q0 of the turn when the atoll is the queue of the block (R108). -/
def ringHas (s : State) (c n : Nat) (a : AtollCfg) : Bool :=
  let i := isleOfCore s c
  let head := counterOf s c a.headk
  let below : Bool := match i.turn with
    | some (b, q0) =>
      if c = leadOf i then match readBlock s c b with | .ok e _ => e.atoll != n || decide ((q0 - head).toNat ≠ 0) | _ => true else true
    | none => true
  decide (head.toNat < (counterOf s c a.tailk).toNat) && below

/-- The first position of a slot from `pos` on whose token is no empty DATA token (R142). -/
def nextFull (x : Core) (a : AtollCfg) (base : Nat) (pos : Nat) : Option (Nat × Tok) :=
  ((upTo a.slotw).filter (fun i => decide (pos ≤ i))).findSome? (fun i =>
    let t := atollTok x a (base + i)
    if t.kind = .data ∧ t.lmask = 0 then none else some (i, t))

/-- The slot at the head of an atoll is freed (R247). -/
def ringFree (c slot : Nat) (at_ : AtollCfg) (s : State) : State :=
  raiseCounter c at_.headk 1 (onCore c (onAg slot (fun g => { g with ringPos := 0 })) s)

/-- RING_SLOT_READ: the next token of the slot at the head, once the last has left; the slot is freed when its last token has left
(R247). -/
def ringRead (c slot : Nat) (s : State) : State :=
  let x := coreOf s c
  match mapFind (selCfg x).ags slot, (mapFind (selCfg x).ags slot).bind (fun a => atollOf x a.atoll) with
  | some a, some at_ =>
    let g := agState x slot
    let left := !routed x (64 + slot) 0 || (exitQ x (64 + slot) 0).isEmpty
    if a.mode ≠ 3 ∨ !tokensOn s c ∨ g.closed then s
    else if left ∧ at_.slotw < g.ringPos then onCore c (onAg slot (closeChain false false)) (ringFree c slot at_ s)
    else if left ∧ g.ringPos = at_.slotw then ringFree c slot at_ s
    else
      match stopOf s c with
      | some form => stopChain c slot a form s
      | none =>
          if !left ∨ !sourcesOn s c ∨ !ringHas s c a.atoll at_ then s
          else
            let base := (counterOf s c at_.headk).toNat % at_.slots * at_.slotw
            let (ok, s) := fabricTouch c (at_.base + 16 * base) (16 * at_.slotw) s
            let (ok', s) := fabricTouch c (at_.base + 16 * at_.slots * at_.slotw + 2 * base) (2 * at_.slotw) s
            if !ok ∨ !ok' then s
            else
              let s := acquireFabric c s
              match nextFull (coreOf s c) at_ base g.ringPos with
              | none => ringFree c slot at_ s
              | some (i, t) =>
                let next := if t.ends then at_.slotw + 1 else i + 1
                onCore c (onAg slot (fun g => { g with ringPos := next })) (moved c (fun x => emitTok (64 + slot) 0 t x) s)
  | _, _ => s

def execRingSlotRead (core slot : Nat) (s : State) := done (ringRead core slot s)

/-! ### Memory ports: the elements of a request (R249, R250) -/

def mpOf (x : Core) (slot : Nat) : Mp := mapGet {} x.mps slot

def mpChan (x : Core) (slot ch : Nat) : MpChan := mapGet {} (mpOf x slot).chans ch

def onChan (slot ch : Nat) (f : MpChan → MpChan) (x : Core) : Core :=
  let m := mpOf x slot
  { x with mps := mapPut x.mps slot { m with chans := mapPut m.chans ch (f (mapGet {} m.chans ch)) } }

/-- SIZE of a port in bytes. -/
def mpSize (x : Core) (slot : Nat) : Nat := 4 * 2 ^ opField x slot 0 0 2

/-- Elements of a request: SIZE × 8 / w, and one where an element is wider than SIZE (notes/assumptions/31.md). -/
def reqCount (size w : Nat) : Nat := max 1 (size * 8 / w)

/-- The elements of a request under the tensor's policy. DESIGN CHOICE: notes/assumptions/31.md. -/
def reqElts (t : TensorRec) (size : Nat) (coord : List Int) : List Elt :=
  (upTo (reqCount size t.width)).map (fun (i : Nat) => eltOf t t.oob (coord.set 0 (coord.getD 0 0 + Int.ofNat i)))

/-- The place of the first element that lies in memory. -/
def firstSpot (es : List Elt) : Option Spot := es.findSome? (fun e => match e with | .at_ p => some p | _ => none)

/-- A request with an element outside under FAULT. -/
def anyOutside (es : List Elt) : Bool := es.any (fun e => match e with | .outside => true | _ => false)

/-- PAGE of R341 for OOB: all ones. -/
def pageNone : Nat := 2 ^ 35 - 1

/-- LMASK of a read reply. -/
def sizeMask (size : Nat) : BitVec 4 := if size = 4 then 1 else if size = 8 then 3 else 15

/-- The data of a read: each element from its place in the window of SIZE bytes. -/
def gatherRead (w size base : Nat) (b : List Byte) (es : List Elt) : Quad :=
  let part := min w (8 * size)
  BitVec.ofNat 128 (es.zipIdx.foldl (fun n (e, i) =>
    match e with
    | .at_ p => n + bits (ofBytes (b.drop (p.off - base))) (if p.high then 4 else 0) part * 2 ^ (part * i)
    | _ => n) 0)

/-- The bytes of a write: each element's bytes under the lanes of LMASK, by offset in the page. -/
def gatherWrite (w size : Nat) (d : Tok) (es : List Elt) : Gather :=
  let part := min w (8 * size)
  es.zipIdx.foldl (fun m (e, i) =>
    match e with
    | .at_ p =>
      if w = 4 then (if d.has (i / 8) then gatherElt 4 p.off p.high (bits d.data.toNat (4 * i) 4) d.poison m else m)
      else (upTo (part / 8)).foldl (fun (m : Gather) j =>
        let o := part / 8 * i + j
        if d.has (o / 4) then mapPut m (p.off + j) (bits d.data.toNat (8 * o) 8, 255, d.poison) else m) m
    | _ => m) ([] : Gather)

/-! ### Translation in a port (R252, R253, R256) -/

/-- The cached entry of a page. -/
def cachedPte (x : Core) (slot : Nat) (t : TensorRec) (page : Nat) : Option TcEntry :=
  (mpOf x slot).tcache.find? (fun e => e.ptb == t.ptb && e.page == page && e.tid == t.tid)

/-- The place, in the order they parked, of the request that a replay has reached (R255, R350). -/
def replayAt (k : MpChan) : Nat := k.diverted.length + ofBool k.stalled.isSome + ofBool k.heldFull.isSome - k.replay

/-- That request: a diverted one, or last the stalled or held one. -/
def underReplay (k : MpChan) : Option MpReq := (k.diverted[replayAt k]?).or (k.stalled.or k.heldFull)

/-- The request that a channel works on next: a replay, or its head. -/
def nextReq (x : Core) (slot ch : Nat) : Option (Tok × Req) :=
  let k := mpChan x slot ch
  let t : Option Tok :=
    if 0 < k.replay then (underReplay k).map (·.tok)
    else if k.dead ∨ k.stalled.isSome ∨ k.heldFull.isSome then none else headTok x (64 + slot) ch
  t.bind (fun t => t.req.map (fun r => (t, r)))

/-- The page that the next request needs. -/
def pageOf (x : Core) (slot ch : Nat) : Option (TensorRec × Nat) :=
  (nextReq x slot ch).bind (fun (_, r) =>
    let t := keptTensor x r.tid
    (firstSpot (reqElts t (mpSize x slot) r.coord)).map (fun p => (t, p.page)))

/-- A port keeps an entry; it holds 256, and the oldest goes (notes/assumptions/31.md). -/
def keepPte (slot : Nat) (t : TensorRec) (page : Nat) (e : Pte) (x : Core) : Core :=
  let m := mpOf x slot
  let old := if 256 ≤ m.tcache.length then m.tcache.drop 1 else m.tcache
  { x with mps := mapPut x.mps slot { m with tcache := old ++ [{ ptb := t.ptb, page := page, tid := t.tid, pte := e, count := 0, counting := true }] } }

/-- An address lies in a stack whose readiness bit is clear (R91). -/
def closedStack (s : State) (pa : Nat) : Bool := placeOf pa == .hbm && !bit s.host.readymap.toNat (20 + pa / Config.stackBytes)

/-- The next request of a channel waits for readiness (R91, R128): of a table that its walk reads, of its page, or of the port that leads
to the chip of either. -/
def requestWaits (s : State) (c slot ch : Nat) (r : Req) : Bool :=
  match r.chip with
  | some chip => wayTo s chip == .later
  | none =>
    (pageOf (coreOf s c) slot ch).any (fun (t, page) =>
      match cachedPte (coreOf s c) slot t page with
      | some e => if e.pte.home = s.hub.chipid then closedStack s (65536 * e.pte.ppn) else wayTo s e.pte.home == .later
      | none => (walkAddrs s (some (dieOfCore c)) t.ptb page).any (closedStack s))

/-- TABLE_WALK: the walk that the next request of a channel misses (R253). -/
def tableWalk (c slot ch : Nat) (s : State) : State :=
  let x := coreOf s c
  match pageOf x slot ch with
  | none => s
  | some (t, page) =>
    if !tokensOn s c ∨ (cachedPte x slot t page).isSome ∨ (mpChan x slot ch).walked.isSome then s
    else
      let r := walk s (some (dieOfCore c)) t.page2m t.ptb page
      let w := s
      let s := walkReads (some (dieOfCore c)) t.ptb page s
      match r with
      | .ok e => onCore c (keepPte slot t page e) (tallyCore c 0x009 1 s)
      | .error .clear => onCore c (onChan slot ch (fun k => { k with walked := some causePagefault })) (tallyCore c 0x009 1 s)
      | .error .lost => onCore c (onChan slot ch (fun k => { k with walked := some causeMdpoison })) (tallyCore c 0x009 1 s)
      | .error .wait => w

def execTableWalk (core slot ch : Nat) (s : State) := done (tableWalk core slot ch s)

/-- Sets QUEUED in an entry at its home slice, as one atomic: whether it was clear; none while the slice cannot perform it
(R256). -/
def setQueued (c pa : Nat) (s : State) : Option (Bool × State) :=
  match walkRead s (some (dieOfCore c)) (pa + 4) 4 with
  | .ok v =>
    match writeTarget s (some (.fabric c)) { pa := pa + 4, cache := 0, key := 0, home := s.hub.chipid } ((toBytes 4 (v ||| 2 ^ 16)).map some) false with
    | .ok _ s => some (!bit v 16, s)
    | _ => none
  | .error _ => none

/-- A notice is dropped (R256). -/
def dropNotice (c slot : Nat) (s : State) : State :=
  let x := coreOf s c
  raiseIf (opField x slot 5 6 1 == 1) c (opField x slot 5 0 6) 1 s

/-- The notice of a page (R256). -/
def noticeBytes (c : Nat) (e : TcEntry) (bank : Bool) : List Byte :=
  toBytes 4 (e.tid + 2 ^ 20 * ofBool bank) ++ toBytes 4 c ++ toBytes 8 e.page

/-- The count of an entry reached its threshold: the notice is posted or dropped, and the count stops, or starts again after a drop.
Nothing here faults or stalls a stream: while the entry or the queue cannot be written, the next request that uses the
entry tries again (R256). -/
def queuePage (c slot : Nat) (e : TcEntry) (bank : Bool) (s : State) : TcEntry × State :=
  let x := coreOf s c
  let tail := counterOf s c (opField x slot 2 6 6)
  let head := counterOf s c (opField x slot 2 0 6)
  let slots := opField x slot 2 13 14
  if slots ≤ (tail - head).toNat then ({ e with count := 0 }, dropNotice c slot s)
  else
    let va := opPar x slot 3 + 2 ^ 32 * opPar x slot 4 + 16 * (tail.toNat % slots)
    let ready := match probeFlatGo (viewOf s c) .write (some (.fabric c)) 2 va 16 s with | .wait _ => false | _ => true
    match if ready then setQueued c e.pte.addr s else none with
    | none => (e, s)
    | some (false, s) => ({ e with counting := false }, s)
    | some (true, s) =>
      match writeFlat s (some (.fabric c)) (viewOf s c) va ((noticeBytes c e bank).map some) false with
      | .ok _ s => ({ e with counting := false }, raiseCounter c (opField x slot 2 6 6) 1 s)
      | _ => ({ e with count := 0 }, dropNotice c slot s)

/-- CountAccess (R256). -/
def countAccess (c slot : Nat) (t : TensorRec) (page : Nat) (s : State) : State :=
  match cachedPte (coreOf s c) slot t page with
  | none => s
  | some e =>
    if !e.counting then s
    else
      let e' := { e with count := e.count + 1 }
      let (e', s) := if e.pte.accthr ≠ 0 ∧ 2 ^ (e.pte.accthr + 5) ≤ e'.count ∧ opField (coreOf s c) slot 2 12 1 = 1 then queuePage c slot e' t.bank s
        else (e', s)
      let put := fun (m : Mp) => { m with tcache := m.tcache.map (fun q => if q.ptb = e.ptb ∧ q.page = page ∧ q.tid = t.tid then e' else q) }
      onCore c (fun x => { x with mps := mapPut x.mps slot (put (mpOf x slot)) }) s

/-- Translate of a port (R252) but for the count: the cached entry, or what its walk found; a walk still to come is a wait. -/
def mpTranslate (s : State) (c slot ch : Nat) (t : TensorRec) (page : Nat) (acc : Access) : Res Target :=
  match cachedPte (coreOf s c) slot t page with
  | some e =>
    match checkPte e.pte acc (viewOf s c).ctx ((slotOf s c).map (·.cfgid)) 0 with
    | .error cause => .fault cause page s
    | .ok tg => .ok { tg with page := page } s
  | none =>
    match (mpChan (coreOf s c) slot ch).walked with
    | some cause => .fault cause page s
    | none => .wait s

/-! ### Performing a request -/

/-- The reply of a read. -/
def readReply (size : Nat) (d : Quad) (bad : Bool) (scale : Bool) : Tok :=
  { data := d, kind := if scale then .scale else .data, poison := bad, lmask := sizeMask size }

/-- 16 bytes at a physical address are the scale token image of a group of an enabled range in operand form (R311). -/
def scaleImage (s : State) (pa size : Nat) : Bool :=
  match rangeAt s.ms pa with
  | some r => size == 16 && !r.enc && (pa - r.base) % (16 + r.codeBytes) == 0 && decide (pa - r.base + 16 ≤ r.view)
  | none => false

/-- What a read finds: its bytes, whether they carry poison or are a scale token image, and the WTS of their line. -/
structure Found where
  bytes : List Byte
  bad : Bool
  scale : Bool := false
  wts : Word := 0
  deriving DecidableEq, Repr

/-- A read that another chip performs for a port; one that fails there comes back with POISON (R252). -/
def farFound (s : State) (c chip : Nat) (p : FarPlace) (page n : Nat) (origin : Word := 0) : Res Found :=
  (farAsk s (some (.fabric c)) 0 { chip := chip, ctx := (viewOf s c).ctx, body := .read p n, origin := origin }).andThen fun b s =>
    (answerBytes n page b s).andThen fun r s => .ok { bytes := r.1, bad := r.2.1, scale := r.2.2 } s

/-- A read for a port. Its reply carries the WTS of the line, by which it raises the clock of the core that consumes it (R285). -/
def portRead (s : State) (c : Nat) (tg : Target) (n : Nat) : Res Found :=
  if tg.home ≠ s.hub.chipid ∧ ¬ specialTarget tg then farFound s c tg.home tg.far tg.page n
  else
    let here := placeOf tg.pa == .hbm
    (readTarget s (some (.fabric c)) tg n).andThen fun (b, bad) s =>
      .ok { bytes := b, bad := bad, scale := here && scaleImage s tg.pa n, wts := if here then (stampOf s (tg.pa / 64)).wts else 0 } s

/-- The report of a request's fault (R254, R341, R342). -/
def mpReport (s : State) (c slot ch : Nat) (r : Req) (cause page : Nat) : Report :=
  let t := keptTensor (coreOf s c) r.tid
  { code := cause, val := streamForm page r.tid r.write ch slot, source := 1, slot := slot, ch := ch, commut := r.commut, tid := r.tid
    coord := r.coord.take t.rank, page := page, bank := t.bank, write := r.write }

/-- A read of a request whose place is known: a scale token image that carries poison is lost metadata (R311, R347). -/
def performReadReq (c slot ch : Nat) (r : Req) (t : TensorRec) (size : Nat) (es : List Elt) (p : Spot) (tg : Target) (s : State) :
    Res (Option Tok) :=
  let base := p.off / size * size
  (portRead s c { tg with pa := tg.pa + base } size).andThen fun f s =>
    if f.bad ∧ f.scale ∧ tg.home = s.hub.chipid then .fault causeMdpoison p.page s
    else
      let lost := if f.bad then some (c, mpReport s c slot ch r causeMdpoison p.page) else none
      .ok (some { readReply size (gatherRead t.width size base f.bytes es) f.bad f.scale with wts := f.wts, lost := lost }) s

/-- The first byte that a write poisons, when it must be reported (R348). -/
def poisonReport (c slot ch : Nat) (r : Req) (pa : Nat) (s : State) : State :=
  onCore c (onChan slot ch (fun k => { k with poisonReported := true }))
    (report c { mpReport s c slot ch r causePoison 0 with val := BitVec.ofNat 64 pa } s)

/-- Writes gathered bytes into the SIZE bytes at a place, an agent's; elements narrower than a byte merge (R249). -/
def writeGathered (a : Option CacheAgent) (size base : Nat) (t : Target) (m : Gather) (bad : Bool) (s : State)
    (far : Option Author := none) : Res Unit :=
  (if m.any (fun (_, g) => g.2.1 != 255) then readTarget s a t size else .ok ([], false) s).andThen fun (old, _) s =>
    writeTarget s a t ((upTo size).map (fun i => (mapFind m (base + i)).map (mergeByte (old.getD i 0)))) bad far

/-- A write of a request whose place is known (R249, R348). -/
def performWriteReq (c slot ch : Nat) (r : Req) (t : TensorRec) (size : Nat) (d : Tok) (es : List Elt) (p : Spot) (tg : Target) (s : State) :
    Res (Option Tok) :=
  let base := p.off / size * size
  let at_ := { tg with pa := tg.pa + base }
  let m := gatherWrite t.width size d es
  let tell := d.poison && !m.isEmpty && !(mpChan (coreOf s c) slot ch).poisonReported
  if m.isEmpty then .ok none s
  else if tell ∧ !reportRoom s c then .wait s
  else
    (writeGathered (some (.fabric c)) size base at_ m d.poison s).andThen fun _ s =>
      let first := match m with | (o, _) :: _ => tg.pa + o | [] => 0
      .ok none (if tell then poisonReport c slot ch r first s else s)

/-- The bytes of a write under the lanes of its data token (R249). -/
def laneBytes (size : Nat) (d : Tok) : List (Option Byte) :=
  (upTo size).map (fun i => if d.has (i / 4) then some (BitVec.ofNat 8 (bits d.data.toNat (8 * i) 8)) else none)

/-- The number under which a port asks for a write whose poison it must report. -/
def tellEntry (slot ch : Nat) : Nat := 256 + 4 * slot + ch

/-- A request of a chip of another number: that chip gets CTX, TID and the coordinate, and translates with its own tables (R246,
R252). The first poisoned write is reported once that chip has answered with the address of its first byte (R348). -/
def remoteReq (c slot ch chip size : Nat) (d : Tok) (r : Req) (s : State) : Res (Option Tok) :=
  let place : FarPlace := .elem r.tid r.coord
  if r.write then
    let bs := laneBytes size d
    let tell := d.poison && bs.any Option.isSome && !(mpChan (coreOf s c) slot ch).poisonReported
    let m : ChipMsg := { chip := chip, ctx := (viewOf s c).ctx, body := .write place bs d.poison, origin := streamForm 0 r.tid true ch slot }
    if tell ∧ !reportRoom s c then .wait s
    else if tell then
      (farAsk s (some (.fabric c)) (tellEntry slot ch) m).andThen fun b s =>
        match b with
        | .reply a _ _ => .ok none (poisonReport c slot ch r (ofBytes a) s)
        | _ => .ok none s
    else withWay s chip pageNone fun p => .ok none (sendFar p (some (.fabric c)) 0 m s)
  else
    (farFound s c chip place pageNone size (streamForm 0 r.tid false ch slot)).andThen fun f s =>
      .ok (some (readReply size (BitVec.ofNat 128 (ofBytes f.bytes)) f.bad f.scale)) s

/-- One request (R249, R250, R252): its reply, none for a write. -/
def performReq (c slot ch : Nat) (d : Tok) (r : Req) (s : State) : Res (Option Tok) :=
  let x := coreOf s c
  let size := mpSize x slot
  let t := keptTensor x r.tid
  let es := reqElts t size r.coord
  let page := match firstSpot es with | some p => p.page | none => pageNone
  if r.empty then .ok (if r.write then none else some { poison := d.poison }) s
  else
    match r.chip with
    | some chip => remoteReq c slot ch chip size d r s
    | none =>
      if r.coord.getD 0 0 % (reqCount size t.width : Nat) ≠ 0 then .fault causeAlign page s
      else if anyOutside es then .fault causeOob pageNone s
      else
        match firstSpot es with
        | none => .ok (if r.write then none else some (readReply size 0 false false)) s
        | some p =>
          (mpTranslate s c slot ch t p.page (if r.write then .write else .read)).andThen fun tg s =>
            (if r.write then performWriteReq c slot ch r t size d es p tg s else performReadReq c slot ch r t size es p tg s).andThen fun a s =>
              .ok a (countAccess c slot t p.page s)

/-! ### Faults of a channel (R254, R255, R350) -/

/-- Causes that park a request (R254). -/
def parks (cause : Nat) : Bool := cause == causePagefault || cause == causePerm || cause == causeOwner

/-- Whether a request's PERM comes from Translate, and not from the place it names or from a way that is missing (R345). -/
def byTranslate (s : State) (c slot ch : Nat) (r : Req) : Bool :=
  let t := keptTensor (coreOf s c) r.tid
  (firstSpot (reqElts t (mpSize (coreOf s c) slot) r.coord)).any (fun p =>
    match mpTranslate s c slot ch t p.page (if r.write then .write else .read) with | .fault _ _ _ => true | _ => false)

/-- A channel ends (R254): a level-7 MARK with ABORT, and nothing more of it is translated. Requests diverted before the one
that ends it, `older`, still reply, and the MARK waits for them (R255). -/
def endChan (slot ch : Nat) (older : List MpReq) (x : Core) : Core :=
  let x := onChan slot ch (fun k => { k with stalled := none, diverted := older, heldFull := none, replay := 0, dead := true, walked := none
                                             abortDue := !older.isEmpty }) x
  if older.isEmpty then emitTok (64 + slot) ch (markTok 7 true false) x else x

/-- The MARK that has waited for diverted requests leaves (R254, R255). -/
def endDue (slot ch : Nat) (x : Core) : Core := emitTok (64 + slot) ch (markTok 7 true false) (onChan slot ch (fun k => { k with abortDue := false }) x)

/-- Requests that the port has diverted. -/
def divertedCount (x : Core) (slot : Nat) : Nat := (mpOf x slot).chans.foldl (fun n (_, k) => n + k.diverted.length) 0

/-- The address of entry i of the port's spill segment (R255). -/
def segmentAddr (s : State) (c slot i : Nat) : Nat := (isleOfCore s c).spillBase + (2 * c + slot - 8) * 16384 + 32 * i

/-- Four free words: an entry of a spill segment, whose layout R255 leaves open (notes/assumptions/6.md). -/
def freeEntryBytes (s : State) : List Byte × State :=
  (upTo 4).foldl (fun (b, s) _ => let (v, s) := freeVal s; (b ++ toBytes 8 v.toNat, s)) ([], s)

/-- A place for one more diverted request: none, or the cause and TRAPVAL that hold it (R255). -/
def divertRoom (c slot : Nat) (s : State) : Res (Option (Nat × Nat)) :=
  let n := divertedCount (coreOf s c) slot
  if n < 64 then .ok none s
  else if 576 ≤ n then .ok (some (causeSpillfull, segmentAddr s c slot 512)) s
  else
    let a := segmentAddr s c slot (n - 64)
    let (b, s) := freeEntryBytes s
    match writeFlat s (some (.fabric c)) (viewOf s c) a (b.map some) false with
    | .ok _ s => .ok none s
    | .fault _ _ s => .ok (some (causeSpillfault, a)) s
    | .wait s => .wait s

/-- Diverts a request, or holds it in the port with SPILLFULL or SPILLFAULT; `old` is what it was last held with. -/
def divert (c slot ch : Nat) (q : MpReq) (old : Nat × Nat) (pre : State → State) (s : State) : State :=
  match divertRoom c slot s with
  | .ok none s => onCore c (onChan slot ch (fun k => { k with diverted := k.diverted ++ [q], walked := none })) (pre s)
  | .ok (some (cause, a)) s =>
    let hold := onCore c (onChan slot ch (fun k => { k with heldFull := some { q with cause := cause, page := a }, walked := none }))
    if old = (cause, a) then hold (pre s)
    else if faultRoom s c then
      hold (pre (fabricFault c { code := cause, val := BitVec.ofNat 64 a, source := 1, slot := slot, ch := ch, commut := true
                                 page := a / pageSize (viewOf s c).page2m
                                 write := true } true s))
    else s
  | _ => s

/-- A request at the head of a channel faults (R254, R255). One that finds no room to divert is reported, and the hold as well. -/
def mpFault (c slot ch : Nat) (d : Tok) (r : Req) (cause page : Nat) (s : State) : State :=
  let q : MpReq := { tok := d, cause := cause, page := page }
  let pop := moved c (popChan (64 + slot) ch)
  let tr := byTranslate s c slot ch r
  let told := fabricFault c (mpReport s c slot ch r cause page) tr s
  if !faultRoom s c then s
  else if parks cause then
    if r.commut then
      match divertRoom c slot s with
      | .ok none s => onCore c (onChan slot ch (fun k => { k with diverted := k.diverted ++ [q], walked := none }))
          (pop (fabricFault c (mpReport s c slot ch r cause page) tr s))
      | .ok (some _) _ => if faultRoom told c then divert c slot ch q (0, 0) pop told else s
      | _ => s
    else onCore c (onChan slot ch (fun k => { k with stalled := some q, walked := none })) (pop told)
  else pop (onCore c (endChan slot ch (mpChan (coreOf s c) slot ch).diverted) told)

/-! ### Replays (R255, R350) -/

/-- The request under replay leaves the place it was parked in. -/
def unpark (k : MpChan) : MpChan :=
  let i := replayAt k
  let k' := { k with replay := k.replay - 1, walked := none }
  if i < k.diverted.length then { k' with diverted := k.diverted.eraseIdx i }
  else if k.stalled.isSome then { k' with stalled := none }
  else { k' with heldFull := none }

/-- The request under replay parks again, in its place. -/
def repark (q : MpReq) (k : MpChan) : MpChan :=
  let i := replayAt k
  let k' := { k with replay := k.replay - 1, walked := none }
  if i < k.diverted.length then { k' with diverted := k.diverted.set i q } else { k' with stalled := some q }

/-- One replay of a channel (R350): it succeeds, parks again, or ends the channel. -/
def replayReq (c slot ch : Nat) (q : MpReq) (r : Req) (s : State) : State :=
  match performReq c slot ch q.tok r s with
  | .wait s => s
  | .ok t s =>
    moved c (fun x => let x := onChan slot ch unpark x
                      match t with | some t => emitTok (64 + slot) ch t x | none => x) (tallyCore c 0x008 1 s)
  | .fault cause page s =>
    let tell := fabricFault c (mpReport s c slot ch r cause page) (byTranslate s c slot ch r)
    if parks cause then
      let again := onCore c (onChan slot ch (repark { q with cause := cause, page := page }))
      if q.cause = cause ∧ q.page = page then again s else if faultRoom s c then again (tell s) else s
    else if faultRoom s c then
      let k := mpChan (coreOf s c) slot ch
      onCore c (endChan slot ch (k.diverted.take (replayAt k))) (tell s)
    else s

/-- Some channel of a port still owes the replay of a diverted request. -/
def replaysOwed (x : Core) (slot : Nat) : Bool :=
  (mpOf x slot).chans.any (fun (_, k) => decide (0 < k.replay) && decide (replayAt k < k.diverted.length))

/-- The next replay that a wake-up owes: every diverted request of the port in order, then the stalled or held one.
DEDUCED: notes/assumptions/50.md. -/
def replayNext (c slot ch : Nat) (s : State) : State :=
  let k := mpChan (coreOf s c) slot ch
  if k.heldFull.isSome ∧ k.diverted.length ≤ replayAt k then
    match k.heldFull with
    | some q =>
      if replaysOwed (coreOf s c) slot then s else
      divert c slot ch q (q.cause, q.page) (onCore c (onChan slot ch (fun k => { k with replay := 0, heldFull := none }))) s
    | none => s
  else
    match (underReplay k).bind (fun q => q.tok.req.map (fun r => (q, r))) with
    | some (q, r) => replayReq c slot ch q r s
    | none => onCore c (onChan slot ch (fun k => { k with replay := 0 })) s

/-! ### The channel (R249, R255, R361, R377) -/

/-- Forgets the reads that a core's ports have asked of other chips and not taken, and the report that a channel's write waits for. -/
def dropReads (c slot ch : Nat) (s : State) : State :=
  let mine := fun (r : FarReq) => r.agent == some (.fabric c) && r.entry == 0 && (match r.body with | .read _ _ => true | _ => false : Bool)
  let told := fun (r : FarReq) => r.agent == some (.fabric c) && r.entry == tellEntry slot ch
  onMs (fun x => { x with far := (x.far.filter (fun r => !mine r && !(told r && r.answer.isSome))).map (fun r =>
    if told r then { r with entry := 0 } else r) }) s

/-- STOPG.ABORT cancels what waits for service; a MARK held behind diverted requests leaves with ABORT, and what is queued behind a
stalled request is discarded (R119, R350, R361). -/
def cancelChan (c slot ch : Nat) (s : State) : State :=
  let x := coreOf s c
  let held := if (mpChan x slot ch).stalled.isSome then none else (headTok x (64 + slot) ch).filter (fun t => t.kind == .mark && !t.ends)
  let x := match held with | some t => emitTok (64 + slot) ch { t with abort := true } (popChan (64 + slot) ch x) | none => x
  moved c (fun _ => endChan slot ch [] x) (dropReads c slot ch s)

/-- The channel carries a write stream. -/
def writeChan (s : State) (c slot ch : Nat) : Bool :=
  (feeders s c (64 + slot) ch).any (fun (d, r) => decide (64 ≤ r.src) && decide (r.src < 72) && writesStream s d (r.src - 64))

/-- A MARK leaves in request order; on a write stream it arrives at the barrier (R248, R249, R377), once the writes before it to
other chips have been performed. -/
def mpMark (c slot ch : Nat) (t : Tok) (s : State) : State :=
  let x := coreOf s c
  let writes := writeChan s c slot ch
  let hits := opField x slot 0 2 1 == 1 && decide (opField x slot 0 3 3 ≤ t.level) && writes
  let u : BarUpdate := { addr := Config.windowBase + opField x slot 1 0 18, arrivals := 1, sectors := 0, poison := t.poison }
  if writes ∧ !farSettled s (.fabric c) then s
  else
    moved c (fun x =>
      let x := emitTok (64 + slot) ch t (popChan (64 + slot) ch x)
      let x := if t.ends then onChan slot ch (fun k => { k with ended := true }) x else x
      if hits then { x with barQueue := x.barQueue ++ [u] } else x) s

/-- A channel takes its head. -/
def mpHead (c slot ch : Nat) (t : Tok) (s : State) : State :=
  let k := mpChan (coreOf s c) slot ch
  if k.dead then
    moved c (fun x => onChan slot ch (fun k => { k with ended := k.ended || t.ends }) (popChan (64 + slot) ch x)) s
  else if t.kind = .mark then (if k.diverted.isEmpty then mpMark c slot ch t s else s)
  else
    match t.req with
    | none => moved c (fun x => emitTok (64 + slot) ch { poison := t.poison, retract := t.retract } (popChan (64 + slot) ch x)) s
    | some r =>
      match performReq c slot ch t r s with
      | .wait s => s
      | .fault cause page s => mpFault c slot ch t r cause page s
      | .ok a s =>
        moved c (fun x =>
          let x := onChan slot ch (fun k => { k with walked := none }) (popChan (64 + slot) ch x)
          match a with | some a => emitTok (64 + slot) ch a x | none => x) (tallyCore c 0x008 1 s)

/-- MP_REQUEST: the next thing a channel of a port does. -/
def mpRequest (c slot ch : Nat) (s : State) : State :=
  let x := coreOf s c
  let k := mpChan x slot ch
  if !tokensOn s c ∨ !hasOp x slot ∨ !exitRoom x (64 + slot) ch 2 ∨ unitHeld x 1 slot then s
  else if stopOf s c = some .abort ∧ (k.stalled.isSome ∨ !k.diverted.isEmpty ∨ k.heldFull.isSome) then cancelChan c slot ch s
  else if 0 < k.replay then replayNext c slot ch s
  else if k.abortDue ∧ k.diverted.isEmpty then moved c (endDue slot ch) s
  else if k.stalled.isSome ∨ k.heldFull.isSome then s
  else match headTok x (64 + slot) ch with | some t => mpHead c slot ch t s | none => s

def execMpRequest (core slot ch : Nat) (s : State) := done (mpRequest core slot ch s)

end Sys2Proof.Machine
end

