-- ==== Sys2Proof/Machine/Hash.lean ====
section
/-! DEFINITION. The tables that the hash accumulator and the hash set share: home positions (R192), the search and move-in
of R202, and spills with their merges, faults and landings (R208, R209). -/

namespace Sys2Proof.Machine

/-! ### Positions (R192) -/

/-- The home position of a key in a table of s slots. -/
def homeOf (s : Nat) (k : Word) : Nat := (k.toNat * golden % 2 ^ 64 * s) >>> 64

/-- The window of a key. -/
def windowOf (s : Nat) (k : Word) : List Nat := (upTo (min 8 s)).map (fun j => (homeOf s k + j) % s)

/-! ### Entries -/

/-- What a table needs to know of its entries: the key, DEL, and the entry with DEL set. -/
structure EntOps (α : Type) where
  key : α → Word
  dead : α → Bool
  bury : α → α

def haEnt : EntOps HaSlot := { key := fun e => e.key, dead := fun e => e.del, bury := fun e => { e with del := true } }

def hsEnt : EntOps HsSlot := { key := fun e => e.key, dead := fun e => e.del, bury := fun e => { e with del := true } }

/-- The table size S of the latched geometry; 0 when the table is clear. -/
def Table.size {α : Type} (t : Table α) : Nat := match t.geom with | some g => g.s | none => 0

/-- The resident position of a key. -/
def Table.resident {α : Type} (o : EntOps α) (t : Table α) (k : Word) : Option Nat :=
  (windowOf t.size k).find? (fun p => match mapFind t.slots p with | some e => !o.dead e && o.key e == k | none => false)

/-- The first free position of a key's window. -/
def Table.freeAt {α : Type} (o : EntOps α) (t : Table α) (k : Word) : Option Nat :=
  (windowOf t.size k).find? (fun p => match mapFind t.slots p with | some e => o.dead e | none => true)

/-- The run and place in it that hold a key. -/
def Table.inRun {α : Type} (o : EntOps α) (t : Table α) (k : Word) : Option (Nat × Nat × α) :=
  t.runs.zipIdx.findSome? (fun (r, i) =>
    r.entries.zipIdx.findSome? (fun (e, j) => if !o.dead e && o.key e == k then some (i, j, e) else none))

/-- The entry of a key, wherever it lives; nothing moves (R206, R211). -/
def Table.look {α : Type} (o : EntOps α) (t : Table α) (k : Word) : Option α :=
  match t.resident o k with
  | some p => mapFind t.slots p
  | none => (t.inRun o k).map (fun e => e.2.2)

/-- Changes entry j of run i. -/
def Table.putRun {α : Type} (t : Table α) (i j : Nat) (f : α → α) : Table α :=
  { t with runs := t.runs.modify i (fun r => { r with entries := r.entries.modify j f }) }

/-- What the search of R202 finds for a key. -/
inductive Seek (α : Type)
  /-- The key's entry at a resident position, after a move-in when it was in a run. -/
  | at_ (p : Nat) (e : α) (t : Table α)
  /-- No entry, and the position where one may be inserted. -/
  | absent (p : Nat)
  /-- The window holds no free position for the insertion or move-in: a spill comes first. -/
  | full
  /-- No entry, and none is to be inserted. -/
  | none
  deriving Repr

/-- The search of R202; `insert` says that an absent key will be inserted. -/
def Table.seek {α : Type} (o : EntOps α) (t : Table α) (k : Word) (insert : Bool) : Seek α :=
  match (t.resident o k).bind (fun p => (mapFind t.slots p).map (fun e => (p, e))) with
  | some (p, e) => .at_ p e t
  | none =>
    match t.inRun o k, t.freeAt o k with
    | some (i, j, e), some p => .at_ p e { (t.putRun i j o.bury) with slots := mapPut t.slots p e }
    | some _, none => .full
    | none, some p => if insert then .absent p else .none
    | none, none => if insert then .full else .none

/-- Every entry with VALID set and DEL clear: residents in index order, then runs in the order written, each by key. -/
def Table.live {α : Type} (o : EntOps α) (t : Table α) : List α :=
  (t.slots.map (fun e => e.2) ++ t.runs.flatMap (fun r => r.entries)).filter (fun e => !o.dead e)

/-- Inserts an entry into a list sorted by key. -/
def putSorted {α : Type} (key : α → Word) (e : α) : List α → List α
  | [] => [e]
  | x :: xs => if (key e).toNat < (key x).toNat then e :: x :: xs else x :: putSorted key e xs

/-- Entries in ascending key order. -/
def sortKeys {α : Type} (key : α → Word) (es : List α) : List α := es.foldr (putSorted key) []

/-- Changes every entry, in slots and runs. -/
def Table.mapAll {α : Type} (f : α → α) (t : Table α) : Table α :=
  { t with slots := t.slots.map (fun (k, e) => (k, f e)), runs := t.runs.map (fun r => { r with entries := r.entries.map f }) }

/-- The 64-byte header of a run and its entries (R208). -/
def runBytes (form alg size : Nat) (es : List (List Byte)) : List Byte :=
  toBytes 8 es.length ++ toBytes 1 form ++ toBytes 1 alg ++ toBytes 6 0 ++ toBytes 8 (64 + size * es.length) ++
  toBytes 40 0 ++ es.flatten

/-- The writes to the region that changed flags of run entries ask for: `size` is an entry's bytes, `off` where `fl` lie in it. -/
def flagWrites {α : Type} (size off : Nat) (fl : α → List Byte) (old new : Table α) : List (Nat × List Byte) :=
  (old.runs.zip new.runs).flatMap (fun (r, q) => (r.entries.zip q.entries).zipIdx.filterMap (fun ((a, b), j) =>
    if fl a = fl b then none else some (r.addr + 64 + size * j + off, fl b)))

/-- A table of the HA that takes the place of another, with the writes it owes (R202, R218). -/
def oweHa (old new : Table HaSlot) : Table HaSlot :=
  let form := (old.geom.getD {}).form
  let off := match form with | 0 => 26 | 1 => 34 | _ => 18
  { new with owed := old.owed ++ flagWrites (slotBytesOf form) off (fun e => toBytes 2 e.flagBits) old new }

/-- A table of the HS that takes the place of another, with the writes it owes. -/
def oweHs (old new : Table HsSlot) : Table HsSlot :=
  { new with owed := old.owed ++ flagWrites 16 12 (fun e => (HsSlot.bytes e).drop 12) old new }

/-! ### Placing a run (R208, R209) -/

/-- The gaps of a region that holds runs: start and length. The runs are those taken, sorted by address. -/
def gapsFrom (stop : Nat) : Nat → List (Nat × Nat) → List (Nat × Nat)
  | a, [] => [(a, stop - a)]
  | a, (p, n) :: rest => (a, p - a) :: gapsFrom stop (p + n) rest

/-- Runs by rising address. -/
def sortRuns : List (Nat × Nat) → List (Nat × Nat)
  | [] => []
  | r :: rs => (sortRuns rs).filter (fun x => decide (x.1 < r.1)) ++ [r] ++ (sortRuns rs).filter (fun x => decide (r.1 ≤ x.1))

/-- Where a run of n bytes goes: the start of a gap that holds it, by the unit's own choice (notes/assumptions/6.md).
DEDUCED: notes/assumptions/51.md. -/
def placeRun (g : Geom) (runs : List (Nat × Nat)) (n choice : Nat) : Option Nat :=
  let fit := (gapsFrom (g.spbase + g.spsize) g.spbase (sortRuns runs)).filter (fun x => decide (n ≤ x.2))
  if fit.isEmpty then none else (fit[choice % fit.length]?).map (fun x => x.1)

/-- A spill of a table begins (R208): the run of the resident entries, or first the merge of eight runs; none when the
region has no room. -/
def Table.beginSpill {α : Type} (o : EntOps α) (size : Nat) (choice : Nat) (t : Table α) : Option (Table α) :=
  t.geom.bind fun g =>
    let merge := decide (8 ≤ t.runs.length)
    let es := sortKeys o.key ((if merge then t.runs.flatMap (fun r => r.entries) else t.slots.map (fun e => e.2)).filter (fun e => !o.dead e))
    let n := 64 + size * es.length
    (placeRun g (t.runs.map (fun r => (r.addr, r.bytes))) n choice).map fun a =>
      { t with pending := some ({ addr := a, bytes := n, entries := es }, merge), blocked := none, retry := false }

/-- The pending run has been written: it joins the runs and the slots empty, or it replaces the runs it merges. -/
def Table.landed {α : Type} (t : Table α) : Table α :=
  match t.pending with
  | none => t
  | some (r, true) => { t with runs := [r], pending := none, blocked := none, retry := false }
  | some (r, false) => { t with runs := t.runs ++ [r], slots := [], pending := none, blocked := none, retry := false }

/-- A table may take contributions: no run of it is being written or waits, and no move-in is in progress (R209, R219). -/
def Table.open_ {α : Type} (t : Table α) : Bool := t.idle && (t.blocked.isNone || t.retry)

/-! ### The two units -/

/-- The HA or the HS of a core. -/
inductive HashUnit | ha | hs
  deriving DecidableEq, Repr

def HashUnit.slot : HashUnit → Nat
  | .ha => 12
  | .hs => 13

/-- The source code of a unit's reports (R342). -/
def HashUnit.source : HashUnit → Nat
  | .ha => 5
  | .hs => 6

/-- Sets blocked and retry of a unit's table. -/
def setBlocked (u : HashUnit) (b : Option (Nat × Nat)) (retry : Bool) (x : Core) : Core :=
  match u with
  | .ha => { x with haU := { x.haU with tab := { x.haU.tab with blocked := b, retry := retry } } }
  | .hs => { x with hsU := { x.hsU with tab := { x.hsU.tab with blocked := b, retry := retry } } }

def blockedOf (u : HashUnit) (x : Core) : Option (Nat × Nat) :=
  match u with
  | .ha => x.haU.tab.blocked
  | .hs => x.hsU.tab.blocked

/-- A spill that finds no room or no page is reported and waits; the same fault after a wake-up waits again unreported
(R209, R350). DEDUCED: notes/assumptions/51.md. -/
def blockSpill (u : HashUnit) (c cause addr : Nat) (s : State) : State :=
  if blockedOf u (coreOf s c) = some (cause, addr) then onCore c (setBlocked u (some (cause, addr)) false) s
  else if faultRoom s c then
    let page := addr / pageSize (viewOf s c).page2m
    onCore c (setBlocked u (some (cause, addr)) false)
      (fabricFault c { code := cause, val := BitVec.ofNat 64 addr, source := u.source, slot := u.slot, page := page, write := true } true s)
  else s

/-- The HA begins a spill; without room it reports SPILLFULL with the first address past its region. -/
def spillHa (c : Nat) (s : State) : State :=
  let x := coreOf s c
  let t := x.haU.tab
  match t.beginSpill haEnt (slotBytesOf (t.geom.getD {}).form) (Config.runChoice s.tick) with
  | some t => moved c (fun x => { x with haU := { x.haU with tab := t } }) { s with tick := s.tick + 1 }
  | none => blockSpill .ha c causeSpillfull ((t.geom.getD {}).spbase + (t.geom.getD {}).spsize) s

/-- The HS begins a spill. -/
def spillHs (c : Nat) (s : State) : State :=
  let t := (coreOf s c).hsU.tab
  match t.beginSpill hsEnt 16 (Config.runChoice s.tick) with
  | some t => moved c (fun x => { x with hsU := { x.hsU with tab := t } }) { s with tick := s.tick + 1 }
  | none => blockSpill .hs c causeSpillfull ((t.geom.getD {}).spbase + (t.geom.getD {}).spsize) s

/-- The run that a unit is writing: its address and bytes. -/
def pendingRun (u : HashUnit) (x : Core) : Option (Nat × List Byte) :=
  match u with
  | .ha =>
    let g := x.haU.tab.geom.getD {}
    x.haU.tab.pending.map (fun (r, _) => (r.addr, runBytes g.form g.alg (slotBytesOf g.form) (r.entries.map (HaSlot.bytes g.form))))
  | .hs => x.hsU.tab.pending.map (fun (r, _) => (r.addr, runBytes 0 0 16 (r.entries.map HsSlot.bytes)))

/-- A run whose write waits for a wake-up. -/
def waitsWake (u : HashUnit) (x : Core) : Bool :=
  match u with
  | .ha => x.haU.tab.blocked.isSome && !x.haU.tab.retry
  | .hs => x.hsU.tab.blocked.isSome && !x.hsU.tab.retry

/-- The first address of a range at which a write faults, with its cause: in Translate, at a place that it may not write, or for want
of a way (R252, R296, R300, R345); `fuel` bounds the lines. -/
def firstFault (v : View) : Nat → Nat → Nat → State → Option (Nat × Nat)
  | 0, _, _, _ => none
  | fuel + 1, va, n, s =>
    if n = 0 then none
    else
      let k := min n (64 - va % 64)
      match probeFlatGo v .write none 1 va k s with
      | .fault cause _ _ => some (cause, va)
      | _ => firstFault v fuel (va + k) (n - k) s

/-- SPILLK of a unit, when it is used: the HA takes the word of the last graph that configured it. -/
def spillK (u : HashUnit) (x : Core) : Option Nat :=
  let w := match u with | .ha => mapGet 0 x.haU.words 8 | .hs => opPar x 13 6
  if bit w 6 then some (bits w 0 6) else none

/-- A pending run has landed: its counter rises as a release of the run's bytes (R208). -/
def landRun (u : HashUnit) (c : Nat) (s : State) : State :=
  let k := spillK u (coreOf s c)
  let s := moved c (fun x =>
    match u with
    | .ha => { x with haU := { x.haU with tab := x.haU.tab.landed } }
    | .hs => { x with hsU := { x.hsU with tab := x.hsU.tab.landed } }) (tallyCore c 0x007 1 s)
  match k with | some k => raiseCounter c k 1 s | none => s

/-- Flags that a unit is to write in run entries, the oldest first. -/
def owedFlags (u : HashUnit) (x : Core) : List (Nat × List Byte) :=
  match u with
  | .ha => x.haU.tab.owed
  | .hs => x.hsU.tab.owed

/-- What a unit writes next: flags of a run entry, else its pending run. -/
def nextWrite (u : HashUnit) (x : Core) : Option (Nat × List Byte) := (owedFlags u x).head?.or (pendingRun u x)

/-- The oldest flags that a unit owed have been written. -/
def landFlags (u : HashUnit) (x : Core) : Core :=
  match u with
  | .ha => { x with haU := { x.haU with tab := { x.haU.tab with owed := x.haU.tab.owed.drop 1, blocked := none, retry := false } } }
  | .hs => { x with hsU := { x.hsU with tab := { x.hsU.tab with owed := x.hsU.tab.owed.drop 1, blocked := none, retry := false } } }

/-- A unit writes its pending run, or flags of a run entry. -/
def writeRun (u : HashUnit) (c : Nat) (s : State) : State :=
  match nextWrite u (coreOf s c) with
  | none => s
  | some (a, b) =>
    if !fabricOn s c ∨ waitsWake u (coreOf s c) then s
    else
      match writeFlat s (some (.fabric c)) (viewOf s c) a (b.map some) false with
      | .ok _ s => if (owedFlags u (coreOf s c)).isEmpty then landRun u c s else moved c (landFlags u) s
      | _ => s

/-- The unit of a core that has a run to write, the HA first. -/
def writingUnit (x : Core) : HashUnit := if !x.haU.tab.idle ∧ !waitsWake .ha x then .ha else .hs

/-- A run of the HA or HS lands (R208). -/
def execSpillLanding (core : Nat) (s : State) := done (writeRun (writingUnit (coreOf s core)) core s)

/-- A write of a run meets a fault: SPILLFAULT with the address of the first byte that cannot be written (R209). -/
def spillFault (u : HashUnit) (c : Nat) (s : State) : State :=
  match nextWrite u (coreOf s c) with
  | none => s
  | some (a, b) =>
    if !fabricOn s c ∨ waitsWake u (coreOf s c) then s
    else
      match firstFault (viewOf s c) (b.length / 64 + 2) a b.length s with
      | some (_, va) => blockSpill u c causeSpillfault va s
      | none => s

def execSpillfault (core : Nat) (s : State) := done (spillFault (writingUnit (coreOf s core)) core s)

end Sys2Proof.Machine
end

