-- ==== Sys2Proof/Machine/Stage.lean ====
section
/-! DEFINITION. Stage instructions (R67 to R72): their fields, and the checks that the loader makes of one. -/

namespace Sys2Proof.Machine

/-- The fields of a 38-bit stage instruction (R67); SC, MODE, OPT and LMASK belong to the S-form, `imm` to the I-form. -/
structure Stg where
  op : Nat
  vd : Nat
  emit : Bool
  och : Nat
  sa : Nat
  sb : Nat
  sc : Nat
  mode : Nat
  opt : Nat
  lmask : Nat
  imm : Nat
  deriving DecidableEq, Repr

/-- An I-form has opcode bit 6 set and enables all four lanes (R67). -/
def Stg.iform (g : Stg) : Bool := decide (64 ≤ g.op)

def stgOf (w : Nat) : Stg :=
  let i := bit w 37
  { op := bits w 31 7, vd := bits w 29 2, emit := bit w 28, och := bits w 26 2, sa := bits w 21 5, sb := bits w 16 5
    sc := if i then 16 else bits w 11 5, mode := if i then 0 else bits w 8 3, opt := if i then 0 else bits w 4 4
    lmask := if i then 15 else bits w 0 4, imm := if i then bits w 0 16 else 0 }

/-- The NOP word (R161). -/
def nopWord : Nat := 0x0002108000

/-- What MODE means (R70). -/
inductive ModeUse | zero | rounding | cond | alg
  deriving DecidableEq, Repr

/-- What an operation reads, how it uses MODE, and the stages it may stand in (R69, R72). -/
structure OpUse where
  a : Bool
  b : Bool
  c : Bool
  mode : ModeUse
  lo : Nat
  hi : Nat
  deriving DecidableEq, Repr

/-- The operations of R69; none for a code that makes the loader raise CFGBAD. -/
def opUse (op : Nat) : Option OpUse :=
  let u := fun (a b c : Bool) (m : ModeUse) (lo hi : Nat) => some (⟨a, b, c, m, lo, hi⟩ : OpUse)
  if op = 0x00 ∨ op = 0x40 then u false false false .zero 1 6
  else if op = 0x01 then u true false false .zero 1 6
  else if op ≤ 0x04 then u true true false .zero 1 6
  else if op < 0x08 then none
  else if op = 0x0C then u true true true .zero 1 6
  else if op ≤ 0x16 then u true true false .zero 1 6
  else if op = 0x17 then u true true false .cond 1 6
  else if op = 0x18 then u true true true .zero 1 6
  else if op ≤ 0x1B then u true false false .zero 1 6
  else if op = 0x1C then u true true false .zero 1 6
  else if op = 0x1D then u true true true .zero 1 6
  else if op < 0x20 then none
  else if op ≤ 0x22 then u true true false .rounding 2 5
  else if op = 0x23 then u true true true .rounding 2 5
  else if op ≤ 0x25 then u true true false .zero 2 5
  else if op = 0x26 then u true true false .cond 2 5
  else if op ≤ 0x2A then u true false false .rounding 4 4
  else if op = 0x2B then u true true true .rounding 2 5
  else if op = 0x2C then u true true false .rounding 2 5
  else if op = 0x2D then u true false false .rounding 2 5
  else if op = 0x30 ∨ op = 0x31 then u true true false .alg 2 5
  else if op = 0x32 then u true false false .alg 2 5
  else if op = 0x34 then u true true false .zero 1 1
  else if op = 0x35 then u true true false .zero 1 6
  else if op = 0x36 ∨ op = 0x37 ∨ op = 0x38 then u true false false .zero 1 6
  else if op = 0x39 ∨ op = 0x79 then u true false false .zero 1 2
  else if op = 0x3B ∨ op = 0x7B then u true true false .zero 1 2
  else if op = 0x3A ∨ op = 0x3C ∨ op = 0x7A ∨ op = 0x7C then u true true false .zero 6 6
  else if op = 0x48 ∨ op = 0x4A ∨ (0x51 ≤ op ∧ op ≤ 0x56) ∨ op = 0x5C then u true false false .zero 1 6
  else if op = 0x5D then u true true false .zero 1 6
  else none

/-- The operation is FMA-class (R72). -/
def Stg.fma (g : Stg) : Bool :=
  [0x20, 0x21, 0x22, 0x23, 0x2B, 0x2C].contains g.op || ((g.op == 0x30 || g.op == 0x31 || g.op == 0x32) && decide (2 ≤ g.mode) && decide (g.mode ≤ 5))

/-- The operation is none that the address region may hold (R124). -/
def Stg.floating (g : Stg) : Bool :=
  (decide (0x20 ≤ g.op) && decide (g.op ≤ 0x2D)) ||
  ((g.op == 0x30 || g.op == 0x31 || g.op == 0x32) && decide (2 ≤ g.mode) && decide (g.mode ≤ 5))

/-- The source codes that an operation reads. -/
def Stg.sources (g : Stg) : List Nat :=
  match opUse g.op with
  | some u => (if u.a then [g.sa] else []) ++ (if u.b then [g.sb] else []) ++ (if u.c then [g.sc] else [])
  | none => []

/-- The channels that a stage names in the consumed form. -/
def Stg.consumed (g : Stg) : List Nat := (g.sources.filter (fun c => 4 ≤ c && c < 8)).map (fun c => c - 4)

/-- The channels that a stage names in the peeked form. -/
def Stg.peeked (g : Stg) : List Nat := (g.sources.filter (fun c => 8 ≤ c && c < 12)).map (fun c => c - 8)

/-- The output channels that a stage counts as emitting to (R72, R185). -/
def Stg.outs (g : Stg) : List Nat :=
  if !g.emit then [] else if g.op = 0x35 then (upTo 4).filter (fun j => bit g.opt j) else [g.och]

/-- LMASK sets both lanes of a pair or neither. -/
def pairMask (m : Nat) : Bool := (bits m 0 2 == 0 || bits m 0 2 == 3) && (bits m 2 2 == 0 || bits m 2 2 == 3)

/-- The width of a format code; 0 for none. -/
def codeWidth (c : Nat) : Nat :=
  [8, 8, 8, 16, 32, 64, 32, 16, 16, 8, 8, 4, 4].getD c 0

/-- CVT's formats, places and masks (R71, R182). -/
def cvtOk (g : Stg) : Bool :=
  let d := g.sb % 16
  let c := g.sc % 16
  let ok := fun (f : Nat) => decide (1 ≤ f) && decide (f ≤ 0xC)
  let place := bits g.opt 0 2
  let sel := bits g.opt 2 2
  ok d && ok c && !bit g.sc 4 && (!bit g.sb 4 || d == 9) &&
  (if d = 5 ∨ c = 5 then place == 0 && sel == 0 && pairMask g.lmask
   else
     let n := 32 / max (codeWidth c) (codeWidth d)
     decide ((place + 1) * n * codeWidth d ≤ 32) && decide ((sel + 1) * n * codeWidth c ≤ 32))

/-- OPT holds what the operation's entry gives it (R67). -/
def optOk (g : Stg) : Bool :=
  if g.op = 0x02 ∨ g.op = 0x38 then decide (g.opt < 4)
  else if g.op = 0x1B then decide (g.opt < 2)
  else if g.op = 0x2D then true
  else if g.op = 0x34 then decide (g.opt < 8)
  else if g.op = 0x35 then g.opt != 0 && g.emit && (upTo 4).all (fun j => !bit g.opt j || decide (g.och ≤ j)) && bit g.opt g.och
  else if g.op = 0x36 then g.emit && (g.opt == 0 || decide (8 ≤ g.opt))
  else g.opt == 0

/-- The immediate of an I-form is in range (R69). -/
def immOk (g : Stg) : Bool :=
  if 0x54 ≤ g.op ∧ g.op ≤ 0x56 then decide (g.imm < 32)
  else if g.op = 0x5C ∨ g.op = 0x5D then decide (g.imm < 1024)
  else if 0x79 ≤ g.op then decide (g.imm ≤ 1535)
  else true

/-- The checks of R67 to R72 and of the operation's entry on one stage s. -/
def stageOk (s w : Nat) : Bool :=
  let g := stgOf w
  match opUse g.op with
  | none => false
  | some u =>
    let src := fun (read : Bool) (c : Nat) => if read then decide (c ≤ 18) else c == 16
    (g.op != 0 || w == nopWord) && (g.emit || g.och == 0) && decide (u.lo ≤ s) && decide (s ≤ u.hi) &&
    src u.a g.sa && (if g.op = 0x2D then cvtOk g else src u.b g.sb && src u.c g.sc) && optOk g && immOk g &&
    (match u.mode with
     | .zero => g.mode == 0
     | .rounding => decide (g.mode ≤ 4)
     | .cond => true
     | .alg => (g.mode != 7 || pairMask g.lmask) && (g.op != 0x32 || g.mode == 0 || g.mode == 3 || g.mode == 4)) &&
    (g.op != 0x34 || (decide (4 ≤ g.sa) && decide (g.sa < 8) && decide (4 ≤ g.sb) && decide (g.sb < 8) && g.sa != g.sb))

/-- The JCMP of an element, if it has one: its channels A and B. -/
def jcmpOf (gs : List Stg) : Option (Nat × Nat) := (gs.find? (fun g => g.op == 0x34)).map (fun g => (g.sa - 4, g.sb - 4))

/-- No two of a list are equal. -/
def distinct (xs : List Nat) : Bool :=
  match xs with
  | [] => true
  | x :: rest => !rest.contains x && distinct rest

/-- Every input that some stage consumes. -/
def consumedOf (gs : List Stg) : List Nat := (upTo 4).filter (fun ch => gs.any (fun g => g.consumed.contains ch))

/-- Every input that some stage names. -/
def namedOf (gs : List Stg) : List Nat := (upTo 4).filter (fun ch => gs.any (fun g => g.consumed.contains ch || g.peeked.contains ch))

/-- The checks of R72, R124, R184 and R187 over the six stages of an element. -/
def elementOk (ws : List Nat) (addr : Bool) : Bool :=
  let gs := ws.map stgOf
  (ws.zipIdx.all (fun (w, i) => stageOk (i + 1) w)) && decide ((gs.filter Stg.fma).length ≤ 2) &&
  distinct (gs.flatMap Stg.outs) && decide ((gs.filter (fun g => g.op == 0x37)).length ≤ 1) && (!addr || gs.all (fun g => !g.floating)) &&
  (match jcmpOf gs with
   | none => true
   | some (a, b) => (gs.drop 1).all (fun g => g.consumed.isEmpty) && (consumedOf gs).all (fun ch => ch == a || ch == b))

end Sys2Proof.Machine
end

