-- ==== Sys2Proof/Machine/Frames.lean ====
section
/-! DEFINITION. The checks of an image (R36 to R38, R73 to R80, R124, R130, R137, R169, R171, R201, R222, R235, R242,
R302): those of one frame, and those that relate the frames of an image. -/

namespace Sys2Proof.Machine

/-! ### Operator kinds (R77) -/

/-- The kind of an operator slot. -/
def kindOfSlot (slot : Nat) : Nat :=
  if slot < 8 then 0 else if slot ≤ 9 then 1 else if slot ≤ 11 then 2 else if slot = 12 then 3 else if slot = 13 then 4
  else if slot = 14 then 5 else if slot ≤ 16 then 6 else if slot = 17 then 7 else if slot = 18 then 8 else if slot ≤ 22 then 9
  else if slot ≤ 30 then 10 else 11

/-- The OP pages of a kind. -/
def kindPages (k : Nat) : Nat := [0, 2, 1, 3, 1, 6, 2, 1, 1, 1, 1, 1].getD k 0

/-! ### Frames of one kind -/

/-- EP (R75). -/
def epOk (x : Nat) : Bool :=
  let part := bits x 230 2
  if part = 0 then
    bits x 152 78 == 0 && (upTo 4).all (fun i => !bit x (128 + i) || bits x (32 * i) 32 != 0)
  else part == 1 && bits x 192 38 == 0

/-- An XS entry (R76). -/
def routeOk (r : Nat) : Bool :=
  if bit r 31 then
    bits r 0 2 == 0 && (!bit r 30 || decide (bits r 24 6 < 32)) && (!bit r 11 || decide (bits r 5 6 < 32)) &&
    bits r 17 5 != 16 && bits r 12 5 != 16
  else r == 0

/-- The route of an entry. -/
def routeOf (r : Nat) : Route :=
  { src := (if bit r 30 then 64 else 0) + bits r 24 6, sch := bits r 22 2, dx := sext 5 (bits r 17 5), dy := sext 5 (bits r 12 5)
    dst := (if bit r 11 then 64 else 0) + bits r 5 6, dch := bits r 3 2, detach := bit r 2 }

/-- AG (R78) and the fields of a RING level (R247). -/
def agOf (x : Nat) : AgCfg :=
  { extent := bits x 0 40, stride := sext 48 (bits x 40 48), base := sext 40 (bits x 88 40), tid := bits x 128 20, dim := bits x 148 3
    mode := bits x 151 3, next := bits x 154 3, chain := bit x 157, mlvl := bits x 158 3, marken := bit x 161, token := bit x 162
    commut := bit x 163, atoll := bits x 164 4 }

def agOk (x : Nat) : Bool :=
  let a := agOf x
  bits x 168 64 == 0 && a.extent != 0 && decide (a.mode ≤ 3) &&
  (a.mode != 3 || (a.token && a.extent == 1 && a.stride == 0 && a.base == 0 && a.tid == 0 && a.dim == 0 && !a.chain))

/-- A local-memory region (R79); none where it is unused. -/
def regionOf (r : Nat) : Option Region :=
  if bits r 11 11 = 0 then none else some { start := bits r 0 11, rows := bits r 11 11, role := bits r 22 2, tid := bits r 24 20 }

def regionsOverlap (a b : Region) : Bool := decide (a.start < b.start + b.rows) && decide (b.start < a.start + a.rows)

/-- The four regions of an element (R79). -/
def regionsOk (x : Nat) : Bool :=
  let rs := (upTo 4).map (fun i => bits x (56 * i) 56)
  let used := rs.filterMap regionOf
  bits x 224 4 == 0 && rs.all (fun r => bits r 44 12 == 0) && used.all (fun r => r.role != 0 && decide (r.start + r.rows ≤ 1536)) &&
  used.zipIdx.all (fun (a, i) => used.zipIdx.all (fun (b, j) => i == j || !regionsOverlap a b))

def atollOfFrame (x : Nat) : AtollCfg :=
  { base := bits x 0 18, slots := bits x 18 16, slotw := bits x 34 4, headk := bits x 38 6, tailk := bits x 44 6 }

def stashOfFrame (x : Nat) : StashCfg := { spbase := bits x 0 18, len := bits x 18 18, tid := bits x 36 20, toff := bits x 64 64 }

/-- Scratchpad bytes that the atolls and windows of a core and the descriptor hold: start and length. -/
def extents (cfg : CoreCfg) : List (Nat × Nat) :=
  (Config.descOffset, 64) :: cfg.atolls.map (fun (_, a) => (a.base, atollExtent a)) ++ cfg.stashes.map (fun (_, w) => (w.spbase, w.len))

/-- A new extent lies in the scratchpad and overlaps none of a core's. -/
def extentOk (cfg : CoreCfg) (b l : Nat) : Bool :=
  decide (b + l ≤ Config.scratchBytes) && (extents cfg).all (fun (b', l') => decide (b + l ≤ b') || decide (b' + l' ≤ b))

/-- MU (R79): the core's configuration with it, or none. -/
def addMu (cfg : CoreCfg) (unit x : Nat) : Option CoreCfg :=
  let sub := bits x 228 4
  if sub = 0 then
    if regionsOk x then
      let rs := (upTo 4).filterMap (fun i => (regionOf (bits x (56 * i) 56)).map (fun r => (i, r)))
      some { cfg with regions := mapPut cfg.regions unit rs }
    else none
  else if sub = 1 then
    let a := atollOfFrame x
    if unit < 16 ∧ bits x 50 178 = 0 ∧ a.base % 16 = 0 ∧ 1 ≤ a.slots ∧ a.slots ≤ 16384 ∧ 1 ≤ a.slotw ∧ a.slotw ≤ 8 ∧ a.headk ≠ a.tailk ∧
        extentOk cfg a.base (atollExtent a) then some { cfg with atolls := mapPut cfg.atolls unit a } else none
  else if sub = 2 then
    let w := stashOfFrame x
    if unit < 8 ∧ bits x 56 8 = 0 ∧ bits x 128 100 = 0 ∧ stashOk w ∧ extentOk cfg w.spbase w.len then
      some { cfg with stashes := mapPut cfg.stashes unit w } else none
  else if sub = 3 then
    if unit = 0 ∧ bits x 2 226 = 0 ∧ bits x 0 2 ≠ 3 then some { cfg with ilv := bits x 0 2 } else none
  else none

/-- LD number k of an element (R80): its rows with the 224 bits of string position 224 k. -/
def putPreload (k d : Nat) (rows : Map Quad) : Map Quad :=
  let at0 := 224 * k
  (upTo 3).foldl (fun m i =>
    let r := at0 / 128 + i
    let lo := 128 * r
    let piece := if lo < at0 then d * 2 ^ (at0 - lo) else d / 2 ^ (lo - at0)
    let v := (mapGet 0 m r).toNat ||| piece % 2 ^ 128
    if v = 0 ∨ 1536 ≤ r then m else mapPut m r (BitVec.ofNat 128 v)) rows

def ldOk (k x : Nat) : Bool := decide (k < 878) && bits x 224 8 == k % 256 && (k != 877 || bits x 160 64 == 0)

/-! ### Parameter words of operators -/

/-- Every word of an operator stays within its mask; words past the list are reserved. -/
def masksOk (w : Map Nat) (masks : List Nat) : Bool := w.all (fun (i, v) => v &&& (masks.getD i 0) == v)

/-- The capacity of a form of the HA (R197). -/
def haCapacity (form : Nat) : Nat := if form = 0 then 16384 else if form = 1 then 10922 else 24

/-- HA (R198). -/
def haOk (p : Nat → Nat) : Bool :=
  let w0 := p 0
  let form := bits w0 0 2
  let mode := bits w0 2 2
  let alg := bits w0 4 3
  let exact := form == 1 || form == 2
  form != 3 && (exact == (alg == 5)) && (mode == 0 || mode == 2 || (form == 0 && alg == 3)) &&
  decide (1 ≤ bits (p 1) 0 15) && decide (bits (p 1) 0 15 ≤ haCapacity form) &&
  decide (bits w0 7 3 ≤ 4) && (!exact || bits w0 10 4 == 6 || bits w0 10 4 == 7) && (!bit w0 14 || mode == 1 || mode == 3) &&
  p 4 % 65536 == 0 && p 6 % 65536 == 0

def hsOk (p : Nat → Nat) : Bool :=
  decide (1 ≤ bits (p 1) 0 14) && decide (bits (p 1) 0 14 ≤ 8192) && p 2 % 65536 == 0 && p 4 % 65536 == 0

/-- The rows and columns of a tile register (R221). -/
def mtRows (w : Nat) : Nat := 2 ^ bits w 11 3

def mtCols (w : Nat) : Nat := match fmtOf (bits w 4 4) with | some f => 32768 / (mtRows w * fmtWidth f) | none => 0

/-- Word 5 + n of the MT taken alone (R221, R222). -/
def mtRegWordOk (w : Nat) : Bool :=
  let src := bits w 0 2
  let fmtFine := [1, 7, 9, 10, 11, 12].contains (bits w 4 4)
  src != 3 && (if src = 0 then bits w 4 4 == 0 else fmtFine) && (bits w 4 4 == 12 || !bit w 8) &&
  (src != 2 || (!bit w 9 && decide (1 ≤ bits w 14 11)))

/-- Word 5 + n of the MT and its descriptor words (R221, R222); `dfmt` asks that DFMT be the register's format. -/
def mtRegOk (dfmt : Bool) (p : Nat → Nat) (n : Nat) : Bool :=
  let w := p (5 + n)
  let d0 := p (13 + 2 * n)
  let d1 := p (14 + 2 * n)
  mtRegWordOk w && (bits w 0 2 != 2 || (bits d0 0 4 == 0 && bits d1 0 4 == 0 && bits d1 16 4 == 0 && (!dfmt || bits d0 20 4 == bits w 4 4) &&
    decide (bits d0 0 18 + (bits w 14 11 - 1) * bits d1 16 16 + (mtRows w - 1) * bits d1 0 16 + 4096 / mtRows w ≤ Config.scratchBytes)))

/-- A valid operation of the MT (R222). -/
def mtOpOk (p : Nat → Nat) (w : Nat) : Bool :=
  let a := p (5 + bits w 2 3)
  let b := p (5 + bits w 5 3)
  let int := fun (r : Nat) => bits r 4 4 == 1
  let kch := bits w 10 2
  let closes := fun (r : Nat) => bits r 0 2 == 1 && bits r 2 2 == kch && !bit r 10
  bits w 8 2 != 3 && bits a 0 2 != 0 && bits b 0 2 != 0 && decide (mtRows a ≤ 32) && decide (mtRows b ≤ 32) &&
  (if bit w 1 then bits a 4 4 == 7 && bits b 4 4 == 7 else int a == int b) &&
  (bits (p 0) 5 4 != 4 || int a) && (closes a || closes b)

/-- Word 0 of the MT taken alone (R221, R222). -/
def mtWord0Ok (w : Nat) : Bool :=
  decide (bits w 0 2 ≤ 1) && decide (bits w 2 3 ≤ 4) && [4, 6, 7].contains (bits w 5 4) && (!bit w 21 || decide (bits w 18 3 < bits w 15 3))

/-- The words of one OP page of the MT, each taken alone (R221, R222). -/
def mtPageOk (page : Nat) (p : Nat → Nat) : Bool :=
  let here := fun (w : Nat) => w / 7 == page
  (!here 0 || mtWord0Ok (p 0)) && (upTo 8).all (fun n => !here (5 + n) || mtRegWordOk (p (5 + n))) &&
  (upTo 4).all (fun m => !here (29 + m) || !bit (p (29 + m)) 0 || bits (p (29 + m)) 8 2 != 3)

/-- MT (R221, R222): the checks within its own words. -/
def mtOk (dfmt : Bool) (p : Nat → Nat) : Bool :=
  let regs := upTo 8
  let ops := ((upTo 4).map (fun m => p (29 + m))).filter (fun w => bit w 0)
  let chans := (regs.filter (fun n => bits (p (5 + n)) 0 2 == 1)).map (fun n => bits (p (5 + n)) 2 2)
  let writes := fun (a w : Nat) => bits w 8 2 == a || bits w 8 2 == 2
  mtWord0Ok (p 0) && regs.all (mtRegOk dfmt p) &&
  ops.all (mtOpOk p) && distinct chans && (!bit (p 33) 2 || !chans.contains (bits (p 33) 0 2)) &&
  (upTo 2).all (fun a =>
    let ws := ops.filter (writes a)
    ws.all (fun w => ws.all (fun v => bits w 10 2 == bits v 10 2 && (bits w 8 2 == 2) == (bits v 8 2 == 2))))

/-- RD (R212): the checks within its own words. -/
def rdOk (p : Nat → Nat) : Bool :=
  let w0 := p 0
  let alg := bits w0 0 3
  let float := decide (2 ≤ alg) && decide (alg ≤ 5)
  (float || (!bit w0 15 && !bit w0 4)) && decide (bits w0 8 3 ≤ 4) && (bits w0 11 4 == 6 || bits w0 11 4 == 7) &&
  (!bit w0 15 || bits (p 3) 0 18 % 64 == 0)

/-- The statistics record of an RD overlaps nothing that the core's MU frames place (R212). -/
def rdPlaced (cfg : CoreCfg) (p : Nat → Nat) : Bool := !bit (p 0) 15 || extentOk cfg (bits (p 3) 0 18) 320

/-- SM (R137). -/
def smOk (p : Nat → Nat) : Bool :=
  let m := bits (p 0) 0 2
  m != 3 && (m != 0 || bits (p 0) 2 2 != 0) && (m != 2 || (bits (p 0) 4 4 == 3 && p 1 != 0)) && (m == 1 || bits (p 0) 8 4 == 0) &&
  (m == 2 || p 1 == 0)

/-- EX (R141) on a core of a chip. -/
def exOk (chip core : Nat) (p : Nat → Nat) : Bool :=
  let far := bits (p 0) 0 13
  decide (far < Config.cores) && !(bits (p 0) 13 12 == chip && far / 1600 == core / 1600) && decide (1 ≤ bits (p 1) 10 18) &&
  decide (bits (p 1) 10 18 ≤ 16384) && decide (1 ≤ bits (p 1) 28 4) && decide (bits (p 1) 28 4 ≤ 8)

/-- The bits that each parameter word of a kind may set; words past the list are reserved. -/
def opMasks (kind : Nat) : List Nat :=
  let full := 0xFFFFFFFF
  match kind with
  | 1 => [0x3F, 0x3FFFF, 0x7FFFFFF, full, full, 0x7F]
  | 2 => [0xF]
  | 3 => [0x7FFF, 0x7FFF, 0x7FF, 0x3FFFFFF, full, full, full, full, 0x7F]
  | 4 => [3, 0x3FFF, full, full, full, full, 0x7F]
  | 5 => [0x3FFFFF, 0x7FF, 0x7FF, 0xFFFFF, 0xFFFFF] ++ List.replicate 8 full ++ (upTo 8).flatMap (fun _ => [0xFFFFFF, full]) ++
      List.replicate 4 0xFFF ++ [7]
  | 6 => [0xFFFF, 0x7FF, 0x3FFF, 0x3FFFFFFF]
  | 7 => [0x3FFF]
  | 8 => [0x7FF]
  | 9 => [7]
  | 10 => [0x3FFFF, full]
  | _ => [0x1FFFFFF, full]

/-- MP (R249, R256). -/
def mpOk (p : Nat → Nat) : Bool :=
  bits (p 0) 0 2 != 3 && p 1 % 16 == 0 && p 3 % 16 == 0 && (!bit (p 2) 12 || (bits (p 2) 0 6 != bits (p 2) 6 6 && bits (p 2) 13 14 != 0))

/-- The checks of an operator but the MT over the words of its page 0. -/
def kindOk (chip core kind : Nat) (p : Nat → Nat) : Bool :=
  match kind with
  | 1 => mpOk p
  | 3 => haOk p
  | 4 => hsOk p
  | 6 => rdOk p
  | 7 => decide (1 ≤ bits (p 0) 0 9) && decide (bits (p 0) 0 9 ≤ 256)
  | 8 => bits (p 0) 0 2 != 3
  | 9 => decide (bits (p 0) 0 2 ≤ 1)
  | 10 => smOk p
  | 11 => exOk chip core p
  | _ => true

/-- The checks that an OP frame passes as it arrives (R38, R77, R135), over the words of its page. -/
def pageOk (chip core slot page : Nat) (w : Map Nat) : Bool :=
  let p := fun (i : Nat) => mapGet 0 w i
  let kind := kindOfSlot slot
  masksOk (w.filter (fun e => e.1 / 7 == page)) (opMasks kind) &&
  (if kind = 5 then mtPageOk page p else page != 0 || kindOk chip core kind p)

/-- The checks of a configured operator over its parameter words. -/
def operatorOk (chip core slot : Nat) (cfg : CoreCfg) (w : Map Nat) : Bool :=
  let p := fun (i : Nat) => mapGet 0 w i
  let kind := kindOfSlot slot
  masksOk w (opMasks kind) &&
  (if kind = 5 then mtOk true p else kindOk chip core kind p && (kind != 6 || rdPlaced cfg p))

/-- Streams of the core's sampler that a configuration draws on (R235). -/
def drawnStreams (cfg : CoreCfg) : List Nat :=
  let p := fun (slot i : Nat) => mapGet 0 (mapGet [] cfg.ops slot) i
  let has := fun (slot : Nat) => (mapFind cfg.ops slot).isSome
  (if has 18 then [bits (p 18 0) 2 6] else []) ++
  (if has 14 ∧ bits (p 14 0) 2 3 = 4 then [bits (p 14 0) 9 6] else []) ++
  (if has 12 ∧ bits (p 12 0) 0 2 ≠ 0 ∧ bits (p 12 0) 7 3 = 4 then [bits (p 12 3) 20 6] else []) ++
  ([15, 16].filter (fun k => has k && bits (p k 0) 0 3 == 5 && bits (p k 0) 8 3 == 4)).map (fun k => bits (p k 3) 24 6)

/-! ### Checks that relate frames -/

/-- The image as loaded so far: the configuration of each core it targets. -/
abbrev Image := Map CoreCfg

/-- A node is configured. -/
def nodeIn (cfg : CoreCfg) (node : Nat) : Bool :=
  if node < 64 then (mapFind cfg.elems node).any (fun e => !e.stages.isEmpty)
  else if node < 72 then (mapFind cfg.ags (node - 64)).isSome
  else (mapFind cfg.ops (node - 64)).isSome

/-- The output channels that a node has (R77's operators, R161). DEDUCED: notes/assumptions/26.md. -/
def nodeOuts (cfg : CoreCfg) (node : Nat) : List Nat :=
  if node < 64 then [0, 1, 2, 3]
  else if node < 72 then [0]
  else
    match kindOfSlot (node - 64) with
    | 1 => [0, 1, 2, 3]
    | 3 => [0, 1]
    | 10 => (upTo 4).filter (fun j => bit (cfgPar cfg (node - 64) 0) (4 + j))
    | 11 => []
    | _ => [0]

/-- The input channels that a node has. DEDUCED: notes/assumptions/26.md. -/
def nodeIns (cfg : CoreCfg) (node : Nat) : List Nat :=
  if node < 64 then [0, 1, 2, 3]
  else if node < 72 then [0, 1]
  else
    match kindOfSlot (node - 64) with
    | 1 => [0, 1, 2, 3]
    | 2 => [0, 1]
    | 3 => [0, 1]
    | 5 =>
      let p := cfgPar cfg 14
      (upTo 4).filter (fun ch =>
        (upTo 8).any (fun n => bits (p (5 + n)) 0 2 == 1 && bits (p (5 + n)) 2 2 == ch) ||
        (upTo 4).any (fun m => bit (p (29 + m)) 0 && bits (p (29 + m)) 10 2 == ch) || (bit (p 33) 2 && bits (p 33) 0 2 == ch))
    | 10 =>
      let w := cfgPar cfg (node - 64) 0
      if bits w 0 2 = 1 then (upTo 4).filter (fun j => bit w (8 + j)) else [0, 1, 2, 3]
    | _ => [0]

/-- The routes of an image with the core that owns each. -/
def allRoutes (im : Image) : List (Nat × Route) := im.flatMap (fun (c, cfg) => cfg.routes.map (fun r => (c, r)))

/-- The node is in the address region (R123). -/
def addressNode (mask node : Nat) : Bool := if node < 64 then bit mask node else decide (node < 74)

/-- The routes of an image that end where a route does: the input channel of one core. -/
def rivals (im : Image) (d : Nat) (r : Route) : Nat :=
  ((allRoutes im).filter (fun (c', r') => routeCore c' r' == some d && r'.dst == r.dst && r'.dch == r.dch)).length

/-- What a route shows as its frame arrives, against the frames before it (R76, R130, R135): a target on the die, one entry
per input channel, members of a multicast that agree, and the region of a request's source. -/
def routeArrives (im : Image) (mask c : Nat) (r : Route) : Bool :=
  (match routeCore c r with
   | none => false
   | some d => decide (rivals im d r ≤ 1)) &&
  ((mapGet {} im c).routes.filter (fun q => q.src == r.src && q.sch == r.sch)).all (fun q => q.detach == r.detach) &&
  (!(r.dst == 72 || r.dst == 73) || addressNode mask r.src)

/-- A route of core c of an isle is legal within its image (R76, R124, R130). -/
def routeFits (im : Image) (i : Isle) (mask c : Nat) (r : Route) : Bool :=
  let cfg := mapGet {} im c
  nodeIn cfg r.src && (nodeOuts cfg r.src).contains r.sch && routeArrives im mask c r &&
  (match routeCore c r with
   | none => false
   | some d =>
     let t := mapGet {} im d
     !(isleCores i).contains d || (nodeIn t r.dst && (nodeIns t r.dst).contains r.dch)) &&
  (if 64 ≤ r.src ∧ r.src < 72 then
     match mapFind cfg.ags (r.src - 64) with
     | some a => if a.token then !(r.dst == 72 || r.dst == 73) else (r.dst == 72 || r.dst == 73) && r.dx == 0 && r.dy == 0
     | none => true
   else true)

/-- The input channel of a core has a route within the image. -/
def fedIn (im : Image) (c node ch : Nat) : Bool :=
  (allRoutes im).any (fun (c', r) => r.dst == node && r.dch == ch && routeCore c' r == some c)

/-- MARKOUT and MARKIN of an element: the channels they name leave by a route, or are consumed without JCMP (R75, R169). -/
def markFits (im : Image) (c e : Nat) : Bool :=
  let cfg := mapGet {} im c
  match mapFind cfg.elems e with
  | none => true
  | some el =>
    let gs := el.stages.map stgOf
    let eats := consumedOf gs
    let jc := match jcmpOf gs with | some (a, b) => [a, b] | none => []
    (upTo 4).all (fun j => !bit el.markout j || cfg.routes.any (fun r => r.src == e && r.sch == j)) &&
    (upTo 4).all (fun j => !bit el.markin j || (eats.contains j && !jc.contains j))

/-- A configured element with its EP and MU frames (R72, R75, R171, R188). -/
def elementFits (im : Image) (c e : Nat) (el : ElemCfg) : Bool :=
  let cfg := mapGet {} im c
  let gs := el.stages.map stgOf
  let out := fun (j : Nat) => cfg.routes.any (fun r => r.src == e && r.sch == j)
  let eats := consumedOf gs
  let closes := (upTo 4).any (fun k => el.ext.getD k 0 != 0 && bit el.marken k && el.mlvl.getD k 0 == 7)
  (gs.flatMap Stg.outs).all out &&
  (upTo 4).all (fun j => !fedIn im c e j || eats.contains j) && (!eats.isEmpty || closes) &&
  gs.all (fun g => g.op != 0x38 || (mapFind (mapGet [] cfg.regions e) (bits g.opt 0 2)).any (fun r => r.role == 1))

/-- An AG level within its chain (R78, R124, R242, R246, R247). -/
def agFits (im : Image) (c slot : Nat) (a : AgCfg) : Bool :=
  let cfg := mapGet {} im c
  let inner := isInnermost cfg slot
  let named := (cfg.ags.filter (fun (_, b) => b.chain && b.next == slot)).length
  let chain := chainFrom cfg 9 slot
  let root := 64 + slot
  (!a.chain || (mapFind cfg.ags a.next).isSome) && decide (named ≤ 1) && decide (chain.length ≤ 8) &&
  chain.all (fun (_, b) => b.tid == a.tid) && (inner || (!a.commut && !a.token && a.mode != 1 && a.mode != 2)) &&
  (a.mode != 3 || ((mapFind cfg.atolls a.atoll).isSome && named == 0)) &&
  (a.mode != 1 || !fedIn im c root 1) && (a.mode != 2 || fedIn im c root 1)

/-- A configured operator with the routes and operators about it (R198, R201, R222). -/
def operatorFits (im : Image) (chip c slot : Nat) : Bool :=
  let cfg := mapGet {} im c
  let w := mapGet [] cfg.ops slot
  let out := fun (j : Nat) => cfg.routes.any (fun r => r.src == 64 + slot && r.sch == j)
  operatorOk chip c slot cfg w &&
  (slot != 12 || !bit (mapGet 0 w 0) 14 || out 1) &&
  (slot != 14 || bits (mapGet 0 w 0) 0 2 != 1 ||
    (!out 0 && (mapFind cfg.ops 12).isSome && bits (cfgPar cfg 12 0) 0 2 == 2 &&
     (upTo 2).all (fun a => !bit (mapGet 0 w (1 + a)) 10 || !bit (cfgPar cfg 12 2) 10 || (mtWriters cfg a).isEmpty ||
       bits (mapGet 0 w (1 + a)) 0 10 == bits (cfgPar cfg 12 2) 0 10)))

/-- Nodes reached from a RING AG over the routes of the image; `fuel` bounds the search (R302). -/
def ringReach (im : Image) : Nat → List (Nat × Nat) → List (Nat × Nat)
  | 0, seen => seen
  | n + 1, seen =>
    let next := (allRoutes im).filterMap (fun (c, r) =>
      if seen.contains (c, r.src) then (routeCore c r).bind (fun d => if seen.contains (d, r.dst) then none else some (d, r.dst)) else none)
    if next.isEmpty then seen else ringReach im n (seen ++ next.eraseDups)

/-- Nodes that a RING-mode AG feeds, directly or through others; the AG's own routes are not counted and are no fault (R302). -/
def ringFed (im : Image) : List (Nat × Nat) :=
  ringReach im 6400 (im.flatMap (fun (c, cfg) => (cfg.routes.filter (fun r =>
    cfg.ags.any (fun (k, a) => a.mode == 3 && r.src == 64 + k))).filterMap (fun r => (routeCore c r).map (fun d => (d, r.dst)))))

/-- No route into an HA i0 or an EX i0 leaves a node that a RING-mode AG feeds (R302). -/
def ringOk (im : Image) (c : Nat) (r : Route) : Bool := !((r.dst == 76 || r.dst == 95) && r.dch == 0 && (ringFed im).contains (c, r.src))

/-- The levels of a core's address generators as they arrive: no two name one NEXT, no chain returns to a slot (R78). -/
def agsArrive (cfg : CoreCfg) : Bool :=
  cfg.ags.all (fun (k, _) => decide ((cfg.ags.filter (fun (_, b) => b.chain && b.next == k)).length ≤ 1) && decide ((chainFrom cfg 9 k).length ≤ 8))

/-- The checks that a frame passes as it arrives, against the frames before it (R38, R135): of core c and unit u, with the
sub number of frameMark. DEDUCED: notes/assumptions/24.md. -/
def frameArrives (im : Image) (chip mask : Nat) : Nat × Nat × Nat × Nat → Bool
  | (3, c, _, sub) => (((mapGet {} im c).routes.drop (sub / 8)).take (sub % 8)).all (routeArrives im mask c)
  | (4, c, u, page) => pageOk chip c u page (mapGet [] (mapGet {} im c).ops u)
  | (5, c, _, _) => agsArrive (mapGet {} im c)
  | _ => true

/-- No frame seen holds a lower page of the same operator. -/
def firstPage (seen : List (Nat × Nat × Nat × Nat)) (c u page : Nat) : Bool :=
  seen.all (fun (k, c', u', q) => !(k == 4 && c' == c && u' == u && decide (q < page)))

/-- The check of one frame at END, against the others: kind, core, unit, and PART, PAGE or SUB, or for XS eight times the
place of its first route plus their number. The lowest page of an operator answers for the operator. -/
def frameFits (im : Image) (i : Isle) (chip mask : Nat) (rules : Bool) (seen : List (Nat × Nat × Nat × Nat)) :
    Nat × Nat × Nat × Nat → Bool
  | (1, c, u, _) => elementFits im c u (mapGet {} (mapGet {} im c).elems u)
  | (2, c, u, part) => nodeIn (mapGet {} im c) u && (part != 0 || markFits im c u)
  | (3, c, _, sub) =>
    (((mapGet {} im c).routes.drop (sub / 8)).take (sub % 8)).all (fun r => routeFits im i mask c r && (!rules || ringOk im c r))
  | (4, c, u, page) => !firstPage seen c u page || (operatorFits im chip c u && distinct (drawnStreams (mapGet {} im c)))
  | (5, c, u, _) => (mapFind (mapGet {} im c).ags u).any (agFits im c u)
  | _ => true

end Sys2Proof.Machine
end

