-- ==== Sys2Proof/Machine/Relational.lean ====
section
/-! DEFINITION. The hash accumulator and the hash set (spec/10): absorption (R201 to R205), PROBE (R206), OVERDEL (R207),
tile transfers from the MT (R201, R227), HACLR, DRAIN and HSCLR (R216 to R219), and the modes of the HS (R211). -/

namespace Sys2Proof.Machine

/-! ### Parameters -/

/-- Field [lo + len - 1 : lo] of an HA parameter word of the last graph selected with it (R199). -/
def haField (x : Core) (i lo len : Nat) : Nat := bits (mapGet 0 x.haU.words i) lo len

/-- MODE of the HA: 0 ACC, 1 MAXW, 2 PROBE, 3 OVERDEL. -/
def haMode (x : Core) : Nat := haField x 0 2 2

/-- The latched geometry. -/
def haGeo (x : Core) : Geom := x.haU.tab.geom.getD {}

def haAlg (x : Core) : Alg := (algOf (haGeo x).alg).getD .bool

/-- OFMT and RND (R198). -/
def haFmt (x : Core) : Fmt := (fmtOf (haField x 0 10 4)).getD .fp32

def haRnd (x : Core) : RMode := (rmodeOf (haField x 0 7 3)).getD .rne

def onHa (f : Ha → Ha) (x : Core) : Core := { x with haU := f x.haU }

/-- ORs flags into the HA's copy. -/
def haFlags (f : FpFlags) (x : Core) : Core := onHa (fun h => { h with flags := h.flags ||| f }) x

/-! ### Output -/

/-- Tokens that wait enter the exit queues while they have room. -/
def flushOut : List (Nat × Tok) → Core → Core
  | [], x => onHa (fun h => { h with outq := [] }) x
  | (ch, t) :: q, x =>
    if exitRoom x 76 ch 1 then flushOut q (emitTok 76 ch t x) else onHa (fun h => { h with outq := (ch, t) :: q }) x

/-- The HA moves its waiting tokens on. -/
def flushHa (c : Nat) (s : State) : State :=
  let q := (coreOf s c).haU.outq
  if q.isEmpty ∨ !tokensOn s c then s else moved c (flushOut q) s

/-- Queues tokens of the HA. -/
def queueHa (ts : List (Nat × Tok)) (x : Core) : Core := onHa (fun h => { h with outq := h.outq ++ ts }) x

/-! ### Weights as they leave (R50, R56, R206, R214, R218) -/

/-- A 64-bit net count clamped into a CNT carrier. -/
def clampNet (w : Word) : Nat := if w.toInt < 0 then 0 else min w.toNat 0xFFFFFFFF

/-- An accumulator of the HA as it leaves in a format, with the OVF that it sets in the HA's flags (R50, R218). -/
def leaveAs (x : Core) (f : Fmt) (m : RMode) (r : Nat) (v : X160) : Nat × FpFlags :=
  let o := leave (haGeo x).anchor f m r v
  (o.1, if v.ovf then o.2 ||| flagOVF else o.2)

/-- An accumulator of the HA in its own format and rounding. -/
def haLeave (x : Core) (r : Nat) (v : X160) : Nat × FpFlags := leaveAs x (haFmt x) (haRnd x) r v

/-- The weight of a SCALAR or EXACT entry as it leaves, with 16 SR bits. -/
def weightOut (x : Core) (e : HaSlot) (r : Nat) : Nat × FpFlags :=
  if (haGeo x).form = 1 then haLeave x r e.x
  else if haAlg x = .cnt then (clampNet e.weight, 0)
  else (e.weight.toNat, 0)

/-- The 1,024 values of a TILE entry, value i with the SR bits that r gives it. -/
def tileOut (x : Core) (e : HaSlot) (r : Nat → Nat) : List Nat × FpFlags :=
  let vs := (tileOf e.tile).zipIdx.map (fun (v, i) => haLeave x (r i) v)
  (vs.map (fun v => v.1), vs.foldl (fun a v => a ||| v.2) 0)

/-- Values packed into DATA tokens: four FP32, or eight BF16 with the lower index in the low half (R214). -/
def packVals (bf16 : Bool) (poison : Bool) : Nat → List Nat → List Tok
  | 0, _ => []
  | n + 1, vs =>
    let k := if bf16 then 8 else 4
    let w := if bf16 then 16 else 32
    let d := (vs.take k).zipIdx.foldl (fun d (v, i) => d + v % 2 ^ w * 2 ^ (w * i)) 0
    { data := BitVec.ofNat 128 d, lmask := 15, poison := poison } :: packVals bf16 poison n (vs.drop k)

/-- The tokens of 1,024 values. -/
def valToks (fmt : Fmt) (poison : Bool) (vs : List Nat) : List Tok :=
  if fmt = .bf16 then packVals true poison 128 vs else packVals false poison 256 vs

/-- The header of a drained TILE entry (R214). -/
def tileHeader (key : Word) (round : Nat) (poison : Bool) : Tok :=
  { data := quadOf (bits key.toNat 0 32) (bits key.toNat 32 32) (bits round 0 16) 0, kind := .ctrl, lmask := 7, poison := poison }

/-! ### Combining (R203 to R205) -/

/-- The entry takes CHANGED, and ROUND of the table (R204). -/
def markChanged (round : BitVec 16) (e : HaSlot) : HaSlot := { e with changed := true, round := round }

/-- A fresh entry (R202). -/
def freshSlot (g : Alg) (round : BitVec 16) (k : Word) : HaSlot :=
  { key := k, weight := BitVec.ofNat 64 (algZero g), round := round, changed := true }

/-- A scalar contribution in ACC. -/
def combineAcc (g : Alg) (round : BitVec 16) (v : Nat) (retract : Bool) (e : HaSlot) : HaSlot × FpFlags :=
  let w := e.weight.toNat
  let put := fun (n : Nat) => markChanged round { e with weight := BitVec.ofNat 64 n }
  match g with
  | .cnt => (put (if retract then w + 2 ^ 64 - v else w + v), 0)
  | .int32 => (put ((if retract then w + 2 ^ 32 - v % 2 ^ 32 else w + v) % 2 ^ 32), 0)
  | .int64 => (put ((if retract then w + 2 ^ 64 - v else w + v)), 0)
  | _ =>
    if retract then
      let e := { e with poison := true }
      (if g = .pnor then markChanged round e else e, flagNV)
    else
      let r := algAdd g w v
      (if g = .pnor ∨ r.1 ≠ w then put r.1 else e, r.2)

/-- A contribution in MAXW: the larger weight, and among equal ones the smaller witness (R205). -/
def combineMax (round : BitVec 16) (v : Nat) (wit : Word) (retract : Bool) (e : HaSlot) : HaSlot × FpFlags :=
  if retract then ({ e with poison := true }, flagNV)
  else if xisNan (f32 v) then (e, 0)
  else
    let cl := clamp01 (v, 0)
    let old := e.weight.toNat
    let new := markChanged round { e with weight := BitVec.ofNat 64 cl.1, wit := wit }
    if xbelow (f32 old) (f32 cl.1) then (new, cl.2)
    else if !xbelow (f32 cl.1) (f32 old) ∧ wit.toNat < e.wit.toNat then (new, cl.2)
    else (e, cl.2)

/-- The value of an FP32 addend, negated by a retraction. -/
def addend (v : Nat) (retract : Bool) : XVal := if retract then xneg (f32 v) else f32 v

/-- A contribution in EXACT. -/
def combineExact (α : Int) (round : BitVec 16) (v : Nat) (retract : Bool) (e : HaSlot) : HaSlot × FpFlags :=
  let x := addend v retract
  let alone := contribute α x { e.x with ovf := false, risk := false }
  (markChanged round { e with x := contribute α x e.x }, x160Flags alone)

/-- Tile values added to an entry: N modulo 2^160 and the OR of the sticky bits, without truncation; COUNT rises by n
(R200, R201). -/
def addTile (vals : Map X160) (n : Nat) (risk : Bool) (e : HaSlot) : HaSlot :=
  let c := satCount (e.x.count + n)
  let sum := fun (a b : X160) =>
    ({ n := a.n + b.n, pinf := a.pinf || b.pinf, ninf := a.ninf || b.ninf, nan := a.nan || b.nan, ovf := a.ovf || b.ovf } : X160)
  { e with tile := vals.foldl (fun m (i, v) => mapPut m i (sum (mapGet {} m i) v)) e.tile
           x := { e.x with count := c, risk := e.x.risk || risk || decide (65536 < c) } }

/-- A tile's contribution, with the flags that it sets in the HA. -/
def combineTile (vals : Map X160) (n : Nat) (risk poison : Bool) (round : BitVec 16) (e : HaSlot) : HaSlot × FpFlags :=
  let e' := markChanged round (addTile vals n risk e)
  let risky := risk || decide (65536 < satCount (e.x.count + n))
  ({ e' with poison := e.poison || poison }, (if vals.any (fun v => v.2.ovf) then flagOVF else 0) ||| (if risky then flagRISK else 0))

/-- The values of a tile that arrived on i0: each valid lane one addend, row-major (R201). -/
def tileVals (α : Int) (o : OpenTile) : Map X160 :=
  o.toks.zipIdx.foldl (fun m (t, i) => (upTo 4).foldl (fun m l =>
    if t.has l then mapPut m (4 * i + l) (contributeValue α (addend (t.lane l) (o.retract || t.retract)) {}) else m) m) []

/-! ### Absorbing (R202) -/

/-- A table that a DRAIN with CLR left clear takes the running graph's geometry again with the next contribution, which the spec
leaves without one (R199). DESIGN CHOICE: notes/assumptions/81.md. -/
def relatch (x : Core) : Core :=
  onHa (fun h => { h with tab := latchTable h.tab true (haGeom (selCfg x) (keptTensor x (bits (cfgPar (selCfg x) 12 3) 0 20)).emax) }) x

/-- Absorb: the entry of a key combines with a contribution; `after` consumes the tokens that carried it. A full window
spills first. -/
def absorbKey (c : Nat) (k : Word) (f : HaSlot → HaSlot × FpFlags) (after : Core → Core) (s : State) : State :=
  let s := onCore c relatch s
  let x := coreOf s c
  let put := fun (t : Table HaSlot) (p : Nat) (e : HaSlot) =>
    let r := f e
    tallyCore c 0x006 1 (moved c (fun x => after (haFlags r.2 (onHa (fun h => { h with tab := oweHa h.tab { t with slots := mapPut t.slots p r.1, blocked := none, retry := false } }) x))) s)
  match x.haU.tab.seek haEnt k true with
  | .at_ p e t => put t p e
  | .absent p => put x.haU.tab p (freshSlot (haAlg x) x.haU.round k)
  | .full => spillHa c s
  | .none => s

/-- i0's head leaves the HA, counted for the wave (R302). -/
def takeHa0 (x : Core) : Core :=
  let x' := popChan 76 0 x
  if (headTok x 76 0).any (fun t => t.kind == .data) then countTaken x' else x'

/-- i0's head leaves with the token paired to it on i1. -/
def takePair (paired : Bool) (x : Core) : Core := if paired then popChan 76 1 (takeHa0 x) else takeHa0 x

/-- Adds POISON to an entry for a poisoned contribution (R202). -/
def poisonBy (bad : Bool) (r : HaSlot × FpFlags) : HaSlot × FpFlags := ({ r.1 with poison := r.1.poison || bad }, r.2)

/-- The weight lanes of a token, when they are valid (R201). -/
def weightIn (x : Core) (t : Tok) : Option Nat :=
  if (haGeo x).form = 0 ∧ haAlg x = .int64 then (if t.has 2 && t.has 3 then some t.high.toNat else none)
  else if t.has 2 then some (if (haGeo x).form = 0 ∧ haAlg x = .bool then t.lane 2 % 2 else t.lane 2)
  else none

/-- The HA takes a MARK on i0; one of level 7 leaves together with one on i1 where witnesses are paired (R201). -/
def haMark (c : Nat) (t : Tok) (paired forward : Bool) (s : State) : State :=
  let x := coreOf s c
  let both := paired && t.ends
  if both ∧ !(headTok x 76 1).any Tok.ends then s
  else
    let send := forward && !(t.ends && x.haU.closed)
    moved c (fun x =>
      let x := if both then popChan 76 1 (popChan 76 0 x) else popChan 76 0 x
      let x := if send then queueHa [(0, t)] x else x
      onHa (fun h => { h with ended := h.ended || t.ends, closed := h.closed || (send && t.ends) }) x) s

/-- The open tile ends: its values are absorbed (R201). -/
def closeTile (c : Nat) (o : OpenTile) (early : Bool) (after : Core → Core) (s : State) : State :=
  let s := onCore c relatch s
  let x := coreOf s c
  absorbKey c o.key (combineTile (tileVals (haGeo x).anchor o) 1 false (o.poison || early) x.haU.round)
    (fun x => after (onHa (fun h => { h with openTile := none }) x)) s

/-- A DATA token of a TILE table; one that lacks a weight lane is discarded (R191, R201). -/
def tileData (c : Nat) (t : Tok) (s : State) : State :=
  match (if t.lmask = 15 then (coreOf s c).haU.openTile else none) with
  | none => moved c (fun x => haFlags flagNV (takeHa0 x)) s
  | some o =>
    let o := { o with toks := o.toks ++ [t], poison := o.poison || t.poison }
    if 256 ≤ o.toks.length then closeTile c o false takeHa0 s
    else moved c (fun x => onHa (fun h => { h with openTile := some o }) (takeHa0 x)) s

/-- A CTRL token: in a TILE table it opens a tile (R201); otherwise it is discarded (R191). -/
def tileOpen (c : Nat) (t : Tok) (s : State) : State :=
  let s := onCore c relatch s
  let x := coreOf s c
  let opens := (haGeo x).form == 2 && haMode x == 0 && x.haU.openTile.isNone && t.has 0 && t.has 1
  moved c (fun x =>
    let x := popChan 76 0 x
    if opens then onHa (fun h => { h with openTile := some { key := t.key, toks := [], retract := t.retract, poison := t.poison } }) x else x) s

/-- The witness that a token on i1 carries. -/
def witOf (w : Option Tok) : Word := match w with | some t => t.key | none => 0

/-- A DATA token of a SCALAR or EXACT table; the token paired with it has arrived. -/
def scalarData (c : Nat) (t : Tok) (w : Option Tok) (s : State) : State :=
  let s := onCore c relatch s
  let x := coreOf s c
  let take := takePair w.isSome
  match (if t.has 0 && t.has 1 then weightIn x t else none) with
  | none => moved c (fun x => haFlags flagNV (take x)) s
  | some v =>
    let bad := t.poison || w.any (fun w => w.poison)
    let f := fun (e : HaSlot) =>
      poisonBy bad (if (haGeo x).form = 1 then combineExact (haGeo x).anchor x.haU.round v t.retract e
        else if haMode x = 0 then combineAcc (haAlg x) x.haU.round v t.retract e
        else combineMax x.haU.round v (witOf w) t.retract e)
    absorbKey c t.key f take s

/-- A retraction in OVERDEL: an entry that holds the same witness takes DEL, and the retraction goes on (R207). -/
def overdelData (c : Nat) (t : Tok) (w : Option Tok) (s : State) : State :=
  let s := onCore c relatch s
  let x := coreOf s c
  let take := takePair w.isSome
  if !(t.has 0 && t.has 1 && (weightIn x t).isSome) then moved c (fun x => haFlags flagNV (take x)) s
  else
    match x.haU.tab.seek haEnt t.key false with
    | .full => spillHa c s
    | .none => moved c take s
    | .absent _ => moved c take s
    | .at_ p e tab =>
      let bad := t.poison || w.any (fun w => w.poison)
      let hit := w.isSome && e.wit == witOf w
      let e := if hit then markChanged x.haU.round { e with del := true, poison := e.poison || bad } else e
      moved c (fun x =>
        let x := onHa (fun h => { h with tab := oweHa h.tab { tab with slots := mapPut tab.slots p e, blocked := none, retry := false } }) (take x)
        if hit then queueHa [(0, { t with retract := true })] x else x) s

/-- A DATA token in PROBE (R206). -/
def probeData (c : Nat) (t : Tok) (s : State) : State :=
  let s := onCore c relatch s
  let x := coreOf s c
  if !(t.has 0 && t.has 1) then moved c (fun x => haFlags flagNV (takeHa0 x)) s
  else
    let e := x.haU.tab.look haEnt t.key
    let bad := t.poison || e.any (fun e => e.poison)
    let free := fun (i : Nat) => Config.freeWord (s.tick + i)
    let draw := fun (i : Nat) => srBits (free i).toNat
    if (haGeo x).form = 2 then
      match e with
      | none =>
        moved c (fun x => queueHa [(0, tileHeader t.key (free 0).toNat bad)] (takeHa0 x)) { s with tick := s.tick + 1 }
      | some e =>
        let v := tileOut x e draw
        let ts := tileHeader t.key e.round.toNat bad :: valToks (haFmt x) bad v.1
        moved c (fun x => queueHa (ts.map (fun t => (0, t))) (haFlags v.2 (takeHa0 x))) { s with tick := s.tick + 1024 }
    else
      let v : Nat × FpFlags := match e with
        | some e => if (haGeo x).form = 0 ∧ haAlg x = .int64 then ((free 0).toNat, 0) else weightOut x e (draw 0)
        | none => (if (haGeo x).form = 0 then algZero (haAlg x) else 0, 0)
      let r : Tok := { data := quadOf (t.lane 0) (t.lane 1) v.1 (t.lane 3), lmask := if e.isSome then 15 else 11, poison := bad }
      moved c (fun x => queueHa [(0, r)] (haFlags v.2 (takeHa0 x))) { s with tick := s.tick + 1 }

/-! ### The events of the HA -/

/-- The HA may take a token: its output has left, nothing pauses it, and its table takes contributions.
DEDUCED: notes/assumptions/60.md. -/
def haFree (s : State) (c : Nat) : Bool :=
  let h := (coreOf s c).haU
  tokensOn s c && hasOp (coreOf s c) 12 && h.outq.isEmpty && h.paused.isNone && !h.hold && !h.await && h.tab.open_ && !h.ended

/-- Witness tokens are paired: the mode asks for them and i1 has a route. -/
def haPaired (s : State) (c : Nat) : Bool := (haMode (coreOf s c) == 1 || haMode (coreOf s c) == 3) && fed s c 76 1

/-- i1 holds a token that leaves alone: a MARK below level 7, a SCALE or a CTRL (R191, R201).
DEDUCED: notes/assumptions/53.md. -/
def strayWitness (x : Core) : Bool :=
  (headTok x 76 1).any (fun w => (w.kind == .mark && decide (w.level < 7)) || w.kind == .scale || w.kind == .ctrl)

/-- The head of i0 is a retraction that OVERDEL handles. -/
def isOverdel (x : Core) : Bool := haMode x == 3 && (headTok x 76 0).any (fun t => t.kind == .data && t.retract)

/-- The spill of a unit is parked and its graph is being stopped by STOPG.ABORT (R350).
DEDUCED: notes/assumptions/43.md. -/
def abortsSpill (u : HashUnit) (s : State) (c : Nat) : Bool :=
  tokensOn s c && stopOf s c == some .abort && hasOp (coreOf s c) u.slot && (blockedOf u (coreOf s c)).isSome

/-- The parked spill of the HA is discarded with the contribution that asked for it; the table stays (R350).
DEDUCED: notes/assumptions/43.md. -/
def discardHa (x : Core) : Core :=
  let data := fun (ch : Nat) => (headTok x 76 ch).any (fun t => t.kind == .data)
  let tile := x.haU.openTile.isSome
  let x := onHa (fun h => { h with tab := { h.tab with pending := none, owed := [], blocked := none, retry := false }, openTile := none }) x
  if tile then x
  else if data 0 then popChan 76 0 (if data 1 then popChan 76 1 x else x)
  else { x with mt := { x.mt with jobs := match x.mt.jobs with | .give _ _ :: js => js | js => js } }

/-- The parked spill of the HS is discarded with the token that asked for it. -/
def discardHs (x : Core) : Core :=
  popChan 77 0 { x with hsU := { x.hsU with tab := { x.hsU.tab with pending := none, owed := [], blocked := none, retry := false } } }

/-- One step of the HA in ACC and MAXW, and of OVERDEL's other tokens (R201, R202).
DEDUCED: notes/assumptions/52.md. -/
def haAbsorb (c : Nat) (s : State) : State :=
  let s := flushHa c s
  let x := coreOf s c
  let paired := haPaired s c
  if abortsSpill .ha s c then moved c discardHa s
  else if !haFree s c ∨ haMode x = 2 then s
  else if paired ∧ strayWitness x then moved c (popChan 76 1) s
  else if isOverdel x then s
  else
    match headTok x 76 0 with
    | none => s
    | some t =>
      match t.kind with
      | .mark =>
        match x.haU.openTile with
        | some o => closeTile c o true id s
        | none => haMark c t paired (haMode x == 3) s
      | .scale => moved c (popChan 76 0) s
      | .ctrl => tileOpen c t s
      | .data =>
        if (haGeo (relatch x)).form = 2 then tileData c t s
        else if paired then
          match headTok x 76 1 with
          | some w => if w.kind = .data then scalarData c t (some w) s else s
          | none => s
        else scalarData c t none s

/-- One step of the HA in PROBE (R206). -/
def haProbe (c : Nat) (s : State) : State :=
  let s := flushHa c s
  let x := coreOf s c
  if !haFree s c ∨ haMode x ≠ 2 then s
  else
    match headTok x 76 0 with
    | none => s
    | some t =>
      match t.kind with
      | .mark => haMark c t false true s
      | .data => probeData c t s
      | _ => moved c (popChan 76 0) s

/-- A retraction meets OVERDEL (R207). DEDUCED: notes/assumptions/52.md. -/
def haOverdel (c : Nat) (s : State) : State :=
  let s := flushHa c s
  let x := coreOf s c
  if !haFree s c ∨ !isOverdel x then s
  else
    match headTok x 76 0 with
    | none => s
    | some t =>
      if haPaired s c then
        match headTok x 76 1 with
        | some w => if w.kind = .data then overdelData c t (some w) s else s
        | none => s
      else overdelData c t none s

def execHaAbsorb (core : Nat) (s : State) := done (haAbsorb core s)
def execHaProbe (core : Nat) (s : State) := done (haProbe core s)
def execHaOverdel (core : Nat) (s : State) := done (haOverdel core s)

/-! ### Tile transfers from the MT (R201, R227) -/

/-- The HA takes a tile from the MT: the values, COUNT and RISK of an accumulator under its key. `after` empties the
accumulator; it runs only when the HA took the tile. In PROBE it changes nothing (R206). -/
def takeTile (c : Nat) (key : Word) (a : AReg) (after : Core → Core) (s : State) : State :=
  let x := coreOf s c
  if x.haU.paused.isSome ∨ !x.haU.tab.open_ then s
  else if haMode x = 2 then moved c after s
  else
    absorbKey c key (combineTile a.x a.count a.risk a.poison x.haU.round) after s

/-! ### HACLR and HSCLR (R217) -/

/-- A running graph of the core configures a unit. -/
def unitRuns (s : State) (c slot : Nat) : Bool := graphRuns s c && hasOp (coreOf s c) slot

/-- The table made clear: every slot zero, every run abandoned, no geometry. -/
def clearHa (x : Core) : Core := onHa (fun h => { h with tab := {}, round := 0 }) x

def execHaclr (s : State) :=
  done (
    if unitRuns s s.turn 12 then trapAt causePerm 12 s
    else if !(coreOf s s.turn).haU.tab.idle then onPilot s.turn (fun p => { p with stage := .drainWait }) s
    else advance (onCore s.turn clearHa s))

def execHsclr (s : State) :=
  done (
    if unitRuns s s.turn 13 then trapAt causePerm 13 s
    else if !(coreOf s s.turn).hsU.tab.idle then onPilot s.turn (fun p => { p with stage := .drainWait }) s
    else advance (onCore s.turn (fun x => { x with hsU := { x.hsU with tab := {} } }) s))

/-! ### DRAIN (R218) -/

/-- An entry to drain with its rank in key order. -/
def rankedEntries (ord chg : Bool) (t : Table HaSlot) : List (Nat × HaSlot) :=
  let l := (t.live haEnt).filter (fun e => !chg || e.changed)
  let sorted := sortKeys (fun e => e.key) l
  if ord then sorted.zipIdx.map (fun (e, i) => (i, e)) else l.map (fun e => (sorted.idxOf e, e))

/-- The SR bits of value j of the entry of a rank (R55). -/
def drainBits (x : Core) (rank j : Nat) : Nat :=
  let z := mapGet {} x.sg.z (haField x 3 20 6)
  srBits (drawZ z.k (z.c + BitVec.ofNat 64 ((if (haGeo x).form = 2 then 1024 * rank else rank) + j)))

/-- Out(e) with its witness token, and the flags of its rounding. -/
def entryToks (x : Core) (rank : Nat) (e : HaSlot) : List (Nat × Tok) × FpFlags :=
  if (haGeo x).form = 2 then
    let v := tileOut x e (drainBits x rank)
    ((tileHeader e.key e.round.toNat e.poison :: valToks (haFmt x) e.poison v.1).map (fun t => (0, t)), v.2)
  else
    let v := weightOut x e (drainBits x rank 0)
    let wide := (haGeo x).form == 0 && haAlg x == .int64
    let d := quadOf (bits e.key.toNat 0 32) (bits e.key.toNat 32 32) (bits v.1 0 32) (if wide then bits v.1 32 32 else e.round.toNat)
    let w : Tok := { data := BitVec.ofNat 128 e.wit.toNat, lmask := 3 }
    ([(0, ({ data := d, lmask := 15, poison := e.poison } : Tok))] ++ (if haField x 0 14 1 = 1 then [(1, w)] else []), v.2)

/-- Record(e) of an address drain; the weight field of a TILE record is 0 (R313, R218). -/
def entryRecord (x : Core) (rank : Nat) (e : HaSlot) : List Byte × FpFlags :=
  let head := fun (w : Nat) => toBytes 8 e.key.toNat ++ toBytes 8 w ++ toBytes 8 e.wit.toNat ++ toBytes 2 e.round.toNat ++
    toBytes 2 e.flagBits ++ toBytes 4 0
  if (haGeo x).form = 2 then
    let v := tileOut x e (drainBits x rank)
    (head 0 ++ v.1.flatMap (toBytes (if haFmt x = .bf16 then 2 else 4)), v.2)
  else
    let v := weightOut x e (drainBits x rank 0)
    (head v.1, v.2)

/-- What a finished drain changes in the table and the stream (R55, R218). -/
def drainTable (chg clr : Bool) (n : Nat) (x : Core) : Core :=
  let rounds := haRnd x == .sr
  let z := haField x 3 20 6
  let old : Stream := mapGet {} x.sg.z z
  let x := if rounds then
      { x with sg := { x.sg with z := mapPut x.sg.z z { old with c := old.c + BitVec.ofNat 64 (if (haGeo x).form = 2 then 1024 * n else n) } } }
    else x
  let x := if chg then onHa (fun h => { h with tab := oweHa h.tab (h.tab.mapAll (fun e => { e with changed := false })), round := h.round + 1 }) x else x
  if clr then clearHa x else x

/-- The end of a DRAIN: the counter, gd, and absorption goes on. -/
def endDrain (gd : Reg) (chg clr : Bool) (k : Option Ctr) (n : Nat) (s : State) : State :=
  let c := s.turn
  let s := onCore c (fun x => onHa (fun h => { h with paused := none }) (drainTable chg clr n x)) s
  let s := match k with | some k => raiseCounter c k.toNat 1 s | none => s
  writeBack gd (BitVec.ofNat 64 n) s

/-- The drain of the entries to o0 begins: absorption pauses and the tokens wait to leave (R218). -/
def beginDrain (c : Nat) (ord chg : Bool) (mark : Option Nat) (s : State) : State :=
  let x := coreOf s c
  let es := rankedEntries ord chg x.haU.tab
  let outs := es.map (fun (i, e) => entryToks x i e)
  let m := match mark with
    | some l => (0, markTok l false false) :: (if haField x 0 14 1 = 1 then [(1, markTok l false false)] else [])
    | none => []
  let f := outs.foldl (fun a o => a ||| o.2) 0
  onCore c (fun x => onHa (fun h => { h with paused := some es.length, closed := h.closed || mark == some 7 })
    (queueHa (outs.flatMap (fun o => o.1) ++ m) (haFlags f x))) s

/-- Every record of an address drain. -/
def drainRecords (c : Nat) (ord chg : Bool) (s : State) : Nat × List Byte × FpFlags :=
  let x := coreOf s c
  let es := rankedEntries ord chg x.haU.tab
  let rs := es.map (fun (i, e) => entryRecord x i e)
  (es.length, rs.flatMap (fun r => r.1), rs.foldl (fun a r => a ||| r.2) 0)

/-- The pilot waits inside an instruction that has paused absorption. -/
def waitPaused (c : Nat) (s : State) : State :=
  onCore c (fun x => onHa (fun h => { h with paused := some (h.paused.getD 0) }) { x with pilot := { x.pilot with stage := .drainWait } }) s

/-- A DRAIN's tokens have left, or its records are performed; the pilot's later loads see the records (R218, R275,
notes/assumptions/34.md). -/
def drainDone (gd : Reg) (a : Nat) (chg clr : Bool) (k : Option Ctr) (s : State) : State :=
  let c := s.turn
  let n := (coreOf s c).haU.paused.getD 0
  if a ≠ 0 then (if farSettled s (.fabric c) then endDrain gd chg clr k n (acquire c s) else s)
  else if (coreOf s c).haU.outq.isEmpty then endDrain gd chg clr k n s
  else s

/-- The fault of an address drain, with its service record when Translate raised it; it waits, absorption paused, while the record
has no room (R218, R345). -/
def drainFault (c cause va : Nat) (s : State) : State :=
  let again := fun (s : State) => onCore c (fun x => onHa (fun h => { h with paused := none }) { x with pilot := { x.pilot with stage := .none } }) s
  let v := viewOf s c
  let r : Report := { code := cause, val := BitVec.ofNat 64 va, source := 0, page := va / pageSize v.page2m, write := true }
  let tr := match translate s v va .write with | .fault _ _ _ => true | _ => false
  if !needsSvc cause tr then trapAt cause r.val (again s)
  else if svcRoom s then trapAt cause r.val (again (svcEmit (svcOf s c r) s))
  else waitPaused c s

/-- DRAIN to memory: every record is written, or the fault's address traps with the table unchanged (R218). -/
def drainToMemory (gd : Reg) (a : Nat) (ord chg clr : Bool) (k : Option Ctr) (s : State) : State :=
  let c := s.turn
  let (n, bs, f) := drainRecords c ord chg s
  match firstFault (viewOf s c) (bs.length / 64 + 2) a bs.length s with
  | some (cause, va) => drainFault c cause va s
  | none =>
    match writeFlat s (some (.fabric c)) (viewOf s c) a (bs.map some) false with
    | .ok _ s =>
      let written := fun (x : Core) => onHa (fun h => { h with paused := some n }) { haFlags f x with pilot := { x.pilot with stage := .drain } }
      drainDone gd a chg clr k (onCore c written s)
    | .fault cause _ s => drainFault c cause a s
    | .wait s => waitPaused c s

/-- The HA is between contributions: no spill or move-in is in progress, and its tokens have left (R219). -/
def haSettled (x : Core) : Bool := x.haU.tab.idle && x.haU.tab.blocked.isNone && x.haU.outq.isEmpty && x.haU.paused.isNone

/-- Goes on once the HA is settled. From the issue of the instruction absorption waits, while a spill or a move-in is in progress
too (R218, R219, R334, R337). -/
def awaitHa (s : State) (go : State → State) : State :=
  let c := s.turn
  let s := flushHa c s
  let own := (pilot s).stage = .drainWait
  if haSettled (if own then onHa (fun h => { h with paused := none }) (coreOf s c) else coreOf s c) then go s
  else if own ∨ (coreOf s c).haU.paused.isSome then s
  else waitPaused c s

/-- DRAIN (R218). -/
def drainInstr (ord chg clr : Bool) (gd ga : Reg) (mark : Option Nat) (k : Option Ctr) (s : State) : State :=
  let c := s.turn
  let a := (reg s ga).toNat
  if (pilot s).stage = .drain then drainDone gd a chg clr k (flushHa c s)
  else if (pilot s).stage ≠ .drainWait ∧ a % 32 ≠ 0 then trapAt causeAlign (reg s ga) s
  else if (pilot s).stage ≠ .drainWait ∧ a = 0 ∧ !(unitRuns s c 12 && routed (coreOf s c) 76 0) then trapAt causePerm 12 s
  else
    awaitHa s fun s =>
      if a ≠ 0 then drainToMemory gd a ord chg clr k s
      else onPilot c (fun p => { p with stage := .drain }) (beginDrain c ord chg mark s)

def execDrain (ord chg clr : Bool) (gd ga : Reg) (lvl : BitVec 3) (marken : Bool) (k : Ctr) (ken : Bool) (s : State) :=
  done (drainInstr ord chg clr gd ga (if marken then some lvl.toNat else none) (if ken then some k else none) s)

/-! ### The hash set (R210, R211) -/

/-- The HS puts an entry at a position. -/
def putHs (t : Table HsSlot) (p : Nat) (e : HsSlot) (x : Core) : Core :=
  { x with hsU := { x.hsU with tab := oweHs x.hsU.tab { t with slots := mapPut t.slots p e, blocked := none, retry := false } } }

/-- What a token that reached an entry does in DEDUP and COUNT: the entry after it, and whether the token is emitted. -/
def hsApply (mode : Nat) (retract : Bool) (e : HsSlot) : HsSlot × Bool :=
  if mode = 0 then (if e.count = 0 then ({ e with count := 1 }, true) else (e, false))
  else if retract then
    if e.count = 0 ∨ e.count = 0xFFFFFFFF then (e, false) else ({ e with count := e.count - 1 }, e.count == 1)
  else ({ e with count := min (e.count + 1) 0xFFFFFFFF }, e.count == 0)

/-- A DATA token of the HS whose key lanes are valid. -/
def hsData (c : Nat) (t : Tok) (s : State) : State :=
  let x := coreOf s c
  let mode := opField x 13 0 0 2
  let out := fun (t : Tok) (x : Core) => emitTok 77 0 t (popChan 77 0 x)
  if mode = 0 ∧ t.retract then moved c (out t) s
  else if 2 ≤ mode then
    let e := x.hsU.tab.look hsEnt t.key
    let here := e.any (fun e => e.count != 0)
    let bad := t.poison || e.any (fun e => e.poison)
    moved c (if here == (mode == 2) then out { t with poison := bad } else popChan 77 0) s
  else
    let put := fun (tab : Table HsSlot) (p : Nat) (e : HsSlot) =>
      let e := { e with poison := e.poison || t.poison }
      let r := hsApply mode t.retract e
      moved c (fun x => putHs tab p r.1 (if r.2 then out { t with poison := e.poison } x else popChan 77 0 x)) s
    match x.hsU.tab.seek hsEnt t.key (!t.retract) with
    | .at_ p e tab => put tab p e
    | .absent p => put x.hsU.tab p { key := t.key }
    | .full => spillHs c s
    | .none => moved c (popChan 77 0) s

/-- One token of the HS. -/
def hsToken (c : Nat) (s : State) : State :=
  let s := onCore c (fun x => if hasOp x 13 ∧ tokensOn s c then { x with hsU := { x.hsU with tab := latchTable x.hsU.tab true (hsGeom (selCfg x)) } } else x) s
  let x := coreOf s c
  if abortsSpill .hs s c then moved c discardHs s
  else if !tokensOn s c ∨ !hasOp x 13 ∨ x.hsU.ended ∨ !x.hsU.tab.open_ ∨ !exitRoom x 77 0 1 then s
  else
    match headTok x 77 0 with
    | none => s
    | some t =>
      match t.kind with
      | .mark => moved c (fun x => let x := emitTok 77 0 t (popChan 77 0 x); { x with hsU := { x.hsU with ended := t.ends } }) s
      | .data =>
        if t.has 0 && t.has 1 then hsData c t s
        else moved c (fun x => let x := popChan 77 0 x; { x with hsU := { x.hsU with flags := x.hsU.flags ||| flagNV } }) s
      | _ => moved c (popChan 77 0) s

def execHsToken (core : Nat) (s : State) := done (hsToken core s)

end Sys2Proof.Machine
end

