-- ==== Sys2Proof/Machine/Tensor.lean ====
section
/-! DEFINITION. The tensor operators (spec/11): the matrix tile engine (R220 to R231), selection (R232, R233), the sampler
(R234 to R236), the width converter (R237), and RNGSET, RNGGET and TBLLD (R239 to R241). -/

namespace Sys2Proof.Machine

/-! ### Parameters and registers of the MT -/

/-- A parameter word of the MT, as the parameter port left it (R229). -/
def mtPar (x : Core) (i : Nat) : Nat := match mapFind x.mt.words i with | some v => v | none => opPar x 14 i

/-- The word of register n (R221). -/
def mtReg (x : Core) (n : Nat) : Nat := mtPar x (5 + n)

def onMt (f : Mt → Mt) (x : Core) : Core := { x with mt := f x.mt }
def tRegOf (x : Core) (n : Nat) : TReg := mapGet {} x.mt.t n
def putT (n : Nat) (r : TReg) (x : Core) : Core := onMt (fun m => { m with t := mapPut m.t n r }) x
def aRegOf (x : Core) (a : Nat) : AReg := mapGet {} x.mt.a a
def putA (a : Nat) (r : AReg) (x : Core) : Core := onMt (fun m => { m with a := mapPut m.a a r }) x
def mtFlags (f : FpFlags) (x : Core) : Core := onMt (fun m => { m with flags := m.flags ||| f }) x

/-- The codebook register of a number; the default table until it is loaded (R41, R230). -/
def cbOf (x : Core) (n : Nat) : List Nat := mapGet defaultCodebook x.mt.cb n

def mtFmtOf (x : Core) (n : Nat) : Fmt := (fmtOf (bits (mtReg x n) 4 4)).getD .bf16

/-- The register that a channel fills. -/
def regOn (x : Core) (ch : Nat) : Option Nat :=
  (upTo 8).find? (fun n => bits (mtReg x n) 0 2 == 1 && bits (mtReg x n) 2 2 == ch)

/-- The channel is the parameter port. -/
def isPort (x : Core) (ch : Nat) : Bool := bit (mtPar x 33) 2 && bits (mtPar x 33) 0 2 == ch

/-- The valid operations, with their numbers. -/
def mtOps (x : Core) : List (Nat × Nat) := ((upTo 4).map (fun m => (m, mtPar x (29 + m)))).filter (fun e => bit e.2 0)

/-- The destination of an operation word: A0, A1, or the current accumulator (R226). -/
def mtDst (x : Core) (w : Nat) : Nat := if bits w 8 2 = 2 then ofBool x.mt.ping else bits w 8 2

/-- The operations whose k-loop a channel closes. -/
def closedBy (x : Core) (ch : Nat) : List Nat := ((mtOps x).map (fun e => e.2)).filter (fun w => bits w 10 2 == ch)

/-- The accumulators that the channel's next close will close. -/
def closeTargets (x : Core) (ch : Nat) : List Nat := (upTo 2).filter (fun a => (closedBy x ch).any (fun w => mtDst x w == a))

/-- The MT takes tokens on a channel: it runs, and the channel has not ended. -/
def mtOn (s : State) (c ch : Nat) : Bool :=
  tokensOn s c && hasOp (coreOf s c) 14 && !(coreOf s c).mt.ended && !(coreOf s c).mt.endedCh.contains ch

/-- The register becomes EMPTY; its bytes stay. -/
def emptied (clk : Nat) (r : TReg) : TReg := { data := r.data, seq := r.seq, filled := r.filled, ready := clk + 1 }

/-- The register becomes FULL on the next clk, with a copy of its codebook when it is C4 (R223, R230). -/
def becomeFull (x : Core) (clk n : Nat) (r : TReg) : TReg :=
  { r with full := true, cursor := 0, ready := clk + 2, cb := if mtFmtOf x n = .c4 then cbOf x (bits (mtReg x n) 8 1) else [] }

/-! ### Filling from channels (R223, R224) -/

/-- Scales of a fill (R223). -/
def scalesOf (x : Core) (n : Nat) : Nat := mtRows (mtReg x n) * mtCols (mtReg x n) / 32

/-- The register is complete: 256 DATA tokens and its scales. -/
def fillDone (x : Core) (n : Nat) (r : TReg) : Bool :=
  r.pos == 4096 && (!bit (mtReg x n) 9 || decide (scalesOf x n ≤ r.nscales))

/-- 16 bytes of a DATA token; lanes without a value are zero. -/
def tokBytes (t : Tok) : List Byte := (upTo 4).flatMap (fun l => toBytes 4 (if t.has l then t.lane l else 0))

/-- A DATA or SCALE token enters register n (R223). -/
def fillWith (clk n : Nat) (t : Tok) (x : Core) : Core :=
  let r := tRegOf x n
  let r := { r with poison := r.poison || t.poison }
  let fin := fun (r : TReg) (x : Core) => putT n (if fillDone x n r then becomeFull x clk n r else r) x
  if t.kind = .data then fin { r with data := memStore r.data r.pos (tokBytes t), pos := r.pos + 16 } x
  else if !bit (mtReg x n) 9 then mtFlags flagNV (putT n r x)
  else if scalesOf x n ≤ r.nscales then putT n { r with poison := true } x
  else
    let put := (upTo 16).foldl (fun m i => mapPut m (r.nscales + i) (bits t.data.toNat (8 * i) 8)) r.scales
    fin { r with scales := put, nscales := r.nscales + 16 } x

/-- A poisoned token of a fill channel, whatever its kind, sets the poison bit of the register (R223). -/
def soilReg (ch : Nat) (t : Tok) (x : Core) : Core :=
  match regOn x ch with
  | some n => if t.poison then putT n { tRegOf x n with poison := true } x else x
  | none => x

/-- The class of a CTRL token (R224). -/
def ctrlClass (t : Tok) : Nat := bits (t.lane 3) 28 4

/-- A KEY token sets the pending keys of the accumulators that the channel's next close will close (R224). -/
def takeKey (ch : Nat) (k : Word) (x : Core) : Core :=
  (closeTargets x ch).foldl (fun x a => putA a { aRegOf x a with key := k } x) x

/-- A CTRL token that brings no codebook and no parameter. -/
def takeCtrl (ch : Nat) (t : Tok) (x : Core) : Core :=
  if ctrlClass t = 0 then x
  else if ctrlClass t = 3 ∧ !(closedBy x ch).isEmpty then takeKey ch t.key x
  else mtFlags flagNV x

/-- A fill channel's token that is no MARK and belongs to no codebook (R223, R224). -/
def mtFillToken (c ch : Nat) (s : State) : State :=
  let x := coreOf s c
  match regOn x ch, headTok x 78 ch with
  | some n, some t =>
    let r := tRegOf x n
    let book := (t.kind == .data && (mapFind x.mt.cbFill ch).isSome) || (t.kind == .ctrl && ctrlClass t == 1)
    if !mtOn s c ch ∨ r.full ∨ t.kind = .mark ∨ book ∨ (t.kind = .data ∧ r.pos = 4096) then s
    else if t.kind = .ctrl then
      moved c (fun x => soilReg ch t (takeCtrl ch t (popChan 78 ch x))) s
    else moved c (fun x => fillWith s.cycle n t (popChan 78 ch x)) s
  | _, _ => s

def execMtFillToken (core ch : Nat) (s : State) := done (mtFillToken core ch s)

/-- Eight codebook entries of a DATA token (R224). -/
def bookEntries (t : Tok) : List Nat := (upTo 4).flatMap (fun j => [bits (t.lane j) 0 16, bits (t.lane j) 16 16])

/-- The channel's register, if it fills one, is EMPTY. -/
def regEmpty (x : Core) (ch : Nat) : Bool := match regOn x ch with | some n => !(tRegOf x n).full | none => true

/-- The port takes tokens: no operation runs, no accumulator is in ACC, and no register is partly filled (R229). -/
def portOpen (x : Core) : Bool :=
  x.mt.firing.isNone && (upTo 2).all (fun a => (aRegOf x a).tag != .acc) &&
  x.mt.t.all (fun (_, r) => r.full || (r.pos == 0 && r.nscales == 0))

/-- A codebook token: its header, then its two DATA tokens; poison in one is lost metadata, which the port that read it reports; one
that no port read has a free TRAPVAL (R224, R347).
DEDUCED: notes/assumptions/56.md. -/
def codebookToken (c ch : Nat) (s : State) : State :=
  let x := coreOf s c
  match headTok x 78 ch with
  | none => s
  | some t =>
    if !mtOn s c ch ∨ !regEmpty x ch ∨ (isPort x ch ∧ !portOpen x) ∨ !((regOn x ch).isSome || isPort x ch) then s
    else if t.kind = .ctrl ∧ ctrlClass t = 1 then
      moved c (fun x =>
        soilReg ch t (onMt (fun m => { m with cbFill := mapPut m.cbFill ch { reg := bits (t.lane 3) 0 1, poison := t.poison, lost := t.lost } }) (popChan 78 ch x))) s
    else
      match t.kind, mapFind x.mt.cbFill ch with
      | .data, some b =>
        let es := b.entries ++ bookEntries t
        let bad := b.poison || t.poison
        let lost := b.lost.or t.lost
        if es.length < 16 then
          moved c (fun x =>
            soilReg ch t (onMt (fun m => { m with cbFill := mapPut m.cbFill ch { b with entries := es, poison := bad, lost := lost } }) (popChan 78 ch x))) s
        else
          let end_ := fun (x : Core) => soilReg ch t (onMt (fun m => { m with cbFill := mapDel m.cbFill ch }) (popChan 78 ch x))
          if bad then
            if !reportRoom s ((lost.map (·.1)).getD c) then s
            else
              match lost with
              | some (d, r) => report d r (moved c end_ s)
              | none =>
                let (v, s) := freeVal s
                report c { code := causeMdpoison, val := v, source := 9, slot := 14, ch := ch } (moved c end_ s)
          else moved c (fun x => onMt (fun m => { m with cb := mapPut m.cb b.reg es }) (end_ x)) s
      | _, _ => s

def execCodebook (core ch : Nat) (s : State) := done (codebookToken core ch s)

/-! ### Filling from the scratchpad (R225) -/

/-- The rows of tile t of a register's sequence: offset and length of each. -/
def tileRows (x : Core) (n t : Nat) : List (Nat × Nat) :=
  let d0 := mtPar x (13 + 2 * n)
  let d1 := mtPar x (14 + 2 * n)
  let rows := mtRows (mtReg x n)
  (upTo rows).map (fun r => (bits d0 0 18 + t * bits d1 16 16 + r * bits d1 0 16, 4096 / rows))

/-- A scratchpad-fed register is EMPTY and its gate is open (R225). -/
def fillReady (x : Core) (n : Nat) : Bool :=
  let w := mtReg x n
  let r := tRegOf x n
  let rise := (x.counters.toList.getD (bits w 25 6) 0 - mapGet 0 x.mt.gate0 (bits w 25 6)).toNat
  bits w 0 2 == 2 && !r.full && (!bit w 31 || decide (r.filled + 1 ≤ rise))

/-- Makes every row of a tile ready in the stash windows. -/
def touchRows (c : Nat) : List (Nat × Nat) → State → Bool × State
  | [], s => (true, s)
  | (o, n) :: rest, s =>
    let (a, s) := fabricTouch c o n s
    let (b, s) := touchRows c rest s
    (a && b, s)

/-- A scratchpad-fed register takes its next tile, the lowest waiting register first (R225). -/
def mtScratchFill (c n : Nat) (s : State) : State :=
  let x := coreOf s c
  if !tokensOn s c ∨ !sourcesOn s c ∨ !hasOp x 14 ∨ x.mt.ended ∨ !fillReady x n ∨ (upTo n).any (fillReady x) then s
  else
    let r := tRegOf x n
    let rows := tileRows x n r.seq
    let (ok, s) := touchRows c rows s
    if !ok then s
    else
      let s := if bit (mtReg x n) 31 then acquireFabric c s else s
      let bs := rows.flatMap (fun (o, k) => memBytes (coreOf s c).scratch o k)
      let bad := rows.any (fun (o, k) => scratchBad (coreOf s c) o k)
      moved c (fun x => putT n { becomeFull x s.cycle n { r with data := memStore [] 0 bs, poison := r.poison || bad } with
        seq := (r.seq + 1) % max 1 (bits (mtReg x n) 14 11), filled := r.filled + 1 } x) s

def execMtScratchpadFill (core t : Nat) (s : State) := done (if t < 8 then mtScratchFill core t s else s)

/-! ### Firing (R226) -/

/-- Tiles per clk that a format allows: BF16 1, the 8-bit formats 2, the 4-bit formats 4. -/
def mtRate (f : Fmt) : Nat := match f with | .bf16 => 1 | .e2m1 => 4 | .c4 => 4 | _ => 2

/-- Value of R226: element (i, col) of a register, scaled by its block. -/
def tileValue (x : Core) (n : Nat) (r : TReg) (i col : Nat) : XVal :=
  let f := mtFmtOf x n
  let w := fmtWidth f
  let cols := mtCols (mtReg x n)
  let at_ := (i * cols + col) * w
  let code := bits (memNat r.data (at_ / 8) ((w + 7) / 8)) (at_ % 8) w
  if bit (mtReg x n) 9 then decodeScaled f r.cb (mapGet 0x7F r.scales (i * ceilDiv cols 32 + col / 32)) code else decodeFmt f r.cb code

/-- One product or squared difference, exact, contributed to an entry; NV where the term is a NaN made of numbers, OVF where
it passes the grid (R45, R50). -/
def contributeTerm (α : Int) (sqd : Bool) (a b : XVal) (e : X160 × FpFlags) : X160 × FpFlags :=
  let d := xadd .rne a (xneg b)
  let v := if sqd then xmul d d else xmul a b
  let made := xisNan v && !xisNan a && !xisNan b
  let n := contributeValue α v { e.1 with ovf := false }
  ({ n with ovf := n.ovf || e.1.ovf }, e.2 ||| (if n.ovf then flagOVF else 0) ||| (if made then flagNV else 0))

/-- Fire of R226 over k columns. -/
def fireTile (x : Core) (w dst k : Nat) : AReg × FpFlags :=
  let a := bits w 2 3
  let b := bits w 5 3
  let ra := tRegOf x a
  let rb := tRegOf x b
  let d := aRegOf x dst
  let α := mapGet 0 x.mt.anchors dst
  let cells := (upTo (mtRows (mtReg x a))).flatMap (fun i => (upTo (mtRows (mtReg x b))).map (fun j => (i, j)))
  let r := cells.foldl (fun (m : Map X160 × FpFlags) (i, j) =>
    let e := (upTo k).foldl (fun e t =>
      contributeTerm α (bit w 1) (tileValue x a ra i (ra.cursor + t)) (tileValue x b rb j (rb.cursor + t)) e) (mapGet {} m.1 (32 * i + j), m.2)
    (mapPut m.1 (32 * i + j) e.1, e.2)) (d.x, 0)
  let n := satCount (d.count + k)
  let risky := decide (65536 < n)
  ({ d with tag := .acc, x := r.1, count := n, risk := d.risk || risky, poison := d.poison || ra.poison || rb.poison },
   r.2 ||| (if risky then flagRISK else 0))

/-- The cursor of a register after a firing (R226). -/
def stepCursor (clk k n : Nat) (x : Core) : Core :=
  let r := tRegOf x n
  let at_ := r.cursor + k
  if at_ < mtCols (mtReg x n) then putT n { r with cursor := at_, ready := clk + 1 } x
  else if bit (mtReg x n) 10 then putT n { r with cursor := 0, ready := clk + 1 } x
  else putT n (emptied clk r) x

/-- The lowest-numbered valid operation that may start. -/
def nextFiring (x : Core) (clk : Nat) : Option (Nat × Nat) :=
  let ok := fun (n : Nat) => (tRegOf x n).full && decide ((tRegOf x n).ready ≤ clk)
  (mtOps x).find? (fun (_, w) => ok (bits w 2 3) && ok (bits w 5 3) && (aRegOf x (mtDst x w)).tag != .full)

/-- An operation starts in the free array (R226). -/
def mtFire (c : Nat) (s : State) : State :=
  let x := coreOf s c
  if !tokensOn s c ∨ !hasOp x 14 ∨ x.mt.firing.isSome then s
  else
    match nextFiring x s.cycle with
    | none => s
    | some (m, w) =>
      let a := bits w 2 3
      let b := bits w 5 3
      let k := min (mtCols (mtReg x a) - (tRegOf x a).cursor) (mtCols (mtReg x b) - (tRegOf x b).cursor)
      let q := min (mtRate (mtFmtOf x a)) (mtRate (mtFmtOf x b))
      moved c (onMt (fun t => { t with firing := some { op := m, dst := mtDst x w, k := k, until_ := s.cycle + ceilDiv k q } })) (tallyCore c 0x005 (ceilDiv k q) s)

def execMtFire (core : Nat) (s : State) := done (mtFire core s)

/-- The operation ends: its sums, and the cursors and tags of its registers (R226). -/
def mtFireEnd (c : Nat) (s : State) : State :=
  let x := coreOf s c
  match x.mt.firing with
  | none => s
  | some f =>
    if !fabricOn s c ∨ s.cycle < f.until_ then s
    else
      let w := mtPar x (29 + f.op)
      let (d, fl) := fireTile x w f.dst f.k
      let regs := [bits w 2 3, bits w 5 3].eraseDups
      moved c (fun x =>
        regs.foldl (fun x n => stepCursor s.cycle f.k n x) (onMt (fun m => { m with firing := none }) (mtFlags fl (putA f.dst d x)))) s

def execMtFireEnd (core : Nat) (s : State) := done (mtFireEnd core s)

/-! ### Closing and draining (R227) -/

/-- The MT ends once every fill channel and the parameter port have ended and every drain has left (R227). -/
def mtFinish (c : Nat) (s : State) : State :=
  let x := coreOf s c
  let open_ := (upTo 4).any (fun ch => ((regOn x ch).isSome || isPort x ch) && !x.mt.endedCh.contains ch)
  if open_ ∨ !x.mt.jobs.isEmpty ∨ x.mt.firing.isSome ∨ x.mt.ended then s
  else
    let dest := mtFeedsHa x
    onCore c (fun x => onHa (fun h => { h with mtEnded := h.mtEnded || dest }) (onMt (fun m => { m with ended := true }) x)) s

/-- One accumulator closes: FULL with its pending key, or cleared by an abort (R227). -/
def closeAcc (abort toHa : Bool) (x : Core) (a : Nat) : Core :=
  let d := aRegOf x a
  let x' := putA a { d with key := 0 } x
  if d.tag ≠ .acc then x'
  else if abort then putA a {} x
  else
    let job := if toHa then MtJob.give a d.key else MtJob.drain a d.key 0
    onMt (fun m => { m with jobs := m.jobs ++ [job] }) (putA a { d with tag := .full, key := 0, anchor := mapGet 0 x.mt.anchors a } x)

/-- A MARK at the head of an MT channel (R227). -/
def mtClose (c ch : Nat) (s : State) : State :=
  let x := coreOf s c
  match headTok x 78 ch with
  | none => s
  | some t =>
    let idle : Bool := match regOn x ch with
      | some n => !(tRegOf x n).full && (tRegOf x n).pos == 0 && (tRegOf x n).nscales == 0
      | none => isPort x ch && portOpen x
    let closes := !(closedBy x ch).isEmpty && decide (bits (mtPar x 0) 15 3 ≤ t.level)
    let targets := closeTargets x ch
    let busy := x.mt.firing.any (fun f => targets.contains f.dst) || targets.any (fun a => (aRegOf x a).tag == .full)
    if !mtOn s c ch ∨ t.kind ≠ .mark ∨ !idle ∨ (closes ∧ busy) then s
    else
      let toHa := mtFeedsHa x
      let s := moved c (fun x =>
        let x := soilReg ch t (popChan 78 ch x)
        let x := if closes then
            let pings := (closedBy x ch).any (fun w => bits w 8 2 == 2)
            let x := targets.foldl (closeAcc t.abort toHa) x
            onMt (fun m => { m with ping := m.ping != pings, jobs := if toHa then m.jobs else m.jobs ++ [.mark t] }) x
          else x
        onMt (fun m => { m with endedCh := if t.ends then ch :: m.endedCh else m.endedCh }) x) s
      mtFinish c s

def execMtClose (core ch : Nat) (s : State) := done (mtClose core ch s)

/-- Token n of the drain of an accumulator to o0, and its flags (R214, R227). -/
def drainTok (x : Core) (a : Nat) (key : Word) (n : Nat) : Tok × FpFlags :=
  let w := mtPar x 0
  let d := aRegOf x a
  let fmt := (fmtOf (bits w 5 4)).getD .fp32
  let per := if fmt = .bf16 then 8 else 4
  let row := 32 / per
  let len := row + ofBool (bit w 21)
  let z := mapGet {} x.sg.z (bits w 9 6)
  let α := d.anchor
  if n = 0 then ({ data := BitVec.ofNat 128 key.toNat, kind := .ctrl, lmask := 3, poison := d.poison }, 0)
  else
    let q := (n - 1) % len
    if q = row then (markTok (bits w 18 3) false d.poison, 0)
    else
      let at_ := ((n - 1) / len * row + q) * per
      let vs := (upTo per).map (fun i =>
        leave α fmt ((rmodeOf (bits w 2 3)).getD .rne) (srBits (drawZ z.k (z.c + BitVec.ofNat 64 (at_ + i)))) (mapGet {} d.x (at_ + i)))
      let data := vs.zipIdx.foldl (fun d (v, i) => d + v.1 * 2 ^ (128 / per * i)) 0
      ({ data := BitVec.ofNat 128 data, lmask := 15, poison := d.poison }, vs.foldl (fun f v => f ||| v.2) 0)

/-- Tokens of a whole drain. -/
def drainLength (x : Core) : Nat :=
  let w := mtPar x 0
  1 + 32 * ((if bits w 5 4 = 7 then 4 else 8) + ofBool (bit w 21))

/-- The accumulator returns to EMPTY, a key taken meanwhile kept for its next close. -/
def emptyAcc (a : Nat) (x : Core) : Core := putA a { key := (aRegOf x a).key } x

/-- SR draws of a finished drain advance their stream (R55). -/
def drainStream (x : Core) : Core :=
  let w := mtPar x 0
  if bits w 2 3 = 4 then
    let old : Stream := mapGet {} x.sg.z (bits w 9 6)
    { x with sg := { x.sg with z := mapPut x.sg.z (bits w 9 6) { old with c := old.c + 1024 } } }
  else x

/-- The job at the front is done. -/
def popJob (x : Core) : Core := onMt (fun m => { m with jobs := m.jobs.drop 1 }) x

/-- The MT sends the next token to o0. -/
def mtDrain (c : Nat) (s : State) : State :=
  let x := coreOf s c
  if !tokensOn s c ∨ !exitRoom x 78 0 1 then s
  else
    match x.mt.jobs with
    | .mark t :: _ => mtFinish c (moved c (fun x => popJob (emitTok 78 0 t x)) s)
    | .drain a key n :: rest =>
      let (t, f) := drainTok x a key n
      let s := moved c (fun x =>
        let x := mtFlags f (emitTok 78 0 t x)
        if n + 1 < drainLength x then onMt (fun m => { m with jobs := .drain a key (n + 1) :: rest }) x
        else drainStream (emptyAcc a (popJob x))) s
      mtFinish c s
    | _ => s

def execMtDrain (core : Nat) (s : State) := done (mtDrain core s)

/-- A FULL accumulator passes to the HA as one TILE contribution (R201, R227). -/
def haTransfer (c : Nat) (s : State) : State :=
  let x := coreOf s c
  match x.mt.jobs with
  | .give a key :: _ => if !tokensOn s c then s else mtFinish c (takeTile c key (aRegOf x a) (fun x => emptyAcc a (popJob x)) s)
  | _ => s

def execHaTileTransfer (core : Nat) (s : State) := done (haTransfer core s)

/-! ### The parameter port (R229) -/

/-- The words with one replaced. -/
def mtWords (x : Core) (i v : Nat) : Nat → Nat := fun j => if j = i then v else mtPar x j

/-- The bits of a register word that a reshape may change: FMT, CB, ROWS, COUNT, GATEK and GATEEN. -/
def reshapeMask : Nat := 0xFFFFF9F0

/-- The configuration of the core with one parameter word of the MT replaced. -/
def mtCfg (x : Core) (i v : Nat) : CoreCfg :=
  let cfg := selCfg x
  { cfg with ops := mapPut cfg.ops 14 (mapPut (x.mt.words.foldl (fun m e => mapPut m e.1 e.2) (mapGet [] cfg.ops 14)) i v) }

/-- The anchor of an accumulator as the words would derive it (R228); none where R222 refuses it. -/
def mtAlpha (x : Core) (i v a : Nat) : Option Int := mtAnchor (mtCfg x i v) x.mt.cb x.tensors a

/-- The anchor checks of R201 and R228, which R222 applies as well. -/
def anchorsOk (x : Core) (i v : Nat) : Bool :=
  (upTo 2).all (fun a => (mtAlpha x i v a).isSome &&
    (!mtFeedsHa x || (mtWriters (mtCfg x i v) a).isEmpty || mtAlpha x i v a == x.haU.tab.geom.map (fun g => g.anchor)))

/-- A write that R222 allows: a descriptor, or a reshape. -/
def paramOk (x : Core) (i v : Nat) : Bool :=
  mtOk false (mtWords x i v) && anchorsOk x i v &&
  (if 13 ≤ i ∧ i ≤ 28 then (i % 2 == 0 || decide (v < 2 ^ 24))
   else decide (5 ≤ i) && decide (i ≤ 12) && v &&& (0xFFFFFFFF - reshapeMask) == mtPar x i &&& (0xFFFFFFFF - reshapeMask))

/-- A parameter write: a reshape drops the FULL tag, the scales, the cursor and t, and the anchors follow the new format
(R228, R229). DEDUCED: notes/assumptions/56.md. -/
def writeParam (clk i v : Nat) (x : Core) : Core :=
  if !paramOk x i v then mtFlags flagNV x
  else
    let αs := (upTo 2).map (fun a => (a, (mtAlpha x i v a).getD 0))
    let x := onMt (fun m => { m with words := mapPut m.words i v, anchors := if i ≤ 12 then αs else m.anchors }) x
    if i ≤ 12 then
      let r := tRegOf x (i - 5)
      putT (i - 5) { data := r.data, filled := r.filled, ready := clk + 1 } x
    else x

/-- A token of the parameter port that is no MARK and belongs to no codebook. -/
def paramToken (c : Nat) (s : State) : State :=
  let x := coreOf s c
  let ch := bits (mtPar x 33) 0 2
  match headTok x 78 ch with
  | none => s
  | some t =>
    let book := (t.kind == .data && (mapFind x.mt.cbFill ch).isSome) || (t.kind == .ctrl && ctrlClass t == 1)
    if !mtOn s c ch ∨ !isPort x ch ∨ !portOpen x ∨ t.kind = .mark ∨ book then s
    else
      moved c (fun x =>
        let x := popChan 78 ch x
        if t.kind = .ctrl then (if ctrlClass t = 2 then writeParam s.cycle (bits (t.lane 3) 0 6) (t.lane 0) x else takeCtrl ch t x) else x) s

def execParam (core : Nat) (s : State) := done (paramToken core s)

/-! ### Selection (R232, R233) -/

/-- Whether an offer (value, index) ranks before another. DEDUCED: notes/assumptions/57.md. -/
def ranksBefore (small : Bool) (a b : Nat × Nat) : Bool :=
  let x := f32 a.1
  let y := f32 b.1
  if xisNan x || xisNan y then (xisNan y && !xisNan x) || (xisNan x && xisNan y && decide (a.2 < b.2))
  else if xisZero x && xisZero y then
    if xneg? x == xneg? y then decide (a.2 < b.2) else xneg? x != small
  else
    let d := xcmp x y
    if d = 0 then decide (a.2 < b.2) else if small then d == -1 else d == 1

/-- Puts an offer into the kept list, best first, of at most k. -/
def keepBest (small : Bool) (k : Nat) (o : Nat × Nat) (kept : List (Nat × Nat)) : List (Nat × Nat) :=
  (kept.filter (fun e => ranksBefore small e o) ++ [o] ++ kept.filter (fun e => !ranksBefore small e o)).take k

/-- The head closes a segment of SK or SG. -/
def closesSeg (x : Core) (slot lo : Nat) (t : Tok) : Bool := t.kind == .mark && decide (opField x slot 0 lo 3 ≤ t.level)

/-- A token of i0 that closes no segment (R233). -/
def skOffer (c : Nat) (s : State) : State :=
  let x := coreOf s c
  match headTok x 81 0 with
  | none => s
  | some t =>
    if !tokensOn s c ∨ !hasOp x 17 ∨ x.sk.ended ∨ closesSeg x 17 10 t then s
    else
      let k := opField x 17 0 0 9
      let small := bit (opPar x 17 0) 9
      moved c (fun x =>
        let x := popChan 81 0 x
        if t.kind = .data then
          let kept := (upTo 4).foldl (fun kept l =>
            if t.has l then keepBest small k (t.lane l, (4 * x.sk.tokens + l) % 2 ^ 32) kept else kept) x.sk.kept
          { x with sk := { x.sk with kept := kept, tokens := x.sk.tokens + 1, poison := x.sk.poison || t.poison } }
        else x) s

def execSkOffer (core : Nat) (s : State) := done (skOffer core s)

/-- The next result of a segment that closes, best first, then its MARK (R233). -/
def skEmit (c : Nat) (s : State) : State :=
  let x := coreOf s c
  match headTok x 81 0 with
  | none => s
  | some t =>
    if !tokensOn s c ∨ !hasOp x 17 ∨ x.sk.ended ∨ !closesSeg x 17 10 t ∨ !exitRoom x 81 0 1 then s
    else
      match x.sk.kept with
      | (v, i) :: rest =>
        let out := bit (opPar x 17 0) 13
        let r : Tok := { data := quadOf i (if out then v else 0) 0 0, lmask := if out then 3 else 1, poison := x.sk.poison }
        moved c (fun x => emitTok 81 0 r { x with sk := { x.sk with kept := rest } }) s
      | [] => moved c (fun x => emitTok 81 0 t { (popChan 81 0 x) with sk := { ended := t.ends } }) s

def execSkEmit (core : Nat) (s : State) := done (skEmit core s)

/-! ### The sampler (R234 to R236) -/

/-- The next draw of a stream. -/
def drawOf (z : Nat) (x : Core) : Nat × Core :=
  let t : Stream := mapGet {} x.sg.z z
  (drawZ t.k t.c, { x with sg := { x.sg with z := mapPut x.sg.z z { t with c := t.c + 1 } } })

def sgFlag (f : Bool) (x : Core) : Core := if f then { x with sg := { x.sg with flags := x.sg.flags ||| flagNV } } else x

/-- UNIF: one draw for each valid lane (R236). -/
def sgUnif (z : Nat) (t : Tok) (x : Core) : Core :=
  let (vs, x) := (upTo 4).foldl (fun (vs, x) l => if t.has l then let (d, x) := drawOf z x; (vs ++ [drawU d], x) else (vs ++ [0], x)) (([] : List Nat), x)
  emitTok 82 0 { data := laneData (fun l => vs.getD l 0), lmask := t.lmask, poison := t.poison } x

/-- BERN: one draw and the test of R54 (R236). DEDUCED: notes/assumptions/57.md. -/
def sgBern (z : Nat) (t : Tok) (x : Core) : Core :=
  let (d, x) := drawOf z x
  let here := t.has 0 && t.has 1
  let r := if here then bern (t.lane 0) (t.lane 1) d else (false, true)
  emitTok 82 0 { data := quadOf (ofBool r.1) (drawU d) 0 0, lmask := 3, poison := t.poison } (sgFlag r.2 x)

/-- CATEG: the four weights of a token join the segment; positions past 4,096 are dropped (R236). -/
def sgWeights (t : Tok) (x : Core) : Core :=
  let full := decide (4096 ≤ x.sg.weights.length)
  let ws := if full then [] else (upTo 4).map (fun l => if t.has l then t.lane l else 0)
  sgFlag full { x with sg := { x.sg with weights := x.sg.weights ++ ws, poison := x.sg.poison || t.poison, dropped := x.sg.dropped || full } }

/-- CATEG at a closing MARK: one draw over the positions (R54, R236). -/
def sgPick (z : Nat) (x : Core) : Core :=
  let clear := fun (x : Core) => { x with sg := { x.sg with weights := [], poison := false, dropped := false } }
  if x.sg.weights.isEmpty then clear x
  else
    let ws := x.sg.weights
    let bad := x.sg.poison || x.sg.dropped
    let (d, x) := drawOf z x
    let r := categ ws d
    emitTok 82 0 { data := quadOf r.1 (ws.getD r.1 0) 0 0, lmask := 3, poison := bad } (sgFlag r.2 (clear x))

/-- One token of the SG. -/
def sgDraw (c : Nat) (s : State) : State :=
  let x := coreOf s c
  match headTok x 82 0 with
  | none => s
  | some t =>
    let mode := opField x 18 0 0 2
    let z := opField x 18 0 2 6
    if !tokensOn s c ∨ !hasOp x 18 ∨ x.sg.ended ∨ !exitRoom x 82 0 2 then s
    else
      moved c (fun x =>
        let x := popChan 82 0 x
        match t.kind with
        | .data => if mode = 0 then sgUnif z t x else if mode = 1 then sgWeights t x else sgBern z t x
        | .mark =>
          let x := if mode = 1 ∧ closesSeg x 18 8 t then sgPick z x else x
          { (emitTok 82 0 t x) with sg := { (emitTok 82 0 t x).sg with ended := t.ends } }
        | _ => emitTok 82 0 t x) s

def execSgDraw (core : Nat) (s : State) := done (sgDraw core s)

/-! ### The width converter (R237) -/

def wcOf (x : Core) (slot : Nat) : Wc := mapGet {} x.wcs slot

/-- Lanes of a piece. -/
def pieceLanes (x : Core) (slot : Nat) : Nat := if bit (opPar x slot 0) 2 then 2 else 1

/-- The pieces of a DATA token; those with no valid lane are left out. -/
def piecesOf (w : Nat) (t : Tok) : List Tok :=
  ((upTo (4 / w)).map (fun p =>
    ({ t with data := laneData (fun l => if l < w then t.lane (p * w + l) else 0)
              lmask := BitVec.ofNat 4 ((upTo w).foldl (fun m l => m + 2 ^ l * ofBool (t.has (p * w + l))) 0) } : Tok))).filter (fun t => t.lmask != 0)

/-- A group of pieces joined; missing pieces leave their lanes invalid. -/
def joinTok (w : Nat) (ps : List Tok) : Tok :=
  let piece := fun (l : Nat) => ps.getD (l / w) ({} : Tok)
  { data := laneData (fun l => (piece l).lane (l % w))
    lmask := BitVec.ofNat 4 ((upTo 4).foldl (fun m l => m + 2 ^ l * ofBool ((piece l).has (l % w))) 0)
    poison := ps.any (fun p => p.poison), retract := ps.any (fun p => p.retract) }

/-- One token of a WC. -/
def wcStep (c slot : Nat) (split : Bool) (s : State) : State :=
  let x := coreOf s c
  let node := 64 + slot
  let g := wcOf x slot
  match headTok x node 0 with
  | none => s
  | some t =>
    if !tokensOn s c ∨ !hasOp x slot ∨ g.ended ∨ (opField x slot 0 0 2 == 0) ≠ split ∨ !exitRoom x node 0 4 then s
    else
      let w := pieceLanes x slot
      let put := fun (g : Wc) (x : Core) => { x with wcs := mapPut x.wcs slot g }
      moved c (fun x =>
        let x := popChan node 0 x
        if t.kind = .data then
          if split then (piecesOf w t).foldl (fun x p => emitTok node 0 p x) x
          else
            let ps := g.part ++ [t]
            if ps.length < 4 / w then put { g with part := ps } x else put { g with part := [] } (emitTok node 0 (joinTok w ps) x)
        else
          let x := if g.part.isEmpty then x else emitTok node 0 (joinTok w g.part) x
          put { part := [], ended := t.ends } (emitTok node 0 t x)) s

def execSplit (core slot : Nat) (s : State) := done (if 19 ≤ slot ∧ slot ≤ 22 then wcStep core slot true s else s)
def execJoin (core slot : Nat) (s : State) := done (if 19 ≤ slot ∧ slot ≤ 22 then wcStep core slot false s else s)

/-! ### RNGSET, RNGGET and TBLLD (R239 to R241) -/

/-- A running graph of the core names a stream (R235). -/
def streamBusy (s : State) (z : Nat) : Bool := graphRuns s s.turn && (drawnStreams (selCfg (coreOf s s.turn))).contains z

def execRngset (conly : Bool) (ga gb : Reg) (z : BitVec 6) (s : State) :=
  done (
    if streamBusy s z.toNat then trapAt causePerm (z.setWidth 64) s
    else
      let k := reg s ga
      let n := reg s gb
      advance (onCore s.turn (fun x =>
        let old : Stream := mapGet {} x.sg.z z.toNat
        { x with sg := { x.sg with z := mapPut x.sg.z z.toNat { k := if conly then old.k else k, c := n } } }) s))

def execRngget (key : Bool) (gd : Reg) (z : BitVec 6) (s : State) :=
  done (
    if streamBusy s z.toNat then trapAt causePerm (z.setWidth 64) s
    else
      let t : Stream := mapGet {} (coreOf s s.turn).sg.z z.toNat
      writeBack gd (if key then t.k else t.c) s)

/-- The codebook read of TBLLD: one pilot load of 32 bytes, in which lost data is lost metadata (R241, R347).
DEDUCED: notes/assumptions/56.md. -/
def bookLoad (a : Nat) (s : State) : Res (List Byte) :=
  match pilotLoad s a 32 true with
  | .fault cause v s => .fault (if cause = causePoison then causeMdpoison else cause) v s
  | r => r

def execTblld (ga : Reg) (cb : BitVec 1) (s : State) :=
  let a := reg s ga
  let put := fun (es : List Nat) (s : State) => advance (onCore s.turn (onMt (fun m => { m with cb := mapPut m.cb cb.toNat es })) s)
  done (
    if unitRuns s s.turn 14 then trapAt causePerm 14 s
    else if a = 0 then put defaultCodebook s
    else if a.toNat % 32 ≠ 0 then trapAt causeAlign a s
    else onRes (bookLoad a.toNat s) fun b s => put ((upTo 16).map (fun j => ofBytes ((b.drop (2 * j)).take 2))) s)

end Sys2Proof.Machine
end

