-- ==== Sys2Proof/Machine/Fabric.lean ====
section
/-! DEFINITION. The fabric between nodes: exit queues, routes and multicast (R125 to R127, R163), the watchdog (R128, R129),
straits (R130 to R134), the steer-merge operator (R137 to R140) and the edge exit (R141, R142). -/

namespace Sys2Proof.Machine

/-! ### Leaving an output (R127, R163) -/

/-- The members of an output's multicast that are not cut off. -/
def members (x : Core) (node ch : Nat) : List (Nat × Route) := (outRoutes x node ch).filter (fun (i, _) => !x.cutRoutes.contains i)

/-- Every target channel has a free slot. -/
def membersReady (s : State) (c node ch : Nat) : Bool := (members (coreOf s c) node ch).all (fun (i, r) => targetRoom s c i r)

/-- A token leaves an output onto the wires of its members. -/
def sendTok (c node ch : Nat) (t : Tok) (s : State) : State :=
  let ms := members (coreOf s c) node ch
  let ks := chanKey node ch :: ms.map (fun (i, _) => 1024 + i)
  let s := moved c (fun x =>
    let x := countSent (sentOn x node ms t) x
    { x with exits := putQ x.exits (chanKey node ch) ((exitQ x node ch).drop 1)
             wires := ms.foldl (fun m (i, r) => mapPut m i (mapGet [] m i ++ [if isStrait s c r then { t with left := s.cycle } else t])) x.wires
             watch := ks.foldl (fun m k => mapDel m k) x.watch
             sent := mapPut x.sent (chanKey node ch) (t :: mapGet [] x.sent (chanKey node ch)) }) s
  hitBreak (fun b => match b with
    | .mark c' n j l => c' == c && n == node && j == ch && t.kind == .mark && l == t.level
    | _ => false) c s

/-- The head of an exit queue leaves as soon as every target has room (R163). -/
def exitEmit (c node ch : Nat) (s : State) : State :=
  match exitQ (coreOf s c) node ch with
  | [] => s
  | t :: _ =>
    if !tokensOn s c then s
    else if membersReady s c node ch then sendTok c node ch t s
    else s

def execExitQueueEmit (core node ch : Nat) (s : State) := done (exitEmit core node ch s)

/-! ### Arriving (R125) -/

/-- The oldest token on the wire of a route reaches its channel. -/
def arrive (c i : Nat) (r : Route) (s : State) : State :=
  match wireQ (coreOf s c) i, routeCore c r with
  | t :: rest, some d =>
    if (chanQ (coreOf s d) r.dst r.dch).length < 4 then
      moved d (pushChan r.dst r.dch { t with left := 0 }) (moved c (fun x => { x with wires := putQ x.wires i rest, parity := x.parity.filter (· != i) }) s)
    else s
  | _, _ => s

/-- A token of a route inside the isle arrives (R125). -/
def routeArrival (c i : Nat) (s : State) : State :=
  match routeAt (coreOf s c) i with
  | none => s
  | some r => if !fabricOn s c ∨ isStrait s c r ∨ (isleOfCore s c).quiesceAt.isSome then s else arrive c i r s

def execRouteArrival (core route : Nat) (s : State) := done (routeArrival core route s)

/-- A hop meets a parity error: the token is sent again, and a second failure of the same token poisons it (R349), an uncorrectable
error (R87). -/
def parityResend (c i : Nat) (s : State) : State :=
  match wireQ (coreOf s c) i with
  | [] => s
  | t :: rest =>
    let s := tallyCore c 0x00E 1 s
    if (coreOf s c).parity.contains i then
      sendVector 3 (onCore c (fun x => { x with wires := mapPut x.wires i ({ t with poison := true } :: rest) }) s)
    else onCore c (fun x => { x with parity := x.parity ++ [i] }) s

def execParityResend (core route : Nat) (s : State) := done (parityResend core route s)

/-! ### The watchdog (R128, R129) -/

/-- The period of the watchdog of a core's isle, in clk (R128). -/
def watchPeriod (s : State) (c : Nat) : Nat := 2 ^ (isleOfCore s c).stallwd

/-- What a translated access needs is not ready: the stack of this chip, or the port that leads to the chip of its page (R91). -/
def unready (s : State) (t : Target) : Bool :=
  if t.home = s.hub.chipid then closedStack s t.pa else wayTo s t.home == .later

/-- An access to a core's tables waits for readiness, of its walk or of its page (R91). -/
def flatWaits (s : State) (c va : Nat) (acc : Access) : Bool :=
  let v := viewOf s c
  (walkAddrs s v.die v.ptb (va / pageSize v.page2m)).any (closedStack s) ||
  (match translate s v va acc with | .ok t s => unready s t | _ => false)

/-- An access to a tensor waits for readiness, of its walk or of its page (R91). -/
def spotWaits (s : State) (c : Nat) (t : TensorRec) (p : Spot) (acc : Access) : Bool :=
  let v := viewOf s c
  (walkAddrs s v.die t.ptb p.page).any (closedStack s) ||
  (match translateSpot s v t p acc none with | .ok t s => unready s t | _ => false)

/-- No report of the core can be raised, so that a fault waits to be told. -/
def queueFull (s : State) (c : Nat) : Bool := !faultRoom s c

/-- A line of a stash window waits: on a fault that has not been served, or on readiness. -/
def lineWaits (s : State) (c : Nat) (e : Nat × Nat) : Bool :=
  match mapFind (coreOf s c).stashes e.1 with
  | some w =>
    (mapFind w.parked e.2).isSome || spotWaits s c w.tensor (stashSpot w e.2) .read ||
    (queueFull s c && (match translateSpot s (viewOf s c) w.tensor (stashSpot w e.2) .read none with | .fault _ _ _ => true | _ => false))
  | none => false

/-- A unit that needs scratchpad bytes waits on such a line. -/
def rangeWaits (s : State) (c o n : Nat) : Bool := (linesMissing s c o n).any (lineWaits s c)

/-- A channel of a memory port waits on its head or a request that it holds (R91, R254, R255). -/
def chanWaits (s : State) (c slot ch : Nat) : Bool :=
  let k := mpChan (coreOf s c) slot ch
  let mark := (headTok (coreOf s c) (64 + slot) ch).any (fun t => t.kind == .mark)
  k.stalled.isSome || k.heldFull.isSome || (mark && !k.diverted.isEmpty) ||
  match nextReq (coreOf s c) slot ch with
  | some (_, r) => requestWaits s c slot ch r || (queueFull s c && byTranslate s c slot ch r)
  | none => false

/-- A segment that refills the TABLE rows of an element waits (R172, R350). -/
def refillWaits (s : State) (c : Nat) (j : CopyJob) (g : Seg) : Bool :=
  g.state == .parked ||
  (g.state == .pending && g.iters.any (fun n => match j.srcSide n with | .spot p => spotWaits s c j.stensor p .read | _ => false))

/-- A slot that an EX handed over waits on readiness or on a stash line of the core that it lands on. -/
def slotExcused (s : State) (e : ExSlot) : Bool :=
  if e.chip ≠ s.hub.chipid then wayTo s e.chip == .later
  else (atollOf (coreOf s e.core) e.atoll).any (fun a => rangeWaits s e.core a.base (atollExtent a))

/-- What a token in channel ch of a node waits for is a fault that has not been served, or a readiness bit (R128).
DEDUCED: notes/assumptions/22.md. -/
def nodeWaits (s : State) (c node ch : Nat) : Bool :=
  let x := coreOf s c
  let spill := fun (u : HashUnit) =>
    (blockedOf u x).any (fun b => b.1 == causeSpillfault) ||
    (nextWrite u x).any (fun w => flatWaits s c w.1 .write ||
      (queueFull s c && (firstFault (viewOf s c) (w.2.length / 64 + 2) w.1 w.2.length s).isSome))
  if node < 64 then x.jobs.any (fun (_, j) => j.refill == some node && j.segs.any (refillWaits s c j))
  else if node < 72 then false
  else if node < 74 then chanWaits s c (node - 64) ch
  else if node = 76 then spill .ha
  else if node = 77 then spill .hs
  else if node = 78 then (upTo 8).any (fun n => fillReady x n && (tileRows x n (tRegOf x n).seq).any (fun q => rangeWaits s c q.1 q.2))
  else if node = 79 ∨ node = 80 then
    bit (opPar x (node - 64) 0) 15 && (headTok x node 0).any Tok.ends && rangeWaits s c (opField x (node - 64) 3 0 18) 320
  else node == 95 && s.ms.exSlots.any (fun e => e.srcCore == c && slotExcused s e)

/-- The members of an output whose target is full. -/
def fullMembers (s : State) (c node ch : Nat) : List (Nat × Route) :=
  (members (coreOf s c) node ch).filter (fun (i, r) => !targetRoom s c i r)

/-- The full party of a strait route is the strait: tokens wait at the border, refused or with room for them behind it (R128, R133). -/
def atStrait (s : State) (c i : Nat) (r : Route) : Bool :=
  isStrait s c r && !(wireQ (coreOf s c) i).isEmpty &&
  (!straitOpen s c i r || (grantFor s c r).isNone || (routeCore c r).any (fun d =>
    decide ((chanQ (coreOf s d) r.dst r.dch).length + ofBool (mapFind (coreOf s d).heldMarks (chanKey r.dst r.dch)).isSome < 4)))

/-- A full member that waits at a strait waits on its meter (R134). -/
def onMeter (s : State) (c i : Nat) (r : Route) : Bool :=
  straitOpen s c i r && (match grantFor s c r with | some (_, _, g) => g.rate != 0 | none => false)

/-- The full routes behind a channel that keep the tokens of its node waiting: those of its outputs that hold a token, of a memory
port the output of its channel, and the HA that a tile feeds. -/
def routesAfter (s : State) (c node ch : Nat) : List (Nat × Nat × Route) :=
  (upTo 4).flatMap (fun j =>
    if ((node = 72 ∨ node = 73) ∧ j ≠ ch) ∨ (exitQ (coreOf s c) node j).isEmpty then []
    else (fullMembers s c node j).map (fun (i, r) => (c, i, r)))

/-- A full member waits as R128 excuses, where it stands or behind its consumer. A route is a core, its index and its entry; `fuel`
bounds the routes visited. -/
def waitsBeyond (s : State) : Nat → List (Nat × Nat × Route) → List (Nat × Nat) → Bool
  | 0, _, _ => false
  | _, [], _ => false
  | fuel + 1, (c, i, r) :: todo, seen =>
    match routeCore c r with
    | none => waitsBeyond s fuel todo seen
    | some d =>
      if seen.contains (c, i) then waitsBeyond s fuel todo seen
      else if !bit s.host.readymap.toNat (4 + 4 * (d / 1600) + d % 40 / 20 + 2 * (d % 1600 / 800)) then true
      else if atStrait s c i r then onMeter s c i r || waitsBeyond s fuel todo ((c, i) :: seen)
      else
        nodeWaits s d r.dst r.dch || (r.dst == 78 && mtFeedsHa (coreOf s d) && nodeWaits s d 76 0) ||
        waitsBeyond s fuel (todo ++ routesAfter s d r.dst r.dch) ((c, i) :: seen)

/-- Routes of all cores, which bound a search of the routes behind a channel. -/
def routeCount (s : State) : Nat := s.cores.foldl (fun n (_, x) => n + (selCfg x).routes.length + 1) 1

/-- A full member waits on a readiness bit, on a strait's meter, or behind a fault that has not been served: the wait does not
count (R128, R134). -/
def excused (s : State) (c i : Nat) (r : Route) : Bool := waitsBeyond s (2 * routeCount s * routeCount s) [(c, i, r)] []

/-- TRAPVAL of STALL (R128). -/
def stallVal (s : State) (c i : Nat) (r : Route) : Nat :=
  r.dch + 4 * (r.dst % 64) + 256 * (r.dst / 64) + 512 * ofBool (atStrait s c i r) + 65536 * ((routeCore c r).getD 0)

/-- The order of R128 among full members: CORE, OP, NODE, CH. -/
def stallRank (c : Nat) (r : Route) : Nat := ((routeCore c r).getD 0) * 1024 + r.dst * 4 + r.dch

/-- The full member that STALL names. -/
def stallNames (c : Nat) (rs : List (Nat × Route)) : Option (Nat × Route) :=
  (rs.foldl (fun best e => match best with
    | none => some e
    | some b => if stallRank c e.2 < stallRank c b.2 then some e else some b) none)

/-- A count of the watchdog goes on by d clk. -/
def countClk (k d : Nat) (x : Core) : Core :=
  let w := mapGet ({} : Watch) x.watch k
  { x with watch := mapPut x.watch k { w with count := w.count + d } }

/-- The counts of an output that holds a token, after d clk as the machine stands (R128, R129). A multicast with DETACH counts the
clk of all its members together, and those of a member that alone is full. A clk in which one full member waits as R128 excuses
counts for none of them, and the only member that is left is never cut. DESIGN CHOICE: notes/assumptions/22.md. -/
def watchOutput (s : State) (c d : Nat) (x : Core) (k : Nat) : Core :=
  let ms := members (coreOf s c) (k / 4) (k % 4)
  let full := fullMembers s c (k / 4) (k % 4)
  let together := !ms.any (fun (_, r) => r.detach) || full.length == ms.length
  if !full.isEmpty && full.any (fun (i, r) => excused s c i r) then x
  else
    let x := if !full.isEmpty && together then countClk k d x else { x with watch := mapDel x.watch k }
    match full with
    | [(i, r)] => if r.detach && decide (1 < ms.length) then countClk (1024 + i) d x else x
    | _ => x

/-- The clk that a pilot spends inside a word that waits are counted (R374, code 0x003); a pilot that is stopped or frozen waits for
nothing. DEDUCED: notes/assumptions/84.md. -/
def countWait (s : State) (c d : Nat) (x : Core) : Core :=
  let i := isleOfCore s c
  if x.pilot.inWord && x.pilot.running && !x.pilot.held && !x.pilot.halted && i.phase == .running && !i.frozen && !x.evctrs.isEmpty then
    { x with evctrs := tallyMap x.evctrs 0 8 0x003 d }
  else x

/-- The clk that pass before a move: the clocks take what their cores have consumed (R278), waits are counted (R374), and every watchdog
whose output holds a token counts (R128). -/
def elapse (d : Nat) (s0 : State) : State :=
  let s := settleClocks s0
  { s with cores := s.cores.map (fun (c, y) =>
      let x := countWait s c d y
      (c, if x.exits.isEmpty || !tokensOn s c then x else x.exits.foldl (fun y (k, q) => if q.isEmpty then y else watchOutput s c d y k) x)) }

/-- The watchdog of an output looks at it: a count that has reached the period is reported once (R128). -/
def stall (c node ch : Nat) (s : State) : State :=
  let k := chanKey node ch
  let w := mapGet ({} : Watch) (coreOf s c).watch k
  if !tokensOn s c ∨ w.reported ∨ w.count < watchPeriod s c ∨ ¬ reportRoom s c then s
  else
    match stallNames c (fullMembers s c node ch) with
    | none => s
    | some (i, r) =>
      let s := onCore c (fun x => { x with watch := mapPut x.watch k { w with reported := true } }) s
      report c { code := causeStall, val := BitVec.ofNat 64 (stallVal s c i r), source := 8, slot := node % 64, ch := ch }
        (tallyCore c 0x042 1 s) (some node)

def execStall (core node ch : Nat) (s : State) := done (stall core node ch s)

/-- The level-7 abort MARK of a member that is cut off goes behind the tokens on their way to its channel, over a strait as they do
(R129, R132); a stream that the strait has ended has had its MARK (R133). DEDUCED: notes/assumptions/38.md. -/
def cutMark (c i : Nat) (s : State) : State :=
  onCore c (fun x =>
    if x.severed.contains i then x else { x with wires := mapPut x.wires i (wireQ x i ++ [{ markTok 7 true false with left := s.cycle }]) }) s

/-- The member of a detached multicast whose count of clk alone has reached the period is cut off (R129). -/
def detachCut (c i : Nat) (s : State) : State :=
  let w := mapGet ({} : Watch) (coreOf s c).watch (1024 + i)
  match routeAt (coreOf s c) i with
  | none => s
  | some r =>
    if !tokensOn s c ∨ !r.detach ∨ w.count < watchPeriod s c ∨ (coreOf s c).cutRoutes.contains i then s
    else
      cutMark c i (tallyCore c 0x041 1 (onCore c (fun x => { x with cutRoutes := x.cutRoutes ++ [i], watch := mapDel x.watch (1024 + i) }) s))

def execDetachCut (core route : Nat) (s : State) := done (detachCut core route s)

/-! ### Crossing (R132 to R134) -/

/-- A token at a border may move: neither isle is frozen or being saved, and the strait has not ended the stream. -/
def mayCross (s : State) (c i : Nat) (r : Route) : Bool :=
  let still := fun (k : Isle) => k.frozen || k.quiesceAt.isSome
  fabricOn s c && !still (isleOfCore s c) && straitOpen s c i r && (routeCore c r).all (fun d => !still (isleOfCore s d))

/-- A token at a border is tested: an unmetered matching entry passes it, a metered one makes it wait for the meter, and
without an entry it waits (R132, R133). -/
def borderCrossing (c i : Nat) (s : State) : State :=
  match routeAt (coreOf s c) i with
  | none => s
  | some r =>
    if !isStrait s c r ∨ !mayCross s c i r then s
    else
      match grantFor s c r with
      | some (_, _, g) => if g.rate = 0 then arrive c i r s else s
      | none => s

def execBorderCrossing (core route : Nat) (s : State) := done (borderCrossing core route s)

/-- The cores of a route's path after its source, first along x and then along y (R125). -/
def pathCores (c : Nat) (r : Route) : List Nat :=
  let step := fun (n : Int) (k : Nat) => if n < 0 then -(k : Int) else k
  let xs := (upTo r.dx.natAbs).map (fun k => { r with dx := step r.dx (k + 1), dy := 0 })
  let ys := (upTo r.dy.natAbs).map (fun k => { r with dy := step r.dy (k + 1) })
  (xs ++ ys).filterMap (routeCore c)

/-- The border core of a strait route: the first core of the target's isle on its path (R134).
DEDUCED: notes/assumptions/38.md. -/
def borderCore (s : State) (c n : Nat) (r : Route) : Nat :=
  ((pathCores c r).find? (fun d => (isleCores (isleOf s n)).contains d)).getD 0

/-- The heads that wait under entry k of isle n on a clk and may move: the clk at which each left, its border core, source and route. -/
def waitingHeads (s : State) (n k clk : Nat) : List (Nat × Nat × Nat × Nat × Route) :=
  s.cores.flatMap (fun (c, x) => (straitRoutes s c).filterMap (fun (i, r) =>
    match wireQ x i, grantFor s c r, routeCore c r with
    | t :: _, some (m, j, _), some d =>
      if m = n ∧ j = k ∧ t.left ≤ clk ∧ mayCross s c i r ∧ (chanQ (coreOf s d) r.dst r.dch).length < 4 then some (t.left, borderCore s c n r, c, i, r) else none
    | _, _, _ => none))

/-- The oldest token that waits under an entry on a clk; among equals that of the lowest border core (R134), and there the first by
source core and route index. DESIGN CHOICE: notes/assumptions/38.md. -/
def waitingUnder (s : State) (n k clk : Nat) : Option (Nat × Nat × Route) :=
  ((waitingHeads s n k clk).foldl (fun best e => match best with
    | none => some e
    | some b => if e.1 < b.1 || (e.1 == b.1 && decide (e.2.1 < b.2.1)) then some e else best) none).map (fun e => e.2.2)

/-- The meter of an entry has a bucket as of now. -/
def putBucket (n k : Nat) (g : Grant) (b : Nat) (s : State) : State :=
  onIsle n (fun i => { i with grants := mapPut i.grants k { g with bucket := b, at_ := some s.cycle } }) s

/-- The last clk of an entry whose bucket is b, one after another (R134): on each the bucket fills and the oldest token that waits
passes; with none waiting the rest only fill it. -/
def meterClks (n k : Nat) (g : Grant) : Nat → Nat → State → State
  | 0, b, s => putBucket n k g b s
  | d + 1, b, s =>
    if (waitingHeads s n k s.cycle).isEmpty then putBucket n k g (min (b + g.rate * (d + 1)) (1024 * g.burst)) s
    else
      let b := min (b + g.rate) (1024 * g.burst)
      match waitingUnder s n k (s.cycle - d) with
      | some (c, i, r) => if 1024 ≤ b then meterClks n k g d (b - 1024) (arrive c i r s) else meterClks n k g d b s
      | none => meterClks n k g d b s

/-- One metered entry up to now (R134). -/
def meterEntry (n : Nat) (s : State) (k : Nat) : State :=
  match mapFind (isleOf s n).grants k with
  | none => s
  | some g =>
    let d := match g.at_ with | none => 1 | some t => s.cycle - t
    if g.rate = 0 ∨ d = 0 then s else meterClks n k g d g.bucket s

/-- The strait of an isle on a clk (R134). -/
def straitTick (n : Nat) (s : State) : State := (upTo 16).foldl (meterEntry n) s

def execStraitMeterTick (isle : Nat) (s : State) := done (straitTick isle s)

/-! ### The steer-merge operator -/

/-- The state of an SM slot. -/
def smOf (x : Core) (slot : Nat) : Sm := mapGet {} x.sms slot

def putSm (slot : Nat) (m : Sm) (x : Core) : Core := { x with sms := mapPut x.sms slot m }

/-- A token closes the group it belongs to (R137). -/
def closesGroup (x : Core) (slot : Nat) (t : Tok) : Bool :=
  if bit (opPar x slot 0) 15 then t.kind == .mark && decide (opField x slot 0 12 3 ≤ t.level) else true

/-- The lowest output of STEER that is enabled. -/
def lowestOut (x : Core) (slot : Nat) : Nat := ((upTo 4).find? (fun j => bit (opPar x slot 0) (4 + j))).getD 0

/-- The outputs that STEER sends a token to: a MARK of level 7, or every MARK with MARKALL, to all that are enabled, another token
to the selected one (R137, R138). DEDUCED: notes/assumptions/26.md. -/
def steerOuts (slot : Nat) (t : Tok) (m : Sm) (x : Core) : List Nat :=
  let w := opPar x slot 0
  if t.ends ∨ (t.kind = .mark ∧ bit w 16) then (upTo 4).filter (fun j => bit w (4 + j)) else [(m.cur.or m.sel).getD (lowestOut x slot)]

/-- STEER takes the head of i0 to the outputs that it goes to (R138). -/
def steerTake (node slot : Nat) (t : Tok) (m : Sm) (x : Core) : Core :=
  let t' := if m.curPoison then { t with poison := true } else t
  let x := (steerOuts slot t m x).foldl (fun x j => emitTok node j t' x) (popChan node 0 x)
  let m := if closesGroup x slot t then { m with cur := none, curPoison := false } else m
  putSm slot { m with ended := m.ended || t.ends } x

/-- STEER at the first token of a group: the control token at the head of iCTL selects the output (R138). -/
def steerSelect (slot : Nat) (k : Tok) (m : Sm) (x : Core) : Sm :=
  let j := k.lane 0 % 4
  let ok := bit (opPar x slot 0) (4 + j)
  let o := if ok then j else lowestOut x slot
  { m with cur := some o, sel := some o, curPoison := !ok }

/-- One step of STEER (R138). -/
def steerStep (c slot : Nat) (s : State) : State :=
  let node := 64 + slot
  let x := coreOf s c
  let m := smOf x slot
  let ctl := opField x slot 0 2 2
  let go := fun (m : Sm) (f : Core → Core) =>
    match headTok x node 0 with
    | some t => if (steerOuts slot t m x).all (fun j => exitRoom x node j 1) then moved c (fun _ => steerTake node slot t m (f x)) s else s
    | none => s
  if !tokensOn s c ∨ m.ended then s
  else
    match headTok x node 0 with
    | none => s
    | some t =>
      if t.ends then go m (fun x => { x with chans := mapDel x.chans (chanKey node ctl) })
      else if m.cur.isSome ∨ (t.kind = .mark ∧ !bit (opPar x slot 0) 15) then go m id
      else
        match headTok x node ctl with
        | none => s
        | some k => go (steerSelect slot k m x) (popChan node ctl)

/-- A control token that arrives after STEER has ended is discarded (R138). -/
def dropControl (c slot : Nat) (s : State) : State :=
  let x := coreOf s c
  let ctl := opField x slot 0 2 2
  if tokensOn s c ∧ (smOf x slot).ended ∧ (headTok x (64 + slot) ctl).isSome then moved c (popChan (64 + slot) ctl) s else s

def execSteerGroup (core slot : Nat) (s : State) :=
  done (if opField (coreOf s core) slot 0 0 2 = 0 ∧ hasOp (coreOf s core) slot then dropControl core slot (steerStep core slot s) else s)

/-- The inputs of MERGE that are enabled and not retired. -/
def liveInputs (x : Core) (slot : Nat) (m : Sm) : List Nat :=
  (upTo 4).filter (fun j => bit (opPar x slot 0) (8 + j) && !bit m.retired j)

/-- The input that MERGE serves next among those whose head is present (R139). -/
def pickInput (x : Core) (slot : Nat) (m : Sm) : Option Nat :=
  let ready := (liveInputs x slot m).filter (fun j => (headTok x (64 + slot) j).isSome)
  if bit (opPar x slot 0) 17 then ready.head?
  else ((upTo 4).map (fun d => (m.lastServed + 1 + d) % 4)).find? (fun j => ready.contains j)

/-- An input of MERGE retires; the last one ends the operator (R139). -/
def retireInput (slot j : Nat) (t : Tok) (m : Sm) (x : Core) : Core :=
  let m := { m with retired := m.retired ||| 2 ^ j, abort := m.abort || t.abort, cur := none, lastServed := j }
  if (liveInputs x slot m).isEmpty then putSm slot { m with ended := true } (emitTok (64 + slot) 0 (markTok 7 m.abort false) x)
  else putSm slot m x

/-- One step of MERGE (R139). -/
def mergeStep (c slot : Nat) (s : State) : State :=
  let node := 64 + slot
  let x := coreOf s c
  let m := smOf x slot
  if !tokensOn s c ∨ m.ended ∨ !exitRoom x node 0 1 then s
  else
    match m.cur.or (pickInput x slot m) with
    | none => s
    | some j =>
      match headTok x node j with
      | none => s
      | some t =>
        let x := popChan node j x
        if t.ends then moved c (fun _ => retireInput slot j t m x) s
        else
          let open_ := !closesGroup x slot t
          moved c (fun _ => putSm slot { m with cur := if open_ then some j else none, lastServed := j } (emitTok node 0 t x)) s

def execMerge (core slot : Nat) (s : State) :=
  done (if opField (coreOf s core) slot 0 0 2 = 1 ∧ hasOp (coreOf s core) slot then mergeStep core slot s else s)

/-- One step of LOOP (R140): an emission waits for room on its output. -/
def loopStep (c slot : Nat) (s : State) : State :=
  let node := 64 + slot
  let x := coreOf s c
  let m := smOf x slot
  let inp := if m.body then 1 else 0
  let emit := fun (o : Nat) (t : Tok) (m : Sm) =>
    if exitRoom x node o 1 then moved c (fun _ => putSm slot m (emitTok node o t (popChan node inp x))) s else s
  if !tokensOn s c ∨ m.ended then s
  else
    match headTok x node inp with
    | none => s
    | some t =>
      if !m.body then
        if t.kind = .data then emit 0 t { m with body := true, count := 1 } else emit 1 t { m with ended := t.ends }
      else if t.kind = .data then
        if m.count < opPar x slot 1 then emit 0 t { m with carry := some t, count := m.count + 1 }
        else emit 1 t { m with carry := some t, body := false }
      else if t.kind = .mark ∧ t.abort then emit 1 t { m with body := false }
      else moved c (fun _ => popChan node 1 x) s

def execLoop (core slot : Nat) (s : State) :=
  done (if opField (coreOf s core) slot 0 0 2 = 2 ∧ hasOp (coreOf s core) slot then loopStep core slot s else s)

/-! ### The edge exit (R141, R142) -/

/-- A slot of SLOTW tokens, short ones filled with DATA tokens of lane mask 0. -/
def fillSlot (w : Nat) (ts : List Tok) : List Tok := ts ++ List.replicate (w - ts.length) ({} : Tok)

/-- EX packs the head of i0 (R142). -/
def exPack (c : Nat) (s : State) : State :=
  let x := coreOf s c
  let w := opField x 31 1 28 4
  match headTok x 95 0 with
  | none => s
  | some t =>
    if !tokensOn s c ∨ x.ex.ended ∨ 4 ≤ x.ex.ready.length then s
    else
      let ts := x.ex.packing ++ [t]
      let full := decide (w ≤ ts.length) || t.kind == .mark
      moved c (fun x =>
        { (popChan 95 0 x) with ex := { x.ex with packing := if full then [] else ts
                                                  ready := if full then x.ex.ready ++ [fillSlot w ts] else x.ex.ready
                                                  ended := t.ends } }) s

/-- EX hands its next slot to the copy engine while credits allow it (R142). -/
def exHand (c : Nat) (s : State) : State :=
  let x := coreOf s c
  match x.ex.ready with
  | [] => s
  | q :: rest =>
    let credit := (x.counters.toList.getD (opField x 31 1 4 6) 0 - x.ex.k0).toNat
    let slots := opField x 31 1 10 18
    if !tokensOn s c ∨ slots + credit ≤ x.ex.n then s
    else
      let e : ExSlot := { srcCore := c, chip := opField x 31 0 13 12, core := opField x 31 0 0 13, atoll := opField x 31 1 0 4
                          pos := x.ex.n % slots, slots := slots, slotw := opField x 31 1 28 4, toks := q, ctx := (viewOf s c).ctx }
      let s := onMs (fun m => { m with exSlots := m.exSlots ++ [e] }) s
      moved c (fun x => { x with ex := { x.ex with ready := rest, n := x.ex.n + 1 } }) s

/-- EX takes a token, and hands over a slot when it may. -/
def execExSlotHandoff (core : Nat) (s : State) :=
  done (if hasOp (coreOf s core) 31 then exHand core (exPack core s) else s)

/-- The bytes and control entries of a slot. -/
def slotBytes (ts : List Tok) : List Byte := ts.flatMap (fun t => toBytes 16 t.data.toNat)

def slotControls (ts : List Tok) : List Byte := ts.flatMap (fun t => toBytes 2 t.control)

/-- Lands a slot in an atoll of a core of this chip, once the stash lines under it are; a mismatch of its shape poisons the tokens
that land, and its tail counter rises (R141, R142). -/
def landSlot (core atoll pos slots slotw : Nat) (toks : List Tok) (a : AtollCfg) (s : State) : Res Unit :=
  let bad := slots != a.slots || slotw != a.slotw
  let ts := ((if bad then toks.map (fun t => { t with poison := true }) else toks) ++ List.replicate a.slotw ({} : Tok)).take a.slotw
  let at0 := pos % a.slots * a.slotw
  let ctl := a.base + 16 * a.slots * a.slotw + 2 * at0
  if (isleOfCore s core).frozen then .wait s
  else
  withScratch core (a.base + 16 * at0) (16 * a.slotw) s fun s =>
    withScratch core ctl (2 * a.slotw) s fun s =>
      let s := onCore core (fun x => putScratch ctl (slotControls ts) (putScratch (a.base + 16 * at0) (slotBytes ts) x)) s
      .ok () (raiseCounter core a.tailk 1 (noteWork core atoll a s))

/-- The message that carries a slot. -/
def slotMsg (e : ExSlot) : ChipMsg :=
  { chip := e.chip, core := e.core, ctx := e.ctx, body := .slot e.atoll e.pos e.slots e.slotw (slotBytes e.toks) (slotControls e.toks) }

/-- What an EX has asked of the hub for a slot whose core's launch is drained or saved. -/
def slotAsked (s : State) (c : Nat) (e : ExSlot) : Option FarReq :=
  s.ms.far.find? (fun r => r.agent == some (.fabric c) && r.entry == 0 && r.chip == s.hub.chipid && r.body == (slotMsg e).body)

/-- The hub holds a slot for a core whose launch is drained or saved, and answers once it has landed (R300, R352). -/
def holdSlot (c : Nat) (e : ExSlot) (s : State) : State :=
  let own := s.hub.chipid
  let r : FarReq := { id := s.tick, agent := some (.fabric c), entry := 0, chip := own, body := (slotMsg e).body }
  let m : ChipMsg := { slotMsg e with src := own, id := s.tick, author := authorOf s (some (.fabric c)) own }
  holdMsg e.ctx e.core { core := 0, k := 0, inc := 0, ken := false, msg := some m }
    (onMs (fun x => { x with far := x.far ++ [r] }) { s with tick := s.tick + 1 })

/-- A slot that an EX handed over lands, or leaves for the far chip, which answers once it has landed (R142, R293, R346), or waits with
the hub (R300); one for a launch that ended waits for another that declares its atoll (R142). -/
def moveSlot (c : Nat) (e : ExSlot) (s : State) : Res Unit :=
  if e.chip ≠ s.hub.chipid then (farAsk s (some (.fabric c)) 0 (slotMsg e)).andThen fun _ s => .ok () s
  else
    match slotAsked s c e with
    | some r =>
      let drop := onMs (fun x => { x with far := x.far.filter (fun q => q.id != r.id) }) s
      match r.answer with
      | some .ended => .wait drop
      | some _ => .ok () drop
      | none => .wait s
    | none =>
      if applies s e.core e.ctx then
        match atollOf (coreOf s e.core) e.atoll with
        | none => .wait s
        | some a => landSlot e.core e.atoll e.pos e.slots e.slotw e.toks a s
      else if coreHeld s e.core e.ctx then .wait (holdSlot c e s)
      else .wait s

/-- The oldest slot that an EX of the core handed over goes on, unless nydb has frozen its isle (R274). -/
def atollLanding (c : Nat) (s : State) : State :=
  if (isleOfCore s c).frozen then s
  else
  match s.ms.exSlots.findIdx? (fun e => e.srcCore == c) with
  | none => s
  | some k =>
    match s.ms.exSlots[k]? with
    | none => s
    | some e =>
      match moveSlot c e s with
      | .ok _ s => moved c (fun x => x) (onMs (fun m => { m with exSlots := m.exSlots.eraseIdx k }) s)
      | .fault _ _ s => s
      | .wait s => s

def execAtollLanding (core : Nat) (s : State) := done (atollLanding core s)

end Sys2Proof.Machine
end

