-- ==== Sys2Proof/Machine/HostPort.lean ====
section
/-! DEFINITION. The host port (spec/05): the windows WB and CXL.mem (R84, R85), mapped counters (R296), the registers of
WA, host rings (R88), and the service registers as the host writes them through WB (R345). -/

namespace Sys2Proof.Machine

/-- The host's view of tensor 0 of the context in WBCTX, as read when WBCTX was written (R27).
PRESUMED: notes/assumptions/65.md. -/
def hostView (s : State) : View := { ctx := s.host.wbctx, ptb := s.host.winPtb, page2m := s.host.winPage2m }

/-- A translated host read of n bytes that stay in one line: memory, a counter (R296), or a service register (R345). -/
def hostReadAt (t : Target) (n : Nat) (s : State) : Res (List Byte) :=
  if t.home ≠ s.hub.chipid then
    if specialTarget t ∧ ¬ (n = 8 ∧ t.pa % 8 = 0) then .fault causePerm t.page s else (readFar s none t n).andThen fun r s => .ok r.1 s
  else
  match placeOf t.pa with
  | .counter k j =>
    if n = 8 ∧ t.pa % 8 = 0 ∧ coreHeld s k s.host.wbctx then .ok (toBytes 8 (heldCounter s k s.host.wbctx j).toNat) s else .fault causePerm t.page s
  | .service off =>
    if n = 8 ∧ t.pa % 8 = 0 ∧ s.host.wbctx = 0 then .ok (toBytes 8 (serviceRead s off).toNat) s else .fault causePerm t.page s
  | _ => (readTarget s none t n).andThen fun r s => .ok r.1 s

/-- Reads n bytes for the host, in pieces that stay in one line. -/
def hostReadGo : Nat → Nat → Nat → State → Res (List Byte)
  | 0, _, _, s => .ok [] s
  | fuel + 1, va, n, s =>
    if n = 0 then .ok [] s
    else
      let k := min n (64 - va % 64)
      (translate s (hostView s) va .read).andThen fun t s =>
        (hostReadAt t k s).andThen fun b s =>
          (hostReadGo fuel (va + k) (n - k) s).andThen fun bs s => .ok (b ++ bs) s

/-- The service record of a failed host access (R85, R345): SOURCE 10, VALUE the address.
DEDUCED: notes/assumptions/37.md. -/
def hostFault (cause page va : Nat) (write : Bool) (s : State) : State :=
  svcEmit { code := cause, source := 10, ctx := s.host.wbctx, core := 0, tag := 0, value := BitVec.ofNat 64 va, page := page, write := write } s

/-- A host write of a value at a counter or a service register, where 8 aligned bytes act (R296, R345). -/
def hostSpecialWrite (t : Target) (n : Nat) (v : Word) (s : State) : Res Unit :=
  if t.home ≠ s.hub.chipid ∧ n = 8 then writeFar s none 0 t ((toBytes 8 v.toNat).map some) false
  else
  match placeOf t.pa with
  | .counter k j =>
    if n = 8 ∧ coreHeld s k s.host.wbctx then .ok () (deliver s.host.wbctx k j v s) else .fault causePerm t.page s
  | .service off =>
    if n = 8 ∧ s.host.wbctx = 0 then
      match serviceBad off v with
      | some a => .ok () (hostFault causePerm t.page a.toNat true s)
      | none => .ok () (serviceWrite off v s)
    else .fault causePerm t.page s
  | _ => .fault causePerm t.page s

/-- Writes bytes for the host. -/
def hostWrite (va : Nat) (bs : List Byte) (s : State) : Res Unit :=
  (translate s (hostView s) va .write).andThen fun t s =>
    if specialTarget t then hostSpecialWrite t (if va % 8 = 0 then bs.length else 0) (BitVec.ofNat 64 (ofBytes bs)) s
    else writeFlat s none (hostView s) va (bs.map some) false

/-- A context entry that is not valid gives no tables: the access fails with a cause the spec does not state
(notes/assumptions/6.md). -/
def invalidView (va : Nat) (write : Bool) (s : State) : State :=
  hostFault ((Config.freeWord s.tick).toNat % 256) 0 va write { s with tick := s.tick + 1 }

/-- The reply of a host read: newest first. -/
def hostReply (b : List Byte) (s : State) : State := onHost (fun h => { h with replies := b :: h.replies }) s

/-- A host access at tensor 0 address va of context WBCTX; none while it waits for readiness (R91). A failed read gives all ones
and a failed write is dropped, each with a fault report to the service agent (R85), which the hub holds while its ring is
full (R345). DEDUCED: notes/assumptions/37.md. -/
def hostAccess (va : Nat) (a : HostAccess) (s : State) : Bool × State :=
  match a with
  | .read n =>
    let ones := hostReply (List.replicate n 0xFF)
    if !s.host.winValid then (true, ones (invalidView va false s))
    else match hostReadGo (n / 64 + 2) va n s with
      | .ok b s => (true, hostReply b s)
      | .wait s => (false, s)
      | .fault c p s => (true, ones (hostFault c p va false s))
  | .write bs =>
    if !s.host.winValid then (true, invalidView va true s)
    else match hostWrite va bs s with
      | .ok _ s => (true, s)
      | .wait s => (false, s)
      | .fault c p s => (true, hostFault c p va true s)

/-- WBCTX: the windows read the context entry when it is written, once its stack is ready (R27, R85, R91). -/
def writeWbctx (ctx : Nat) (s : State) : Bool × State :=
  match ctxEntry s ctx with
  | none => (false, s)
  | some e => (true, onHost (fun h => { h with wbctx := ctx, winPtb := e.ptb, winPage2m := e.page2m, winValid := e.valid }) s)

/-- The register of WA at an 8-byte aligned offset; other offsets and those that are only written read zero (R85). -/
def hostReg (s : State) (off : Nat) : Word :=
  let h := s.host
  if off = 0x1000 then h.readymap
  else if off = 0x1008 then h.lwdrop.setWidth 64
  else if off = 0x1010 then h.bootstat
  else if off = 0x1018 then BitVec.ofNat 64 s.power.aclk
  else if off = 0x1020 then BitVec.ofNat 64 h.wbctx
  else if off = 0x1028 then h.wbbase
  else if 0x2000 ≤ off ∧ off < 0x2080 ∧ off % 16 = 0 then mapGet 0 h.hrcfg ((off - 0x2000) / 16)
  else 0

/-- A host read of n bytes of WA (R85). -/
def hostRegBytes (s : State) (off n : Nat) : List Byte :=
  (upTo n).map (fun i => (toBytes 8 (hostReg s ((off + i) / 8 * 8)).toNat).getD ((off + i) % 8) 0)

/-- HRDOORn: adds to the credit counter of ring n, while its doorbell is enabled (R88). A write for a core number that no core
bears is dropped. DESIGN CHOICE: notes/assumptions/73.md. -/
def hrdoor (n : Nat) (v : Word) (s : State) : State :=
  let h := (mapGet 0 s.host.hrcfg n).toNat
  if bit h 63 ∧ bits h 0 13 < Config.cores then hubRaise (bits h 0 13) (bits h 13 6) v s else s

/-- A write to a register of WA or of the hub's service page (R85, R88, R345); writes to other offsets are dropped. -/
def writeHostReg (r : HostReg) (v : Word) (s : State) : State :=
  match r with
  | .wbbase => onHost (fun h => { h with wbbase := v &&& 0xFFFFFFF000000000 }) s
  | .hrcfg n => onHost (fun h => { h with hrcfg := mapPut h.hrcfg n (v &&& 0x800000000007FFFF) }) s
  | .ctxtab => serviceWrite 0x000 v s
  | .granttab => serviceWrite 0x008 v s
  | .frbase => serviceWrite 0x010 v s
  | .frslots => serviceWrite 0x018 v s
  | .svccfg => serviceWrite 0x030 v s
  | .drainlim => serviceWrite 0x058 v s
  | .cwrt n => serviceWrite (0x1000 + 8 * n) v s
  | .frr t n w => serviceWrite (0x2000 + 32 * (16 * t + n) + 8 * w) v s
  | .other _ => s

/-- A wake-up of the host; an operand out of range fails as PERM with the operand (R345, R360). DEDUCED: notes/assumptions/11.md. -/
def hostWake (ctx core : Word) (all : Bool) (s : State) : State :=
  match frspBad ctx core all with
  | some v => hostFault causePerm 0 v.toNat true s
  | none => frspDoor ctx core all s

/-- Performs one thing that has arrived from the host, unless it waits. -/
def hostOne : HostWait → State → Bool × State
  | .access va a, s => hostAccess va a s
  | .context ctx, s => writeWbctx ctx s
  | .register r v, s => (true, writeHostReg r v s)
  | .service off v, s => (true, serviceWrite off v s)
  | .look off n, s => (true, hostReply (hostRegBytes s off n) s)
  | .door n v, s => (true, hrdoor n v s)
  | .wake ctx core all, s => (true, hostWake ctx core all s)
  | .launch off pieces, s => (true, launchWrite off pieces s)

/-- What has arrived is performed in order, up to the first that waits. -/
def hostServe : List HostWait → State → State
  | [], s => onHost (fun h => { h with waiting := [] }) s
  | w :: rest, s =>
    match hostOne w s with
    | (true, s) => hostServe rest s
    | (false, s) => onHost (fun h => { h with waiting := w :: rest }) s

/-- One more arrives at the port behind those that wait: a block written before a launch write is performed before it (R35).
DEDUCED: notes/assumptions/37.md. -/
def hostArrive (w : HostWait) (s : State) : State :=
  if s.host.waiting.isEmpty then
    match hostOne w s with
    | (true, s) => s
    | (false, s) => onHost (fun h => { h with waiting := [w] }) s
  else hostServe (s.host.waiting ++ [w]) s

/-- What has waited is tried again. -/
def hostRetry (s : State) : State := if s.host.waiting.isEmpty then s else hostServe s.host.waiting s

/-- WB_ACCESS: byte o of the window is byte WBBASE + o of tensor 0 (R85). -/
def execWbAccess (off : Nat) (a : HostAccess) (s : State) := done (hostArrive (.access (s.host.wbbase.toNat + off) a) s)

/-- CXL_MEM_ACCESS: the host reaches tensor 0 pages of the context named in WBCTX (R84). -/
def execCxlMemAccess (addr : Nat) (a : HostAccess) (s : State) := done (hostArrive (.access addr a) s)

def execWbctx (v : Word) (s : State) := done (hostArrive (.context (bits v.toNat 0 12)) s)

def execHrdoor (n : Nat) (v : Word) (s : State) := done (hostArrive (.door n v) s)

def execRegisterWrite (r : HostReg) (v : Word) (s : State) := done (hostArrive (.register r v) s)

/-- MAPPED_COUNTER_STORE: a host write of 8 aligned bytes at a mapped counter adds its value (R296). -/
def execMappedCounterStore (addr : Nat) (v : Word) (s : State) := done (hostArrive (.access addr (.write (toBytes 8 v.toNat))) s)

/-- MAPPED_COUNTER_LOAD: a host read of 8 bytes at a mapped counter (R296). -/
def execMappedCounterLoad (addr : Nat) (s : State) := done (hostArrive (.access addr (.read 8)) s)

/-- LAUNCH_WRITE: a posted write to the launch window, behind what the host has written before it (R35, R86). -/
def execLaunchWrite (off : Nat) (bytes : List (List Byte)) (s : State) := done (hostArrive (.launch off bytes) s)

/-- FRHEAD: the agent has consumed records; those held are written as room comes (R345). -/
def execFrhead (v : Word) (s : State) := done (hostArrive (.service 0x020 v) s)

/-- FRSPDOOR: a wake-up in the operand form of FRSP (R345, R360). DEDUCED: notes/assumptions/11.md. -/
def execFrspdoor (ctx core : Word) (all : Bool) (s : State) := done (hostArrive (.wake ctx core all) s)

/-- TINV: every cached translation of the context and tensor is invalidated (R345). -/
def execTinv (v : Word) (s : State) := done (hostArrive (.service 0x040 v) s)

/-- TINV_COMPLETE: TINVSTAT reads 0 again (R345). -/
def execTinvComplete (s : State) := done (onHub (fun h => { h with tinvBusy := false }) s)

/-- CTXEND ends the context as R355 gives. -/
def execCtxend (v : Word) (s : State) := done (hostArrive (.service 0x050 v) s)

/-- CHIPID: this chip's number, at once (R346). -/
def execChipid (v : Word) (s : State) := done (hostArrive (.service 0x060 v) s)

end Sys2Proof.Machine
end

