-- ==== Sys2Proof/Machine/Recursion.lean ====
section
/-! DEFINITION. Recursive rounds (spec/17): the quiescence wave (R302 to R304), votes (R333), RFIRE and FIX (R334, R335) with
the stratum list (R31), RETR (R336) and GWALK (R337). -/

namespace Sys2Proof.Machine

/-! ### Participants -/

def onQ (f : Quiesce → Quiesce) (x : Core) : Core := { x with quiesce := f x.quiesce }

/-- The children of a participant (R303). -/
def Quiesce.children (q : Quiesce) : List (Nat × Nat) := (upTo 4).filterMap (fun d => q.plist[4 * q.place + 1 + d]?)

/-- The parent of a participant; none for the root. -/
def Quiesce.parent (q : Quiesce) : Option (Nat × Nat) := if q.place = 0 then none else q.plist[(q.place - 1) / 4]?

/-- What a report adds at the parent. -/
def addReport (qs qa nc live : Nat) (flag cap : Bool) (q : Quiesce) : Quiesce :=
  { q with kids := q.kids + 1, sumS := q.sumS + qs, sumA := q.sumA + qa, flag := q.flag || flag, sumNC := q.sumNC + nc
           sumLive := q.sumLive + live, cap := q.cap || cap }

/-- What a message of the wave does at the participant that it reaches (R303, R333). -/
def waveIn (m : WaveMsg) (q : Quiesce) : Quiesce :=
  match m with
  | .start second => if second then { q with start2 := true } else { q with start1 := true }
  | .report1 qs qa flag => addReport qs qa 0 0 flag false q
  | .report2 qs qa nc live flag cap => addReport qs qa nc live flag cap q
  | .decision nc cap => { q with decision := some (nc, cap) }
  | .hold _ => q

/-- Another participant has begun the round after `round`: the HA of one that is still to begin it waits for its own drain (R325).
DEDUCED: notes/assumptions/60.md. -/
def awaitIn (m : WaveMsg) (x : Core) : Core :=
  match m with
  | .hold round => if x.haU.round = round then onHa (fun h => { h with await := true }) x else x
  | _ => x

/-- The counter that a report raises: k60 for wave 1, k61 for wave 2 (R303). -/
def waveCounter : WaveMsg → Option Nat
  | .report1 _ _ _ => some 60
  | .report2 _ _ _ _ _ _ => some 61
  | _ => none

/-- A message of the wave takes effect at a participant whose launch runs. -/
def waveNow (c : Nat) (m : WaveMsg) (s : State) : State :=
  let s := onCore c (fun x => awaitIn m (onQ (waveIn m) x)) s
  match waveCounter m with
  | some k => queueInc c k 1 s
  | none => s

/-- A message of the wave reaches a participant of this chip; at one that is drained or saved the hub holds it (R300, R322). -/
def waveArrives (ctx c : Nat) (m : WaveMsg) (s : State) : State :=
  if applies s c ctx then waveNow c m s
  else if coreHeld s c ctx then
    let own := s.hub.chipid
    holdMsg ctx c { core := 0, k := 0, inc := 0, ken := false, msg := some { chip := own, src := own, core := c, ctx := ctx, body := .wave m } } s
  else s

/-- A message of the wave to a participant (R303); one on another chip is sent over its causeway, where it waits while the port is
still to be trained (R91). -/
def tellPeer (c : Nat) (m : WaveMsg) (s : State) (p : Nat × Nat) : State :=
  let ctx := (viewOf s c).ctx
  if p.1 = s.hub.chipid then waveArrives ctx p.2 m s
  else tellChip { chip := p.1, core := p.2, ctx := ctx, body := .wave m } s

/-! ### The wave (R302, R303) -/

/-- A RING atoll of the selected graph holds tail > head. -/
def ringHolds (x : Core) : Bool :=
  (selCfg x).ags.any (fun (_, a) => a.mode == 3 && (match mapFind (selCfg x).atolls a.atoll with
    | some t => decide ((x.counters.toList.getD t.headk 0).toNat < (x.counters.toList.getD t.tailk 0).toNat)
    | none => false))

/-- BUSY of a core (R302). -/
def busy (s : State) (c : Nat) : Bool :=
  let x := coreOf s c
  !x.chans.isEmpty || !x.exits.isEmpty || x.wires.any (fun (i, q) => !q.isEmpty && !x.severed.contains i) || !x.heldMarks.isEmpty ||
  x.mps.any (fun (_, m) => m.chans.any (fun (_, k) => k.stalled.isSome || !k.diverted.isEmpty || k.heldFull.isSome)) ||
  s.ms.far.any (fun r => r.agent == some (.fabric c) && r.used.isNone) ||
  !x.jobs.isEmpty || !x.ex.packing.isEmpty || !x.ex.ready.isEmpty || s.ms.exSlots.any (fun e => e.srcCore == c) || ringHolds x ||
  x.posted.any (fun (_, p) => match p.state with | .inProgress _ => true | .parked _ => true | _ => false) ||
  !x.haU.tab.idle || x.haU.tab.blocked.isSome || !x.haU.outq.isEmpty || x.mt.firing.isSome || !x.mt.jobs.isEmpty

/-- QS and QA as a core reports them: 0 with counting off (R322). -/
def countsOf (q : Quiesce) : Nat × Nat := if q.counting then (q.qs, q.qa) else (0, 0)

/-- The live entries of the head table, and those with CHANGED set (R333). -/
def liveCount (x : Core) : Nat × Nat :=
  let l := x.haU.tab.live haEnt
  (l.length, (l.filter (fun e => e.changed)).length)

/-- The wave moves at a core: its vote is armed, and its launch runs and is not being drained or saved (R322). -/
def waveOn (s : State) (c : Nat) : Bool :=
  let q := (coreOf s c).quiesce
  q.armed && q.decision.isNone && fabricOn s c && (isleOfCore s c).phase == .running && (isleOfCore s c).quiesceAt.isNone

/-- HOLD of the HA of a core. DEDUCED: notes/assumptions/60.md. -/
def setHold (b : Bool) (c : Nat) (s : State) : State := onCore c (onHa (fun h => { h with hold := b })) s

/-- HOLD of a participant that votes within RFIRE or FIX: it holds from its report to wave 2, which decides when all is quiet, and a
new wave lets it go on (R324, R325). -/
def holdFire (b : Bool) (c : Nat) (s : State) : State := if (coreOf s c).quiesce.fire then setHold b c s else s

/-- A wave-1 start is passed on (R303). -/
def wave1Start (c : Nat) (s : State) : State :=
  let q := (coreOf s c).quiesce
  if waveOn s c ∧ q.start1 ∧ (q.wstate = .idle ∨ q.wstate = .w1done) then
    let s := onCore c (onQ (fun q => { q with start1 := false, wstate := .w1, kids := 0, sumS := 0, sumA := 0, flag := false, restartAt := none }))
      (holdFire false c s)
    q.children.foldl (tellPeer c (.start false)) s
  else s

/-- A participant reports to wave 1; the root decides (R303). -/
def wave1Report (c : Nat) (s : State) : State :=
  let q := (coreOf s c).quiesce
  if waveOn s c ∧ q.wstate = .w1 ∧ q.kids = q.children.length then
    let n := countsOf q
    let qs := q.sumS + n.1
    let qa := q.sumA + n.2
    let flag := q.flag || busy s c
    let s := onCore c (onQ (fun q => { q with act := false, wstate := .w1done })) s
    match q.parent with
    | some p => tellPeer c (.report1 qs qa flag) s p
    | none =>
      if qs = qa ∧ !flag then onCore c (onQ (fun q => { q with w1S := qs, start2 := true })) s
      else onCore c (onQ (fun q => { q with restartAt := some (s.cycle + 256) })) s
  else s

/-- A wave-2 start is passed on (R303). -/
def wave2Start (c : Nat) (s : State) : State :=
  let q := (coreOf s c).quiesce
  if waveOn s c ∧ q.start2 ∧ q.wstate = .w1done then
    let s := onCore c (onQ (fun q => { q with start2 := false, wstate := .w2, kids := 0, sumS := 0, sumA := 0, flag := false
                                              sumNC := 0, sumLive := 0, cap := false })) s
    q.children.foldl (tellPeer c (.start true)) s
  else s

/-- The root's quiescent decision: EXTENT of the head relation takes the live count, and the decision is known (R333). A fault of
that write is reported once, and the root waits for a wake-up. DEDUCED: notes/assumptions/59.md. -/
def decide2 (c nc live : Nat) (cap : Bool) (s : State) : State :=
  let q := (coreOf s c).quiesce
  let a := (isleOfCore s c).rtbase.toNat + 64 * q.rid + 24
  if q.told then s
  else
    match writeFlat s (some (.pilot c)) (viewOf s c) a ((toBytes 8 live).map some) false with
    | .ok _ s => onCore c (onQ (fun q => { q with wstate := .idle, decision := some (nc % 2 ^ 48, cap) })) s
    | .fault cause page s =>
      if faultRoom s c then
        onCore c (onQ (fun q => { q with told := true }))
          (fabricFault c { code := cause, val := BitVec.ofNat 64 a, source := 0, page := page, write := true } true s)
      else s
    | .wait s => s

/-- A participant reports to wave 2; the root decides (R303, R333). -/
def wave2Report (c : Nat) (s : State) : State :=
  let x := coreOf s c
  let q := x.quiesce
  if waveOn s c ∧ q.wstate = .w2 ∧ q.kids = q.children.length then
    let n := countsOf q
    let l := liveCount x
    let qs := q.sumS + n.1
    let qa := q.sumA + n.2
    let flag := q.flag || q.act || busy s c
    let nc := q.sumNC + l.2
    let live := q.sumLive + l.1
    let cap := q.cap || decide (q.capacity < l.1)
    let s := holdFire true c s
    match q.parent with
    | some p => tellPeer c (.report2 qs qa nc live flag cap) (onCore c (onQ (fun q => { q with wstate := .idle })) s) p
    | none =>
      if qs = qa ∧ qs = q.w1S ∧ !flag then decide2 c nc live cap s
      else onCore c (onQ (fun q => { q with wstate := .idle, restartAt := some (s.cycle + 256) })) s
  else s

/-- The root starts a new wave 1, 256 clk after a wave that did not decide (R303). -/
def waveRestart (c : Nat) (s : State) : State :=
  match (coreOf s c).quiesce.restartAt with
  | some t => if waveOn s c ∧ t ≤ s.cycle then onCore c (onQ (fun q => { q with start1 := true, restartAt := none })) s else s
  | none => s

def execWave1Start (core : Nat) (s : State) := done (wave1Start core s)
def execWave1Report (core : Nat) (s : State) := done (wave1Report core s)
def execWave2Start (core : Nat) (s : State) := done (wave2Start core s)
def execWave2Report (core : Nat) (s : State) := done (wave2Report core s)
def execWaveRestart (core : Nat) (s : State) := done (waveRestart core s)

/-! ### The round record (R321) -/

/-- A round record. -/
structure RoundRec where
  npart : Nat
  rid : Nat
  rlvl : Nat
  maxRounds : Nat
  plist : Nat
  slist : Nat
  deriving DecidableEq, Repr

def parseRound (b : List Byte) : RoundRec :=
  { npart := fieldAt b 0 0 16, rid := fieldAt b 2 0 12, rlvl := fieldAt b 4 0 3, maxRounds := fieldAt b 6 0 16
    plist := fieldAt b 8 0 64, slist := fieldAt b 16 0 64 }

/-- The record keeps to R321 as far as its own bytes tell. -/
def roundOk (b : List Byte) : Bool :=
  let r := parseRound b
  fieldAt b 2 12 4 == 0 && fieldAt b 4 3 5 == 0 && fieldAt b 5 0 8 == 0 && fieldAt b 24 0 320 == 0 &&
  decide (1 ≤ r.npart) && decide (r.npart ≤ 6400) && decide (1 ≤ r.rlvl) && decide (r.rlvl ≤ 6) && decide (1 ≤ r.maxRounds) && r.plist % 4 == 0

/-- Pilot loads of n words of 4 bytes. -/
def pilotWords : Nat → Nat → State → Res (List Nat)
  | 0, _, s => .ok [] s
  | n + 1, a, s =>
    (pilotLoad s a 4 true).andThen fun b s => (pilotWords n (a + 4) s).andThen fun ws s => .ok (ofBytes b :: ws) s

/-- A participant entry: chip and core. -/
def peerOf (w : Nat) : Nat × Nat := (bits w 13 12, bits w 0 13)

/-- Entries ascend strictly by chip and then by core (R321). -/
def ascending : List (Nat × Nat) → Bool
  | a :: b :: rest => (decide (a.1 < b.1) || (a.1 == b.1 && decide (a.2 < b.2))) && ascending (b :: rest)
  | _ => true

/-- The record as loaded, with its participants, this core's place among them, and the head relation. -/
structure VoteSetup where
  round : RoundRec
  peers : List (Nat × Nat)
  place : Nat
  capacity : Nat
  deriving Repr

/-- The record of a vote: aligned, in tensor 0, loaded, and as R321 lays it out (R333). DEDUCED: notes/assumptions/86.md. -/
def readRound (a : Nat) (s : State) : Res RoundRec :=
  if a % 64 ≠ 0 then .fault causeAlign a s
  else if inWindow a then .fault causeCfgbad a s
  else (pilotRecord s a 64).andThen fun b s => if roundOk b then .ok (parseRound b) s else .fault causeCfgbad a s

/-- The checks of QVOTE before it arms (R333). -/
def readVote (a : Nat) (s : State) : Res VoteSetup :=
  let c := s.turn
  (readRound a s).andThen fun r s =>
    (readRel s (some (.pilot c)) c r.rid).andThen fun rel s =>
      if rel.npart ≠ r.npart then .fault causeCfgbad a s
      else
        (pilotWords r.npart r.plist s).andThen fun ws s =>
          let peers := ws.map peerOf
          if !(ws.all (fun w => bits w 25 7 == 0 && decide (bits w 0 13 < Config.cores)) && ascending peers) then .fault causeCfgbad a s
          else if !peers.contains (s.hub.chipid, c) then .fault causePerm a s
          else if [252, 253, 254, 255].any (fun e => (mapFind (coreOf s c).posted e).isSome) then .fault causePerm 252 s
          else .ok { round := r, peers := peers, place := peers.idxOf (s.hub.chipid, c), capacity := rel.capacity } s

/-- What a vote needs of its record. -/
def setVote (fire : Bool) (v : VoteSetup) (q : Quiesce) : Quiesce :=
  { q with fire := fire, plist := v.peers, place := v.place, rid := v.round.rid, capacity := v.capacity, maxRounds := v.round.maxRounds }

/-- The core takes part in the vote: participant 0 starts wave 1 (R333). -/
def armVote (q : Quiesce) : Quiesce :=
  { q with armed := true, decision := none, wstate := .idle, start1 := q.start1 || q.place == 0, start2 := false, restartAt := none }

/-- The decision has reached this core: as a release it goes to the children, and the vote is over (R333). -/
def passDecision (d : Nat × Bool) (go : State → State) (s : State) : State :=
  afterRelease s fun s =>
    let c := s.turn
    let q := (coreOf s c).quiesce
    let s := q.children.foldl (tellPeer c (.decision d.1 d.2)) s
    go (acquire c (onCore c (onQ (fun q => { q with armed := false, fire := false, decision := none, plist := [] })) s))

/-- gd of a vote: NC with CAP in bit 62. -/
def voteValue (d : Nat × Bool) : Word := BitVec.ofNat 64 (d.1 % 2 ^ 48 + 2 ^ 62 * ofBool d.2)

/-- QVOTE (R333). -/
def execQvote (gd ga : Reg) (s : State) :=
  done (
    if (pilot s).stage = .vote then
      match (coreOf s s.turn).quiesce.decision with
      | some d => passDecision d (writeBack gd (voteValue d)) s
      | none => s
    else
      onRes (readVote (reg s ga).toNat s) fun v s =>
        afterRelease s fun s =>
          let arm := fun (x : Core) => onHa (fun h => { h with await := false }) (onQ (fun q => armVote (setVote false v q)) x)
          onPilot s.turn (fun p => { p with stage := .vote }) (onCore s.turn arm s))

/-! ### The stratum list (R31) -/

/-- The rules of one entry have the stratum of the entry. -/
def checkStratumRules (stratum : Nat) : Nat → Nat → State → Res Unit
  | 0, _, s => .ok () s
  | n + 1, a, s =>
    (pilotLoad s a 1 true).andThen fun b s =>
      (readRule s (some (.pilot s.turn)) s.turn (ofBytes b)).andThen fun r s =>
        if r.stratum ≠ stratum then faultFree causeStratum s else checkStratumRules stratum n (a + 1) s

/-- The entries of a stratum list, in strictly ascending order (R31). DEDUCED: notes/assumptions/59.md; that NRULES 0 is a bad record is a
DESIGN CHOICE: notes/assumptions/87.md. -/
def checkStrata (list : Nat) : Nat → Nat → Option Nat → State → Res Unit
  | 0, _, _, s => .ok () s
  | n + 1, a, last, s =>
    (pilotRecord s a 16).andThen fun b s =>
      let t := fieldAt b 0 0 4
      let k := fieldAt b 1 0 8
      if k = 0 then .fault causeCfgbad list s
      else if last.any (fun l => decide (t ≤ l)) then faultFree causeStratum s
      else
        (checkStratumRules t k (fieldAt b 8 0 64) s).andThen fun _ s => checkStrata list n (a + 16) (some t) s

/-- The stratum list that FIX names is checked (R31, R335). COUNT is from 1 to 16 in 4 bits: 0 counts 16. Reserved bits are ignored
(R5). DESIGN CHOICE: notes/assumptions/59.md. -/
def checkSlist (a : Nat) (s : State) : Res Unit :=
  if a = 0 then .ok () s
  else
    (pilotRecord s a 16).andThen fun b s =>
      checkStrata a (if fieldAt b 0 0 4 = 0 then 16 else fieldAt b 0 0 4) (a + 16) none s

/-! ### RFIRE and FIX (R334, R335) -/

/-- A running graph of the core has RULES set and configures the HA in ACC or MAXW with a route from o0. -/
def firesRules (s : State) : Bool :=
  let x := coreOf s s.turn
  (slotOf s s.turn).any (fun g => g.running && g.rules) && hasOp x 12 && decide (haMode x ≤ 1) && routed x 76 0

/-- Participants that have still to begin the round of this core hold what reaches their HAs until they do (R324, R325); after a
vote of RFIRE or FIX they do so already. DEDUCED: notes/assumptions/60.md. -/
def tellRound (c : Nat) (peers : List (Nat × Nat)) (s : State) : State :=
  let h := (coreOf s c).haU
  if h.hold then s else (peers.filter (fun p => p != (s.hub.chipid, c))).foldl (tellPeer c (.hold h.round)) s

/-- A round begins: the changed entries drain in key order with a MARK of level RLVL (R334). -/
def beginRound (v : VoteSetup) (s : State) : State :=
  awaitHa s fun s =>
    afterRelease s fun s =>
      let s := tellRound s.turn v.peers (onCore s.turn (onQ (setVote true v)) s)
      onPilot s.turn (fun p => { p with stage := .drain }) (beginDrain s.turn true true (some v.round.rlvl) s)

/-- The drain of a round has left: ROUND advances, HOLD falls, and the vote begins. -/
def beginVote (s : State) : State :=
  let c := s.turn
  let n := (coreOf s c).haU.paused.getD 0
  let s := onCore c (fun x => onHa (fun h => { h with paused := none, hold := false, await := false }) (drainTable true false n x)) s
  onPilot c (fun p => { p with stage := .vote }) (onCore c (onQ armVote) s)

/-- Absorption goes on after a fault. -/
def unpause (c : Nat) (s : State) : State := onCore c (onHa (fun h => { h with paused := none })) s

/-- One round up to its decision; `k` runs with the decision, HOLD set. -/
def roundStep (a : Nat) (before : State → Res Unit) (k : Nat × Bool → State → State) (s : State) : State :=
  match (pilot s).stage with
  | .drain =>
    let s := flushHa s.turn s
    if (coreOf s s.turn).haU.outq.isEmpty then beginVote s else s
  | .vote =>
    match (coreOf s s.turn).quiesce.decision with
    | some d => passDecision d (fun s => k d (setHold true s.turn s)) s
    | none => s
  | .drainWait =>
    match readVote a s with
    | .ok v s => beginRound v s
    | .fault cause v s => trapAt cause (BitVec.ofNat 64 v) (unpause s.turn s)
    | .wait s => s
  | _ =>
    onRes (before s) fun _ s =>
      if !firesRules s then trapAt causePerm 12 s else onRes (readVote a s) beginRound

def execRfire (gd ga : Reg) (s : State) :=
  done (roundStep (reg s ga).toNat (fun s => .ok () s) (fun d s => writeBack gd (voteValue d) s) s)

/-- FIX ends: gd, HOLD clear, and with END the stream on o0 and o1 ends (R335). -/
def endFix (end_ : Bool) (gd : Reg) (n : Nat) (d : Nat × Bool) (s : State) : State :=
  let c := s.turn
  let s := setHold false c s
  let s := if end_ then onCore c (fun x =>
      let ms := (0, markTok 7 false false) :: (if haField x 0 14 1 = 1 then [(1, markTok 7 false false)] else [])
      onHa (fun h => { h with closed := true }) (queueHa ms x)) s else s
  let v := n + 2 ^ 62 * ofBool d.2 + 2 ^ 63 * ofBool (!d.2 && d.1 != 0)
  writeBack gd (BitVec.ofNat 64 v) (onPilot c (fun p => { p with fixRounds := 0 }) s)

/-- A round of FIX has been decided: it ends, or the next round begins. -/
def afterRound (end_ : Bool) (gd : Reg) (maxRounds : Nat) (d : Nat × Bool) (s : State) : State :=
  let n := (pilot s).fixRounds + 1
  if d.2 ∨ d.1 = 0 ∨ maxRounds ≤ n then endFix end_ gd n d s
  else onPilot s.turn (fun p => { p with fixRounds := n, stage := .none }) s

def execFix (end_ : Bool) (gd ga : Reg) (s : State) :=
  let a := (reg s ga).toNat
  let before := fun (s : State) =>
    if (pilot s).fixRounds = 0 then (readRound a s).andThen (fun r s => checkSlist r.slist s) else .ok () s
  let last := (coreOf s s.turn).quiesce.maxRounds
  done (roundStep a before (afterRound end_ gd last) s)

/-! ### RETR and GWALK (R336, R337) -/

/-- A 32-byte DRAIN record (R218). -/
structure DrainRec where
  key : Word
  weight : Word
  wit : Word
  round : Nat
  flags : Nat
  deriving DecidableEq, Repr

def parseDrain (b : List Byte) : DrainRec :=
  { key := BitVec.ofNat 64 (fieldAt b 0 0 64), weight := BitVec.ofNat 64 (fieldAt b 8 0 64), wit := BitVec.ofNat 64 (fieldAt b 16 0 64)
    round := fieldAt b 24 0 16, flags := fieldAt b 26 0 16 }

/-- The retraction of a record, with its witness token (R218, R336). -/
def retractToks (x : Core) (e : DrainRec) : List (Nat × Tok) :=
  let wide := (haGeo x).form == 0 && haAlg x == .int64
  let d := quadOf (bits e.key.toNat 0 32) (bits e.key.toNat 32 32) (bits e.weight.toNat 0 32) (if wide then bits e.weight.toNat 32 32 else e.round)
  let w : Tok := { data := BitVec.ofNat 128 e.wit.toNat, lmask := 3 }
  [(0, ({ data := d, lmask := 15, retract := true, poison := bit e.flags 3 } : Tok))] ++ (if haField x 0 14 1 = 1 then [(1, w)] else [])

/-- Goes on with the record at index j of an array; `lost` comes before the trap of a fault. -/
def walkRecord (a j : Nat) (lost : State → State) (k : DrainRec → State → State) (s : State) : State :=
  match pilotRecord s (a + 32 * j) 32 with
  | .ok b s => k (parseDrain b) s
  | .fault cause v s => trapAt cause (BitVec.ofNat 64 v) (lost s)
  | .wait s => s

/-- The walk goes on at the next record. -/
def walkNext (j n : Nat) (s : State) : State := onPilot s.turn (fun p => { p with stage := .walk (j + 1) n }) s

/-- The outputs take the tokens of one more retraction (R336). -/
def retrRoom (x : Core) : Bool := exitRoom x 76 0 1 && (haField x 0 14 1 == 0 || exitRoom x 76 1 1)

/-- RETR (R336): its tokens go to the outputs, and it alone waits while they are full. -/
def execRetr (gd ga gb : Reg) (s : State) :=
  let c := s.turn
  let a := reg s ga
  let count := reg s gb
  done (
    match (pilot s).stage with
    | .walk j n =>
      if count.toNat ≤ j then writeBack gd (BitVec.ofNat 64 n) s
      else
        let s := flushHa c s
        if !retrRoom (coreOf s c) then s
        else
          walkRecord a.toNat j id (fun e s =>
            if bit e.flags 0 then
              walkNext j (n + 1) (onCore c (fun x => (retractToks x e).foldl (fun x t => emitTok 76 t.1 t.2 x) x) s)
            else walkNext j n s) s
    | _ =>
      if a.toNat % 32 ≠ 0 then trapAt causeAlign a s
      else if 2 ^ 32 ≤ count.toNat then trapAt causePerm count s
      else if !(unitRuns s c 12 && routed (coreOf s c) 76 0) then trapAt causePerm 12 s
      else onPilot c (fun p => { p with stage := .walk 0 0 }) s)

/-- The live entry of a record's key, when the walk visits the record. -/
def walkHit (x : Core) (round : Nat) (e : DrainRec) : Option HaSlot :=
  if bit e.flags 0 ∧ e.round = round then x.haU.tab.look haEnt e.key else none

/-- The record is one of the algebra VIT, as the head relation of its witness's rule tells; one whose rule cannot be read counts as VIT
(R320, R331). DEDUCED: notes/assumptions/83.md. -/
def walksVit (c : Nat) (e : DrainRec) (s : State) : Res Bool :=
  let a : Option CacheAgent := some (.pilot c)
  match (readRule s a c (bits e.wit.toNat 56 8)).andThen fun r s => readRel s a c r.head with
  | .ok rel s => .ok (algOf rel.alg == some .vit) s
  | .fault _ _ _ => .ok true s
  | .wait s => .wait s

/-- The gradient tokens of a record and its entry (R337). -/
def gradToks (x : Core) (e : DrainRec) (h : HaSlot) : List (Nat × Tok) × FpFlags :=
  let g := leaveAs x .fp32 .rne 0 h.x
  let d := quadOf (bits e.key.toNat 0 32) (bits e.key.toNat 32 32) g.1 (bits e.weight.toNat 0 32)
  ([(0, ({ data := d, lmask := 15, poison := h.poison } : Tok)), (1, ({ data := BitVec.ofNat 128 e.wit.toNat, lmask := 3 } : Tok))], g.2)

/-- A running graph of the core configures the HA in EXACT form with routes from o0 and o1. -/
def walksExact (s : State) (c : Nat) : Bool :=
  let x := coreOf s c
  unitRuns s c 12 && opField x 12 0 0 2 == 1 && routed x 76 0 && routed x 76 1

/-- The end of a walk: its MARKs leave, and absorption goes on. -/
def endWalk (gd : Reg) (n : Nat) (s : State) : State :=
  let s := flushHa s.turn s
  if (coreOf s s.turn).haU.outq.isEmpty then
    writeBack gd (BitVec.ofNat 64 n) (unpause s.turn s)
  else s

/-- GWALK (R337). -/
def execGwalk (gd ga gb : Reg) (round : BitVec 16) (lvl : BitVec 3) (marken : Bool) (s : State) :=
  let c := s.turn
  let a := reg s ga
  let count := reg s gb
  done (
    match (pilot s).stage with
    | .walk j n =>
      if count.toNat < j then endWalk gd n s
      else if j = count.toNat then
        let l := markTok lvl.toNat false false
        let mark := fun (x : Core) => onHa (fun h => { h with closed := h.closed || lvl == 7 }) (queueHa [(0, l), (1, l)] x)
        walkNext j n (if marken then onCore c mark s else s)
      else
        let s := flushHa c s
        if !(coreOf s c).haU.outq.isEmpty then s
        else
          walkRecord a.toNat j (unpause c) (fun e s =>
            match walkHit (coreOf s c) round.toNat e with
            | none => walkNext j n s
            | some h =>
              match walksVit c e s with
              | .ok true s =>
                let t := gradToks (coreOf s c) e h
                walkNext j (n + 1) (onCore c (fun x => queueHa t.1 (haFlags t.2 x)) s)
              | .wait s => s
              | _ => walkNext j n s) s
    | st =>
      if st ≠ .drainWait ∧ a.toNat % 32 ≠ 0 then trapAt causeAlign a s
      else if st ≠ .drainWait ∧ 2 ^ 32 ≤ count.toNat then trapAt causePerm count s
      else if st ≠ .drainWait ∧ !walksExact s c then trapAt causePerm 12 s
      else
        awaitHa s fun s =>
          onPilot c (fun p => { p with stage := .walk 0 0 }) (onCore c (onHa (fun h => { h with paused := some 0 })) s))

end Sys2Proof.Machine
end

