-- ==== Sys2Proof/Machine/Chips.lean ====
section
/-! DEFINITION. Messages between chips (R293, R297, R300, R346): their arrival over a causeway, what they do on the chip that they
name, their answers, and their way on to another chip; and the messages that the hub held for a launch (R300, R352). The layout of a
message is notes/assumptions/74.md. -/

namespace Sys2Proof.Machine

/-! ### Memory of this chip (R246, R252) -/

/-- A read for another chip at a place of this one: its bytes, poison, and whether they are a scale token image (R311). -/
def placeRead (t : Target) (n : Nat) (s : State) : Res ChipBody :=
  if specialTarget t then .ok .ended s
  else if t.home ≠ s.hub.chipid then (readFar s none t n).andThen fun r s => .ok (.reply r.1 r.2.1 r.2.2) s
  else (readTarget s none t n).andThen fun (b, bad) s => .ok (.reply b bad (placeOf t.pa == .hbm && scaleImage s t.pa n)) s

/-- A message of 8 aligned bytes may act on counters of a core that its context holds (R296). -/
def counterOpen (s : State) (ctx k pa n : Nat) : Bool := n == 8 && pa % 8 == 0 && coreHeld s k ctx

/-- A read at a physical address of this chip (R252, R296, R345). -/
def physRead (ctx : Nat) (t : Target) (n : Nat) (s : State) : Res ChipBody :=
  match placeOf t.pa with
  | .counter k j => .ok (if counterOpen s ctx k t.pa n then .reply (toBytes 8 (heldCounter s k ctx j).toNat) false false else .ended) s
  | .service off => .ok (if n = 8 ∧ ctx = 0 then .reply (toBytes 8 (serviceRead s off).toNat) false false else .ended) s
  | .counterHole => .ok .ended s
  | _ => placeRead t n s

/-- The answer to a write. -/
def written : ChipBody := .reply [] false false

/-- A write at a physical address of this chip (R252, R296, R345). -/
def physWrite (ctx : Nat) (au : Author) (t : Target) (bs : List (Option Byte)) (bad : Bool) (s : State) : Res ChipBody :=
  let v := BitVec.ofNat 64 (ofBytes (bs.map (·.getD 0)))
  match placeOf t.pa with
  | .counter k j => if counterOpen s ctx k t.pa bs.length then .ok written (deliver ctx k j v s) else .ok .ended s
  | .service off => if bs.length = 8 ∧ ctx = 0 ∧ (serviceBad off v).isNone then .ok written (serviceWrite off v s) else .ok .ended s
  | .counterHole => .ok .ended s
  | _ => (writeTarget s none t bs bad (some au)).andThen fun _ s => .ok written s

/-- An atomic at a physical address of this chip, at its home slice (R157, R293). -/
def physAtomic (au : Author) (t : Target) (n : Nat) (op : AtomOp) (s : State) : Res ChipBody :=
  if specialTarget t then .ok .ended s
  else (atomicTarget s none 0 n t op (some au)).andThen fun v s => .ok (.reply (toBytes n v) false false) s

/-- The tensor record of a context by the table of its lowest isle on this chip. DESIGN CHOICE: notes/assumptions/74.md. -/
def msgTensor (v : View) (tid : Nat) (s : State) : Res TensorRec :=
  if tid = 0 then .ok (tensor0 v) s
  else
    match s.hub.isles.find? (fun (_, i) => i.ctx == v.ctx && phaseHolds i.phase) with
    | none => .fault causeCfgbad 0 s
    | some (_, i) =>
      if i.ttlen.toNat ≤ tid then .fault causeCfgbad 0 s
      else
        (readFlat s none v (i.ttbase.toNat + 128 * tid) 128).andThen fun (b, bad) s =>
          match parseTensor tid b with
          | some t => if bad then .fault causeMdpoison 0 s else .ok t s
          | none => .fault (if bad then causeMdpoison else causeCfgbad) 0 s

/-- The elements of a request of another chip under this chip's tables for the context, the page base of the first that lies in
memory, and its offset (R246, R252). -/
def elemPlace (ctx tid : Nat) (coord : List Int) (n : Nat) (acc : Access) (s : State) :
    Res (TensorRec × List Elt × Option (Target × Nat)) :=
  match ctxEntry s ctx with
  | none => .wait s
  | some e =>
    if !e.valid then .fault causeCfgbad 0 s
    else
      let v : View := { ctx := ctx, ptb := e.ptb, page2m := e.page2m }
      (msgTensor v tid s).andThen fun t s =>
        let es := reqElts t n coord
        if coord.getD 0 0 % (reqCount n t.width : Nat) ≠ 0 then .fault causeAlign 0 s
        else if anyOutside es then .fault causeOob pageNone s
        else
          match firstSpot es with
          | none => .ok (t, es, none) s
          | some p => (translateSpot s v t { p with off := 0 } acc none).andThen fun tg s => .ok (t, es, some (tg, p.off / n * n)) s

/-- A read of SIZE bytes at an element for another chip. -/
def elemRead (ctx tid : Nat) (coord : List Int) (n : Nat) (s : State) : Res ChipBody :=
  (elemPlace ctx tid coord n .read s).andThen fun (t, es, at_) s =>
    match at_ with
    | none => .ok (.reply (List.replicate n 0) false false) s
    | some (tg, base) =>
      (placeRead { tg with pa := tg.pa + base } n s).andThen fun r s =>
        match r with
        | .reply b bad scale => .ok (.reply (toBytes n (gatherRead t.width n base b es).toNat) bad scale) s
        | r => .ok r s

/-- The token whose lanes a write of another chip carries. -/
def laneTok (bs : List (Option Byte)) (bad : Bool) : Tok :=
  { data := BitVec.ofNat 128 (ofBytes (bs.map (·.getD 0))), poison := bad
    lmask := BitVec.ofNat 4 ((upTo 4).foldl (fun m i => m + 2 ^ i * ofBool (bs.getD (4 * i) none).isSome) 0) }

/-- A write of the bytes that are present at an element for another chip. The answer to a poisoned one tells the address of its first
byte (R348). -/
def elemWrite (ctx : Nat) (au : Author) (tid : Nat) (coord : List Int) (bs : List (Option Byte)) (bad : Bool) (s : State) : Res ChipBody :=
  (elemPlace ctx tid coord bs.length .write s).andThen fun (t, es, at_) s =>
    match at_ with
    | none => .ok written s
    | some (tg, base) =>
      let m := gatherWrite t.width bs.length (laneTok bs bad) es
      if m.isEmpty then .ok written s
      else if specialTarget tg then .ok .ended s
      else
        (writeGathered none bs.length base { tg with pa := tg.pa + base } m bad s (some au)).andThen fun _ s =>
          .ok (match m with | (o, _) :: _ => if bad then .reply (toBytes 8 (tg.pa + o)) false false else written | [] => written) s

/-! ### Operations on a core of this chip (R297) -/

/-- A range of the remote side that ends the operation: past the window, or on counters or service registers (R148, R345). -/
def remoteBad (m : ChipMsg) (acc : Access) (a n : Nat) (s : State) : Bool := raddrBad a n || specialRange s m.core acc a n

/-- PUT: the bytes are performed on this chip (R297). -/
def msgPut (m : ChipMsg) (a : Nat) (b : List Byte) (bad : Bool) (s : State) : Res ChipBody :=
  if remoteBad m .write a b.length s then .ok .ended s
  else if inWindow a then
    withScratch m.core (a - Config.windowBase) b.length s fun s =>
      .ok written (onCore m.core (putScratchAs bad (a - Config.windowBase) b) s)
  else (writeFlat s none (viewOf s m.core) a (b.map some) bad).andThen fun _ s => .ok written s

/-- GET: the bytes are read on this chip (R297). -/
def msgGet (m : ChipMsg) (a n : Nat) (s : State) : Res ChipBody :=
  if remoteBad m .read a n s then .ok .ended s
  else if inWindow a then
    let o := a - Config.windowBase
    withScratch m.core o n s fun s => .ok (.reply (memBytes (coreOf s m.core).scratch o n) (scratchBad (coreOf s m.core) o n) false) s
  else (readFlat s none (viewOf s m.core) a n).andThen fun (b, bad) s => .ok (.reply b bad false) s

/-- ATOM: one event on this chip (R297). -/
def msgAtom (m : ChipMsg) (f : AmoFn) (a n : Nat) (v : Word) (s : State) : Res ChipBody :=
  let op : AtomOp := .amo f (v.toNat % 2 ^ (8 * n))
  if remoteBad m .both a n s ∨ a % n ≠ 0 then .ok .ended s
  else if inWindow a then
    let o := a - Config.windowBase
    withScratch m.core o n s fun s =>
      let old := memNat (coreOf s m.core).scratch o n
      let (v, s) := runAtom op n 0 old s
      .ok (.reply (toBytes n old) false false) (onCore m.core (putScratch o (toBytes n v)) s)
  else (translate s (viewOf s m.core) a .both).andThen fun t s => physAtomic m.author t n op s

/-- The tokens of a slot, from its bytes and control entries. -/
def slotToks (data control : List Byte) : List Tok :=
  ((chunks 16 16 data).zip (chunks 2 16 control)).map (fun (d, k) => tokOf (BitVec.ofNat 128 (ofBytes d)) (ofBytes k % 2 ^ 12))

/-- A slot lands in an atoll of this chip, once the core's launch runs and declares it (R142). -/
def msgSlot (m : ChipMsg) (atoll pos slots slotw : Nat) (data control : List Byte) (s : State) : Res ChipBody :=
  match atollOf (coreOf s m.core) atoll with
  | none => .wait s
  | some a => (landSlot m.core atoll pos slots slotw (slotToks data control) a s).andThen fun _ s => .ok written s

/-- What a message asks of a core whose launch runs is performed there (R142, R297, R303). -/
def coreMsg (m : ChipMsg) (s : State) : Res ChipBody :=
  match m.body with
  | .put a b bad => msgPut m a b bad s
  | .get a n => msgGet m a n s
  | .atom f a n v => msgAtom m f a n v s
  | .slot atoll pos slots slotw data control => msgSlot m atoll pos slots slotw data control s
  | .wave w => .ok written (waveNow m.core w s)
  | _ => .ok written s

/-- A message asks something of a core. -/
def forCore : ChipBody → Bool
  | .put _ _ _ => true
  | .get _ _ => true
  | .atom _ _ _ _ => true
  | .signal => true
  | .slot _ _ _ _ _ _ => true
  | .wave _ => true
  | _ => false

/-- What a message that asks for no core is performed on this chip; the value is the answer. -/
def runMsg (m : ChipMsg) (s : State) : Res ChipBody :=
  let phys := fun (pa cache key : Nat) => ({ pa := pa, cache := cache, key := key, home := s.hub.chipid, ctx := m.ctx } : Target)
  match m.body with
  | .read (.phys pa cache key) n => physRead m.ctx (phys pa cache key) n s
  | .read (.elem tid coord) n => elemRead m.ctx tid coord n s
  | .write (.phys pa cache key) bs bad => physWrite m.ctx m.author (phys pa cache key) bs bad s
  | .write (.elem tid coord) bs bad => elemWrite m.ctx m.author tid coord bs bad s
  | .atomic op (.phys pa cache key) n => physAtomic m.author (phys pa cache key) n op s
  | .atomic _ (.elem _ _) _ => .ok .ended s
  | .settle ring below from_ =>
    .ok written (match m.author.who with | some w => settleVersions w ring below from_ none s | none => s)
  | _ => .ok written s

/-! ### Answers and ways (R293, R300, R346) -/

/-- A message that its sender wants an answer to. -/
def wantsAnswer : ChipBody → Bool
  | .wave _ => false
  | .reply _ _ _ => false
  | .ended => false
  | _ => true

/-- The answer to a message goes to the chip that sent it, which may be this one (R91, R293, R300). -/
def respond (m : ChipMsg) (b : ChipBody) (s : State) : State :=
  if !wantsAnswer m.body then s
  else if m.src = s.hub.chipid then answerFar m.id b s
  else tellChip { chip := m.src, id := m.id, ctx := m.ctx, body := b } s

/-- A message for another chip goes on by this chip's table (R346). -/
def passOn (p : Nat) (m : ChipMsg) (s : State) : State :=
  tallyHub 0x303 (onMs (fun x => { x with outbound := x.outbound ++ [{ m with port := p }] }) s)

/-- The answer to a message whose fault no service can cure: a read comes back with POISON, an operation ends (R252, R300).
DESIGN CHOICE: notes/assumptions/74.md. -/
def failedAnswer (s : State) (b : ChipBody) : ChipBody :=
  match b with
  | .read _ n => .reply (absentBytes s 0 n) true false
  | .write _ _ _ => written
  | _ => .ended

/-- What becomes of a message: it is done with, or it stays. -/
inductive MsgOut
  | gone (s : State)
  | stay (m : ChipMsg) (s : State)
  deriving Repr

/-- TRAPVAL of a message's fault: its sender's, with the page of a request that this chip's tables translate (R341). -/
def msgVal (m : ChipMsg) (page : Nat) : Word :=
  match m.body with
  | .read (.elem _ _) _ => m.origin + BitVec.ofNat 64 (page % 2 ^ 35)
  | .write (.elem _ _) _ _ => m.origin + BitVec.ofNat 64 (page % 2 ^ 35)
  | _ => m.origin

/-- A fault on this side waits for service, told once for each cause and page (R300, R345, R350). -/
def msgFault (m : ChipMsg) (cause page : Nat) (s : State) : MsgOut :=
  let parked := { m with fault := some (cause, page), parked := true }
  if !servedCause cause then .gone (respond m (failedAnswer s m.body) { s with tick := s.tick + 1 })
  else if m.fault = some (cause, page) then .stay parked s
  else if svcRoom s then
    let (tid, source) := match m.body with
      | .read (.elem t _) _ => (t, 1)
      | .write (.elem t _) _ _ => (t, 1)
      | _ => (0, 4)
    let write : Bool := match m.body with | .write _ _ _ => true | .put _ _ _ => true | .atom _ _ _ _ => true | _ => false
    .stay parked (svcEmit { code := cause, source := source, ctx := m.ctx, core := m.core, tag := 0, value := msgVal m page, tid := tid, write := write, page := page } s)
  else .stay m s

/-- What becomes of a message that was tried: with its bytes performed, `raise` raises the counter that it names, and it is answered
(R293, R297). -/
def settleMsg (m : ChipMsg) (raise : State → State) (r : Res ChipBody) : MsgOut :=
  match r with
  | .ok b s => .gone (respond m b (if m.ken && b != .ended then raise s else s))
  | .fault cause page s => msgFault m cause page s
  | .wait s => .stay m s

/-- A message for a core of this chip: it ends where the context does not hold the core, the hub holds it while the launch is drained
or saved, and else it is performed (R300). One that brings a slot waits for a launch. -/
def serveCore (m : ChipMsg) (s : State) : MsgOut :=
  let raise := queueInc m.core m.k m.inc
  let slot : Bool := match m.body with | .slot _ _ _ _ _ _ => true | _ => false
  if !coreHeld s m.core m.ctx then (if slot then .stay m s else .gone (respond m .ended s))
  else if applies s m.core m.ctx then settleMsg m raise (coreMsg m s)
  else .gone (holdMsg m.ctx m.core { core := 0, k := 0, inc := 0, ken := false, msg := some m } s)

/-- A message that has reached this chip goes on: performed, with the counter that it raises and its answer (R293, R297), or passed
on to the chip that it names (R346). -/
def serveMsg (m : ChipMsg) (s : State) : MsgOut :=
  if m.chip ≠ s.hub.chipid then
    match wayTo s m.chip with
    | .port p => .gone (passOn p m s)
    | .later => .stay m s
    | .gone => .gone (respond m .ended s)
  else if forCore m.body then serveCore m s
  else settleMsg m (deliver m.ctx m.core m.k m.inc) (runMsg m s)

/-- Whether an older message keeps one from being performed: messages of one chip for one core of a context, and those on their way
to one chip, keep their order (R293, R299). -/
def behind (s : State) (i : Nat) (m : ChipMsg) : Bool :=
  (s.ms.inbound.take i).any (fun o =>
    o.src == m.src && o.chip == m.chip && (m.chip != s.hub.chipid || (o.ctx == m.ctx && o.core == m.core)))

/-- The messages of a port from place i on go on in order, as far as they can. -/
def serveFrom (port : Nat) : Nat → Nat → State → State
  | 0, _, s => s
  | fuel + 1, i, s =>
    match s.ms.inbound[i]? with
    | none => s
    | some m =>
      if m.port ≠ port ∨ m.parked ∨ behind s i m then serveFrom port fuel (i + 1) s
      else
        match serveMsg m s with
        | .gone s => serveFrom port fuel i (onMs (fun x => { x with inbound := x.inbound.eraseIdx i }) s)
        | .stay m s => serveFrom port fuel (i + 1) (onMs (fun x => { x with inbound := x.inbound.set i m }) s)

/-! ### Messages that the hub held (R300, R352) -/

/-- A message that a running isle still holds can be applied: the isle is neither frozen nor being saved. -/
def appliesHeld (i : Isle) : Bool := i.phase == .running && !i.frozen && i.quiesceAt.isNone

/-- The messages that the hub held for a launch which runs again are applied in arrival order, as far as they can; `fuel` bounds
them. -/
def serveHeld (n : Nat) : Nat → State → State
  | 0, s => s
  | fuel + 1, s =>
    let i := isleOf s n
    let pop := onIsle n (fun i => { i with heldMsgs := i.heldMsgs.drop 1 })
    if !appliesHeld i then s
    else
      match i.heldMsgs with
      | [] => s
      | h :: rest =>
        match h.msg with
        | none => serveHeld n fuel (applyHeld (isleCores i) (pop s) h)
        | some m =>
          if m.parked then s
          else
            let m := { m with core := (isleCores i).getD h.core 0 }
            match settleMsg m (queueInc m.core m.k m.inc) (coreMsg m s) with
            | .gone s => serveHeld n fuel (pop s)
            | .stay m s => onIsle n (fun i => { i with heldMsgs := { h with msg := some m } :: rest }) s

/-- Every isle goes on with the messages that were held for it. -/
def serveAllHeld (s : State) : State :=
  s.hub.isles.foldl (fun s (n, i) => if i.heldMsgs.isEmpty then s else serveHeld n i.heldMsgs.length s) s

/-- The oldest increment that a message brought to a core is applied (R295), unless nydb has frozen its isle (R274); with none left,
messages that were held for the isle go on (R300). -/
def counterIncrement (c : Nat) (s : State) : State :=
  let i := isleOfCore s c
  match (coreOf s c).incoming with
  | [] =>
    match (coreOf s c).isle with
    | some n => serveHeld n i.heldMsgs.length s
    | none => s
  | (k, inc) :: rest => if i.frozen then s else raiseCounter c k inc (onCore c (fun x => { x with incoming := rest }) s)

def execCounterIncrement (core : Nat) (s : State) := done (counterIncrement core s)

/-! ### Arrival over a causeway -/

/-- A message arrives: an answer goes to the unit that asked, any other message waits its turn. -/
def arriveMsg (m : ChipMsg) (s : State) : State :=
  let wait := onMs (fun x => { x with inbound := x.inbound ++ [m] })
  if m.chip ≠ s.hub.chipid then wait s
  else
    match m.body with
    | .reply _ _ _ => answerFar m.id m.body s
    | .ended => answerFar m.id .ended s
    | _ => wait s

/-- CAUSEWAY_MESSAGE: a message arrives over a trained port, and those of the port that can go on do; without one only they do
(R293, R346). -/
def causewayMessage (a : PortArrival) (s : State) : State :=
  if !bit s.host.readymap.toNat (32 + a.port) then s
  else
    let s := match a.msg with
      | some m => arriveMsg { m with port := a.port, fault := none, parked := false } s
      | none => s
    hostRetry (serveAllHeld (serveFrom a.port s.ms.inbound.length 0 s))

def execCausewayMessage (port : PortArrival) (s : State) := done (causewayMessage port s)

end Sys2Proof.Machine
end

