-- ==== Sys2Proof/Machine/Fetch.lean ====
section
/-! DEFINITION. Fetching the word at a pilot's program counter (R145, R146) and the conditions under which a pilot moves. -/

namespace Sys2Proof.Machine

/-- A draining isle lets a DRAIN, CTXSAVE or CTXLOAD of the pilot complete first (R219, R352), and an instruction whose access
another chip is performing. -/
def completesFirst (s : State) (i : Isle) (c : Nat) (p : Pilot) : Bool :=
  p.stage == .drain || p.stage == .drainWait || (c == leadOf i && (i.quiesceAt.isSome || p.stage == .restore)) || farWaits s (.pilot c)

/-- A pilot moves: started, not halted (R151), its launch running, or drained while an instruction of the pilot completes,
and neither held by nydb nor frozen, but for the words of `step` (R274, R390). While an isle is saved in full or restored, only its lead moves, inside CTXSAVE or
CTXLOAD (R358, R359). -/
def pilotRunnable (s : State) (c : Nat) : Bool :=
  let p := (coreOf s c).pilot
  let i := isleOfCore s c
  (coreOf s c).isle.isSome && p.running && !p.halted && (!p.held || decide (0 < p.steps)) && (i.phase == .running || (i.phase == .drain && completesFirst s i c p)) && (!i.frozen || decide (0 < p.steps)) &&
  (i.quiesceAt.isNone || c == leadOf i) && (i.resume.isNone || (c == leadOf i && p.stage == .restore))

/-- A label breakpoint of nydb stands at the pilot's program counter and the pilot was not told to pass it (R274). -/
def atBreak (s : State) (c : Nat) : Bool :=
  let p := (coreOf s c).pilot
  let i := isleOfCore s c
  i.attached && p.steps == 0 && p.passBreak != some p.pc &&
  s.nydb.breaks.any (fun b => match b with | .label l a => l == i.seq && a == p.pc | _ => false)

/-- The key of a line in the instruction cache: its chip and its line. -/
def instrKey (t : Target) : Nat := t.home * 2 ^ 42 + t.pa / 64

/-- Reads a line at its home into the instruction cache, with the marks of its granules (R145, R146). -/
def fillInstr (s : State) (c : Nat) (t : Target) : Res LineCopy :=
  (readLine s (some (.pilot c)) t).andThen fun r s =>
    let l : LineCopy := { data := r.1, lease := 0, bad := r.2 }
    .ok l (onPilot c (fun p => { p with icache := cachePut 128 s.tick (instrKey t) l p.icache }) { s with tick := s.tick + 1 })

/-- The line of the instruction cache at a translated address, filled from its home when it is absent (R145). -/
def fetchLine (s : State) (c : Nat) (t : Target) : Res LineCopy :=
  match mapFind (coreOf s c).pilot.icache (instrKey t) with
  | none => fillInstr s c t
  | some d =>
    if Config.evicted s.tick then fillInstr { s with tick := s.tick + 1 } c t else .ok d { s with tick := s.tick + 1 }

/-- The 8 bytes at a translated address: past the cache when the page is uncached or no memory (R145). -/
def fetchBytes (s : State) (c : Nat) (t : Target) : Res (List Byte × Bool) :=
  if t.cache = 2 then readTarget s (some (.pilot c)) t 8
  else (fetchLine s c t).andThen fun l s => .ok ((l.data.drop (t.pa % 64)).take 8, l.badAt (t.pa % 64) 8) s

/-- The word at a pilot's program counter; a fault carries the fetch address (R146). -/
def fetchWord (s : State) (c : Nat) : Res Word :=
  let pc := (coreOf s c).pilot.pc.toNat
  if inWindow pc then .fault causePerm pc s
  else if Config.tensor0End < pc + 8 then .fault causeOob pc s
  else
    match translate s (viewOf s c) pc .fetch with
    | .fault cause page s =>
      if needsSvc cause true then
        if svcRoom s then .fault cause pc (svcEmit (svcOf s c { code := cause, val := BitVec.ofNat 64 pc, page := page }) s)
        else .wait s
      else .fault cause pc s
    | .wait s => .wait s
    | .ok t s =>
      match fetchBytes s c t with
      | .fault cause _ s => .fault cause pc s
      | .wait s => .wait s
      | .ok r s => if r.2 then .fault causePoison pc s else .ok (BitVec.ofNat 64 (ofBytes r.1)) s

/-- What a pilot does on its turn before its instruction: the word, an ILLEGAL or fetch trap taken, or nothing. -/
inductive Fetched
  | run (i : Instr) (s : State)
  | other (s : State)
  deriving Repr

/-- A word that traps before it runs counts as one of nydb's `step` (R390). -/
def spendStep (c : Nat) (s : State) : State := onPilot c (fun p => { p with steps := p.steps - 1 }) s

/-- Fetch and decode for a pilot, which is then inside its word until the word completes (R62, R146). -/
def fetchDecode (s : State) (c : Nat) : Fetched :=
  let pc := (coreOf s c).pilot.pc
  match fetchWord s c with
  | .ok w s =>
    match decodeWord w with
    | .ok i => .run i (onPilot c (fun p => { p with inWord := true }) s)
    | .error _ => .other (takeTrap c causeIllegal false false w pc (spendStep c s))
  | .fault cause v s => .other (takeTrap c cause false false (BitVec.ofNat 64 v) pc (spendStep c s))
  | .wait s => .other s

/-- Holds a pilot before the word at its breakpoint and gives its core to nydb (R274). -/
def holdAtBreak (c : Nat) (s : State) : State := onPilot c (fun p => { p with held := true }) s

end Sys2Proof.Machine
end

