-- ==== Sys2Proof/Machine/System.lean ====
section
/-! DEFINITION. The system instructions (R149, R159, R160) and the pilot's own events: taking a fabric report (R151),
queueing one (R342), fetching (R146) and a WFE that times out (R160). -/

namespace Sys2Proof.Machine

/-- TRAP completes, then enters the handler with SOFT set (R160). -/
def execTrap (ga : Reg) (cause : Byte) (s : State) :=
  let v := reg s ga
  let next := (pilot s).pc + 8
  done (takeTrap s.turn cause.toNat false true v next (advance s))

def execEret (s : State) := done (returnFromTrap s)

/-- The configuration identity of a core's selected slot; 0 when none is selected (R149). -/
def selectedId (s : State) (c : Nat) : Nat :=
  match (coreOf s c).selected with
  | some n => (mapFind (isleOfCore s c).slots n).elim 0 (fun g => g.cfgid)
  | none => 0

/-- What SYSRD reads (R149). -/
def sysValue (s : State) (n : Nat) : Word :=
  let p := pilot s
  let i := isleOfCore s s.turn
  let w := fun (x : Nat) => BitVec.ofNat 64 x
  match n with
  | 0x000 => w i.ctx
  | 0x001 => w i.prio
  | 0x002 => w (i.index + 256 * i.die)
  | 0x003 => w s.turn
  | 0x004 => w (selectedId s s.turn)
  | 0x005 => w i.seq
  | 0x008 => p.trapCause
  | 0x009 => p.trapPc
  | 0x00A => p.trapVal
  | 0x00B => p.trapVec
  | 0x00C => flagWord p.inTrap
  | 0x010 => w s.cycle
  | 0x011 => i.fpflags
  | 0x012 => i.srkey
  | 0x013 => s.host.readymap
  | 0x014 => w i.stallwd
  | 0x018 => i.ttbase
  | 0x019 => i.ttlen
  | 0x01A => i.rtbase
  | 0x01B => i.rtlen
  | 0x01C => i.rubase
  | 0x01D => i.rulen
  | 0x020 => i.blktab
  | _ => w i.blklen

def execSysrd (gd : Reg) (n : BitVec 12) (s : State) := done (writeBack gd (sysValue s n.toNat) s)

/-- The registers that R149 marks R. -/
def sysReadOnly (n : Nat) : Bool := [0x000, 0x001, 0x002, 0x003, 0x004, 0x005, 0x010, 0x012, 0x013].contains n

/-- An address with [2:0] reading as 0 (R149). -/
def align8 (v : Word) : Word := v &&& 0xFFFFFFFFFFFFFFF8

/-- SYSWR of a register that may be written (R149): the checks of its value, then the write. -/
def sysWrite (n : Nat) (v : Word) (s : State) : State :=
  let pil := fun (f : Pilot → Pilot) => advance (onPilot s.turn f s)
  let isl := fun (f : Isle → Isle) => advance (onIsle (myIsle s) f s)
  match n with
  | 0x008 => pil (fun p => { p with trapCause := v &&& 0x3FF })
  | 0x009 => pil (fun p => { p with trapPc := align8 v })
  | 0x00A => pil (fun p => { p with trapVal := v })
  | 0x00B => pil (fun p => { p with trapVec := align8 v })
  | 0x00C => if v &&& 0xFFFFFFFFFFFFFFFE = 0 then pil (fun p => { p with inTrap := v.getLsbD 0 }) else trapFree causePerm s
  | 0x011 => isl (fun i => { i with fpflags := v &&& 0x7F })
  | 0x014 => if 12 ≤ v.toNat ∧ v.toNat ≤ 30 then isl (fun i => { i with stallwd := v.toNat }) else trapAt causePerm v s
  | 0x018 => isl (fun i => { i with ttbase := v })
  | 0x019 => isl (fun i => { i with ttlen := v })
  | 0x01A => isl (fun i => { i with rtbase := v })
  | 0x01B => isl (fun i => { i with rtlen := v })
  | 0x01C => isl (fun i => { i with rubase := v })
  | 0x01D => isl (fun i => { i with rulen := v })
  | 0x020 =>
    if v.toNat % 16 ≠ 0 then trapAt causePerm v s
    else if isLead s then isl (fun i => { i with blktab := v }) else trapFree causePerm s
  | _ =>
    if 32 < v.toNat then trapAt causePerm v s
    else if isLead s then isl (fun i => { i with blklen := v.toNat }) else trapFree causePerm s

def execSyswr (ga : Reg) (n : BitVec 12) (s : State) :=
  done (if sysReadOnly n.toNat then trapAt causePerm (n.setWidth 64) s else sysWrite n.toNat (reg s ga) s)

/-- A WFE ends with this result (R160). -/
def endWfe (c : Nat) (v : Word) (s : State) : State := onCore c (endWfeIn v) s

/-- WFE (R160): the latch ends it with 1, the passing of t clk with 0, else the pilot stalls. -/
def execWfe (gd : Reg) (t : BitVec 32) (s : State) :=
  done (
    if (pilot s).eventLatch then writeBack gd 1 (onPilot s.turn (fun p => { p with eventLatch := false }) s)
    else
      match (pilot s).wfeUntil with
      | some u => if u ≤ s.cycle then endWfe s.turn 0 s else s
      | none =>
        if t = 0 then s
        else onPilot s.turn (fun p => { p with wfeUntil := some (s.cycle + t.toNat), wfeGd := gd.toNat }) s)

/-- The timeout of a WFE in progress (R160). -/
def wfeTimeout (c : Nat) (s : State) : State :=
  let p := (coreOf s c).pilot
  match p.wfeUntil with
  | some u => if u ≤ s.cycle ∧ ¬ p.eventLatch ∧ ¬ (isleOfCore s c).frozen then endWfe c 0 s else s
  | none => s

def execWfeTimeout (core : Nat) (s : State) := done (wfeTimeout core s)

/-- BRK (R160): in a launch that nydb is attached to it stops the pilot before it completes, and completes when `continue`
or `step` resumes it (R274, R390); otherwise it completes and traps. -/
def execBrk (tag : BitVec 32) (s : State) :=
  let p := pilot s
  done (
    if (isleOfCore s s.turn).attached then
      if p.passBreak = some p.pc ∨ 0 < p.steps then advance s
      else onPilot s.turn (fun p => { p with held := true }) s
    else takeTrap s.turn causeBrk false false (tag.setWidth 64) (p.pc + 8) (advance s))

/-- A pilot takes the oldest queued report at an instruction boundary, while INTRAP is clear (R151, R342); an access that waits
for another chip is inside its instruction. -/
def takeReport (c : Nat) (s : State) : State :=
  let p := (coreOf s c).pilot
  if pilotRunnable s c && !p.inTrap && (isleOfCore s c).quiesceAt.isNone && p.stage != .restore && !farWaits s (.pilot c) then
    match p.reports with
    | [] => s
    | r :: rs =>
      let s := onPilot c (fun p => { p with reports := rs, reportsTaken := p.reportsTaken + 1 }) s
      takeTrap c r.code true false r.val p.pc (acquire c s)
  else s

def execTakeTrap (core : Nat) (s : State) := done (takeReport core s)

/-- The address of a core's report record number k (R342, R344). -/
def reportAddr (s : State) (c k : Nat) : Nat := (isleOfCore s c).spillBase + 0xC800000 + 1024 * c + 64 * (k % 16)

/-- The oldest raised report is written to the report ring and queued (R342). -/
def queueReport (c : Nat) (s : State) : State :=
  let p := (coreOf s c).pilot
  match p.raised with
  | [] => s
  | r :: rs =>
    if r.parked ∨ 16 ≤ p.reports.length ∨ (coreOf s c).isle = none ∨ (isleOfCore s c).frozen then s
    else
      let seq := p.reportSeq + 1
      let va := reportAddr s c (p.reportsTaken + p.reports.length)
      match writeFlat s (some (.fabric c)) (viewOf s c) va ((reportBytes r seq).map some) false with
      | .wait s => s
      | .ok _ s =>
        onCore c (fun x => latchAt s.cycle { x with pilot := { x.pilot with raised := rs, reports := x.pilot.reports ++ [r], reportSeq := seq } }) s
      | .fault cause page s =>
        if cause = causeOob ∨ cause = causeMdpoison then
          unrecoverable ((coreOf s c).isle.getD 0) c cause r.source (BitVec.ofNat 64 va) s
        else if svcRoom s then
          onPilot c (fun p => { p with raised := { r with parked := true } :: rs })
            (svcEmit (svcOf s c { code := cause, source := r.source, val := BitVec.ofNat 64 va, page := page, write := true }) s)
        else s

def execFabricReport (core : Nat) (s : State) := done (queueReport core s)

/-- A pilot's fetch on its own: the word is brought in, or its trap is taken (R146). -/
def fetchOnly (c : Nat) (s : State) : State :=
  if pilotRunnable s c then
    match fetchDecode s c with
    | .run _ s => s
    | .other s => s
  else s

def execInstructionFetch (core : Nat) (s : State) := done (fetchOnly core s)

/-- A pilot stops before the word at its breakpoint (R274). -/
def breakpointHit (c : Nat) (s : State) : State := if pilotRunnable s c && atBreak s c then holdAtBreak c s else s

def execPilotBreakpointHit (core : Nat) (s : State) := done (breakpointHit core s)

end Sys2Proof.Machine
end

