-- ==== Sys2Proof/Machine/Cocoon.lean ====
section
/-! DEFINITION. Cocoons (R353): their bytes, CTXSAVE, CTXLOAD and FRSP (R357 to R360), and the drain of a victim isle
(R352, R354). The word widths inside a section are notes/assumptions/32.md. -/

namespace Sys2Proof.Machine

/-- The sections of a cocoon, core by core in row order, then the reply area. -/
def isleSections (k : Cocoon) : List Section :=
  k.cores.zipIdx.flatMap (fun (x, j) =>
    coreSections k.full (j == 0) k.gd k.isle (selCfg x).routes (j % k.isle.width) (j / k.isle.width) x) ++
  (if k.full || !k.isle.reply.isEmpty then [({ dx := 0, dy := 0, cls := 0x15, unit := 0, bytes := words8 k.isle.reply } : Section)] else [])

/-! ### The bytes of a cocoon (R353) -/

/-- A multiple of 64 at or above n. -/
def roundUp64 (n : Nat) : Nat := (n + 63) / 64 * 64

/-- Directory entries of sections that start at an offset. -/
def directory : Nat → List Section → List Byte
  | _, [] => []
  | o, x :: xs =>
    toBytes 4 (x.dx % 64 + 64 * (x.dy % 64) + 4096 * x.cls + 2 ^ 20 * x.unit) ++ toBytes 4 x.bytes.length ++ toBytes 8 o ++
    directory (o + roundUp64 x.bytes.length) xs

/-- The 256-byte header. -/
def headerBytes (k : Cocoon) (nsect bytes crc : Nat) : List Byte :=
  let i := k.isle
  let img := fun (n : Nat) => match mapFind i.slots n with | some g => g.image | none => 0
  toBytes 4 0x434F434E ++ [1] ++ toBytes 1 (ofBool k.full + 4 * ofBool k.rollback + 8 * ofBool k.commit) ++ toBytes 2 i.ctx ++
  toBytes 1 i.width ++ toBytes 1 i.height ++ toBytes 2 0 ++ toBytes 4 nsect ++ toBytes 8 bytes ++ toBytes 8 i.seq ++
  (upTo 4).flatMap (fun n => toBytes 8 (img n)) ++ (i.lrec.raw ++ List.replicate 64 0).take 64 ++ toBytes 4 crc ++ toBytes 124 0

/-- The bytes of a cocoon: header, directory and sections, each section 64-byte aligned.
DESIGN CHOICE: notes/assumptions/32.md. -/
def cocoonBytes (k : Cocoon) : List Byte :=
  let ss := isleSections k
  let at0 := roundUp64 (256 + 16 * ss.length)
  let dir := directory at0 ss
  let pad := fun (b : List Byte) => b ++ List.replicate (roundUp64 b.length - b.length) 0
  let tail := pad dir ++ ss.flatMap (fun x => pad x.bytes)
  let n := 256 + tail.length
  headerBytes k ss.length n (cocoonCrc (headerBytes k ss.length n 0 ++ tail)) ++ tail

/-! ### What a save keeps (R231, R352 to R354) -/

/-- A wait that is abandoned runs its instruction again at resume; a wait after its effect resumes as a wait (R352). -/
def stoppedPilot (p : Pilot) : Pilot :=
  { p with wfeUntil := none, stage := if p.stage = .cfgldWait then .none else p.stage.kept, inWord := false, dcache := [], icache := [] }

/-- The rows of an element that lie in its DELAY regions (R172). -/
def delayRow (cfg : CoreCfg) (e r : Nat) : Bool :=
  (mapGet [] cfg.regions e).any (fun (_, g) => g.role == 1 && decide (g.start ≤ r) && decide (r < g.start + g.rows))

/-- A core with the slots that its EX handed over and that have not landed back in the EX (R142, R352). -/
def slotsBack (s : State) (c : Nat) : Core :=
  let x := coreOf s c
  let out := (s.ms.exSlots.filter (fun e => e.srcCore == c)).map (·.toks)
  { x with ex := { x.ex with ready := out ++ x.ex.ready, n := x.ex.n - out.length } }

/-- A core as it is saved: a drain save omits the TABLE and SCRATCH rows, whose contents a resume makes anew (R172). -/
def savedCore (full : Bool) (x : Core) : Core :=
  let x := { x with pilot := stoppedPilot x.pilot, mps := x.mps.map (fun (k, m) => (k, { m with tcache := [] })) }
  if full then x
  else
    let cfg := selCfg x
    { x with elems := x.elems.map (fun (e, y) => (e, { y with rows := mapKeep (delayRow cfg e) y.rows, rowPoison := mapKeep (delayRow cfg e) y.rowPoison }))
             jobs := x.jobs.filter (fun (_, j) => j.refill.isNone) }

/-- The saved form of isle n. -/
def makeCocoon (full commit : Bool) (gd n : Nat) (s : State) : Cocoon :=
  let i := isleOf s n
  { id := s.tick, ctx := i.ctx, isle := i, cores := (isleCores i).map (fun c => savedCore full (slotsBack s c)), full := full
    rollback := i.rollback, commit := commit, gd := gd }

/-- The cocoon is written through the tables of its context (R344, R353); a fault gives the address of the first byte that
cannot be written. -/
def writeCocoon (n addr : Nat) (k : Cocoon) (s : State) : Res Unit :=
  let i := isleOf s n
  let v : View := { ctx := i.ctx, ptb := i.t0ptb, page2m := i.t0page2m }
  let b := cocoonBytes k
  match writeFlat s none v addr (b.map some) false with
  | .ok _ s => .ok () { s with tick := s.tick + 1 }
  | .fault cause page s =>
    match firstFault v (b.length / 64 + 2) addr b.length s with
    | some (cause, va) => .fault cause va s
    | none => .fault cause page s
  | .wait s => .wait s

/-! ### Quiet engines (R352, R354) -/

/-- The ring of an atoll of a core has no room (R142). -/
def ringFull (s : State) (c atoll : Nat) : Bool :=
  match atollOf (coreOf s c) atoll with
  | some a => decide (a.slots ≤ (counterOf s c a.tailk - counterOf s c a.headk).toNat)
  | none => true

/-- Every copy of a core has completed or parked; one that waits on a full ring counts as parked (R352). -/
def copiesQuiet (s : State) (c : Nat) : Bool :=
  let x := coreOf s c
  x.jobs.all (fun (_, j) => (j.copy.dkind == 3 && ringFull s c j.copy.daddr) || j.segs.all (fun g => g.state != .pending)) && x.barQueue.isEmpty

/-- A slot that an EX handed over waits on a full ring, or on a core whose launch is drained or saved (R352). -/
def slotWaits (s : State) (e : ExSlot) : Bool :=
  e.chip == s.hub.chipid && (!coreRuns s e.core e.ctx || ringFull s e.core e.atoll)

/-- No fired operation of a core is in progress, unless it is parked or the hub holds its message for a launch that is drained or saved
(R300). -/
def postedQuiet (s : State) (c : Nat) : Bool :=
  (coreOf s c).posted.all (fun (e, p) => match p.state with
    | .inProgress _ => (farEntry s c e).any (fun r => r.chip == s.hub.chipid && r.answer.isNone)
    | _ => true)

/-- A spill waits or none is under way. -/
def spillsQuiet (x : Core) : Bool :=
  (x.haU.tab.idle || waitsWake .ha x) && (x.hsU.tab.idle || waitsWake .hs x)

/-- Copies, posted operations, spills and stores of a core have completed or parked, those to other chips too (R354). -/
def enginesQuiet (s : State) (c : Nat) : Bool :=
  let x := coreOf s c
  farSettled s (.pilot c) && farSettled s (.fabric c) && copiesQuiet s c && postedQuiet s c && spillsQuiet x && x.pilot.storeBuf.isEmpty &&
    s.ms.exSlots.all (fun e => e.srcCore != c || slotWaits s e)

/-- Every owed write of a core that waits on no fault and no full ring has been performed (R352). -/
def owedDone (s : State) (c : Nat) : Bool :=
  let x := coreOf s c
  enginesQuiet s c && x.mt.firing.isNone && x.mt.jobs.isEmpty

/-- A pilot of the isle is inside an instruction that completes before a stop (R219, R352).
DEDUCED: notes/assumptions/41.md. -/
def completing (s : State) (n : Nat) : Bool :=
  let i := isleOf s n
  i.quiesceAt.isSome || i.resume.isSome || (isleCores i).any (fun c => (coreOf s c).pilot.stage == .drain || (coreOf s c).pilot.stage == .drainWait)

/-! ### CTXSAVE (R358) -/

/-- The save of the lead's CTXSAVE: the cocoon, the commit point and gd, or the trap of an abandoned save. -/
def saveIsle (commit : Bool) (gd : Reg) (a : Word) (s : State) : State :=
  let n := myIsle s
  let late := (isleOf s n).rollback
  let free := onIsle n (fun i => { i with quiesceAt := none, rollback := false })
  let k := makeCocoon true (commit && !late) gd.toNat n (writeBack gd 2 s)
  match writeCocoon n a.toNat k s with
  | .wait s => s
  | .fault cause va s =>
    onRes (svcFault (α := Unit) s.turn { code := cause, val := BitVec.ofNat 64 va, page := va / pageSize (isleOf s n).t0page2m, write := true } s)
      (fun _ s => s) |> free
  | .ok _ s =>
    let s := if commit && !late then onIsle n (fun i => { i with commit := some a }) s else s
    writeBack gd (BitVec.ofNat 64 (ofBool late)) (free s)

/-- CTXSAVE (R358): the other pilots stop, the engines quiesce within the bound, and the isle is saved.
DEDUCED: notes/assumptions/40.md. DEDUCED: notes/assumptions/41.md. -/
def execCtxsave (commit : Bool) (gd ga : Reg) (s : State) :=
  let n := myIsle s
  let a := reg s ga
  let i := isleOf s n
  done (
    if !isLead s then trapAt causePerm a s
    else if a.toNat % 64 ≠ 0 then trapAt causeAlign a s
    else if i.quiesceAt.isNone then
      if completing s n then s else onIsle n (fun i => { i with quiesceAt := some s.cycle, rollback := false }) s
    else if i.rollback || (isleCores i).all (enginesQuiet s) then saveIsle commit gd a s
    else s)

/-! ### CTXLOAD (R359) -/

/-- CTXLOAD: the checks, then the restore; a failed image gives 2^63 + 2. -/
def execCtxload (gd ga : Reg) (s : State) :=
  let n := myIsle s
  let a := reg s ga
  done (
    if (pilot s).stage = .restore then
      if (isleOf s n).resume.isSome then s
      else writeBack gd (BitVec.ofNat 64 (2 ^ 63 + 2)) (onIsle n (fun i => { i with loadFail := none }) s)
    else if !isLead s then trapAt causePerm a s
    else if a.toNat % 64 ≠ 0 then trapAt causeAlign a s
    else if completing s n then s
    else
      match findCocoon n a.toNat s with
      | .wait s => s
      | .fault cause page s =>
        if cause = causePoison then unrecoverable n s.turn cause 0 a s
        else
        let va := max a.toNat (min Config.tensor0End (page * pageSize (isleOf s n).t0page2m))
        onRes (svcFault (α := Unit) s.turn { code := cause, val := BitVec.ofNat 64 va, page := page } s) (fun _ s => s)
      | .ok none s => writeBack gd (BitVec.ofNat 64 (2 ^ 63 + 1)) s
      | .ok (some k) s => restoreRead refillTables n k 2 (onPilot s.turn (fun p => { p with stage := .restore }) s))

/-! ### FRSP (R360) -/

def execFrsp (all : Bool) (ga gb : Reg) (s : State) :=
  let ctx := reg s ga
  let core := reg s gb
  done (
    if (viewOf s s.turn).ctx ≠ 0 then trapFree causePerm s
    else if 4096 ≤ ctx.toNat then trapAt causePerm ctx s
    else if !all && decide (Config.cores ≤ core.toNat) then trapAt causePerm core s
    else afterRelease s fun s => advance (frspDoor ctx core all s))

/-! ### The drain of a victim (R352) -/

/-- The address of the cocoon of an isle in its context's spill region (R344). -/
def cocoonAddr (i : Isle) : Nat := i.spillBase + 0x100000000 * (1 + i.cocoonN)

/-- The isle is saved: its place is free, and its record returns to the head of its FIFO (R103). -/
def parkLaunch (n : Nat) (k : Cocoon) (s : State) : State :=
  let i := isleOf s n
  let q : QLaunch := { lrec := i.lrec, seq := i.seq, met0 := true, met1 := true, saved := true, attached := i.attached }
  let cs := isleCores i
  let s := onIsle n (fun i => { i with phase := .free, quiesceAt := none, loader := none, reply := [], heldMsgs := [] }) s
  let s := onMs (fun m => { m with exSlots := m.exSlots.filter (fun e => !cs.contains e.srcCore) }) (sendAway k.id cs s)
  onHub (fun h => { h with saved := h.saved ++ [k], fifos := mapPut h.fifos i.lrec.prio (q :: mapGet [] h.fifos i.lrec.prio) }) s

/-- The hub saves a drained isle; a fault of the cocoon's write, or a save past the quiesce bound, is unrecoverable
(R354, R355). -/
def hubSave (full : Bool) (n : Nat) (s : State) : State :=
  let i := isleOf s n
  let k := makeCocoon full false 0 n s
  match writeCocoon n (cocoonAddr i) k s with
  | .wait s => s
  | .fault cause va s => unrecoverable n (leadOf i) cause 12 (BitVec.ofNat 64 va) s
  | .ok _ s =>
    if i.rollback then
      let (v, s) := freeVal s
      unrecoverable n (leadOf i) (v.toNat % 256) 12 v s
    else parkLaunch n k s

/-- No token of a core is on its way within the isle; one that waits at a border does not move (R352). -/
def wiresStill (s : State) (c : Nat) : Bool :=
  (coreOf s c).wires.all (fun (i, q) => q.isEmpty || (routeAt (coreOf s c) i).any (fun r => isStrait s c r))

/-- 64 clk without a moving token end DRAIN (R352). -/
def drainQuiet (n : Nat) (s : State) : State :=
  let i := isleOf s n
  if i.phase = .drain ∧ !i.frozen ∧ !completing s n ∧
      (isleCores i).all (fun c => decide ((coreOf s c).lastMove + 64 ≤ s.cycle) && wiresStill s c) then
    onIsle n (fun i => { i with phase := .owed }) s
  else s

def execDrainQuiet (isle : Nat) (s : State) := done (drainQuiet isle s)

/-- Writes the stash windows of the cores back before a save; a line whose write faults stays dirty and is reported once
(R264, R350). -/
def saveWindows : List Nat → State → Bool × State
  | [], s => (true, s)
  | c :: cs, s =>
    if windowsParked (coreOf s c) (fun _ => true) then saveWindows cs s
    else match writeBackStash c (fun _ => true) s with
    | .ok _ s => saveWindows cs s
    | .wait s => (false, s)
    | .fault cause page s => saveWindows cs (parkWindows c (fun _ => true) cause page s)

/-- With every owed write performed or parked, the isle is saved (R352). -/
def saveOwed (n : Nat) (s : State) : State :=
  let i := isleOf s n
  if i.phase = .owed ∧ i.quiesceAt.isNone ∧ !i.frozen ∧ (isleCores i).all (owedDone s) then
    match saveWindows (isleCores i) s with
    | (true, s) => hubSave false n s
    | (false, s) => s
  else s

def execOwedDone (isle : Nat) (s : State) := done (saveOwed isle s)

/-- A full save of the hub: the stash windows are written back first (R264); one past the quiesce bound does not wait for them. -/
def saveFull (n : Nat) (s : State) : State :=
  match saveWindows (isleCores (isleOf s n)) s with
  | (true, s) => hubSave true n s
  | (false, s) => if (isleOf s n).rollback then hubSave true n s else s

/-- The drain limit has passed: the fabric freezes, and the isle is saved in full once its engines are quiet (R352,
R354). Frozen clk do not count (R274). DEDUCED: notes/assumptions/61.md. -/
def drainLimit (n : Nat) (s : State) : State :=
  let i := isleOf s n
  if (i.phase = .drain ∨ i.phase = .owed) ∧ !i.frozen ∧ i.stopAt + 2 ^ s.hub.drainlim ≤ s.cycle then
    let s := if i.quiesceAt.isNone then onIsle n (fun i => { i with quiesceAt := some s.cycle, rollback := false, phase := .owed }) s
      else onIsle n (fun i => { i with phase := .owed }) s
    if (isleCores i).all (enginesQuiet s) then saveFull n s else s
  else s

def execDrainLimit (isle : Nat) (s : State) := done (drainLimit isle s)

/-- The quiesce bound of 1,600 clk has passed: the engines are saved as they stand, and the cocoon takes ROLLBACK (R354).
DEDUCED: notes/assumptions/40.md. -/
def quiesceBound (n : Nat) (s : State) : State :=
  match (isleOf s n).quiesceAt with
  | none => s
  | some t =>
    if t + 1600 ≤ s.cycle ∧ !(isleOf s n).frozen then
      let late := !(isleCores (isleOf s n)).all (enginesQuiet s)
      let s := onIsle n (fun i => { i with rollback := late }) s
      if (isleOf s n).phase = .owed then saveFull n s else s
    else s

def execQuiesceBound (isle : Nat) (s : State) := done (quiesceBound isle s)

end Sys2Proof.Machine
end

