-- ==== Sys2Proof/Machine/Element.lean ====
section
/-! DEFINITION. Elements (spec/09): waves and mark steps (R165 to R171), the stage operations (R176 to R189) and row
poison (R190). A wave event is a whole wave: its entry, its six stages in order, and its exit; by R173 and R170 waves take
effect as if they ran one at a time in entry order. -/

namespace Sys2Proof.Machine

/-! ### Lanes -/

/-- The low 32 bits as INT32. -/
def s32 (x : Nat) : Int := sext 32 x

/-- Integer conditions of ICMP (R70). -/
def icmp (m a b : Nat) : Bool :=
  if m = 0 then a == b else if m = 1 then a != b else if m = 2 then decide (s32 a < s32 b) else if m = 3 then decide (s32 b ≤ s32 a)
  else if m = 4 then decide (s32 a ≤ s32 b) else if m = 5 then decide (s32 b < s32 a) else if m = 6 then decide (a < b)
  else decide (b ≤ a)

/-- FCMP: the condition and its flags (R70, R179). -/
def fcmp (m a b : Nat) : Bool × FpFlags :=
  let un := xisNan (f32 a) || xisNan (f32 b)
  let o := xcmp (f32 a) (f32 b)
  let nv : FpFlags := if un && decide (2 ≤ m) && decide (m ≤ 5) then flagNV else 0
  let v := if m = 6 then un else if m = 7 then !un else if un then m == 1
    else if m = 0 then o == 0 else if m = 1 then o != 0 else if m = 2 then o == -1 else if m = 3 then o != -1
    else if m = 4 then o != 1 else o == 1
  (v, nv)

/-- The integer and move operations of one lane that need no other lane (R176, R177); `c` holds the control of BFX and BFI. -/
def intLane (op a b c mode : Nat) : Nat :=
  let m := 2 ^ 32
  let p := bits c 0 5
  let w := bits c 5 5 + 1
  if op = 0x08 then (a + b) % m
  else if op = 0x09 then (a + m - b) % m
  else if op = 0x0A then a * b % m
  else if op = 0x0B then wrap 32 (Int.fdiv (s32 a * s32 b) (m : Nat))
  else if op = 0x0C then (a * b + c) % m
  else if op = 0x0D then (if s32 b < s32 a then b else a)
  else if op = 0x0E then (if s32 a < s32 b then b else a)
  else if op = 0x0F then min a b
  else if op = 0x10 then max a b
  else if op = 0x11 then a &&& b
  else if op = 0x12 then a ||| b
  else if op = 0x13 then a ^^^ b
  else if op = 0x14 then (a <<< bits b 0 5) % m
  else if op = 0x15 then a >>> bits b 0 5
  else if op = 0x16 then wrap 32 (Int.fdiv (s32 a) ((2 ^ bits b 0 5 : Nat) : Int))
  else if op = 0x17 then ofBool (icmp mode a b)
  else if op = 0x18 then (if c ≠ 0 then a else b)
  else if op = 0x19 then oneBits 32 a
  else if op = 0x1A then leadingZeros 32 a
  else if op = 0x1C then (a >>> p) % 2 ^ w
  else if op = 0x1D then (a - bits a p w * 2 ^ p + b % 2 ^ w * 2 ^ p) % m
  else a

/-- Two packed BF16 halves, each rounded once; one draw serves both (R181). -/
def halves (f : XVal → XVal → XVal → Nat → Nat × FpFlags) (a b c z : Nat) : Nat × FpFlags :=
  let h := fun (x k : Nat) => decodeFmt .bf16 [] (bits x (16 * k) 16)
  let lo := f (h a 0) (h b 0) (h c 0) (z >>> 48)
  let hi := f (h a 1) (h b 1) (h c 1) (bits z 32 16)
  (lo.1 + 2 ^ 16 * hi.1, lo.2 ||| hi.2)

/-- The floating-point operations of one lane (R178 to R181): z is the lane's draw. -/
def floatLane (op a b c mode z : Nat) : Nat × FpFlags :=
  let rm := (rmodeOf mode).getD .rne
  let r := z >>> 48
  if op = 0x20 then addRound .fp32 rm r (f32 a) (f32 b)
  else if op = 0x21 then addRound .fp32 rm r (f32 a) (xneg (f32 b))
  else if op = 0x22 then mulRound .fp32 rm r (f32 a) (f32 b)
  else if op = 0x23 then fmaRound .fp32 rm r (f32 a) (f32 b) (f32 c)
  else if op = 0x24 then (fmin32 a b, 0)
  else if op = 0x25 then (fmax32 a b, 0)
  else if op = 0x26 then ((fcmp mode a b).1.toNat, (fcmp mode a b).2)
  else if op ≤ 0x2A then
    let v := funVal (if op = 0x27 then .rcp else if op = 0x28 then .rsq else if op = 0x29 then .exp2 else .log2) (f32 a)
    let x := toF32 rm r v.1
    (x.1, x.2 ||| v.2)
  else if op = 0x2B then halves (fun x y t r => fmaRound .bf16 rm r x y t) a b c z
  else halves (fun x y _ r => addRound .bf16 rm r x y) a b c z

/-- One conversion (R182); equal formats copy (R71). -/
def cvtValue (d c : Nat) (nosat : Bool) (mode r x : Nat) : Nat × FpFlags :=
  match fmtOf d, fmtOf c with
  | some fd, some fc =>
    let x := x % 2 ^ fmtWidth fc
    if d = c then (x, 0)
    else
      let v := decodeFmt fc defaultCodebook x
      if 1 ≤ d ∧ d ≤ 5 ∧ 1 ≤ c ∧ c ≤ 5 then
        (match v with | .fin n m _ => satInt fd (if n then -(m : Int) else m) | _ => 0, 0)
      else roundTo fd nosat defaultCodebook ((rmodeOf mode).getD .rne) r v
  | _, _ => (x, 0)

/-- Puts a field of w bits at a bit position. -/
def putField (x pos w v : Nat) : Nat := x - bits x pos w * 2 ^ pos + v % 2 ^ w * 2 ^ pos

/-- CVT of one lane without INT64 (R182): n values, each with its own bits of the draw. -/
def cvtLane (g : Stg) (a old z : Nat) : Nat × FpFlags :=
  let d := g.sb % 16
  let c := g.sc % 16
  let n := 32 / max (codeWidth c) (codeWidth d)
  let place := bits g.opt 0 2
  let sel := bits g.opt 2 2
  (upTo n).foldl (fun (x, f) k =>
    let v := cvtValue d c (bit g.sb 4) g.mode (bits z (48 - 16 * (k % 4)) 16) (a >>> ((sel * n + k) * codeWidth c))
    (putField x ((place * n + k) * codeWidth d) (codeWidth d) v.1, f ||| v.2)) (old, 0)

/-- CVT of a lane pair with INT64 on a side: the pair's new 64 bits (R182). -/
def cvtPair (g : Stg) (a old z : Nat) : Nat × FpFlags :=
  let d := g.sb % 16
  let v := cvtValue d (g.sc % 16) (bit g.sb 4) g.mode (z >>> 48) a
  if d = 5 then v else (putField (old % 2 ^ 32) 0 (codeWidth d) v.1, v.2)

/-- WADD, WMUL and WCMPL on carriers (R183); t says that the wave retracts. -/
def algLane (op mode a b : Nat) (t : Bool) : Nat × FpFlags :=
  match algOf mode with
  | none => (a, 0)
  | some g =>
    if op = 0x30 then (if t ∧ g = .cnt then (algRetract .cnt a b, 0) else algAdd g a b)
    else if op = 0x31 then algMul g a b
    else algCompl g a

/-! ### Waves -/

/-- What a stage of a wave emits (R167, R185, R186). -/
structure Emission where
  ch : Nat
  kind : Kind
  level : Nat := 0
  abort : Bool := false
  poison : Bool := false
  data : Quad := 0
  lmask : Nat := 0
  deriving DecidableEq, Repr

/-- A wave in the pipeline (R166): its fixed state, the bank of four registers of four lanes, and what it has done. -/
structure Wv where
  live : Bool
  v : Nat
  p : Bool
  t : Bool
  kd : Kind
  m : Nat := 0
  ma : Bool := false
  heads : List (Option Tok)
  c : List Nat
  /-- The head that JCMP gives VD. -/
  jvd : Quad := 0
  srkey : Word := 0
  /-- (E × 2^32 + c0) × 8 of R55. -/
  place : Nat := 0
  imms : List Nat := []
  regions : Map Region := []
  bank : List Nat := List.replicate 16 0
  y : Elem
  out : List Emission := []
  /-- The stage in which MARK made a level-7 MARK. -/
  made : Option Nat := none
  counted : Bool := false
  deriving DecidableEq, Repr

/-- Lane l of a source at stage s (R68), as 32 bits. -/
def Wv.src (w : Wv) (s code l : Nat) : Nat :=
  (if code < 4 then w.bank.getD (4 * code + l) 0
  else if code < 12 then (match w.heads.getD (code % 4) none with | some t => t.lane l | none => 0)
  else if code < 16 then w.c.getD (code - 12) 0
  else if code = 17 then l
  else if code = 18 then w.imms.getD (s - 1) 0
  else 0) % 2 ^ 32

/-- The draw of a lane at stage s (R55). -/
def Wv.draw (w : Wv) (s l : Nat) : Nat := drawZ w.srkey (BitVec.ofNat 64 ((w.place + s) * 4 + l))

/-- Writes register d in the lanes of a mask (R174). -/
def Wv.put (w : Wv) (d mask : Nat) (f : Nat → Nat) : Wv :=
  { w with bank := w.bank.zipIdx.map (fun (x, i) => if i / 4 = d ∧ bit mask (i % 4) then f (i % 4) % 2 ^ 32 else x) }

/-- Sets flags of the element. -/
def Wv.flag (w : Wv) (f : FpFlags) : Wv := { w with y := { w.y with flags := w.y.flags ||| f } }

/-- Writes register d in the lanes of a mask from an operation that sets flags. -/
def Wv.putF (w : Wv) (d mask : Nat) (f : Nat → Nat × FpFlags) : Wv :=
  (w.put d mask (fun l => (f l).1)).flag ((upTo 4).foldl (fun a l => if bit mask l then a ||| (f l).2 else a) 0)

/-- The pairs whose two lanes are both in a mask, as a mask. -/
def fullPairs (mask : Nat) : Nat := (if bits mask 0 2 = 3 then 3 else 0) + (if bits mask 2 2 = 3 then 12 else 0)

/-- Writes register d pair by pair: f gives the 64 bits of the pair of a low lane (R182, R183). -/
def Wv.putPairs (w : Wv) (d mask : Nat) (f : Nat → Nat × FpFlags) : Wv :=
  let w' := w.put d (fullPairs mask) (fun l => (f (l / 2 * 2)).1 >>> (32 * (l % 2)))
  w'.flag ([0, 2].foldl (fun a l => if bit (fullPairs mask) l then a ||| (f l).2 else a) 0)

/-! ### Local memory (R188 to R190) -/

/-- Column l of a row. -/
def Elem.col (y : Elem) (r l : Nat) : Nat := bits (y.row r).toNat (32 * l) 32

def Elem.putCol (y : Elem) (r l v : Nat) : Elem := y.putRow r (BitVec.ofNat 128 (putField (y.row r).toNat (32 * l) 32 v))

/-- A row's poison bit is set. -/
def Elem.rowBad (y : Elem) (r : Nat) : Bool := mapGet 0 y.rowPoison r != 0

/-- The poison of a row after one wave wrote the lanes of a mask (R190): a poisoned wave sets it, a clean one that writes
all the lanes that set it clears it. DEDUCED: notes/assumptions/49.md. -/
def Elem.soil (p : Bool) (r mask : Nat) (y : Elem) : Elem :=
  let old := mapGet (0 : BitVec 4) y.rowPoison r
  if p then { y with rowPoison := mapPut y.rowPoison r (old ||| BitVec.ofNat 4 mask) }
  else if old &&& ~~~(BitVec.ofNat 4 mask) = 0 then { y with rowPoison := mapDel y.rowPoison r }
  else y

/-- The row lies in a TABLE region. -/
def Wv.inTable (w : Wv) (r : Nat) : Bool := w.regions.any (fun (_, g) => g.role == 2 && decide (g.start ≤ r) && decide (r < g.start + g.rows))

/-- The lanes of a list as a mask. -/
def maskOf (ls : List Nat) : Nat := ls.foldl (fun m l => m ||| 2 ^ l) 0

/-- DLY (R188). -/
def Wv.dly (w : Wv) (g : Stg) (mask : Nat) (a : Nat → Nat) : Wv :=
  let i := g.opt % 4
  let reg := mapGet { start := 0, rows := 1, role := 1, tid := 0 } w.regions i
  let q := mapGet 0 w.y.dlyPos i
  let r := reg.start + q
  let lanes := (upTo 4).filter (fun l => bit mask l)
  let p := w.p || (!lanes.isEmpty && w.y.rowBad r)
  let old := fun (l : Nat) => w.y.col r l
  let y := lanes.foldl (fun (y : Elem) l => y.putCol r l (a l)) w.y
  let y := if lanes.isEmpty then y else y.soil p r (maskOf lanes)
  let y := if w.live then { y with dlyPos := mapPut y.dlyPos i ((q + 1) % reg.rows) } else y
  { (w.put g.vd mask old) with y := y, p := p }

/-- LDL, LDX, STL and ATL (R189): op is the S-form code, off the offset of the I-form.
DEDUCED: notes/assumptions/49.md. -/
def Wv.local_ (w : Wv) (g : Stg) (op off mask : Nat) (a b : Nat → Nat) : Wv :=
  let lanes := (upTo 4).filter (fun l => bit mask l)
  let row := fun (l : Nat) => a l + off
  let reads := op != 0x3A
  let stores := op == 0x3A || op == 0x3C
  let bad := lanes.any (fun l => decide (1536 ≤ row l) || (reads && w.y.rowBad (row l)) || (stores && w.inTable (row l)))
  let p := w.p || bad
  let got := fun (l : Nat) => if 1536 ≤ row l then 0 else w.y.col (row l) (if op = 0x3B then b l % 4 else l)
  let puts := if stores then lanes.filter (fun l => decide (row l < 1536) && !w.inTable (row l)) else []
  let y := puts.foldl (fun (y : Elem) l => y.putCol (row l) l (if op = 0x3A then b l else (got l + b l) % 2 ^ 32)) w.y
  let y := (distinctRows (puts.map row)).foldl (fun (y : Elem) r => y.soil p r (maskOf (puts.filter (fun l => row l == r)))) y
  { (w.put g.vd mask (fun l => if op = 0x3A then b l else got l)) with y := y, p := p }
where
  distinctRows (rs : List Nat) : List Nat := rs.foldl (fun acc r => if acc.contains r then acc else acc ++ [r]) []

/-! ### One stage -/

/-- The data of a register in every lane. -/
def Wv.regData (w : Wv) (d : Nat) : Quad := laneData (fun l => w.bank.getD (4 * d + l) 0)

/-- An emission of R167. -/
def Wv.emitData (w : Wv) (ch lmask : Nat) (data : Quad) (bad : Bool) : Wv :=
  { w with out := w.out ++ [{ ch := ch, kind := w.kd, data := data, lmask := lmask &&& w.v, poison := bad }] }

/-- What MARK, STEER and every other emitting instruction emit, once VD is written (R167, R185, R186). -/
def Wv.emit (w : Wv) (s : Nat) (g : Stg) (a b : Nat → Nat) : Wv :=
  if !g.emit then w
  else if g.op = 0x36 then
    if !w.live then { w with out := w.out ++ [{ ch := g.och, kind := .mark, level := w.m, abort := w.ma }] }
    else if g.opt = 0 then w.emitData g.och g.lmask (laneData a) false
    else if a 0 = 0 then w
    else { w with out := w.out ++ [{ ch := g.och, kind := .mark, level := g.opt % 8 }], made := if g.opt % 8 = 7 then w.made.or (some s) else w.made }
  else if !w.live then w
  else if g.op = 0x35 then
    let named := b 0 % 4
    let ok := bit g.opt named
    w.emitData (if ok then named else trailingZeros 4 g.opt) g.lmask (laneData a) (!ok)
  else w.emitData g.och g.lmask (w.regData g.vd) false

/-- Stage s runs one instruction for a wave (R162, R174). -/
def Wv.stage (w : Wv) (s word : Nat) : Wv :=
  let g := stgOf word
  let op := if g.iform then g.op - 0x40 else g.op
  let mask := g.lmask &&& w.v
  let immS := wrap 32 (sext 16 g.imm)
  let a := fun (l : Nat) => w.src s g.sa l
  let b := fun (l : Nat) => if g.iform then (if op = 0x08 ∨ op = 0x0A then immS else if 0x11 ≤ op ∧ op ≤ 0x16 then g.imm else w.src s g.sb l) else w.src s g.sb l
  let c := fun (l : Nat) => if op = 0x1C ∨ op = 0x1D then (if g.iform then g.imm else if op = 0x1C then w.src s g.sb l else w.src s g.sc l) else w.src s g.sc l
  let pair := fun (f : Nat → Nat) (l : Nat) => f l + 2 ^ 32 * f (l + 1)
  let old := fun (l : Nat) => w.bank.getD (4 * g.vd + l) 0
  let w' :=
    if op = 0 then (if g.iform then w.put g.vd mask (fun _ => immS) else w)
    else if op = 0x02 then w.put g.vd mask (fun l => if l = g.opt % 4 then b 0 else a l)
    else if op = 0x03 then w.put g.vd mask (fun l => a (b l % 4))
    else if op = 0x04 then w.put g.vd mask (fun _ => a (b 0 % 4))
    else if op = 0x1B then w.put g.vd mask (fun l => (upTo (l + g.opt % 2)).foldl (fun n k => n + a k) 0)
    else if op < 0x20 then w.put g.vd mask (fun l => intLane op (a l) (b l) (c l) g.mode)
    else if op < 0x2D then w.putF g.vd mask (fun l => floatLane op (a l) (b l) (c l) g.mode (w.draw s l))
    else if op = 0x2D then
      if g.sb % 16 = 5 ∨ g.sc % 16 = 5 then w.putPairs g.vd mask (fun l => cvtPair g (pair a l) (pair old l) (w.draw s l))
      else w.putF g.vd mask (fun l => cvtLane g (a l) (old l) (w.draw s l))
    else if op ≤ 0x32 then
      if g.mode = 7 then w.putPairs g.vd mask (fun l => algLane op 7 (pair a l) (pair b l) w.t)
      else w.putF g.vd mask (fun l => algLane op g.mode (a l) (b l) w.t)
    else if op = 0x34 then w.put g.vd mask (fun l => bits w.jvd.toNat (32 * l) 32)
    else if op = 0x38 then w.dly g mask a
    else if 0x39 ≤ op then w.local_ g op g.imm mask a b
    else w.put g.vd mask a
  let w' := if op = 0x37 ∧ w.live ∧ bit mask 0 ∧ a 0 ≠ 0 then { w' with counted := true } else w'
  w'.emit s g a b

/-- The six stages. -/
def Wv.run (w : Wv) (stages : List Nat) : Wv := stages.zipIdx.foldl (fun w (x, i) => w.stage (i + 1) x) w

/-! ### Entry (R165, R168, R184) -/

/-- What entry decides: the channels consumed, live, quiet or end, and JCMP's choice of VD. -/
structure Entry where
  take : List Nat
  quiet : Bool := false
  ends : Bool := false
  /-- The channel of the head that JCMP gives VD. -/
  from_ : Option Nat := none
  resetC0 : Bool := false
  deriving DecidableEq, Repr

/-- A head that JCMP takes as an empty word. -/
def emptyHead (t : Tok) : Bool := match t.kind with | .mark => false | .data => t.lmask == 0 | _ => true

/-- The table of JCMP (R184) for heads A and B on channels ca and cb. -/
def jcmpEntry (opt ca cb : Nat) (a b : Tok) : Entry :=
  let pol := opt % 4
  let key := fun (t : Tok) => if bit opt 2 then t.key.toNat else t.lane 0
  let takeA := fun (live : Bool) => ({ take := [ca], quiet := !live, from_ := some ca } : Entry)
  let takeB := fun (live : Bool) => ({ take := [cb], quiet := !live, from_ := some cb } : Entry)
  if emptyHead a then takeA false
  else if emptyHead b then takeB false
  else if a.kind = .data ∧ b.kind = .data then
    if key a < key b then takeA (pol == 1 || pol == 2)
    else if key a = key b then
      if pol = 0 then { take := [ca, cb], from_ := some ca } else takeA (pol != 2)
    else { takeB (pol == 1) with resetC0 := pol == 3 }
  else if b.kind = .data then takeB (pol == 1)
  else if a.kind = .data then takeA (pol == 1 || pol == 2)
  else if a.level = b.level then { take := [ca, cb], ends := true }
  else if a.level < b.level then { take := [ca], quiet := true }
  else { take := [cb], quiet := true }

/-- The entry of a wave whose named heads are all present; none where it waits (R168, R169). -/
def entryOf (gs : List Stg) (markin : Nat) (head : Nat → Option Tok) : Option Entry :=
  match gs.find? (fun g => g.op == 0x34) with
  | some j =>
    match head (j.sa - 4), head (j.sb - 4) with
    | some a, some b => some (jcmpEntry j.opt (j.sa - 4) (j.sb - 4) a b)
    | _, _ => none
  | none =>
    let cs := consumedOf gs
    let kinds := cs.filterMap (fun ch => (head ch).map (fun t => t.kind))
    if cs.any (fun ch => bit markin ch && (head ch).any (fun t => t.kind != .data)) then none
    else
      match kinds with
      | [] => some { take := [] }
      | k :: ks => if ks.all (· == k) then some { take := cs, ends := k == .mark } else none

/-! ### Counters (R170) -/

/-- The counters enabled, as a list of extents. -/
def enabledCtr (cfg : ElemCfg) (i : Nat) : Bool := cfg.ext.getD i 0 != 0

/-- Advances the chain from counter i: the counters and those that wrapped. -/
def advanceChain (ext : List Nat) : Nat → Nat → List Nat → List Nat × List Nat
  | 0, _, c => (c, [])
  | n + 1, i, c =>
    if ext.getD i 0 = 0 then (c, [])
    else
      let v := (c.getD i 0 + 1) % 2 ^ 32
      if v = ext.getD i 0 then
        let r := advanceChain ext n (i + 1) (c.set i 0)
        (r.1, i :: r.2)
      else (c.set i v, [])

/-- The level of the MARK that wraps make, if they make one. -/
def wrapLevel (cfg : ElemCfg) (ws : List Nat) : Option Nat :=
  (ws.filter (fun i => bit cfg.marken i)).foldl (fun best i =>
    match best with | none => some (cfg.mlvl.getD i 0) | some l => some (max l (cfg.mlvl.getD i 0))) none

/-- Some enabled counter makes MARKs. -/
def ctrMarks (cfg : ElemCfg) : Bool := (upTo 4).any (fun i => enabledCtr cfg i && bit cfg.marken i)

/-- Every routed output has room for a wave's reservation (R165). -/
def waveRoom (x : Core) (e : Nat) (cfg : ElemCfg) : Bool :=
  (upTo 4).all (fun j => exitRoom x e j (1 + ofBool (ctrMarks cfg && bit cfg.markout j)))

/-! ### The exit of a wave (R167, R170, R171) -/

/-- An emission as a token of a wave. -/
def Wv.token (w : Wv) (m : Emission) : Tok :=
  if m.kind = .mark then { kind := .mark, level := m.level, abort := m.abort, poison := w.p || m.poison }
  else { kind := m.kind, data := m.data, lmask := BitVec.ofNat 4 m.lmask, poison := w.p || m.poison, retract := w.t }

/-- The tokens of a wave, with the MARKs that its wraps make behind them. -/
def Wv.tokens (w : Wv) (cfg : ElemCfg) (wrapped : List Nat) : List (Nat × Tok) :=
  w.out.map (fun m => (m.ch, w.token m)) ++
  (match wrapLevel cfg wrapped with
   | some l => ((upTo 4).filter (fun j => bit cfg.markout j)).map (fun j => (j, markTok l false false))
   | none => [])

/-- The level-7 MARK that a wave or mark step emits or consumes: its ABORT bit (R171). -/
def endAbort (consumed : Option (Nat × Bool)) (toks : List (Nat × Tok)) (wrap7 : Bool) : Option Bool :=
  match consumed with
  | some (7, ab) => some ab
  | _ =>
    match toks.find? (fun (_, t) => t.ends) with
    | some (_, t) => some t.abort
    | none => if wrap7 then some false else none

/-- Tokens enter the exit queues; an element that ends gives a level-7 MARK to every other output. -/
def exitWave (e : Nat) (toks : List (Nat × Tok)) (ends : Option Bool) (x : Core) : Core :=
  let x := toks.foldl (fun x (j, t) => emitTok e j t x) x
  match ends with
  | none => x
  | some ab => (upTo 4).foldl (fun x j => if toks.any (fun (k, t) => k == j && t.ends) then x else emitTok e j (markTok 7 ab false) x) x

/-! ### Waves and mark steps -/

/-- The stages of an element. -/
def stagesOf (cfg : ElemCfg) : List Stg := cfg.stages.map stgOf

/-- The stage that holds CNT, 0 for none. -/
def cntStage (cfg : ElemCfg) : Nat := match (stagesOf cfg).findIdx? (fun g => g.op == 0x37) with | some i => i + 1 | none => 0

/-- The state as an element sees it that nydb's `wave` lets run while every other node is frozen (R390). -/
def unfrozenFor (s : State) (c e : Nat) : State :=
  match (coreOf s c).isle with
  | some i => if 0 < (elemOf (coreOf s c) e).allow then onIsle i (fun k => { k with frozen := false }) s else s
  | none => s

/-- An element takes waves: it has not ended, or it stands behind a MARK made this wave that is not yet decided; and no
refill of its tables is owed (R171, R172). -/
def takesWaves (s : State) (c e : Nat) : Bool :=
  let y := elemOf (coreOf s c) e
  tokensOn (unfrozenFor s c e) c && (!y.ended || decide (s.cycle < y.tail)) && !refilling (coreOf s c) e

/-- The wave as it enters. -/
def startWave (s : State) (c e : Nat) (cfg : ElemCfg) (y : Elem) (n : Entry) (heads : List (Option Tok)) : Wv :=
  let named := heads.filterMap id
  let eaten := n.take.filterMap (fun ch => heads.getD ch none)
  let vdHead := n.from_.bind (fun ch => heads.getD ch none)
  let v := if n.ends then 0 else
    match vdHead with
    | some t => t.lmask.toNat
    | none => (eaten.foldl (fun (m : BitVec 4) t => m &&& t.lmask) 15).toNat
  let i := isleOfCore s c
  { live := !n.ends, v := v, p := named.any (·.poison), t := named.any (·.retract)
    kd := match eaten with | t :: _ => t.kind | [] => .data
    m := eaten.foldl (fun l t => max l t.level) 0, ma := eaten.any (·.abort)
    heads := heads, c := y.c, jvd := match vdHead with | some t => t.data | none => 0
    srkey := i.srkey, place := ((rowPlace i c * 64 + e) * 2 ^ 32 + y.c.getD 0 0) * 8
    imms := cfg.imms, regions := mapGet [] (selCfg (coreOf s c)).regions e, y := y }

/-- A wave that enters behind a made level-7 MARK emits nothing; any other gives its tokens. Behind one that is known at its
entry to end the element, none enters (R171). -/
def finishWave (s : State) (e : Nat) (cfg : ElemCfg) (behind : Bool) (w : Wv) (consumed : Option (Nat × Bool)) (x : Core) : Core :=
  let hasCnt := cntStage cfg != 0
  let step := w.live && (!hasCnt || w.counted)
  let adv := if step then advanceChain cfg.ext 4 0 w.y.c else (w.y.c, [])
  let y := { w.y with c := adv.1, waves := w.y.waves + 1 }
  let toks := w.tokens cfg adv.2
  let ends := endAbort consumed toks (wrapLevel cfg adv.2 == some 7)
  let known := consumed.any (fun (l, _) => l == 7) || wrapLevel cfg adv.2 == some 7
  if behind then { x with elems := mapPut x.elems e (if known then { y with tail := 0 } else y) }
  else
    let tail := if known then 0 else match w.made with | some k => if hasCnt ∧ k ≤ cntStage cfg + 1 then 0 else s.cycle + k - 1 | none => 0
    let y := if ends.isSome then { y with ended := true, tail := tail } else y
    exitWave e toks ends { x with elems := mapPut x.elems e y }

/-- A wave of an element enters and runs (R165). -/
def runWave (c e : Nat) (cfg : ElemCfg) (n : Entry) (heads : List (Option Tok)) (s : State) : State :=
  let x := coreOf s c
  let y := { elemOf x e with allow := (elemOf x e).allow - 1 }
  let behind := y.ended
  let x' := n.take.foldl (fun x ch => popChan e ch x) x
  let y := if n.resetC0 then { y with c := y.c.set 0 0 } else y
  let done' := if n.quiet then { x' with elems := mapPut x'.elems e { y with waves := y.waves + 1 } }
    else
      let w := startWave s c e cfg (elemOf x e) n heads
      finishWave s e cfg behind ({ w with y := y }.run cfg.stages) (if n.ends then some (w.m, w.ma) else none) x'
  let s := tallyCore c 0x004 1 (moved c (fun _ => done') s)
  hitBreak (fun b => match b with | .wave c' e' k => c' == c && e' == e && k == y.waves + 1 | _ => false) c s

/-- An element without inputs that a stop reaches gives its level-7 MARKs (R119). -/
def closeSource (c e : Nat) (ab : Bool) (s : State) : State :=
  moved c (fun x => exitWave e [] (some ab) (onElem e (fun y => { y with ended := true, tail := 0 }) x)) s

/-- WAVE (R165 to R168, R184). -/
def waveStep (c e : Nat) (s : State) : State :=
  let x := coreOf s c
  match mapFind (selCfg x).elems e with
  | none => s
  | some cfg =>
    let gs := stagesOf cfg
    let named := namedOf gs
    let head := fun (ch : Nat) => if named.contains ch then headTok x e ch else none
    let source := (consumedOf gs).isEmpty
    if !takesWaves s c e ∨ !waveRoom x e cfg ∨ (source ∧ !sourcesOn (unfrozenFor s c e) c) then s
    else if source ∧ (stopOf s c).isSome then
      if (elemOf x e).ended then s else closeSource c e (stopOf s c == some .abort) s
    else if named.any (fun ch => (head ch).isNone) then s
    else
      match entryOf gs cfg.markin head with
      | none => s
      | some n => runWave c e cfg n ((upTo 4).map head) s

def execWave (core e : Nat) (s : State) := done (waveStep core e s)

/-- MARK_STEP (R169). -/
def markStep (c e : Nat) (s : State) : State :=
  let x := coreOf s c
  match mapFind (selCfg x).elems e with
  | none => s
  | some cfg =>
    let ins := (upTo 4).filter (fun ch => bit cfg.markin ch)
    let heads := ins.filterMap (fun ch => headTok x e ch)
    let outs := (upTo 4).filter (fun j => bit cfg.markout j)
    if !takesWaves s c e ∨ ins.isEmpty ∨ heads.length ≠ ins.length ∨ heads.any (fun t => t.kind != .mark) ∨
        !outs.all (fun j => exitRoom x e j 1) then s
    else
      let l : Nat := heads.foldl (fun l t => max l t.level) 0
      let ma := heads.any (·.abort)
      let y := elemOf x e
      let y' := { y with c := y.c.zipIdx.map (fun (v, i) => if enabledCtr cfg i ∧ cfg.mlvl.getD i 0 ≤ l then 0 else v) }
      let x := ins.foldl (fun x ch => popChan e ch x) x
      if y.ended then moved c (fun _ => { x with elems := mapPut x.elems e (if l = 7 then { y' with tail := 0 } else y') }) s
      else
        let y' := if l = 7 then { y' with ended := true, tail := 0 } else y'
        moved c (fun _ => exitWave e (outs.map (fun j => (j, markTok l ma false))) (if l = 7 then some ma else none)
          { x with elems := mapPut x.elems e y' }) s

def execMarkStep (core e : Nat) (s : State) := done (markStep core e s)

end Sys2Proof.Machine
end

