-- ==== Sys2Proof/Machine/Integer.lean ====
section
/-! DEFINITION. The integer instructions of R152 and R153. None traps after decode and none sets a flag. -/

namespace Sys2Proof.Machine

/-- Writes the result of a register-register instruction. -/
def execRR (f : Word → Word → Word) (gd ga gb : Reg) (s : State) : State := writeBack gd (f (reg s ga) (reg s gb)) s

/-- DIVU: all ones when the divisor is 0 (R152). -/
def divu64 (a b : Word) : Word := if b = 0 then BitVec.allOnes 64 else BitVec.ofNat 64 (a.toNat / b.toNat)

/-- REMU: the dividend when the divisor is 0 (R152). -/
def remu64 (a b : Word) : Word := if b = 0 then a else BitVec.ofNat 64 (a.toNat % b.toNat)

/-- DIVS: truncated toward zero, -1 for a divisor of 0, -2^63 on overflow (R152). -/
def divs64 (a b : Word) : Word :=
  if b = 0 then uint64 (-1)
  else if a.toInt = -2 ^ 63 ∧ b.toInt = -1 then uint64 (-2 ^ 63)
  else uint64 (a.toInt.tdiv b.toInt)

/-- REMS: the sign of the dividend; the dividend for a divisor of 0, 0 on overflow (R152). -/
def rems64 (a b : Word) : Word :=
  if b = 0 then a
  else if a.toInt = -2 ^ 63 ∧ b.toInt = -1 then 0
  else uint64 (a.toInt - b.toInt * a.toInt.tdiv b.toInt)

/-- Bits [127:64] of a product (R152). -/
def mulHigh (x y : Int) : Word := uint64 (x * y / 2 ^ 64)

def execAdd (gd ga gb : Reg) (s : State) := done (execRR (fun a b => a + b) gd ga gb s)
def execSub (gd ga gb : Reg) (s : State) := done (execRR (fun a b => a - b) gd ga gb s)
def execAnd (gd ga gb : Reg) (s : State) := done (execRR (fun a b => a &&& b) gd ga gb s)
def execOr (gd ga gb : Reg) (s : State) := done (execRR (fun a b => a ||| b) gd ga gb s)
def execXor (gd ga gb : Reg) (s : State) := done (execRR (fun a b => a ^^^ b) gd ga gb s)
def execSll (gd ga gb : Reg) (s : State) := done (execRR (fun a b => a <<< (b.toNat % 64)) gd ga gb s)
def execSrl (gd ga gb : Reg) (s : State) := done (execRR (fun a b => a >>> (b.toNat % 64)) gd ga gb s)
def execSra (gd ga gb : Reg) (s : State) := done (execRR (fun a b => a.sshiftRight (b.toNat % 64)) gd ga gb s)
def execMul (gd ga gb : Reg) (s : State) := done (execRR (fun a b => a * b) gd ga gb s)
def execMulhs (gd ga gb : Reg) (s : State) := done (execRR (fun a b => mulHigh a.toInt b.toInt) gd ga gb s)
def execMulhu (gd ga gb : Reg) (s : State) := done (execRR (fun a b => mulHigh a.toNat b.toNat) gd ga gb s)
def execDivs (gd ga gb : Reg) (s : State) := done (execRR divs64 gd ga gb s)
def execDivu (gd ga gb : Reg) (s : State) := done (execRR divu64 gd ga gb s)
def execRems (gd ga gb : Reg) (s : State) := done (execRR rems64 gd ga gb s)
def execRemu (gd ga gb : Reg) (s : State) := done (execRR remu64 gd ga gb s)
def execMins (gd ga gb : Reg) (s : State) := done (execRR (fun a b => if a.slt b then a else b) gd ga gb s)
def execMaxs (gd ga gb : Reg) (s : State) := done (execRR (fun a b => if a.slt b then b else a) gd ga gb s)
def execMinu (gd ga gb : Reg) (s : State) := done (execRR (fun a b => if a.ult b then a else b) gd ga gb s)
def execMaxu (gd ga gb : Reg) (s : State) := done (execRR (fun a b => if a.ult b then b else a) gd ga gb s)
def execSeq (gd ga gb : Reg) (s : State) := done (execRR (fun a b => flagWord (a == b)) gd ga gb s)
def execSne (gd ga gb : Reg) (s : State) := done (execRR (fun a b => flagWord (a != b)) gd ga gb s)
def execSlt (gd ga gb : Reg) (s : State) := done (execRR (fun a b => flagWord (a.slt b)) gd ga gb s)
def execSltu (gd ga gb : Reg) (s : State) := done (execRR (fun a b => flagWord (a.ult b)) gd ga gb s)
def execSel (gd ga gb gc : Reg) (s : State) := done (writeBack gd (if reg s gc ≠ 0 then reg s ga else reg s gb) s)
def execClz (gd ga : Reg) (s : State) := done (writeBack gd (BitVec.ofNat 64 (leadingZeros 64 (reg s ga).toNat)) s)
def execCtz (gd ga : Reg) (s : State) := done (writeBack gd (BitVec.ofNat 64 (trailingZeros 64 (reg s ga).toNat)) s)
def execPopc (gd ga : Reg) (s : State) := done (writeBack gd (BitVec.ofNat 64 (oneBits 64 (reg s ga).toNat)) s)
def execBrev (gd ga : Reg) (s : State) := done (writeBack gd (BitVec.ofNat 64 (reverseBits 64 (reg s ga).toNat)) s)

/-- Writes the result of an immediate instruction (R153). -/
def execRI (f : Word → Word → Word) (gd ga : Reg) (imm : BitVec 32) (s : State) : State :=
  writeBack gd (f (reg s ga) (immOf imm)) s

def execAddi (gd ga : Reg) (imm : BitVec 32) (s : State) := done (execRI (fun a i => a + i) gd ga imm s)
def execAndi (gd ga : Reg) (imm : BitVec 32) (s : State) := done (execRI (fun a i => a &&& i) gd ga imm s)
def execOri (gd ga : Reg) (imm : BitVec 32) (s : State) := done (execRI (fun a i => a ||| i) gd ga imm s)
def execXori (gd ga : Reg) (imm : BitVec 32) (s : State) := done (execRI (fun a i => a ^^^ i) gd ga imm s)
def execSlli (gd ga : Reg) (n : BitVec 6) (s : State) := done (writeBack gd (reg s ga <<< n.toNat) s)
def execSrli (gd ga : Reg) (n : BitVec 6) (s : State) := done (writeBack gd (reg s ga >>> n.toNat) s)
def execSrai (gd ga : Reg) (n : BitVec 6) (s : State) := done (writeBack gd ((reg s ga).sshiftRight n.toNat) s)
def execSlti (gd ga : Reg) (imm : BitVec 32) (s : State) := done (execRI (fun a i => flagWord (a.slt i)) gd ga imm s)
def execSltui (gd ga : Reg) (imm : BitVec 32) (s : State) := done (execRI (fun a i => flagWord (a.ult i)) gd ga imm s)
def execLih (gd ga : Reg) (imm : BitVec 32) (s : State) :=
  done (writeBack gd (imm ++ (reg s ga).extractLsb' 0 32) s)

end Sys2Proof.Machine
end

