-- ==== Sys2Proof/Machine/Joins.lean ====
section
/-! DEFINITION. The merge join (R193 to R196) and the reducer (R212, R213, R215). -/

namespace Sys2Proof.Machine

/-! ### The merge join -/

def mjOf (x : Core) (slot : Nat) : Mj := mapGet {} x.mjs slot
def putMj (slot : Nat) (m : Mj) (x : Core) : Core := { x with mjs := mapPut x.mjs slot m }

/-- A head that the MJ discards: a SCALE, a CTRL, or a DATA token without both key lanes (R191).
DEDUCED: notes/assumptions/53.md. -/
def strayKey (t : Tok) : Bool := t.kind == .scale || t.kind == .ctrl || (t.kind == .data && !(t.has 0 && t.has 1))

/-- A DATA head's key is below the last key taken on its input since a MARK (R196).
DEDUCED: notes/assumptions/54.md. -/
def outOfOrder (last : Option Word) (t : Tok) : Bool := t.kind == .data && last.any (fun k => decide (t.key.toNat < k.toNat))

/-- The pair of an A and a B token (R195). -/
def pairTok (a b : Tok) (alane blane : Bool) (bad : Bool) : Tok :=
  let la := if alane then 3 else 2
  let lb := if blane then 3 else 2
  { data := quadOf (a.lane 0) (a.lane 1) (a.lane la) (b.lane lb)
    lmask := BitVec.ofNat 4 (3 + 4 * ofBool (a.has la) + 8 * ofBool (b.has lb))
    poison := a.poison || b.poison || bad, retract := a.retract || b.retract }

/-- A head is taken; a DATA key is remembered for the order test. -/
def takeA (slot : Nat) (t : Tok) (m : Mj) (x : Core) : Core :=
  putMj slot { m with lastA := if t.kind = .data then some t.key else m.lastA } (popChan (64 + slot) 0 x)

def takeB (slot : Nat) (t : Tok) (m : Mj) (x : Core) : Core :=
  putMj slot { m with lastB := if t.kind = .data then some t.key else m.lastB } (popChan (64 + slot) 1 x)

/-- The run of B tokens of the buffer's key is taken, one per clk (R194, R195). -/
def fillRun (slot : Nat) (b : Tok) (m : Mj) (x : Core) : Core :=
  if b.kind = .data ∧ b.key = m.bufKey then
    let keep := decide (m.buf.length < 64)
    takeB slot b { m with buf := if keep then m.buf ++ [b] else m.buf, bufPoison := m.bufPoison || !keep } x
  else putMj slot { m with filling := false, bufValid := true, pos := 0 } x

/-- MjStep once both heads are present and the buffer pairs no more (R194). DEDUCED: notes/assumptions/54.md. -/
def mjCompare (slot mode : Nat) (a b : Tok) (m : Mj) (x : Core) : Core :=
  let out := fun (t : Tok) => emitTok (64 + slot) 0 { t with poison := t.poison || m.disorder }
  let ka := a.key.toNat
  let kb := b.key.toNat
  if a.kind = .mark ∧ b.kind = .mark then
    let l := max a.level b.level
    let m := { m with bufValid := false, buf := [], bufPoison := false, lastA := none, lastB := none, disorder := false, ended := l == 7 }
    emitTok (64 + slot) 0 (markTok l (a.abort || b.abort) false) (putMj slot m (popChan (64 + slot) 1 (popChan (64 + slot) 0 x)))
  else if a.kind = .mark then
    let x := takeB slot b m x
    if mode = 2 then out b x else x
  else if b.kind = .mark then
    let x := takeA slot a m x
    if mode = 2 ∨ mode = 3 then out a x else x
  else if mode = 2 then (if ka ≤ kb then out a (takeA slot a m x) else out b (takeB slot b m x))
  else if ka < kb then (if mode = 3 then out a (takeA slot a m x) else takeA slot a m x)
  else if kb < ka then takeB slot b m x
  else if mode = 0 then out a (takeA slot a m x)
  else if mode = 3 then takeA slot a m x
  else fillRun slot b { m with filling := true, bufKey := b.key, buf := [], bufPoison := false } x

/-- The next pair of A's head with the buffered run; the last pair takes the head (R194). -/
def mjPair (slot : Nat) (a : Tok) (m : Mj) (x : Core) : Core :=
  match m.buf[m.pos]? with
  | none => takeA slot a { m with pos := 0 } x
  | some b =>
    let t := pairTok a b (bit (opPar x slot 0) 2) (bit (opPar x slot 0) 3) (m.bufPoison || m.disorder)
    let x := emitTok (64 + slot) 0 t x
    if m.pos + 1 < m.buf.length then putMj slot { m with pos := m.pos + 1 } x else takeA slot a { m with pos := 0 } x

/-- One step of an MJ. -/
def mjStep (c slot : Nat) (s : State) : State :=
  let node := 64 + slot
  let x := coreOf s c
  let m := mjOf x slot
  let drop := fun (ch : Nat) (t : Tok) =>
    moved c (fun x => putMj slot { m with flags := if t.kind = .data then m.flags ||| flagNV else m.flags } (popChan node ch x)) s
  if !tokensOn s c ∨ !hasOp x slot ∨ m.ended ∨ !exitRoom x node 0 1 then s
  else
    match headTok x node 0, headTok x node 1 with
    | some a, some b =>
      if strayKey a then drop 0 a
      else if strayKey b then drop 1 b
      else
        let m := { m with disorder := m.disorder || outOfOrder m.lastA a || outOfOrder m.lastB b }
        moved c (fun x =>
          if m.filling then fillRun slot b m x
          else if m.bufValid ∧ a.kind = .data ∧ a.key = m.bufKey then mjPair slot a m x
          else
            let m := if m.bufValid ∧ a.kind = .data ∧ m.bufKey.toNat < a.key.toNat then { m with bufValid := false, buf := [], bufPoison := false } else m
            mjCompare slot (opField x slot 0 0 2) a b m x) s
    | some a, none => if strayKey a then drop 0 a else s
    | none, some b => if strayKey b then drop 1 b else s
    | none, none => s

def execMjStep (core slot : Nat) (s : State) := done (if slot = 10 ∨ slot = 11 then mjStep core slot s else s)

/-! ### The reducer -/

def rdOf (x : Core) (slot : Nat) : Rd := mapGet {} x.rds slot
def putRd (slot : Nat) (r : Rd) (x : Core) : Core := { x with rds := mapPut x.rds slot r }

def rdAlg (x : Core) (slot : Nat) : Alg := (algOf (opField x slot 0 0 3)).getD .bool

/-- The anchor of a REAL reducer (R212). -/
def rdAnchor (x : Core) (slot : Nat) : Int := if bit (opPar x slot 1) 10 then sext 10 (opField x slot 1 0 10) else 128

/-- The valid values of a DATA token in fold order, each with its result (R213). -/
def rdValues (x : Core) (slot : Nat) (t : Tok) : List (Nat × Nat) :=
  let across := bit (opPar x slot 0) 3
  let at_ := fun (l : Nat) => if across then 0 else l
  if rdAlg x slot = .int64 then
    [0, 2].filterMap (fun l => if t.has l && t.has (l + 1) then some (at_ l, t.lane l + 2 ^ 32 * t.lane (l + 1)) else none)
  else
    (upTo 4).flatMap (fun l =>
      if !t.has l then []
      else if bit (opPar x slot 0) 4 then [(at_ l, bits (t.lane l) 0 16 * 65536), (at_ l, bits (t.lane l) 16 16 * 65536)]
      else [(at_ l, t.lane l)])

/-- The bin of a value (R215). -/
def rdBin (hoff v : Nat) : Nat :=
  match f32 v with
  | .fin _ m e => if m = 0 then 0 else (min (max (xlog2 m e + hoff) 1) 62).toNat
  | _ => 63

/-- Statistics of one value (R215). -/
def rdStat (hoff v : Nat) (r : Rd) : Rd :=
  let b := rdBin hoff v
  let bad := xnonFinite (f32 v)
  let mag := v % 2 ^ 31
  { r with bins := mapPut r.bins b (min (mapGet 0 r.bins b + 1) 0xFFFFFFFF)
           amax := if bad then r.amax else max r.amax mag
           statNonfin := if bad then min (r.statNonfin + 1) 0xFFFFFFFF else r.statNonfin }

/-- One value folds into its result (R213). -/
def rdFoldValue (x : Core) (slot : Nat) (retract : Bool) (r : Rd) (v : Nat × Nat) : Rd :=
  let g := rdAlg x slot
  let r := if algFloat g && xnonFinite (f32 v.2) then { r with nonfin := r.nonfin + 1 } else r
  let r := if bit (opPar x slot 0) 15 then rdStat (opField x slot 3 18 6) v.2 r else r
  let got := r.got ||| BitVec.ofNat 4 (2 ^ v.1)
  if g = .real then
    let α := rdAnchor x slot
    let old := mapGet {} r.exact v.1
    let w := addend v.2 retract
    { r with exact := mapPut r.exact v.1 (contribute α w old), got := got
             flags := r.flags ||| x160Flags (contribute α w { old with ovf := false, risk := false }) }
  else
    let old := mapGet (algZero g) r.acc v.1
    if retract then
      if g = .cnt ∨ g = .int32 ∨ g = .int64 then { r with acc := mapPut r.acc v.1 (algRetract g old v.2), got := got } else r
    else
      let n := algAdd g old v.2
      { r with acc := mapPut r.acc v.1 n.1, got := got, flags := r.flags ||| n.2 }

/-- A retraction that the algebra cannot undo poisons the result and sets NV (R213).
DEDUCED: notes/assumptions/55.md. -/
def rdRefuses (g : Alg) : Bool := g == .bool || g == .trop || g == .vit || g == .pnor

/-- A DATA token folds. DEDUCED: notes/assumptions/55.md. -/
def rdTake (x : Core) (slot : Nat) (t : Tok) (r : Rd) : Rd :=
  let bad := t.retract && rdRefuses (rdAlg x slot)
  let r := (rdValues x slot t).foldl (rdFoldValue x slot t.retract) r
  { r with any := true, poison := r.poison || t.poison || bad, flags := if bad then r.flags ||| flagNV else r.flags }

/-- The RD may take the head of i0. -/
def rdOn (s : State) (c slot : Nat) : Bool := tokensOn s c && hasOp (coreOf s c) slot && !(rdOf (coreOf s c) slot).ended

/-- The head closes a segment. -/
def rdCloses (x : Core) (slot : Nat) (t : Tok) : Bool := t.kind == .mark && decide (opField x slot 0 5 3 ≤ t.level)

/-- One token of i0 that closes no segment (R213). -/
def rdFold (c slot : Nat) (s : State) : State :=
  let x := coreOf s c
  match headTok x (64 + slot) 0 with
  | none => s
  | some t =>
    if !rdOn s c slot ∨ rdCloses x slot t then s
    else
      moved c (fun x =>
        let x' := popChan (64 + slot) 0 x
        if t.kind = .data then putRd slot (rdTake x slot t (rdOf x slot)) x' else x') s

def execRdFold (core slot : Nat) (s : State) := done (if slot = 15 ∨ slot = 16 then rdFold core slot s else s)

/-- The result of place l of a segment, rounded with SR bits r in REAL. -/
def rdResult (x : Core) (slot : Nat) (r : Rd) (l bits16 : Nat) : Nat × FpFlags :=
  let g := rdAlg x slot
  if g = .real then
    if r.got.getLsbD l then
      leave (rdAnchor x slot) ((fmtOf (opField x slot 0 11 4)).getD .fp32) ((rmodeOf (opField x slot 0 8 3)).getD .rne) bits16 (mapGet {} r.exact l)
    else (0, 0)
  else (mapGet (algZero g) r.acc l, 0)

/-- The places that hold results. -/
def rdPlaces (x : Core) (slot : Nat) : List Nat :=
  if bit (opPar x slot 0) 3 then [0] else if rdAlg x slot = .int64 then [0, 2] else upTo 4

/-- The results of a segment: each place with its value, the flags, and the draws that SR rounding took: one for each place that received
a value (R55). DEDUCED: notes/assumptions/82.md. -/
def rdResults (x : Core) (slot : Nat) (r : Rd) (z : Stream) : List Nat → List (Nat × Nat) × FpFlags × Nat
  | [] => ([], 0, 0)
  | l :: ls =>
    let draws := rdAlg x slot == .real && opField x slot 0 8 3 == 4 && r.got.getLsbD l
    let v := rdResult x slot r l (srBits (drawZ z.k z.c))
    let rest := rdResults x slot r (if draws then { z with c := z.c + 1 } else z) ls
    ((l, v.1) :: rest.1, v.2 ||| rest.2.1, ofBool draws + rest.2.2)

/-- The result token (R213). -/
def rdToken (x : Core) (slot : Nat) (r : Rd) (vs : List (Nat × Nat)) : Tok :=
  let wide := rdAlg x slot == .int64
  let d := vs.foldl (fun d (l, v) => d + v % 2 ^ (if wide then 64 else 32) * 2 ^ (32 * l)) 0
  let m := vs.foldl (fun m (l, _) => if r.got.getLsbD l then m + 2 ^ l * (if wide then 3 else 1) else m) 0
  { data := BitVec.ofNat 128 d, lmask := BitVec.ofNat 4 m, poison := r.poison }

/-- The statistics record (R215). -/
def rdRecord (r : Rd) : List Byte :=
  (upTo 64).flatMap (fun i => toBytes 4 (mapGet 0 r.bins i)) ++ toBytes 4 r.amax ++ toBytes 4 r.statNonfin ++
  toBytes 4 r.nseg ++ toBytes 52 0

/-- The counters that a closing MARK raises (R213), by 0 too (R295). -/
def rdRaise (c slot nonfin : Nat) (s : State) : State :=
  let w := opPar (coreOf s c) slot 2
  let s := if bit w 6 then raiseCounter c (bits w 0 6) (BitVec.ofNat 64 nonfin) s else s
  raiseIf (bit w 13) c (bits w 7 6) 1 s

/-- A closing MARK: the result, the MARK, and at level 7 the statistics record (R213, R215). -/
def rdClose (c slot : Nat) (s : State) : State :=
  let x := coreOf s c
  let node := 64 + slot
  match headTok x node 0 with
  | none => s
  | some t =>
    let r := rdOf x slot
    let stats := bit (opPar x slot 0) 15 && t.ends
    let place := opField x slot 3 0 18
    if !rdOn s c slot ∨ !rdCloses x slot t ∨ !exitRoom x node 0 2 then s
    else
      let (ok, s) := if stats then fabricTouch c place 320 s else (true, s)
      if !ok then s
      else
        let z := opField x slot 3 24 6
        let old : Stream := mapGet {} x.sg.z z
        let res := if r.any then rdResults x slot r old (rdPlaces x slot) else ([], 0, 0)
        let r' := { r with nseg := min (r.nseg + 1) 0xFFFFFFFF }
        let next : Rd := { bins := r'.bins, amax := r'.amax, statNonfin := r'.statNonfin, nseg := r'.nseg, ended := t.ends
                           flags := r.flags ||| res.2.1 }
        let s := moved c (fun x =>
          let x := popChan node 0 x
          let x := if r.any then emitTok node 0 (rdToken x slot r res.1) x else x
          let x := putRd slot next (emitTok node 0 t x)
          let x := if res.2.2 = 0 then x else { x with sg := { x.sg with z := mapPut x.sg.z z { old with c := old.c + BitVec.ofNat 64 res.2.2 } } }
          if stats then putScratch place (rdRecord r') x else x) s
        rdRaise c slot r.nonfin s

def execRdSegmentClose (core slot : Nat) (s : State) := done (if slot = 15 ∨ slot = 16 then rdClose core slot s else s)

end Sys2Proof.Machine
end

