-- ==== Sys2Proof/Machine/LoadStore.lean ====
section
/-! DEFINITION. LD, LDS, ST and the draining of the store buffer (R144, R155, R156), with the writes that travel between
dies (R280). -/

namespace Sys2Proof.Machine

/-- LD (R155): zero-extended; the .acq form acquires (R156). -/
def execLd (sz : Sz) (acq : Bool) (gd ga : Reg) (d : BitVec 32) (s : State) :=
  done (onRes (pilotLoad s (effAddr s ga d) (szBytes sz) true) fun b s =>
    writeBack gd (zext b) (if acq then acquire s.turn s else s))

/-- LDS (R155): sign-extended. -/
def execLds (sz : Sz) (gd ga : Reg) (d : BitVec 32) (s : State) :=
  done (onRes (pilotLoad s (effAddr s ga d) (szBytes sz) false) fun b s => writeBack gd (sextBytes b) s)

/-- ST (R155): the store enters the buffer. -/
def execSt (sz : Sz) (rel : Bool) (ga gb : Reg) (d : BitVec 32) (s : State) :=
  done (onRes (pilotStore s (effAddr s ga d) (toBytes (szBytes sz) (reg s gb).toNat) rel) fun _ s => advance s)

/-- The pilot's buffer without its oldest store. -/
def popStore (c : Nat) (s : State) : State := onPilot c (fun p => { p with storeBuf := p.storeBuf.drop 1 }) s

/-- A store performed at its home, the writer's own cached copy updated with it (R145). -/
def storeAtHome (c : Nat) (b : BufStore) (s : State) : State :=
  let bs := b.bytes.map some
  let s := performWrite s (some (.pilot c)) b.key b.cache b.addr bs false
  onPilot c (fun p =>
    match mapFind p.dcache (b.addr / 64) with
    | some l => { p with dcache := mapPut p.dcache (b.addr / 64) { l with data := (mergeLine { data := l.data } (b.addr % 64) bs).data } }
    | none => p) s

/-- A buffered store may be performed at its home: its slice is ready, and the versions that it makes find their ways (R371). -/
def storeReady (c : Nat) (b : BufStore) (s : State) : Bool :=
  hbmReady s b.addr b.cache && versionReady s (authorOf s (some (.pilot c)) s.hub.chipid) (b.addr / 64)

/-- A store reaches memory: at once on its own die, as a message to another (R280). -/
def storeToMemory (c : Nat) (b : BufStore) (s : State) : State :=
  let d := dieOfCore c
  let h := homeDie b.addr
  if !storeReady c b s then s
  else if d = h then popStore c (storeAtHome c b s)
  else
    let s := raiseV d h s
    let m : DieMsg := { src := d, dst := h, stamp := (upTo 4).map (vOf s d), core := some c }
    let s := onMs (fun x => { x with dieMsgs := x.dieMsgs ++ [m] }) s
    onPilot c (fun p => { p with storeBuf := p.storeBuf.modifyHead (fun b => { b with sent := true }) }) s

/-- The stores of a core that ended on their way to another chip are reported to its pilot (R296, R300).
DEDUCED: notes/assumptions/78.md. -/
def reportLost (c : Nat) (s : State) : State :=
  match s.ms.far.find? (fun r => r.agent == some (.pilot c) && isWrite r.body && r.answer.isSome) with
  | none => s
  | some r =>
    if reportRoom s c then
      report c { code := causePerm, val := BitVec.ofNat 64 r.va } (onMs (fun x => { x with far := x.far.filter (fun q => q.id != r.id) }) s)
    else s

/-- A store that can no longer be performed is reported to its pilot (R296, R300). -/
def lostStore (c cause : Nat) (b : BufStore) (s : State) : State :=
  if reportRoom s c then popStore c (report c { code := cause, val := BitVec.ofNat 64 b.va } s) else s

/-- A store to a mapped counter is performed: the held test is made again (R296). -/
def storeToCounter (c : Nat) (b : BufStore) (k j : Nat) (s : State) : State :=
  let ctx := (viewOf s c).ctx
  let v := BitVec.ofNat 64 (ofBytes b.bytes)
  if coreRuns s k ctx then popStore c (raiseCounter k j v s)
  else if coreHeld s k ctx then popStore c (deliver ctx k j v s)
  else lostStore c causePerm b s

/-- A store to a service register is performed; a wake-up whose operand is out of range raises PERM with the operand (R345, R360). -/
def serviceStore (c off : Nat) (v : Word) (s : State) : State :=
  match serviceBad off v with
  | none => popStore c (serviceWrite off v s)
  | some w => if reportRoom s c then popStore c (report c { code := causePerm, val := w } s) else s

/-- The oldest store of a core's buffer is performed at its location (R144). -/
def drainStore (c : Nat) (s : State) : State :=
  let s := reportLost c s
  match (coreOf s c).pilot.storeBuf with
  | [] => s
  | b :: _ =>
    if b.sent ∨ (b.rel ∧ (windowsParked (coreOf s c) (fun _ => true) ∨ !farSettled s (.pilot c))) then s
    else
      match (if b.rel then writeBackStash c (fun _ => true) s else .ok () s) with
      | .wait s => s
      | .fault cause page s => parkWindows c (fun _ => true) cause page s
      | .ok _ s =>
        if b.rel ∧ !farSettled s (.fabric c) then s
        else if b.scratch then popStore c (onCore c (putScratch b.addr b.bytes) s)
        else if b.home ≠ s.hub.chipid then
          match writeFar s (some (.pilot c)) b.va { pa := b.addr, cache := b.cache, key := b.key, home := b.home, ctx := (viewOf s c).ctx }
              (b.bytes.map some) false with
          | .ok _ s => popStore c s
          | .fault cause _ s => lostStore c cause b s
          | .wait s => s
        else
          match placeOf b.addr with
          | .hbm => storeToMemory c b s
          | .counter k j => storeToCounter c b k j s
          | .service off => serviceStore c off (BitVec.ofNat 64 (ofBytes b.bytes)) s
          | .counterHole => popStore c s
          | .host => popStore c (hostPuts b.addr (b.bytes.map some) s)
          | .absent => popStore c s

def execStoreBufferDrain (core : Nat) (s : State) := done (drainStore core s)

/-- Removes the oldest message from one die to another. -/
def popDieMsg (src dst : Nat) : List DieMsg → List DieMsg
  | [] => []
  | m :: ms => if m.src = src ∧ m.dst = dst then ms else m :: popDieMsg src dst ms

/-- The oldest message from die src is performed at die dst once the vector allows (R280). A count that a read reply has told the
die already needs no performing. -/
def dieMessage (dst src : Nat) (s : State) : State :=
  match (dieQueue s src dst).head? with
  | none => s
  | some m =>
    let pop := onMs (fun x => { x with dieMsgs := popDieMsg src dst x.dieMsgs })
    let n := m.stamp.getD src 0
    let count := fun (s : State) => setV dst src n (pop s)
    if m.core.isNone ∧ n ≤ vOf s dst src then pop s
    else if !stampOk s src dst m.stamp then s
    else
      match m.core with
      | none => count s
      | some c =>
        match (coreOf s c).pilot.storeBuf.head?.filter (·.sent) with
        | some b => if storeReady c b s then count (popStore c (storeAtHome c b s)) else s
        | none => count s

def execDieMessage (dst src : Nat) (s : State) := done (dieMessage dst src s)

end Sys2Proof.Machine
end

