-- ==== Sys2Proof/Machine/Loader.lean ====
section
/-! DEFINITION. The loader: one event per frame of an image (R36 to R38, R73 to R80, R135), and the end of a load. -/

namespace Sys2Proof.Machine

/-! ### The end of a load -/

/-- A load fails at a frame: the slot stays empty (R38). A launch whose image fails ends with status 2 (R102); a commit point
whose image fails cannot be restored (R355). DEDUCED: notes/assumptions/24.md. -/
def failLoad (n index : Nat) (s : State) : State :=
  let r := (isleOf s n).resume
  let s := onIsle n (fun i => { i with loader := none, loadFail := some (causeCfgbad, index), resume := none }) s
  if (isleOf s n).phase = .loading then completeEnd n 2 s
  else if r.any (fun r => r.status == 3) then endContext (isleOf s n).ctx s
  else s

/-- END has passed: the slot becomes valid, and a restore goes on, or a launch that waits for it starts (R38, R101); one whose
CFGID is another raises CFGID and ends as one whose image does not load.
DEDUCED: notes/assumptions/25.md. -/
def endLoad (n : Nat) (l : Loader) (s : State) : State :=
  let i := isleOf s n
  let s := (isleCores i).foldl (fun s c => onCore c (fun x => { x with slots := mapPut x.slots l.slot (mapGet {} l.cfgs c) }) s) s
  let g : IsleSlot := { cfgid := l.cfgid, image := l.addr, addrMask := l.addrMask, rules := l.rules, cores := l.cfgs.map (fun e => e.1) }
  let s := onIsle n (fun i => { i with loader := none, slots := mapPut i.slots l.slot g }) s
  let s := writeDescriptors n s
  if i.resume.isSome then resumeStep refillTables n s
  else if i.phase ≠ .loading then s
  else if l.cfgid ≠ i.lrec.cfgid then completeEnd n 2 (onIsle n (fun i => { i with loadFail := some (causeCfgid, i.lrec.cfgid) }) s)
  else startPilots n s

/-! ### One frame -/

/-- The header of a frame: KIND, DX, DY, UNIT (R36). -/
def frameKind (x : Nat) : Nat := bits x 252 4

/-- The target core of a frame within the isle that loads it (R36). DEDUCED: notes/assumptions/24.md. -/
def frameCore (i : Isle) (x : Nat) : Option Nat := coreAt i (sext 7 (bits x 245 7)) (sext 7 (bits x 238 7))

/-- The frame numbers of a kind of which an image may hold several for one unit: PART, PAGE, SUB. -/
def frameSub (x : Nat) : Nat :=
  match frameKind x with
  | 2 => bits x 230 2
  | 4 => bits x 224 4
  | 6 => bits x 228 4
  | _ => 0

/-- A frame repeats an earlier one (R73). -/
def repeated (l : Loader) (x c : Nat) : Bool :=
  let k := frameKind x
  k != 7 && l.seen.any (fun (k', c', u', s') => k' == k && c' == c && u' == bits x 232 6 && (k == 3 || s' == frameSub x))

/-- HDR (R37). -/
def readHdr (i : Isle) (l : Loader) (x : Nat) : Option Loader :=
  if frameKind x = 0xE ∧ bits x 232 20 = 0 ∧ bits x 200 32 = 0x4E59494D ∧ bits x 192 8 = 1 ∧ bits x 176 16 ≠ 0 ∧
      1 ≤ bits x 170 6 ∧ bits x 170 6 ≤ i.width ∧ 1 ≤ bits x 164 6 ∧ bits x 164 6 ≤ i.height ∧ bits x 97 3 = 0 ∧ bits x 0 32 = 0 then
    some { l with cfgid := bits x 176 16, addrMask := bits x 100 64, rules := bit x 96, nframes := bits x 64 32, wantCrc := bits x 32 32 }
  else none

/-- EI (R74). -/
def addEi (l : Loader) (cfg : CoreCfg) (u x : Nat) : Option CoreCfg :=
  let ws := (upTo 6).map (fun k => bits x (38 * k) 38)
  if bits x 228 4 = 0 ∧ elementOk ws (bit l.addrMask u) then
    some { cfg with elems := mapPut cfg.elems u { (mapGet {} cfg.elems u) with stages := ws } }
  else none

/-- EP (R75). -/
def addEp (cfg : CoreCfg) (u x : Nat) : Option CoreCfg :=
  let el := mapGet ({} : ElemCfg) cfg.elems u
  if !epOk x then none
  else if bits x 230 2 = 0 then
    let el := { el with ext := (upTo 4).map (fun k => bits x (32 * k) 32), marken := bits x 128 4
                        mlvl := (upTo 4).map (fun k => bits x (132 + 3 * k) 3), markout := bits x 144 4, markin := bits x 148 4 }
    some { cfg with elems := mapPut cfg.elems u el }
  else
    some { cfg with elems := mapPut cfg.elems u { el with imms := (upTo 6).map (fun k => bits x (32 * k) 32) } }

/-- The entries of an XS frame. -/
def xsEntries (x : Nat) : List Nat := (upTo 7).map (fun k => bits x (32 * k) 32)

/-- XS (R76). The spec states no fault for a UNIT that is not the frame's number among the core's XS frames, so it is not compared.
DESIGN CHOICE: notes/assumptions/26.md. -/
def addXs (cfg : CoreCfg) (x : Nat) : Option CoreCfg :=
  if bits x 224 8 = 0 ∧ (xsEntries x).all routeOk then
    some { cfg with routes := cfg.routes ++ ((xsEntries x).filter (fun r => bit r 31)).map routeOf }
  else none

/-- OP (R77). -/
def addOp (cfg : CoreCfg) (u x : Nat) : Option CoreCfg :=
  if 8 ≤ u ∧ u < 32 ∧ bits x 228 4 = kindOfSlot u ∧ bits x 224 4 < kindPages (kindOfSlot u) then
    let words := (upTo 7).foldl (fun m k => mapPut m (7 * bits x 224 4 + k) (bits x (32 * k) 32)) (mapGet [] cfg.ops u)
    some { cfg with ops := mapPut cfg.ops u words }
  else none

/-- AG (R78). -/
def addAg (cfg : CoreCfg) (u x : Nat) : Option CoreCfg :=
  if u < 8 ∧ agOk x then some { cfg with ags := mapPut cfg.ags u (agOf x) } else none

/-- LD number k (R80). -/
def addLd (cfg : CoreCfg) (u k x : Nat) : Option CoreCfg :=
  if ldOk k x then some { cfg with preload := mapPut cfg.preload u (putPreload k (bits x 0 224) (mapGet [] cfg.preload u)) } else none

/-- The configuration of a core with one more frame; none where the frame's own checks fail. -/
def addFrame (l : Loader) (c x : Nat) : Option CoreCfg :=
  let cfg := mapGet ({} : CoreCfg) l.cfgs c
  let u := bits x 232 6
  match frameKind x with
  | 1 => addEi l cfg u x
  | 2 => addEp cfg u x
  | 3 => addXs cfg x
  | 4 => addOp cfg u x
  | 5 => addAg cfg u x
  | 6 => addMu cfg u x
  | 7 => addLd cfg u (mapGet 0 l.ldCount (64 * c + u)) x
  | _ => none

/-- What the loader remembers of a frame: see frameFits. -/
def frameMark (l : Loader) (c x : Nat) : Nat × Nat × Nat × Nat :=
  let sub := if frameKind x = 3 then
      8 * (mapGet ({} : CoreCfg) l.cfgs c).routes.length + ((xsEntries x).filter (fun r => bit r 31)).length
    else frameSub x
  (frameKind x, c, bits x 232 6, sub)

/-- A frame between HDR and END is taken in, or fails the load (R38). -/
def takeFrame (n : Nat) (l : Loader) (bs : List Byte) (x : Nat) (s : State) : State :=
  match frameCore (isleOf s n) x with
  | none => failLoad n l.index s
  | some c =>
    if repeated l x c then failLoad n l.index s
    else
      match addFrame l c x with
      | none => failLoad n l.index s
      | some cfg =>
        let u := 64 * c + bits x 232 6
        if !frameArrives (mapPut l.cfgs c cfg) s.hub.chipid l.addrMask (frameMark l c x) then failLoad n l.index s
        else
          let l : Loader := { l with index := l.index + 1, crc := crcBytes l.crc bs, cfgs := mapPut l.cfgs c cfg, seen := l.seen ++ [frameMark l c x]
                                     ldCount := if frameKind x = 7 then mapPut l.ldCount u (mapGet 0 l.ldCount u + 1) else l.ldCount }
          onIsle n (fun i => { i with loader := some l }) s

/-- END (R37, R38): the checks that relate frames, lowest frame first, then the count and the CRC.
DEDUCED: notes/assumptions/24.md. -/
def takeEnd (n : Nat) (l : Loader) (bs : List Byte) (x : Nat) (s : State) : State :=
  match l.seen.findIdx? (fun f => !frameFits l.cfgs (isleOf s n) s.hub.chipid l.addrMask l.rules l.seen f) with
  | some k => failLoad n (k + 1) s
  | none =>
    if bits x 0 252 ≠ 0 ∨ l.index + 1 ≠ l.nframes ∨ (crcBytes l.crc bs) ^^^ 0xFFFFFFFF ≠ l.wantCrc then failLoad n l.index s
    else endLoad n l s

/-- The loader of an isle takes its next frame, when it is of this kind or of none that may stand there (R36, R73).
DEDUCED: notes/assumptions/25.md. -/
def loadFrame (kind n : Nat) (s : State) : State :=
  match (isleOf s n).loader with
  | none => s
  | some l =>
    let i := isleOf s n
    let v : View := { ctx := i.ctx, ptb := i.t0ptb, page2m := i.t0page2m }
    match readFlat s none v (l.addr + 32 * l.index) 32 with
    | .wait s => s
    | .fault _ _ s => failLoad n l.index s
    | .ok (bs, _) s =>
      let x := ofBytes bs
      let k := frameKind x
      let known := k != 0 && (decide (k ≤ 7) || decide (0xE ≤ k))
      let placed := if l.index = 0 then k == 0xE else k != 0xE
      if !known || !placed then failLoad n l.index s
      else if k ≠ kind then s
      else if k = 0xE then
        match readHdr i l x with
        | some l => onIsle n (fun i => { i with loader := some { l with index := 1 } }) s
        | none => failLoad n 0 s
      else if k = 0xF then takeEnd n l bs x s
      else takeFrame n l bs x s

def execHdrFrame (isle : Nat) (s : State) := done (loadFrame 0xE isle s)
def execEiFrame (isle : Nat) (s : State) := done (loadFrame 1 isle s)
def execEpFrame (isle : Nat) (s : State) := done (loadFrame 2 isle s)
def execXsFrame (isle : Nat) (s : State) := done (loadFrame 3 isle s)
def execOpFrame (isle : Nat) (s : State) := done (loadFrame 4 isle s)
def execAgFrame (isle : Nat) (s : State) := done (loadFrame 5 isle s)
def execMuFrame (isle : Nat) (s : State) := done (loadFrame 6 isle s)
def execLdFrame (isle : Nat) (s : State) := done (loadFrame 7 isle s)
def execEndFrame (isle : Nat) (s : State) := done (loadFrame 0xF isle s)

end Sys2Proof.Machine
end

