-- ==== Sys2Proof/Machine/Trust.lean ====
section
/-! DEFINITION. The security function: the boot checks and the recovery load (R92), SPDM (R93), and key slots (R94). -/

namespace Sys2Proof.Machine

/-! ### Boot (R92) -/

/-- The first of the checks of R92 that a firmware image fails, 0 when it passes all; check 2 computes the digest. -/
def failingStep (image : List Byte) : Nat :=
  let digest := Config.sha384 image
  if !Config.imageHeaderOk image then 1
  else if !Config.ecdsaOk image digest then 3
  else if !Config.lmsOk image digest then 4
  else if Config.imageVersion image < Config.fusedVersion then 5
  else 0

/-- What the boot finds in slots A and B; B is checked when A fails (R92). -/
def bootSteps (t : Trust) : Nat × Nat := let a := failingStep t.slotA; (a, if a = 0 then 0 else failingStep t.slotB)

/-- BOOTSTAT after the security function has checked the slots (R92). -/
def bootStatus (r : Nat × Nat) : Word := if r.1 ≠ 0 ∧ r.2 ≠ 0 then BitVec.ofNat 64 (r.1 + 16 * r.2) else 0

/-- The security function boots (R92). -/
def firmwareBoot (s : State) : State :=
  let r := bootSteps s.trust
  onHost (fun h => { h with bootstat := bootStatus r }) { s with trust := { s.trust with booted := some r } }

/-- Both firmware slots failed at the boot (R92). -/
def bootFailed (s : State) : Bool := s.trust.booted.any (fun r => r.1 != 0 && r.2 != 0)

/-- A firmware slot has passed every check (R92). -/
def bootedGood (s : State) : Bool := s.trust.booted.any (fun r => r.1 == 0 || r.2 == 0)

/-- The recovery load, served while both slots fail, rewrites them, and the security function checks them again (R92).
DEDUCED: notes/assumptions/33.md. -/
def recoveryLoad (a b : List Byte) (s : State) : State :=
  if bootFailed s then firmwareBoot { s with trust := { s.trust with slotA := a, slotB := b } } else s

def execRecoveryLoad (a b : List Byte) (s : State) := done (recoveryLoad a b s)

/-! ### SPDM (R93) -/

/-- The security function is usable (R91). -/
def secReady (s : State) : Bool := bit s.host.readymap.toNat 44

/-- The base algorithms and the session cipher (R93). -/
def spdmAlgorithms : List String := ["ECDSA P-384", "SHA-384", "AES-256-GCM"]

/-- What a measurement covers (R93). -/
def measure (t : Trust) : Measurements :=
  { slotA := Config.sha384 t.slotA, slotB := Config.sha384 t.slotB, fuses := Config.fuseState, keySlots := t.keys.map (fun e => e.1) }

/-- The hash of the messages of the connection (R93). -/
def transcriptHash (msgs : List Word) : BitVec 384 := Config.sha384 (msgs.reverse.flatMap (fun w => toBytes 8 w.toNat))

/-- The two signatures over a hash (R92, R93). -/
def signBoth (h : BitVec 384) : Word × Word := (Config.ecdsaSign h, Config.lmsSign h)

/-- The response of a name to a connection with these messages: the identity certificate and every signed response carry both
signatures (R92, R93). PRESUMED, which responses are signed: notes/assumptions/33.md. -/
def spdmResponse (name : String) (body : Word) (msgs : List Word) (t : Trust) : SpdmResponse :=
  { name := name, body := body
    algorithms := if name = "ALGORITHMS" then spdmAlgorithms else []
    measured := if name = "MEASUREMENTS" then some (measure t) else none
    sigs := if name = "CERTIFICATE" then some (signBoth (transcriptHash [body]))
            else if ["CHALLENGE_AUTH", "MEASUREMENTS", "KEY_EXCHANGE_RSP"].contains name then some (signBoth (transcriptHash msgs))
            else none }

/-- Answers a request, of a connection that has these messages so far: the bytes of request and response are free values
(notes/assumptions/6.md), and the session takes its next state. PRESUMED: notes/assumptions/33.md. -/
def spdmAnswer (name : String) (next : Spdm) (msgs : List Word) (s : State) : State :=
  let msgs := Config.spdmBody (s.tick + 1) :: Config.spdmBody s.tick :: msgs
  let r := spdmResponse name (Config.spdmBody (s.tick + 1)) msgs s.trust
  { s with tick := s.tick + 2
           trust := { s.trust with spdm := next, transcript := msgs, responses := r :: s.trust.responses } }

/-- A request that is served in the states listed, while the security function is usable; out of place it is answered with ERROR
(R91 to R93). DEDUCED: notes/assumptions/33.md. -/
def spdmRequest (name : String) (from_ : List Spdm) (next : Spdm → Spdm) (s : State) : State :=
  if !secReady s then s
  else if from_.contains s.trust.spdm then spdmAnswer name (next s.trust.spdm) s.trust.transcript s
  else spdmAnswer "ERROR" s.trust.spdm s.trust.transcript s

/-- GET_VERSION is served at any time, and starts the connection again (R92, R93). -/
def execGetVersion (s : State) := done (spdmAnswer "VERSION" .version [] s)

def execGetCapabilities (s : State) := done (spdmRequest "CAPABILITIES" [.version] (fun _ => .capabilities) s)

def execNegotiateAlgorithms (s : State) := done (spdmRequest "ALGORITHMS" [.capabilities] (fun _ => .algorithms) s)

def execGetDigests (s : State) := done (spdmRequest "DIGESTS" [.algorithms, .session] id s)

def execGetCertificate (s : State) := done (spdmRequest "CERTIFICATE" [.algorithms, .session] id s)

def execChallenge (s : State) := done (spdmRequest "CHALLENGE_AUTH" [.algorithms] id s)

def execGetMeasurements (s : State) := done (spdmRequest "MEASUREMENTS" [.algorithms, .session] id s)

def execKeyExchange (s : State) := done (spdmRequest "KEY_EXCHANGE_RSP" [.algorithms] (fun _ => .keyed) s)

def execFinish (s : State) := done (spdmRequest "FINISH_RSP" [.keyed] (fun _ => .session) s)

def execEndSession (s : State) := done (spdmRequest "END_SESSION_ACK" [.session] (fun _ => .algorithms) s)

/-! ### Key slots (R94) -/

/-- A base-die packet that uses a key slot is in flight (R94). -/
def keyInFlight (s : State) (slot : Nat) : Bool := s.ms.packets.any (fun p => p.key == slot)

/-- The key writes that wait are made, in order, as far as no packet that uses their slot is in flight (R94). -/
def keyServe : List (Nat × BitVec 512) → State → State
  | [], s => { s with trust := { s.trust with keyWrites := [] } }
  | (slot, key) :: rest, s =>
    if keyInFlight s slot then { s with trust := { s.trust with keyWrites := (slot, key) :: rest } }
    else keyServe rest { s with trust := { s.trust with keys := mapPut s.trust.keys slot key } }

/-- Key writes that have waited are tried again. -/
def keyRetry (s : State) : State := if s.trust.keyWrites.isEmpty then s else keyServe s.trust.keyWrites s

/-- A key is written only inside an SPDM session, and once no packet that uses its slot is in flight; slot 0 is plaintext
(R94). -/
def writeKey (slot : Nat) (key : BitVec 512) (s : State) : State :=
  if s.trust.spdm ≠ .session ∨ !secReady s ∨ slot = 0 ∨ 64 ≤ slot then s
  else keyServe (s.trust.keyWrites ++ [(slot, key)]) s

def execKeySlotWrite (slot : Nat) (key : BitVec 512) (s : State) := done (writeKey slot key s)

end Sys2Proof.Machine
end

