-- ==== Sys2Proof/Machine/MemEvents.lean ====
section
/-! DEFINITION. The packets between LLC slices and base dies (R265) and the advance of logical clocks (R278). -/

namespace Sys2Proof.Machine

/-- The lines that a packet's granules touch. -/
def packetLines (pa granules : Nat) : List Nat := (upTo ((pa % 64 + 32 * granules + 63) / 64)).map (fun i => pa / 64 + i)

/-- A packet is one slice's: its bytes lie in one 64 KiB block, whose home is that slice. -/
def oneSlice (pa granules : Nat) : Bool := pa / 65536 == (pa + 32 * granules - 1) / 65536

/-- The bytes of a held line that a packet writes: whole granules for PWR, the dirty bytes for PWRM, inside the range. -/
def packetBytes (full : Bool) (pa granules line : Nat) (l : LlcLine) : List (Option Byte) :=
  (upTo 64).map (fun i =>
    let a := 64 * line + i
    if pa ≤ a ∧ a < pa + 32 * granules ∧ (full ∨ bit l.dirty i) then some (l.data.getD i 0) else none)

/-- The dirty bits of a line that a packet's range leaves. -/
def dirtyAfter (pa granules line : Nat) (l : LlcLine) : Nat :=
  (upTo 64).foldl (fun n i =>
    let a := 64 * line + i
    if bit l.dirty i ∧ ¬ (pa ≤ a ∧ a < pa + 32 * granules) then n + 2 ^ i else n) 0

/-- A write packet stores its bytes of one held line. -/
def writeBackPart (full : Bool) (pa granules : Nat) (s : State) (line : Nat) : State :=
  match mapFind s.ms.llc line with
  | none => s
  | some l =>
    let bs := packetBytes full pa granules line l
    let s := if partGranule bs then onMs (tallyBase pa 0x201) s else s
    let s := hbmPut s l.key (64 * line) bs
    onMs (fun m => { m with llc := mapPut m.llc line { l with dirty := dirtyAfter pa granules line l } }) s

/-- The key slot that the lines of a packet use: that of a line the slice holds, else `key`, that of the page it reads. -/
def packetKey (s : State) (lines : List Nat) (key : Nat) : Nat := (lines.findSome? (fun l => (mapFind s.ms.llc l).map (·.key))).getD key

/-- Whether a slice may issue a write packet: it holds the lines, under one key, and none has a tagged version (R371). -/
def mayWriteBack (s : State) (lines : List Nat) : Bool :=
  lines.all (fun l => (mapFind s.ms.versions l).isNone && match mapFind s.ms.llc l with
    | some x => x.key == packetKey s lines x.key
    | none => false)

/-- A slice issues a packet under its lowest free tag, and the base die performs it (R265). DEDUCED: notes/assumptions/48.md. -/
def basePacket (op : PacketOp) (pa : Nat) (g : PacketSpan) (s : State) : State :=
  let granules := g.granules
  let slice := homeSlice pa
  let stack := pa / Config.stackBytes
  let lines := packetLines pa granules
  match freeTag s slice stack with
  | none => s
  | some t =>
    if !hbmReady s pa 2 ∨ !oneSlice pa granules ∨ (op ≠ .prd ∧ !mayWriteBack s lines) then s
    else
      let key := packetKey s lines g.key
      let reply := if op = .prd then hbmBytes s key pa (32 * granules) else []
      let s := if op = .prd then hbmCount pa s else onMs (tallyBase pa 0x200) s
      let s := if op = .prd then s else lines.foldl (writeBackPart (op == .pwr) pa granules) s
      let p : Packet := { op := op, slice := slice, stack := stack, tag := t, pa := pa, granules := granules, key := key, reply := reply }
      onMs (fun m => { m with packets := m.packets ++ [p] }) s

def execBaseDiePacket (op : PacketOp) (pa : Nat) (granules : PacketSpan) (s : State) := done (basePacket op pa granules s)

/-- A reply frees its tag, and what waited for one goes on (R265). DEDUCED: notes/assumptions/48.md. -/
def baseReply (slice stack tag : Nat) (s : State) : State :=
  onMs (fun m => { m with packets := m.packets.filter (fun p => !(p.slice == slice && p.stack == stack && p.tag == tag)) }) s

def execBaseDieReply (slice stack tag : Nat) (s : State) := done (hostRetry (keyRetry (baseReply slice stack tag s)))

/-- A logical clock advances by 1, beside the advance that the clk themselves give it (R278: at least once per 16 clk). -/
def execPtsTick (agent : CacheAgent) (s : State) := done (raisePts (ptsOf s (some agent) + 1) s (some agent))

end Sys2Proof.Machine
end

