-- ==== Sys2Proof/Machine/Nydb.lean ====
section
/-! DEFINITION. The commands of nydb (R274, R312, R362, R378, R390). What a command prints is kept in State.nydb.out, the
values in the order that the meanings below give them. -/

namespace Sys2Proof.Machine

def onNydb (f : Nydb → Nydb) (s : State) : State := { s with nydb := f s.nydb }

/-- nydb prints. -/
def say (name : String) (xs : List Nat) (s : State) : State := onNydb (fun d => { d with out := (name, xs) :: d.out }) s

/-! ### Programs and launches -/

/-- `load`: places nyasm's output in tensor 0 of the context in WBCTX. -/
def execLoad (addr : Nat) (bytes : List Byte) (s : State) := done (hostArrive (.access addr (.write bytes)) s)

/-- `launch`: queues the launch record at the label; it waits for `run`, and nydb attaches to it (R274). -/
def nydbLaunch (addr : Nat) (s : State) : State :=
  if !s.host.winValid || !bit s.host.readymap.toNat 45 then s
  else
    match hostReadGo 3 addr 64 s with
    | .ok b s => hostLaunch b true s
    | .wait s => s
    | .fault c p s => hostFault c p addr false s

def execLaunch (addr : Nat) (s : State) := done (nydbLaunch addr s)

/-- The hub may dispatch what nydb has queued. -/
def letDispatch (s : State) : State :=
  onHub (fun h => { h with fifos := h.fifos.map (fun (p, q) => (p, q.map (fun l => { l with waitRun := false }))) }) s

/-- `run`: lets the hub dispatch what is queued. -/
def execRun (s : State) := done (letDispatch s)

/-! ### Going on (R274) -/

/-- A clk that a clock of the isle counts from or to, moved past the frozen clk. -/
def later (d : Nat) : Option Nat → Option Nat := Option.map (· + d)

/-- A pilot that `continue` resumes runs the word it was stopped before and does not stop there again (R378). -/
def letGo (p : Pilot) : Pilot := { p with held := false, steps := 0, passBreak := if p.held then some p.pc else p.passBreak }

/-- A core as it goes on: its outputs count what they send from here (R390). -/
def releaseCore (x : Core) : Core :=
  { x with pilot := letGo x.pilot, seen := x.sent.map (fun (k, q) => (k, q.length))
           elems := x.elems.map (fun (k, e) => (k, { e with allow := 0 })) }

/-- Frozen clk count toward no watchdog, and no wait of the core ends by them (R274). -/
def thawCore (d : Nat) (x : Core) : Core :=
  { x with elems := x.elems.map (fun (k, e) => (k, { e with tail := if e.tail = 0 then 0 else e.tail + d }))
           mt := { x.mt with t := x.mt.t.map (fun (k, r) => (k, { r with ready := r.ready + d }))
                             firing := x.mt.firing.map (fun f => { f with until_ := f.until_ + d }) }
           quiesce := { x.quiesce with restartAt := later d x.quiesce.restartAt }
           pilot := { x.pilot with wfeUntil := later d x.pilot.wfeUntil }
           lastMove := x.lastMove + d }

/-- nydb has stopped the isle, or a pilot of it. -/
def isStopped (s : State) (i : Isle) : Bool := i.frozen || (isleCores i).any (fun c => (coreOf s c).pilot.held)

/-- An isle goes on. -/
def releaseIsle (s : State) (n : Nat) : State :=
  let i := isleOf s n
  let d := if i.frozen then s.cycle - i.frozenAt else 0
  let s := (isleCores i).foldl (fun s c => onCore c (fun x => thawCore d (releaseCore x)) s) s
  onIsle n (fun i => { i with frozen := false, stopAt := i.stopAt + d, quiesceAt := later d i.quiesceAt }) s

/-- `continue`: every stopped pilot and the frozen fabric go on, on one clk; those of a saved launch go on when it resumes
(R274, R378), and what has been queued since `run` may be dispatched (R379). DESIGN CHOICE: notes/assumptions/66.md. -/
def nydbContinue (s : State) : State :=
  let s := letDispatch s
  let s := ((s.hub.isles.filter (fun (_, i) => isStopped s i)).map (fun e => e.1)).foldl releaseIsle s
  onHub (fun h => { h with saved := h.saved.map (fun k =>
    { k with isle := { k.isle with frozen := false }, cores := k.cores.map (fun x => { x with pilot := letGo x.pilot }) }) }) s

def execContinue (s : State) := done (nydbContinue s)

/-! ### Breakpoints -/

/-- Sets a breakpoint. DESIGN CHOICE: notes/assumptions/66.md. -/
def addBreak (b : Break) (s : State) : State := onNydb (fun d => { d with breaks := d.breaks ++ [b] }) s

/-- `break label`: the launch by its LAUNCHSEQ (R274). -/
def execBreakLabel (launch : Nat) (addr : Word) (s : State) := done (addBreak (.label launch addr) s)

/-- `break core.node wave n` (R312). -/
def execBreakWave (core e n : Nat) (s : State) := done (addBreak (.wave core e n) s)

/-- `break core.node.oj mark L` (R274). -/
def execBreakMark (core node ch level : Nat) (s : State) := done (addBreak (.mark core node ch level) s)

/-- `break core.kN v`: at once when the counter already has the value (R312). -/
def execBreakCounter (core k : Nat) (v : Word) (s : State) := done (hitCounter core k (addBreak (.counter core k v) s))

/-- `break core.node fault` (R362). -/
def execBreakFault (core node : Nat) (s : State) := done (addBreak (.fault core node) s)

/-! ### Stepping -/

/-- The isle of a core of an attached launch, frozen. -/
def freezeFor (c : Nat) (s : State) : State :=
  match (coreOf s c).isle with
  | some n => onIsle n (fun i => { i with frozen := true, frozenAt := if i.frozen then i.frozenAt else s.cycle }) s
  | none => s

/-- `step`: the pilot runs n words with the fabric frozen. -/
def execStep (core n : Nat) (s : State) :=
  done (if attachedAt s core then onPilot core (fun p => { p with steps := n }) (freezeFor core s) else s)

/-- `wave`: n waves enter the element with every other node frozen. -/
def execWaveCommand (core e n : Nat) (s : State) :=
  done (
    if attachedAt s core then
      onCore core (fun x => { x with elems := mapPut x.elems e { mapGet {} x.elems e with allow := n } }) (freezeFor core s)
    else s)

/-! ### Views -/

/-- A token as nydb shows it: kind, level, ABORT, RETRACT and POISON with LMASK, and its data. -/
def tokView (t : Tok) : List Nat := [t.control, t.data.toNat]

/-- An element: its counters, whether it has ended, and the waves since GO. -/
def elemView (x : Core) (e : Nat) : List Nat := let y : Elem := mapGet {} x.elems e; y.c ++ [ofBool y.ended, y.waves]

/-- An entry of a translation cache. -/
def entryView (e : TcEntry) : List Nat := [e.tid, e.page, e.pte.ppn, e.pte.cache, e.pte.key, e.pte.owner]

/-- An exact sum: its integer, its flags, and the values it holds (R50). -/
def sumView (x : X160) : List Nat := [x.n.toNat, ofBool x.pinf, ofBool x.ninf, ofBool x.nan, ofBool x.ovf, ofBool x.risk, x.count]

/-- The matrix engine's registers; of an accumulator its sums too. -/
def mtView (m : Mt) : List Nat :=
  m.t.flatMap (fun (k, r) => [k, ofBool r.full, r.pos, r.nscales, r.cursor, ofBool r.poison]) ++
  m.a.flatMap (fun (k, r) => [k, (match r.tag with | .empty => 0 | .acc => 1 | .full => 2), r.key.toNat, r.count] ++
    r.x.flatMap (fun (i, v) => i :: sumView v))

/-- An entry of a table in a form (R200): its fields, and in EXACT and TILE its sums. -/
def entryHa (form : Nat) (e : HaSlot) : List Nat :=
  [e.key.toNat, e.weight.toNat, e.wit.toNat, e.round.toNat, ofBool e.del, ofBool e.changed, ofBool e.poison] ++
  (if form = 0 then [] else sumView e.x) ++ e.tile.flatMap (fun (i, v) => i :: sumView v)

/-- What a table holds, slot by slot, and its runs. -/
def haView (h : Ha) : List Nat :=
  let form := (h.tab.geom.getD {}).form
  h.round.toNat :: h.tab.slots.flatMap (fun (k, e) => k :: entryHa form e) ++
  h.tab.runs.flatMap (fun r => [r.addr, r.bytes, r.entries.length] ++ r.entries.flatMap (entryHa form))

def hsView (h : Hs) : List Nat :=
  h.tab.slots.flatMap (fun (k, e) => [k, e.key.toNat, e.count, ofBool e.del, ofBool e.poison]) ++
  h.tab.runs.flatMap (fun r => [r.addr, r.bytes, r.entries.length] ++ r.entries.flatMap (fun e => [e.key.toNat, e.count]))

/-- A unit of a core by its slot (R77). -/
def opView (x : Core) (n : Nat) : List Nat :=
  if n < 8 then let a : Ag := mapGet {} x.ags n; [a.n, ofBool a.stopped, ofBool a.closed, a.issued]
  else if n < 10 then (mapGet ({} : Mp) x.mps n).tcache.flatMap entryView
  else if n < 12 then
    let m : Mj := mapGet {} x.mjs n
    let queued := fun (j : Nat) => (chanQ x (64 + n) j).length :: (chanQ x (64 + n) j).map (fun t => t.key.toNat)
    queued 0 ++ queued 1 ++ [m.buf.length, m.bufKey.toNat, ofBool m.bufValid, ofBool m.disorder, ofBool m.ended]
  else if n = 12 then haView x.haU
  else if n = 13 then hsView x.hsU
  else if n = 14 then mtView x.mt
  else if n < 17 then let r : Rd := mapGet {} x.rds n; r.acc.flatMap (fun (l, v) => [l, v]) ++ [r.nseg, ofBool r.poison, ofBool r.ended]
  else if n = 17 then x.sk.kept.flatMap (fun (a, b) => [a, b]) ++ [x.sk.tokens, ofBool x.sk.ended]
  else if n = 18 then x.sg.z.flatMap (fun (k, z) => [k, z.k.toNat, z.c.toNat]) ++ x.sg.weights
  else if n < 23 then (mapGet ({} : Wc) x.wcs n).part.flatMap tokView
  else if n < 31 then let m : Sm := mapGet {} x.sms n; [ofBool m.body, m.count, m.retired, ofBool m.ended]
  else [x.ex.n, x.ex.packing.length, x.ex.ready.length, ofBool x.ex.ended]

/-- A speculation ring of a core: its descriptor, sequence and snapshots (R370), and the lines that hold versions tagged by it, each with
its tags (R371, R378). -/
def specView (s : State) (c n : Nat) (r : Ring) : List Nat :=
  let tags := fun (l : VerLine) => (l.vers.filter (fun v => v.who == writerOf s c && v.ring == n)).map (·.index)
  [r.desc.toNat, r.seq, r.snaps.length] ++ r.snaps.flatMap (fun p => p.index :: (p.extents ++ p.cs ++ p.regs).map (·.toNat)) ++
  s.ms.versions.flatMap (fun (line, l) => if (tags l).isEmpty then [] else [64 * line, (tags l).length] ++ tags l)

/-- What `print` shows of an item (R390). -/
def printItem (s : State) (p : PrintItem) : List Nat :=
  match p with
  | .reg c n => [((coreOf s c).pilot.reg n).toNat]
  | .pc c => [(coreOf s c).pilot.pc.toNat]
  | .sys c n => [(sysValue { s with turn := c } n).toNat]
  | .spec c r => specView s c r (mapGet {} (coreOf s c).rings r)
  | .fpflags c => [(isleOfCore s c).fpflags.toNat]
  | .unit c n => if n < 64 then elemView (coreOf s c) n else opView (coreOf s c) (n - 64)

/-- `print`: registers, units, `spec` and `fpflags`. -/
def execPrint (items : List PrintItem) (s : State) := done (say "print" (items.flatMap (printItem s)) s)

/-- Doublewords from bytes. -/
def dwords : Nat → List Byte → List Nat
  | 0, _ => []
  | k + 1, b => ofBytes (b.take 8) :: dwords k (b.drop 8)

/-- `mem`: n doublewords of tensor 0 of the context in WBCTX; an access that fails reads all ones (R85).
PRESUMED: notes/assumptions/65.md. -/
def nydbMem (addr n : Nat) (s : State) : State :=
  match (if s.host.winValid then hostReadGo (8 * n / 64 + 2) addr (8 * n) s else Res.fault 0 0 s) with
  | .ok b s => say "mem" (dwords n b) s
  | .wait s => s
  | .fault _ _ s => say "mem" (List.replicate n (2 ^ 64 - 1)) s

def execMem (addr n : Nat) (s : State) := done (nydbMem addr n s)

/-- `chan`: the first n tokens, or all for 0, that the output has sent since GO or since the last hit. -/
def execChan (core node ch n : Nat) (s : State) :=
  let x := coreOf s core
  let sent := (mapGet [] x.sent (chanKey node ch)).reverse.drop (mapGet 0 x.seen (chanKey node ch))
  done (say "chan" ((if n = 0 then sent else sent.take n).flatMap tokView) s)

/-- `ha`: the table of the hash accumulator. -/
def execHa (core : Nat) (s : State) := done (say "ha" (haView (coreOf s core).haU) s)

/-- A posted entry as nydb shows it. -/
def postView (e : Nat × Posted) : List Nat :=
  let p := e.2.post
  [e.1, p.action, p.trigk, e.2.thresh, p.laddr, p.raddr, p.len, p.core, p.rk, p.rinc.toNat,
   (match e.2.state with | .armed => 0 | .ready _ => 1 | .inProgress _ => 2 | .parked _ => 3)]

/-- `trig`: the counters and the posted entries. -/
def execTrig (core : Nat) (s : State) :=
  let x := coreOf s core
  done (say "trig" (x.counters.toList.map (·.toNat) ++ x.posted.flatMap postView) s)

/-- The sections that a directory names, in its order, which is by class (R353): class, unit, DX, DY, length and bytes of each. -/
def readSections (addr : Nat) (d : List Byte) : Nat → State → Res (List Nat)
  | 0, s => .ok [] s
  | k + 1, s =>
    let o := d.length - 16 * (k + 1)
    let n := fieldAt d (o + 4) 0 32
    (hostReadGo (n / 64 + 2) (addr + fieldAt d (o + 8) 0 64) n s).andThen fun b s =>
      (readSections addr d k s).andThen fun rest s =>
        .ok ([fieldAt d o 12 8, fieldAt d o 20 6, fieldAt d o 0 6, fieldAt d o 6 6, n] ++ b.map (·.toNat) ++ rest) s

/-- `cocoon`: the header of the cocoon at an address and its sections by class (R353). -/
def nydbCocoon (addr : Nat) (s : State) : State :=
  if !s.host.winValid then say "cocoon" [] s
  else
    match hostReadGo 6 addr 256 s with
    | .ok h s =>
      let n := fieldAt h 12 0 32
      if fieldAt h 0 0 32 ≠ 0x434F434E then say "cocoon" [] s
      else
        (match (hostReadGo (16 * n / 64 + 2) (addr + 256) (16 * n) s).andThen (fun d s => readSections addr d n s) with
        | .ok d s => say "cocoon" (h.map (·.toNat) ++ d) s
        | .wait s => s
        | .fault _ _ s => say "cocoon" (h.map (·.toNat)) s)
    | .wait s => s
    | .fault _ _ s => say "cocoon" [] s

def execCocoon (addr : Nat) (s : State) := done (nydbCocoon addr s)

end Sys2Proof.Machine
end

