-- ==== Sys2Proof/Machine/Power.lean ====
section
/-! DEFINITION. Package reset (R15), readiness (R90, R91), power and temperature (R19, R95). -/

namespace Sys2Proof.Machine

/-! ### Reset -/

/-- PACKAGE_RESET: the package powers up as State.reset, with the firmware slots as they are, which the security function
checks (R15, R92). The host's memory and what it has already received, nydb, and the model's own fields stay.
DESIGN CHOICE: notes/assumptions/3.md. -/
def packageReset (s : State) : State :=
  let r := State.reset
  firmwareBoot { r with agenda := s.agenda, turn := s.turn, tick := s.tick, nydb := s.nydb
                        host := { r.host with msix := s.host.msix, replies := s.host.replies, mem := s.host.mem }
                        trust := { r.trust with slotA := s.trust.slotA, slotB := s.trust.slotB, responses := s.trust.responses } }

def execPackageReset (s : State) := done (packageReset s)

/-! ### Readiness -/

def readyBit (s : State) (b : Nat) : Bool := s.host.readymap.getLsbD b

/-- What must be ready before a bit sets (R91, R92, R95): a die has power, a quadrant waits for its die, LAUNCH for SEC, SEC for a
slot that passed its checks, and SEC, LAUNCH and MGMT stay clear while both slots fail. -/
def mayBeReady (s : State) (b : Nat) : Bool :=
  if b < 4 then !s.power.stopped
  else if b < 20 then readyBit s ((b - 4) / 4)
  else if b < 44 then true
  else if bootFailed s then false
  else if b = 44 then bootedGood s
  else if b = 45 then readyBit s 44
  else decide (b < 47)

/-- The security function has booted before a function that waits for it (R92). -/
def bootBefore (b : Nat) (s : State) : State := if 44 ≤ b ∧ s.trust.booted.isNone then firmwareBoot s else s

/-- READY_SET: the function is usable, READY is sent, and what has waited for it goes on (R87, R91). -/
def readySet (b : Nat) (s : State) : State :=
  let s := bootBefore b s
  if readyBit s b || !mayBeReady s b then s
  else
    hostRetry (sendUnsent (sendVector 2 (onHost (fun h => { h with readymap := h.readymap ||| ((1 : Word) <<< b)
                                                                   lost := h.lost &&& ~~~((1 : Word) <<< b) }) s)))

def execReadySet (bit : Nat) (s : State) := done (readySet bit s)

/-- The isle as it is saved at its commit point k, for the launch that isle i runs (R355), with the messages that the hub holds for it
(R300). -/
def commitIsle (i : Isle) (k : Cocoon) : Isle :=
  { k.isle with lrec := i.lrec, seq := i.seq, ctx := i.ctx, commit := i.commit, cocoonN := i.cocoonN, spillBase := i.spillBase
                srkey := i.srkey, ceil := i.ceil, t0ptb := i.t0ptb, t0page2m := i.t0page2m, heldMsgs := i.heldMsgs, attached := i.attached, frozen := false }

/-- A launch that lost its cores goes back to the head of its FIFO with its commit point, onto another rectangle (R355). -/
def requeueCommit (n : Nat) (k : Cocoon) (s : State) : State :=
  let i := isleOf s n
  let q : QLaunch := { lrec := i.lrec, seq := i.seq, met0 := true, met1 := true, saved := true, attached := i.attached }
  let s := onIsle n (fun i => { i with phase := .free, quiesceAt := none, loader := none, resume := none, reply := [], heldMsgs := [] }) s
  onHub (fun h => { h with saved := h.saved ++ [{ k with isle := commitIsle i k }], fifos := mapPut h.fifos i.lrec.prio (q :: mapGet [] h.fifos i.lrec.prio) }) s

/-- An isle whose context's state is lost (R91, R355). With its cores gone it cannot restore in place: its commit point is
queued, or its context ends and it with it. The record's CODE and VALUE are free (notes/assumptions/6.md). -/
def loseIsle (cores : Bool) (s : State) (n : Nat) : State :=
  let i := isleOf s n
  let (v, s) := freeVal s
  let stop := fun (s : State) => severFrom n (severInto n s)
  let ending : Bool := match i.phase with | .ending _ => true | _ => false
  let kept := if cores ∧ ¬ ending then (match i.commit with
    | some a => (match findCocoon n a.toNat s with | .ok (some k) s => some (k, s) | _ => none)
    | none => none) else none
  match kept with
  | some (k, s) =>
    requeueCommit n k (stop (svcEmit { code := v.toNat % 256, source := 12, ctx := i.ctx, core := leadOf i, tag := i.lrec.tag, value := v } s))
  | none =>
    let s := unrecoverable n (leadOf i) (v.toNat % 256) 12 v (if cores then onIsle n (fun i => { i with commit := none }) s else s)
    match (isleOf s n).phase with
    | .ending status => if cores then completeEnd n status (stop s) else s
    | _ => s

/-- The isles that hold cores a test picks, or whose page table it picks. DEDUCED: notes/assumptions/62.md. -/
def lostIsles (p : Isle → Bool) (s : State) : List Nat :=
  (s.hub.isles.filter (fun (_, i) => phaseHolds i.phase && p i)).map (fun e => e.1)

/-- A core lies in quadrant q of die d (R90). -/
def inQuadrant (d q c : Nat) : Bool := c / 1600 == d && c % 40 / 20 + 2 * (c % 1600 / 800) == q

/-- What the failure of a function loses (R91, R355): the isles on a die or quadrant, those whose tensor 0 has its table on
a stack. DEDUCED: notes/assumptions/62.md. -/
def loseFunction (b : Nat) (s : State) : State :=
  let drop := fun (cores : Bool) (p : Isle → Bool) => (lostIsles p s).foldl (loseIsle cores) s
  if b < 4 then drop true (fun i => i.die == b)
  else if b < 20 then drop true (fun i => (isleCores i).any (inQuadrant ((b - 4) / 4) ((b - 4) % 4)))
  else if b < 32 then drop false (fun i => i.t0ptb / Config.stackBytes == b - 20)
  else s

/-- The bits that a failure clears: a die takes its quadrants with it. -/
def clearMask (b : Nat) : Word := if b < 4 then (1 <<< b) ||| (0xF <<< (4 + 4 * b)) else 1 <<< b

/-- The messages of this chip that left by a port that fails, and have no answer, end (R300). -/
def endMessages (port : Nat) (s : State) : State :=
  (s.ms.far.filter (fun r => r.answer.isNone && bits (routeEntry s r.chip) 0 4 == port)).foldl (fun s r => answerFar r.id .ended s) s

/-- READY_CLEAR: a function fails; READY and ERROR are sent (R91). -/
def readyClear (b : Nat) (s : State) : State :=
  if !readyBit s b then s
  else
    let m := clearMask b
    let s := onHost (fun h => { h with readymap := h.readymap &&& ~~~m, lost := h.lost ||| (h.readymap &&& m) }) s
    let s := if 32 ≤ b ∧ b < 44 then endMessages (b - 32) s else s
    loseFunction b (sendVector 3 (sendVector 2 (hostRetry s)))

def execReadyClear (bit : Nat) (s : State) := done (readyClear bit s)

/-! ### Power and temperature -/

/-- One ACLK step of 25 MHz between 400 and 800 MHz (R19). DEDUCED: notes/assumptions/63.md. -/
def aclkStep (p : Power) : Nat :=
  if p.stopped then p.aclk
  else if 3200 < p.watts ∨ 95 ≤ p.celsius then max 400 (p.aclk - 25)
  else min 800 (p.aclk + 25)

/-- The thermal trip (R95): ACLK stops, the compute dies lose power with all they hold, and the contexts are lost. The
hub keeps its power and sends POWER and ERROR (notes/assumptions/3.md). -/
def thermalTrip (s : State) : State :=
  let r := State.reset
  let ms := { s.ms with stamps := [], guests := [], llcPts := [], vclock := [], dieMsgs := [], versions := [], srSeq := [], exSlots := [], llc := []
                        packets := [], outbound := [], inbound := [], unsent := [], far := [] }
  let s := { s with cores := r.cores, ms := ms, power := { s.power with aclk := 0, stopped := true } }
  let s := onHub (fun h => { h with fifos := [], arrived := [], isles := [], saved := [], lastCtx := [] }) s
  let s := sendVector 3 (sendVector 4 s)
  if s.host.readymap &&& 0xFFFFF = 0 then s
  else sendVector 2 (onHost (fun h => { h with readymap := h.readymap &&& ~~~0xFFFFF, lost := h.lost ||| (h.readymap &&& 0xFFFFF) }) s)

def execThermalTrip (s : State) := done (thermalTrip s)

/-- POWER_SAMPLE (R95): the management function samples, while it is usable (R91), and makes at most one ACLK step; POWER while
ACLK is below 800 MHz or the case is at or above 95 °C (R87). The hardware trips without it. DEDUCED: notes/assumptions/63.md. -/
def powerSample (watts celsius : Nat) (s : State) : State :=
  if 105 ≤ celsius ∧ ¬ s.power.stopped then thermalTrip { s with power := { s.power with watts := watts, celsius := celsius } }
  else if !readyBit s 46 then s
  else
  let p := { s.power with watts := watts, celsius := celsius }
  let s := { s with power := { p with aclk := aclkStep p } }
  let s := if s.power.aclk ≠ p.aclk then tallyHub 0x306 s else s
  if s.power.stopped then s
  else if s.power.aclk < 800 ∨ 95 ≤ celsius then sendVector 4 s
  else s

def execPowerSample (watts celsius : Nat) (s : State) := done (powerSample watts celsius s)

end Sys2Proof.Machine
end

