-- ==== Sys2Proof/Machine/Retire.lean ====
section
/-! DEFINITION. Retiring work: STEPCMT and STEPABT (R364 to R366), LSUPD (R367 to R369), the speculation rings of SPMARK and
SPACC (R370 to R373), and event counters (R374, R375). -/

namespace Sys2Proof.Machine

/-! ### Writes of an instruction to tensor 0 -/

/-- Writes bytes of tensor 0 for the pilot whose turn it is, all or none; a fault carries the address. -/
def pilotWrite (va : Nat) (b : List Byte) (s : State) : Res Unit :=
  match writeFlat s (some (.pilot s.turn)) (viewOf s s.turn) va (b.map some) false with
  | .ok _ s => .ok () (onPilot s.turn (fun p => { p with dcache := [] }) s)
  | .fault cause _ s => .fault cause va s
  | .wait s => .wait s

/-- Reads bytes of tensor 0 at their home for the pilot whose turn it is; lost data traps POISON (R155). -/
def pilotHome (va n : Nat) (s : State) : Res (List Byte) :=
  match readFlat s (some (.pilot s.turn)) (viewOf s s.turn) va n with
  | .ok (b, bad) s => if bad then .fault causePoison va s else .ok b s
  | .fault cause _ s => .fault cause va s
  | .wait s => .wait s

/-- A fault of an access that starts at its value, with its service record (R345). -/
def recorded {α : Type} (write : Bool) (r : Res α) : Res α :=
  match r with
  | .fault cause v s =>
    svcFault s.turn { code := cause, val := BitVec.ofNat 64 v, page := v / pageSize (viewOf s s.turn).page2m, write := write } s
  | r => r

/-- Runs an instruction's writes in order and goes on; where one faults or waits, none has happened (R151). -/
def allOrNone (s0 : State) (r : Res Unit) (k : State → State) : State :=
  match r with
  | .ok _ s => k s
  | .fault cause v _ => onRes (recorded true (.fault cause v s0)) (fun (_ : Unit) s => s)
  | .wait _ => s0

/-- An instruction's writes end as a release at system scope: it goes on once those to other chips are performed (R365, R369, R373). -/
def endRelease (s : State) : State :=
  if farSettled s (.pilot s.turn) then advance s else onPilot s.turn (fun p => { p with stage := .waitDone }) s

/-- Runs an instruction, or only ends it when its effect has taken place. -/
def unlessDone (k : State → State) (s : State) : State := if (pilot s).stage = .waitDone then endRelease s else k s

/-- gd takes its value as the instruction ends. -/
def endWith (gd : Reg) (v : Word) (s : State) : State := endRelease (setReg gd v s)

/-! ### The step record (R364) -/

/-- A step record. -/
structure StepRec where
  nsrc : Nat
  ntid : Nat
  srcs : Nat
  tids : Nat
  step : Nat
  ck : Nat
  cken : Bool
  deriving DecidableEq, Repr

/-- The step record; none where it breaks its map. -/
def parseStep (b : List Byte) : Option StepRec :=
  let r : StepRec := { nsrc := fieldAt b 0 0 16, ntid := fieldAt b 2 0 16, srcs := fieldAt b 8 0 64, tids := fieldAt b 16 0 64
                       step := fieldAt b 24 0 64, ck := fieldAt b 40 0 6, cken := fieldAt b 40 6 1 = 1 }
  let reserved := fieldAt b 4 0 32 + fieldAt b 33 0 56 + fieldAt b 40 7 1 + fieldAt b 41 0 184
  if 1 ≤ r.nsrc ∧ r.nsrc ≤ 256 ∧ 1 ≤ r.ntid ∧ r.ntid ≤ 4096 ∧ reserved = 0 ∧ r.srcs % 32 = 0 ∧ fieldAt b 32 0 8 ≤ 3 then some r else none

/-- A source entry; none where it breaks its map. -/
def parseSrc (b : List Byte) : Option StepSrc :=
  if fieldAt b 0 26 6 + fieldAt b 4 0 32 + fieldAt b 24 0 64 = 0 then
    some { core := fieldAt b 0 0 13, nfk := fieldAt b 0 13 6, segk := fieldAt b 0 19 6, nfen := fieldAt b 0 25 1 = 1, thr := fieldAt b 8 0 64
           base := fieldAt b 16 0 64 }
  else none

/-- Reads source entries; an entry that breaks its map is a bad record. -/
def readSources (ga : Word) : Nat → Nat → State → Res (List StepSrc)
  | 0, _, s => .ok [] s
  | n + 1, a, s =>
    (pilotRecord s a 32).andThen fun b s =>
      match parseSrc b with
      | none => .fault causeCfgbad ga.toNat s
      | some x => (readSources ga n (a + 32) s).andThen fun xs s => .ok (x :: xs) s

/-- What STEPCMT and STEPABT read: the record, which lies in tensor 0, its sources, and for STEPCMT the tensors to flip.
DEDUCED: notes/assumptions/44.md, 86.md. -/
def readStep (ga : Word) (commit : Bool) (s : State) : Res (StepRec × List StepSrc × List Nat) :=
  if inWindow ga.toNat then .fault causeCfgbad ga.toNat s
  else (pilotRecord s ga.toNat 64).andThen fun b s =>
    match parseStep b with
    | none => .fault causeCfgbad ga.toNat s
    | some r =>
      (readSources ga r.nsrc r.srcs s).andThen fun xs s =>
        match xs.find? (fun x => decide (Config.cores ≤ x.core) || !coreHeld s x.core (viewOf s s.turn).ctx) with
        | some x => .fault causePerm x.core s
        | none =>
          (if commit then pilotWords r.ntid r.tids s else Res.ok [] s).andThen fun ts s =>
            if ts.any (fun t => decide (2 ^ 20 ≤ t)) then .fault causeCfgbad ga.toNat s else .ok (r, xs, ts) s

/-- Every listed tensor has two banks (R365). DEDUCED: notes/assumptions/44.md. -/
def checkBanks : List Nat → State → Res Unit
  | [], s => .ok () s
  | t :: ts, s =>
    (readTensor s (some (.pilot s.turn)) s.turn t).andThen fun r s => if r.twobank then checkBanks ts s else .fault causeCfgbad t s

/-- A counter of a source, which a drained or saved launch of the context may hold (R296, R365). -/
def sourceCount (s : State) (c k : Nat) : Nat := (heldCounter s c (viewOf s s.turn).ctx k).toNat

/-- Every source has reached its SEGTHR. -/
def sourcesReady (s : State) (xs : List StepSrc) : Bool := xs.all (fun x => decide (x.thr ≤ sourceCount s x.core x.segk))

/-- Some source has counted a non-finite value. -/
def sourcesBad (s : State) (xs : List StepSrc) : Bool := xs.any (fun x => x.nfen && sourceCount s x.core x.nfk != x.base)

/-- Flips BANKSEL in the records of tensors (R366). -/
def flipRecords : List Nat → State → Res Unit
  | [], s => .ok () s
  | t :: ts, s =>
    let a := (isleOfCore s s.turn).ttbase.toNat + 128 * t + 4
    (pilotHome a 1 s).andThen fun b s =>
      (pilotWrite a (toBytes 1 (ofBytes b ^^^ 4)) s).andThen fun _ s => flipRecords ts s

/-- A core's copies of tensor records with the banks of some of them flipped, those of its copies in progress too; clean lines of a
window that came from the old bank are gone (R28, R263, R366). -/
def flipCore (ts : List Nat) (x : Core) : Core :=
  let flip := fun (t : TensorRec) => if ts.contains t.tid then { t with bank := !t.bank } else t
  let lines := fun (w : Stash) => if ts.contains w.tensor.tid then w.lines.filter (fun e => !e.2.dirty.isEmpty) else w.lines
  { x with tensors := x.tensors.map (fun (k, t) => (k, flip t))
           jobs := x.jobs.map (fun (k, j) => (k, { j with stensor := flip j.stensor, dtensor := flip j.dtensor }))
           stashes := x.stashes.map (fun (k, w) => (k, { w with tensor := flip w.tensor, lines := lines w })) }

/-- Every unit of the context that keeps a copy of a flipped record switches with it, those of saved isles too
(R28, R366). -/
def flipCopies (ts : List Nat) (s : State) : State :=
  let me := isleOfCore s s.turn
  let same := fun (i : Isle) => i.ctx == me.ctx && i.ttbase == me.ttbase
  let saved := fun (k : Cocoon) => if same k.isle then { k with cores := k.cores.map (flipCore ts) } else k
  let s := { s with cores := s.cores.map (fun (k, x) => (k, if same (x.isle.elim ({} : Isle) (isleOf s)) then flipCore ts x else x)) }
  onHub (fun h => { h with saved := h.saved.map saved, cocoons := h.cocoons.map saved }) s

/-- LAST and STEP are written as one store (R365). -/
def putOutcome (ga : Word) (step last : Nat) (s : State) : Res Unit := pilotWrite (ga.toNat + 24) (toBytes 8 step ++ toBytes 8 last) s

/-- Each tensor once. -/
def distinctTids (ts : List Nat) : List Nat := ts.foldl (fun acc t => if acc.contains t then acc else acc ++ [t]) []

/-- The outcome of a step whose sources have all closed. -/
def settleStep (gd : Reg) (ga : Word) (step ck : Nat) (cken : Bool) (xs : List StepSrc) (ts : List Nat) (s : State) : State :=
  if sourcesBad s xs then allOrNone s (putOutcome ga step 2 s) (endWith gd 1)
  else
    let flips := ts.filter (fun t => (ts.filter (· == t)).length % 2 == 1)
    allOrNone s ((flipRecords (distinctTids flips) s).andThen fun _ s => putOutcome ga ((step + 1) % 2 ^ 64) 1 s) fun s =>
      endWith gd 0 (raiseIf cken s.turn ck 1 (flipCopies flips s))

/-- The pilot waits for the sources of the record that it has read, and then settles the step. -/
def stepWait (settle : Nat → Nat → Bool → List StepSrc → List Nat → State → State) (s : State) : State :=
  match (pilot s).stage with
  | .step n ck cken xs ts => if sourcesReady s xs then afterRelease (acquire s.turn s) (settle n ck cken xs ts) else s
  | _ => s

/-- The record is read and checked once; from then on the pilot waits with what it read (R365). -/
def beginStep (ga : Word) (commit : Bool) (s : State) : Res Unit :=
  if (match (pilot s).stage with | .step _ _ _ _ _ => true | _ => false) then .ok () s
  else
    (readStep ga commit s).andThen fun (r, xs, ts) s =>
      (checkBanks ts s).andThen fun _ s => .ok () (onPilot s.turn (fun p => { p with stage := .step r.step r.ck r.cken xs ts }) s)

/-- STEPCMT (R365). -/
def execStepcmt (gd ga : Reg) (s : State) :=
  let a := reg s ga
  done (
    if a.toNat % 64 ≠ 0 then trapAt causeAlign a s
    else unlessDone (fun s => onRes (beginStep a true s) fun _ s => stepWait (settleStep gd a) s) s)

/-- STEPABT (R365). -/
def execStepabt (ga : Reg) (s : State) :=
  let a := reg s ga
  let settle := fun (step _ : Nat) (_ : Bool) (_ : List StepSrc) (_ : List Nat) (s : State) => allOrNone s (putOutcome a step 3 s) endRelease
  done (
    if a.toNat % 64 ≠ 0 then trapAt causeAlign a s
    else unlessDone (fun s => onRes (beginStep a false s) fun _ s => stepWait settle s) s)

/-! ### The loss scale (R367 to R369) -/

/-- A loss-scale record. -/
structure LossRec where
  scode : Nat
  floor : Nat
  ceil : Nat
  grown : Nat
  floormax : Nat
  clean : Nat
  floorrun : Nat
  steps : Nat
  skipped : Nat
  nlayer : Nat
  layers : Nat
  deriving DecidableEq, Repr

/-- The loss-scale record; none where it breaks its map. -/
def parseLoss (b : List Byte) : Option LossRec :=
  let r : LossRec := { scode := fieldAt b 0 0 8, floor := fieldAt b 1 0 8, ceil := fieldAt b 2 0 8, grown := fieldAt b 4 0 16
                       floormax := fieldAt b 6 0 16, clean := fieldAt b 8 0 32, floorrun := fieldAt b 12 0 16, steps := fieldAt b 16 0 64
                       skipped := fieldAt b 24 0 64, nlayer := fieldAt b 32 0 16, layers := fieldAt b 40 0 64 }
  let reserved := fieldAt b 3 0 8 + fieldAt b 14 0 16 + fieldAt b 34 0 48 + fieldAt b 48 0 128
  if reserved = 0 ∧ r.floor ≤ r.scode ∧ r.scode ≤ r.ceil ∧ 1 ≤ r.grown ∧ 1 ≤ r.floormax ∧ r.nlayer ≤ 4096 then some r else none

def LossRec.bytes (r : LossRec) : List Byte :=
  toBytes 1 r.scode ++ toBytes 1 r.floor ++ toBytes 1 r.ceil ++ toBytes 1 0 ++ toBytes 2 r.grown ++ toBytes 2 r.floormax ++ toBytes 4 r.clean ++
  toBytes 2 r.floorrun ++ toBytes 2 0 ++ toBytes 8 r.steps ++ toBytes 8 r.skipped ++ toBytes 2 r.nlayer ++ toBytes 6 0 ++ toBytes 8 r.layers ++
  toBytes 16 0

/-- The record after a clean step (R369). -/
def LossRec.clear (r : LossRec) : LossRec :=
  let c := if r.clean < r.grown then r.clean + 1 else r.clean
  let r := { r with steps := (r.steps + 1) % 2 ^ 64, floorrun := 0, clean := c }
  if c = r.grown ∧ r.scode < r.ceil then { r with scode := r.scode + 1, clean := 0 } else r

/-- The record after a non-finite step (R369). -/
def LossRec.skip (r : LossRec) : LossRec :=
  let r := { r with skipped := (r.skipped + 1) % 2 ^ 64, clean := 0 }
  if r.floor < r.scode then { r with scode := r.scode - 1, floorrun := 0 } else { r with floorrun := min (r.floorrun + 1) 0xFFFF }

/-- A layer entry. -/
structure Layer where
  stats : Nat
  fmt : Nat
  dgrad : Bool
  narrow : Nat
  deriving DecidableEq, Repr

/-- A layer entry; none where it breaks its map. DEDUCED: notes/assumptions/45.md. -/
def parseLayer (b : List Byte) : Option Layer :=
  let l : Layer := { stats := fieldAt b 0 0 64, fmt := fieldAt b 8 0 4, dgrad := fieldAt b 8 4 1 = 1, narrow := fieldAt b 9 0 8 }
  if fieldAt b 8 5 3 + fieldAt b 10 0 48 = 0 ∧ (l.fmt = 7 ∨ l.fmt = 9 ∨ l.fmt = 10) ∧ l.stats % 64 = 0 then some l else none

def Layer.bytes (l : Layer) : List Byte := toBytes 8 l.stats ++ toBytes 1 (l.fmt + 16 * ofBool l.dgrad) ++ toBytes 1 l.narrow ++ toBytes 6 0

/-- The width order of the formats: E4M3, E5M2, BF16 (R368). -/
def fmtRank (f : Nat) : Nat := if f = 9 then 0 else if f = 10 then 1 else 2

/-- The format that statistics choose, from BIN1 to BIN62; none when they hold no value (R368). -/
def chooseFmt (bins : List Nat) : Option Nat :=
  let n := bins.foldl (· + ·) 0
  if n = 0 then none
  else
    let bhi := ((bins.zipIdx 1).filter (fun (v, _) => v != 0)).foldl (fun m (_, b) => max m b) 0
    let blo := ((upTo 62).find? (fun b => n < 1024 * (bins.take (b + 1)).foldl (· + ·) 0)).getD 0 + 1
    let span := bhi + 1 - blo
    some (if span ≤ 16 then 9 else if span ≤ 30 then 10 else 7)

/-- A layer after a clean step with its statistics (R368). -/
def Layer.update (l : Layer) (bins : List Nat) (nonfin : Nat) : Layer :=
  if l.dgrad ∨ nonfin ≠ 0 then l
  else
    match chooseFmt bins with
    | none => l
    | some f =>
      if fmtRank l.fmt < fmtRank f then { l with fmt := f, narrow := 0 }
      else if f = l.fmt then { l with narrow := 0 }
      else if l.narrow + 1 = 8 then { l with fmt := f, narrow := 0 }
      else { l with narrow := (l.narrow + 1) % 256 }

/-- Reads the layer entries with their statistics, and gives their new bytes in order.
DEDUCED: notes/assumptions/45.md. -/
def readLayers (ga : Word) : Nat → Nat → State → Res (List Byte)
  | 0, _, s => .ok [] s
  | n + 1, a, s =>
    (pilotRecord s a 16).andThen fun b s =>
      match parseLayer b with
      | none => .fault causeCfgbad ga.toNat s
      | some l =>
        (pilotRecord s l.stats 264).andThen fun st s =>
          let bins := (upTo 62).map (fun i => fieldAt st (4 * (i + 1)) 0 32)
          (readLayers ga n (a + 16) s).andThen fun rest s => .ok ((l.update bins (fieldAt st 260 0 32)).bytes ++ rest) s

/-- The record and layers are written, gd takes the scale code, and LSFLOOR follows a last step at the floor (R369). -/
def settleLoss (gd : Reg) (ga : Word) (bad : Bool) (r : LossRec) (ls : List Byte) (s : State) : State :=
  allOrNone s ((pilotWrite ga.toNat r.bytes s).andThen fun _ s => if ls.isEmpty then .ok () s else pilotWrite r.layers ls s) fun s =>
    if bad ∧ r.floormax ≤ r.floorrun then trapAt causeLsfloor ga (setReg gd (BitVec.ofNat 64 r.scode) s)
    else endWith gd (BitVec.ofNat 64 r.scode) s

/-- The record that LSUPD updates, in tensor 0: at its home slice, after every earlier store, and once no copy holds its bytes
(R157, R262, R367). -/
def lossBytes (a : Nat) (s : State) : Res (List Byte) :=
  if inWindow a then .fault causeCfgbad a s
  else if scoreboardHit (coreOf s s.turn) true a 64 then .wait s
  else recorded false (pilotHome a 64 s)

/-- LSUPD (R369). -/
def execLsupd (gd ga gb : Reg) (s : State) :=
  let a := reg s ga
  let o := (reg s gb).toNat
  done (
    if a.toNat % 64 ≠ 0 then trapAt causeAlign a s
    else unlessDone (fun s => afterRelease s fun s =>
      onRes (lossBytes a.toNat s) fun b s =>
        if fieldAt b 40 0 64 % 16 ≠ 0 then trapAt causeAlign a s
        else
          match parseLoss b with
          | none => trapAt causeCfgbad a s
          | some r =>
            if 1 < o then trapAt causeCfgbad a s
            else if o = 1 then settleLoss gd a true r.skip [] s
            else onRes (readLayers a r.nlayer r.layers s) fun ls s => settleLoss gd a false r.clear ls s) s)

/-! ### Speculation rings (R370 to R373) -/

/-- The descriptor of a ring. -/
structure RingDesc where
  rids : List Nat
  zs : List Nat
  regs : List Nat
  rgns : List (Nat × Nat)
  deriving DecidableEq, Repr

/-- Entries at or above a count are 0. -/
def tailZero (n : Nat) (xs : List Nat) : Bool := (xs.drop n).all (· == 0)

/-- The descriptor; none where it breaks its map. -/
def parseRing (b : List Byte) : Option RingDesc :=
  let nrel := fieldAt b 0 0 4
  let nz := fieldAt b 0 4 4
  let nreg := fieldAt b 1 0 4
  let nrgn := fieldAt b 1 4 4
  let rids := (upTo 4).map (fun i => fieldAt b (8 + 2 * i) 0 16)
  let zs := (upTo 4).map (fun i => fieldAt b (16 + i) 0 8)
  let regs := (upTo 8).map (fun i => fieldAt b (20 + i) 0 8)
  let rgns := (upTo 4).map (fun i => (fieldAt b (32 + 16 * i) 0 64, fieldAt b (40 + 16 * i) 0 64))
  let rgnOk := fun (r : Nat × Nat) => r.1 % 64 == 0 && r.2 % 64 == 0 && r.2 != 0 && decide (r.1 + r.2 ≤ Config.tensor0End)
  if nrel ≤ 4 ∧ nz ≤ 4 ∧ nreg ≤ 8 ∧ nrgn ≤ 4 ∧ fieldAt b 2 0 48 + fieldAt b 28 0 32 + fieldAt b 96 0 256 = 0 ∧ tailZero nrel rids ∧ tailZero nz zs ∧
      tailZero nreg regs ∧ (rgns.drop nrgn).all (· == (0, 0)) ∧ (rgns.take nrgn).all rgnOk ∧ (rids.take nrel).all (fun r => decide (r < 4096)) ∧
      (zs.take nz).all (fun z => decide (z < 64)) ∧ (regs.take nreg).all (fun r => decide (1 ≤ r) && decide (r < 32)) then
    some { rids := rids.take nrel, zs := zs.take nz, regs := regs.take nreg, rgns := rgns.take nrgn }
  else none

/-- The pieces of a region, page by page, each with its chip: every page must have CACHE 00 (R370).
DEDUCED: notes/assumptions/46.md. -/
def regionPages (base len : Nat) : Nat → State → Res (List (Nat × Nat × Nat))
  | 0, s => .ok [] s
  | n + 1, s =>
    let v := viewOf s s.turn
    let ps := pageSize v.page2m
    let p := base / ps + n
    let lo := max base (p * ps)
    let hi := min (base + len) ((p + 1) * ps)
    let r := walk s v.die v.page2m v.ptb p
    let s := walkReads v.die v.ptb p s
    match r with
    | .error .clear => svcFault s.turn { code := causePagefault, val := BitVec.ofNat 64 (p * ps), page := p, write := true } s
    | .error .lost => .fault causeMdpoison (p * ps) s
    | .error .wait => .wait s
    | .ok e =>
      if e.cache ≠ 0 then .fault causePerm (p * ps) s
      else (regionPages base len n s).andThen fun rs s => .ok (rs ++ [(e.home, e.ppn * 65536 + (lo - p * ps), hi - lo)]) s

/-- The pieces of every region. DEDUCED: notes/assumptions/46.md. -/
def regionsOf : List (Nat × Nat) → State → Res (List (Nat × Nat × Nat))
  | [], s => .ok [] s
  | (b, n) :: rest, s =>
    let ps := pageSize (viewOf s s.turn).page2m
    (regionPages b n ((b + n - 1) / ps - b / ps + 1) s).andThen fun x s => (regionsOf rest s).andThen fun xs s => .ok (x ++ xs) s

/-- The address of EXTENT in a relation record (R29). -/
def extentAddr (s : State) (rid : Nat) : Nat := (isleOfCore s s.turn).rtbase.toNat + 64 * rid + 24

/-- Reads EXTENT of relations at their home; an identifier past RTLEN raises PERM, one that
differs from the record's CFGBAD (R22). -/
def readExtents : List Nat → State → Res (List Word)
  | [], s => .ok [] s
  | r :: rs, s =>
    (readIndexed s none s.turn (isleOfCore s s.turn).rtbase.toNat (isleOfCore s s.turn).rtlen.toNat 64 r
        (fun n b => if fieldAt b 0 0 12 = n then some () else none)).andThen fun _ s =>
      (recorded false (pilotHome (extentAddr s r) 8 s)).andThen fun b s =>
        (readExtents rs s).andThen fun xs s => .ok (BitVec.ofNat 64 (ofBytes b) :: xs) s

/-- Writes EXTENT of relations. -/
def writeExtents : List (Nat × Word) → State → Res Unit
  | [], s => .ok () s
  | (r, v) :: rs, s => (pilotWrite (extentAddr s r) (toBytes 8 v.toNat) s).andThen fun _ s => writeExtents rs s

/-- Versions of ring r of the core whose turn it is are settled on the other chips of its regions (R252, R371). -/
def settleFar (r below from_ : Nat) : List Nat → State → Res Unit
  | [], s => .ok () s
  | h :: hs, s =>
    let m : ChipMsg := { chip := h, ctx := (viewOf s s.turn).ctx, body := .settle r below from_ }
    (farAsk s (some (.pilot s.turn)) 0 m).andThen fun _ s => settleFar r below from_ hs s

/-- The other chips that hold lines of a ring's regions. -/
def farChips (s : State) (g : Ring) : List Nat := distinctTids ((g.regions.map (·.1)).filter (· != s.hub.chipid))

/-- Versions of ring r of the core whose turn it is are settled on this chip; its pilot sees none of the old bytes. -/
def settleOwn (r below from_ : Nat) (s : State) : State :=
  let c := s.turn
  onPilot c (fun p => { p with dcache := [] }) (settleVersions (writerOf s c) r below from_ (some (.pilot c)) s)

/-- A ring of the core whose turn it is. -/
def ringOf (s : State) (r : Nat) : Ring := mapGet {} (coreOf s s.turn).rings r

/-- Sets a ring. -/
def putRing (r : Nat) (g : Ring) (s : State) : State := onCore s.turn (fun x => { x with rings := mapPut x.rings r g }) s

/-- The ring with a descriptor that is latched or now read and checked. -/
def latchRing (a : Word) (g : Ring) (s : State) : Res Ring :=
  if g.snaps.isEmpty then
    (pilotRecord s a.toNat 128).andThen fun b s =>
      match parseRing b with
      | none => .fault causeCfgbad a.toNat s
      | some d =>
        (regionsOf d.rgns s).andThen fun ps s => .ok { g with desc := a, rids := d.rids, zs := d.zs, regNos := d.regs, regions := ps } s
  else if a ≠ g.desc then .fault causePerm a.toNat s
  else .ok g s

/-- The snapshot of a ring as the core stands (R372). -/
def takeSnap (g : Ring) (ex : List Word) (s : State) : Snap :=
  let x := coreOf s s.turn
  let cs := g.zs.map (fun z => let t : Stream := mapGet {} x.sg.z z; t.c)
  let regs := g.regNos.map (fun r => x.pilot.reg r)
  { index := g.seq, extents := ex, cs := cs, regs := regs }

/-- SPMARK (R372). -/
def execSpmark (gd ga : Reg) (ring : BitVec 2) (s : State) :=
  let a := reg s ga
  let r := ring.toNat
  done (
    if a.toNat % 64 ≠ 0 then trapAt causeAlign a s
    else
      onRes (latchRing a (ringOf s r) s) fun g s =>
        match g.zs.find? (streamBusy s) with
        | some z => trapAt causePerm (BitVec.ofNat 64 z) s
        | none =>
          afterStores s fun s =>
            onRes (readExtents g.rids s) fun ex s =>
              let oldest := if g.snaps.length = 16 then g.snaps.head?.map (·.index) else none
              onRes (match oldest with | some i => settleFar r (i + 1) (2 ^ 64) (farChips s g) s | none => .ok () s) fun _ s =>
              let s := match oldest with | some i => settleOwn r (i + 1) (2 ^ 64) s | none => s
              let kept := if oldest.isSome then g.snaps.drop 1 else g.snaps
              writeBack gd (BitVec.ofNat 64 g.seq) (putRing r { g with snaps := kept ++ [takeSnap g ex s], seq := (g.seq + 1) % 2 ^ 64 } s))

/-- Restores what a snapshot kept: streams and registers (R373). -/
def restoreSnap (g : Ring) (n : Snap) (s : State) : State :=
  let s := onCore s.turn (fun x => (g.zs.zip n.cs).foldl (fun (x : Core) (z, c) =>
    let t : Stream := mapGet {} x.sg.z z
    { x with sg := { x.sg with z := mapPut x.sg.z z { t with c := c } } }) x) s
  onPilot s.turn (fun p => (g.regNos.zip n.regs).foldl (fun (p : Pilot) (r, v) => p.setReg r v) p) s

/-- Accepts the snapshots before m: the rollback to m when it is one, then the versions (R373). -/
def acceptRing (gd : Reg) (r m : Nat) (g : Ring) (s : State) : State :=
  let n := if m < g.seq then g.snaps.find? (fun x => x.index == m) else none
  let extents := fun (s : State) => match n with | some n => writeExtents (g.rids.zip n.extents) s | none => .ok () s
  allOrNone s (extents s) fun _ =>
    onRes (settleFar r m m (farChips s g) s) fun _ s =>
      allOrNone s (extents s) fun s =>
        let s := match n with | some n => restoreSnap g n s | none => s
        endWith gd (BitVec.ofNat 64 (g.seq - m)) (putRing r { seq := m } (settleOwn r m m s))

/-- SPACC (R373). -/
def execSpacc (gd ga : Reg) (ring : BitVec 2) (s : State) :=
  let m := reg s ga
  let r := ring.toNat
  let g := ringOf s r
  done (unlessDone (fun s =>
    if m.toNat + g.snaps.length < g.seq ∨ g.seq < m.toNat then trapAt causePerm m s
    else
      match (if m.toNat < g.seq then g.zs.find? (streamBusy s) else none) with
      | some z => trapAt causePerm (BitVec.ofNat 64 z) s
      | none => afterRelease s (acceptRing gd r m.toNat g)) s)

/-! ### Event counters (R374, R375) -/

/-- The operand of EVSEL and EVRD: INDEX, UNIT, INSTANCE. -/
structure EvRef where
  idx : Nat
  unit : Nat
  inst : Nat
  deriving DecidableEq, Repr

/-- Counters of a unit, and how many of it there are. -/
def evShape (unit : Nat) : Nat × Nat :=
  match unit with
  | 0 => (8, 1)
  | 1 => (4, 256)
  | 2 => (8, 12)
  | _ => (16, 1)

/-- The counter that an immediate names; none where R375 refuses it. -/
def evRef (imm : Nat) : Option EvRef :=
  let e : EvRef := { idx := bits imm 0 4, unit := bits imm 4 2, inst := bits imm 6 8 }
  let (n, k) := evShape e.unit
  if imm < 2 ^ 14 ∧ e.idx < n ∧ e.inst < k then some e else none

/-- Where a counter stands. -/
def evGet (s : State) (c : Nat) (e : EvRef) : EvCtr :=
  match e.unit with
  | 0 => mapGet {} (coreOf s c).evctrs e.idx
  | 1 => mapGet {} s.ms.evctrs (4 * e.inst + e.idx)
  | 2 => mapGet {} s.ms.evctrs (1024 + 8 * e.inst + e.idx)
  | _ => mapGet {} s.hub.evctrs e.idx

def evPut (c : Nat) (e : EvRef) (v : EvCtr) (s : State) : State :=
  match e.unit with
  | 0 => onCore c (fun x => { x with evctrs := mapPut x.evctrs e.idx v }) s
  | 1 => onMs (fun m => { m with evctrs := mapPut m.evctrs (4 * e.inst + e.idx) v }) s
  | 2 => onMs (fun m => { m with evctrs := mapPut m.evctrs (1024 + 8 * e.inst + e.idx) v }) s
  | _ => onHub (fun h => { h with evctrs := mapPut h.evctrs e.idx v }) s

/-- The codes listed for a unit (R374). -/
def evCodeOk (unit code : Nat) : Bool :=
  code == 0 ||
  match unit with
  | 0 => (decide (1 ≤ code) && decide (code ≤ 0xE)) || code == 0x41 || code == 0x42
  | 1 => decide (0x100 ≤ code) && decide (code ≤ 0x106)
  | 2 => decide (0x200 ≤ code) && decide (code ≤ 0x203)
  | _ => decide (0x300 ≤ code) && decide (code ≤ 0x306)

/-- A counter brought up to a clk: a count of clk (code 0x001) takes the clk that have passed. -/
def EvCtr.upTo (clk : Nat) (e : EvCtr) : EvCtr :=
  if e.code = 1 then
    let n := e.count.toNat + (clk - e.since)
    { e with count := BitVec.ofNat 48 n, wrapped := e.wrapped + n / 2 ^ 48, since := clk }
  else e

/-- The checks that EVSEL and EVRD share. -/
def withCounter (imm : BitVec 32) (s : State) (k : EvRef → State) : State :=
  match evRef imm.toNat with
  | none => trapAt causePerm (imm.setWidth 64) s
  | some e => if e.unit ≠ 0 ∧ (viewOf s s.turn).ctx ≠ 0 then trapFree causePerm s else k e

/-- EVSEL (R375). -/
def execEvsel (ga : Reg) (imm : BitVec 32) (s : State) :=
  let v := (reg s ga).toNat
  done (withCounter imm s fun e =>
    if 2 ^ 18 ≤ v then trapFree causePerm s
    else if !evCodeOk e.unit (bits v 0 10) then trapAt causePerm (BitVec.ofNat 64 (bits v 0 10)) s
    else
      let old := (evGet s s.turn e).upTo s.cycle
      advance (evPut s.turn e { code := bits v 0 10, ovk := bits v 10 6, ovken := bit v 16, core := s.turn
                                count := if bit v 17 then 0 else old.count, since := s.cycle } s))

/-- EVRD (R375). -/
def execEvrd (gd : Reg) (imm : BitVec 32) (s : State) :=
  done (withCounter imm s fun e => writeBack gd (((evGet s s.turn e).upTo s.cycle).count.setWidth 64) s)

/-- A counter that has wrapped raises its overflow counter (R374). -/
def overflow (unit inst idx : Nat) (s : State) : State :=
  let u := if unit = 0 then 0 else inst
  let e : EvRef := { idx := idx, unit := unit, inst := u }
  let c := (evGet s inst e).upTo s.cycle
  if c.wrapped = 0 then s
  else raiseIf c.ovken c.core c.ovk 1 (evPut inst e { c with wrapped := c.wrapped - 1 } s)

def execEventCounterOverflow (unit inst idx : Nat) (s : State) := done (overflow unit inst idx s)

end Sys2Proof.Machine
end

