-- ==== Sys2Proof/Machine/Dispatch.lean ====
section
/-! DEFINITION. One arm per constructor of Instr: the meaning it calls. -/

namespace Sys2Proof.Machine

def exec (i : Instr) (s : State) : Host.Outcome State Fault Refusal :=
  match i with
  | .add gd ga gb => Sys2Proof.Machine.execAdd gd ga gb s
  | .sub gd ga gb => Sys2Proof.Machine.execSub gd ga gb s
  | .and gd ga gb => Sys2Proof.Machine.execAnd gd ga gb s
  | .or gd ga gb => Sys2Proof.Machine.execOr gd ga gb s
  | .xor gd ga gb => Sys2Proof.Machine.execXor gd ga gb s
  | .sll gd ga gb => Sys2Proof.Machine.execSll gd ga gb s
  | .srl gd ga gb => Sys2Proof.Machine.execSrl gd ga gb s
  | .sra gd ga gb => Sys2Proof.Machine.execSra gd ga gb s
  | .mul gd ga gb => Sys2Proof.Machine.execMul gd ga gb s
  | .mulhs gd ga gb => Sys2Proof.Machine.execMulhs gd ga gb s
  | .mulhu gd ga gb => Sys2Proof.Machine.execMulhu gd ga gb s
  | .divs gd ga gb => Sys2Proof.Machine.execDivs gd ga gb s
  | .divu gd ga gb => Sys2Proof.Machine.execDivu gd ga gb s
  | .rems gd ga gb => Sys2Proof.Machine.execRems gd ga gb s
  | .remu gd ga gb => Sys2Proof.Machine.execRemu gd ga gb s
  | .mins gd ga gb => Sys2Proof.Machine.execMins gd ga gb s
  | .maxs gd ga gb => Sys2Proof.Machine.execMaxs gd ga gb s
  | .minu gd ga gb => Sys2Proof.Machine.execMinu gd ga gb s
  | .maxu gd ga gb => Sys2Proof.Machine.execMaxu gd ga gb s
  | .seq gd ga gb => Sys2Proof.Machine.execSeq gd ga gb s
  | .sne gd ga gb => Sys2Proof.Machine.execSne gd ga gb s
  | .slt gd ga gb => Sys2Proof.Machine.execSlt gd ga gb s
  | .sltu gd ga gb => Sys2Proof.Machine.execSltu gd ga gb s
  | .sel gd ga gb gc => Sys2Proof.Machine.execSel gd ga gb gc s
  | .clz gd ga => Sys2Proof.Machine.execClz gd ga s
  | .ctz gd ga => Sys2Proof.Machine.execCtz gd ga s
  | .popc gd ga => Sys2Proof.Machine.execPopc gd ga s
  | .brev gd ga => Sys2Proof.Machine.execBrev gd ga s
  | .addi gd ga imm => Sys2Proof.Machine.execAddi gd ga imm s
  | .andi gd ga imm => Sys2Proof.Machine.execAndi gd ga imm s
  | .ori gd ga imm => Sys2Proof.Machine.execOri gd ga imm s
  | .xori gd ga imm => Sys2Proof.Machine.execXori gd ga imm s
  | .slli gd ga n => Sys2Proof.Machine.execSlli gd ga n s
  | .srli gd ga n => Sys2Proof.Machine.execSrli gd ga n s
  | .srai gd ga n => Sys2Proof.Machine.execSrai gd ga n s
  | .slti gd ga imm => Sys2Proof.Machine.execSlti gd ga imm s
  | .sltui gd ga imm => Sys2Proof.Machine.execSltui gd ga imm s
  | .lih gd ga imm => Sys2Proof.Machine.execLih gd ga imm s
  | .beq ga gb off => Sys2Proof.Machine.execBeq ga gb off s
  | .bne ga gb off => Sys2Proof.Machine.execBne ga gb off s
  | .blt ga gb off => Sys2Proof.Machine.execBlt ga gb off s
  | .bge ga gb off => Sys2Proof.Machine.execBge ga gb off s
  | .bltu ga gb off => Sys2Proof.Machine.execBltu ga gb off s
  | .bgeu ga gb off => Sys2Proof.Machine.execBgeu ga gb off s
  | .jal gd off => Sys2Proof.Machine.execJal gd off s
  | .jalr gd ga imm => Sys2Proof.Machine.execJalr gd ga imm s
  | .ld sz acq gd ga d => Sys2Proof.Machine.execLd sz acq gd ga d s
  | .lds sz gd ga d => Sys2Proof.Machine.execLds sz gd ga d s
  | .st sz rel ga gb d => Sys2Proof.Machine.execSt sz rel ga gb d s
  | .storeBufferDrain core => Sys2Proof.Machine.execStoreBufferDrain core s
  | .amo f sz acq rel gd ga gb => Sys2Proof.Machine.execAmo f sz acq rel gd ga gb s
  | .cas sz acq rel gd ga gb gc => Sys2Proof.Machine.execCas sz acq rel gd ga gb gc s
  | .amof f acq rel gd ga gb => Sys2Proof.Machine.execAmof f acq rel gd ga gb s
  | .fence scope => Sys2Proof.Machine.execFence scope s
  | .cpy ga => Sys2Proof.Machine.execCpy ga s
  | .cpyt ga => Sys2Proof.Machine.execCpyt ga s
  | .tbinit ga gb => Sys2Proof.Machine.execTbinit ga gb s
  | .tbarv n ga gb => Sys2Proof.Machine.execTbarv n ga gb s
  | .tbwait gd ga gb => Sys2Proof.Machine.execTbwait gd ga gb s
  | .tbtest gd ga => Sys2Proof.Machine.execTbtest gd ga s
  | .stash ga w => Sys2Proof.Machine.execStash ga w s
  | .unstash w => Sys2Proof.Machine.execUnstash w s
  | .lnch gd ga => Sys2Proof.Machine.execLnch gd ga s
  | .lnchNear gd ga gb => Sys2Proof.Machine.execLnchNear gd ga gb s
  | .lwait gd ga => Sys2Proof.Machine.execLwait gd ga s
  | .lwaitTest gd ga => Sys2Proof.Machine.execLwaitTest gd ga s
  | .spawn gd ga gb n => Sys2Proof.Machine.execSpawn gd ga gb n s
  | .yield => Sys2Proof.Machine.execYield s
  | .prio gd ga => Sys2Proof.Machine.execPrio gd ga s
  | .cfgld ga sl => Sys2Proof.Machine.execCfgld ga sl s
  | .cfgsel gd ga sl => Sys2Proof.Machine.execCfgsel gd ga sl s
  | .cfgselId gd ga => Sys2Proof.Machine.execCfgselId gd ga s
  | .go ga k => Sys2Proof.Machine.execGo ga k s
  | .goWait ga k => Sys2Proof.Machine.execGoWait ga k s
  | .stopg ga => Sys2Proof.Machine.execStopg ga s
  | .stopgAbort ga => Sys2Proof.Machine.execStopgAbort ga s
  | .sbar k => Sys2Proof.Machine.execSbar k s
  | .sbarEnd k => Sys2Proof.Machine.execSbarEnd k s
  | .haclr => Sys2Proof.Machine.execHaclr s
  | .drain ord chg clr gd ga lvl marken k ken => Sys2Proof.Machine.execDrain ord chg clr gd ga lvl marken k ken s
  | .hsclr => Sys2Proof.Machine.execHsclr s
  | .rngset conly ga gb z => Sys2Proof.Machine.execRngset conly ga gb z s
  | .rngget key gd z => Sys2Proof.Machine.execRngget key gd z s
  | .tblld ga cb => Sys2Proof.Machine.execTblld ga cb s
  | .npost at_ gd ga => Sys2Proof.Machine.execNpost at_ gd ga s
  | .ncancel gd ga => Sys2Proof.Machine.execNcancel gd ga s
  | .tadd ga c => Sys2Proof.Machine.execTadd ga c s
  | .trd gd c => Sys2Proof.Machine.execTrd gd c s
  | .twait ga c => Sys2Proof.Machine.execTwait ga c s
  | .rfire gd ga => Sys2Proof.Machine.execRfire gd ga s
  | .fix end_ gd ga => Sys2Proof.Machine.execFix end_ gd ga s
  | .qvote gd ga => Sys2Proof.Machine.execQvote gd ga s
  | .retr gd ga gb => Sys2Proof.Machine.execRetr gd ga gb s
  | .gwalk gd ga gb round lvl marken => Sys2Proof.Machine.execGwalk gd ga gb round lvl marken s
  | .trap ga cause => Sys2Proof.Machine.execTrap ga cause s
  | .eret => Sys2Proof.Machine.execEret s
  | .sysrd gd n => Sys2Proof.Machine.execSysrd gd n s
  | .syswr ga n => Sys2Proof.Machine.execSyswr ga n s
  | .wfe gd t => Sys2Proof.Machine.execWfe gd t s
  | .brk tag => Sys2Proof.Machine.execBrk tag s
  | .ctxsave commit gd ga => Sys2Proof.Machine.execCtxsave commit gd ga s
  | .ctxload gd ga => Sys2Proof.Machine.execCtxload gd ga s
  | .frsp all ga gb => Sys2Proof.Machine.execFrsp all ga gb s
  | .spmark gd ga ring => Sys2Proof.Machine.execSpmark gd ga ring s
  | .spacc gd ga ring => Sys2Proof.Machine.execSpacc gd ga ring s
  | .stepcmt gd ga => Sys2Proof.Machine.execStepcmt gd ga s
  | .stepabt ga => Sys2Proof.Machine.execStepabt ga s
  | .lsupd gd ga gb => Sys2Proof.Machine.execLsupd gd ga gb s
  | .evsel ga imm => Sys2Proof.Machine.execEvsel ga imm s
  | .evrd gd imm => Sys2Proof.Machine.execEvrd gd imm s
  | .takeTrap core => Sys2Proof.Machine.execTakeTrap core s
  | .wave core e => Sys2Proof.Machine.execWave core e s
  | .markStep core e => Sys2Proof.Machine.execMarkStep core e s
  | .exitQueueEmit core node ch => Sys2Proof.Machine.execExitQueueEmit core node ch s
  | .routeArrival core route => Sys2Proof.Machine.execRouteArrival core route s
  | .stall core node ch => Sys2Proof.Machine.execStall core node ch s
  | .detachCut core route => Sys2Proof.Machine.execDetachCut core route s
  | .borderCrossing core route => Sys2Proof.Machine.execBorderCrossing core route s
  | .straitMeterTick isle => Sys2Proof.Machine.execStraitMeterTick isle s
  | .agIteration core slot => Sys2Proof.Machine.execAgIteration core slot s
  | .agWriteStreamToken core slot => Sys2Proof.Machine.execAgWriteStreamToken core slot s
  | .ringSlotRead core slot => Sys2Proof.Machine.execRingSlotRead core slot s
  | .mpRequest core slot ch => Sys2Proof.Machine.execMpRequest core slot ch s
  | .tableWalk core slot ch => Sys2Proof.Machine.execTableWalk core slot ch s
  | .copySegmentLand core entry seg => Sys2Proof.Machine.execCopySegmentLand core entry seg s
  | .barrierUpdate core => Sys2Proof.Machine.execBarrierUpdate core s
  | .stashLineFill core window line => Sys2Proof.Machine.execStashLineFill core window line s
  | .exSlotHandoff core => Sys2Proof.Machine.execExSlotHandoff core s
  | .atollLanding core => Sys2Proof.Machine.execAtollLanding core s
  | .graphEnd isle slot => Sys2Proof.Machine.execGraphEnd isle slot s
  | .haAbsorb core => Sys2Proof.Machine.execHaAbsorb core s
  | .spillfault core => Sys2Proof.Machine.execSpillfault core s
  | .spillLanding core => Sys2Proof.Machine.execSpillLanding core s
  | .haProbe core => Sys2Proof.Machine.execHaProbe core s
  | .haOverdel core => Sys2Proof.Machine.execHaOverdel core s
  | .haTileTransfer core => Sys2Proof.Machine.execHaTileTransfer core s
  | .hsToken core => Sys2Proof.Machine.execHsToken core s
  | .mjStep core slot => Sys2Proof.Machine.execMjStep core slot s
  | .rdFold core slot => Sys2Proof.Machine.execRdFold core slot s
  | .rdSegmentClose core slot => Sys2Proof.Machine.execRdSegmentClose core slot s
  | .mtFillToken core ch => Sys2Proof.Machine.execMtFillToken core ch s
  | .codebook core ch => Sys2Proof.Machine.execCodebook core ch s
  | .mtScratchpadFill core t => Sys2Proof.Machine.execMtScratchpadFill core t s
  | .mtFire core => Sys2Proof.Machine.execMtFire core s
  | .mtFireEnd core => Sys2Proof.Machine.execMtFireEnd core s
  | .mtClose core ch => Sys2Proof.Machine.execMtClose core ch s
  | .mtDrain core => Sys2Proof.Machine.execMtDrain core s
  | .param core => Sys2Proof.Machine.execParam core s
  | .skOffer core => Sys2Proof.Machine.execSkOffer core s
  | .skEmit core => Sys2Proof.Machine.execSkEmit core s
  | .sgDraw core => Sys2Proof.Machine.execSgDraw core s
  | .split core slot => Sys2Proof.Machine.execSplit core slot s
  | .join core slot => Sys2Proof.Machine.execJoin core slot s
  | .steerGroup core slot => Sys2Proof.Machine.execSteerGroup core slot s
  | .merge core slot => Sys2Proof.Machine.execMerge core slot s
  | .loop core slot => Sys2Proof.Machine.execLoop core slot s
  | .counterIncrement core => Sys2Proof.Machine.execCounterIncrement core s
  | .postedFire core e => Sys2Proof.Machine.execPostedFire core e s
  | .postedComplete core e => Sys2Proof.Machine.execPostedComplete core e s
  | .postedFailure core e => Sys2Proof.Machine.execPostedFailure core e s
  | .wave1Start core => Sys2Proof.Machine.execWave1Start core s
  | .wave1Report core => Sys2Proof.Machine.execWave1Report core s
  | .wave2Start core => Sys2Proof.Machine.execWave2Start core s
  | .wave2Report core => Sys2Proof.Machine.execWave2Report core s
  | .waveRestart core => Sys2Proof.Machine.execWaveRestart core s
  | .fabricReport core => Sys2Proof.Machine.execFabricReport core s
  | .baseDiePacket op pa granules => Sys2Proof.Machine.execBaseDiePacket op pa granules s
  | .baseDieReply slice stack tag => Sys2Proof.Machine.execBaseDieReply slice stack tag s
  | .dieMessage dst src => Sys2Proof.Machine.execDieMessage dst src s
  | .causewayMessage port => Sys2Proof.Machine.execCausewayMessage port s
  | .ptsTick agent => Sys2Proof.Machine.execPtsTick agent s
  | .eventCounterOverflow unit inst idx => Sys2Proof.Machine.execEventCounterOverflow unit inst idx s
  | .launchWrite off bytes => Sys2Proof.Machine.execLaunchWrite off bytes s
  | .dependenceWatch j => Sys2Proof.Machine.execDependenceWatch j s
  | .dispatch => Sys2Proof.Machine.execDispatch s
  | .launchEnd isle => Sys2Proof.Machine.execLaunchEnd isle s
  | .isleRelease isle => Sys2Proof.Machine.execIsleRelease isle s
  | .preempt => Sys2Proof.Machine.execPreempt s
  | .drainQuiet isle => Sys2Proof.Machine.execDrainQuiet isle s
  | .drainLimit isle => Sys2Proof.Machine.execDrainLimit isle s
  | .owedDone isle => Sys2Proof.Machine.execOwedDone isle s
  | .blockSwitch isle => Sys2Proof.Machine.execBlockSwitch isle s
  | .hdrFrame isle => Sys2Proof.Machine.execHdrFrame isle s
  | .eiFrame isle => Sys2Proof.Machine.execEiFrame isle s
  | .epFrame isle => Sys2Proof.Machine.execEpFrame isle s
  | .xsFrame isle => Sys2Proof.Machine.execXsFrame isle s
  | .opFrame isle => Sys2Proof.Machine.execOpFrame isle s
  | .agFrame isle => Sys2Proof.Machine.execAgFrame isle s
  | .muFrame isle => Sys2Proof.Machine.execMuFrame isle s
  | .ldFrame isle => Sys2Proof.Machine.execLdFrame isle s
  | .endFrame isle => Sys2Proof.Machine.execEndFrame isle s
  | .wbAccess off a => Sys2Proof.Machine.execWbAccess off a s
  | .cxlMemAccess addr a => Sys2Proof.Machine.execCxlMemAccess addr a s
  | .wbctx v => Sys2Proof.Machine.execWbctx v s
  | .hrdoor n v => Sys2Proof.Machine.execHrdoor n v s
  | .registerWrite r v => Sys2Proof.Machine.execRegisterWrite r v s
  | .mappedCounterStore addr v => Sys2Proof.Machine.execMappedCounterStore addr v s
  | .mappedCounterLoad addr => Sys2Proof.Machine.execMappedCounterLoad addr s
  | .frhead v => Sys2Proof.Machine.execFrhead v s
  | .frspdoor ctx core all => Sys2Proof.Machine.execFrspdoor ctx core all s
  | .tinv v => Sys2Proof.Machine.execTinv v s
  | .ctxend v => Sys2Proof.Machine.execCtxend v s
  | .chipid v => Sys2Proof.Machine.execChipid v s
  | .getVersion => Sys2Proof.Machine.execGetVersion s
  | .getCapabilities => Sys2Proof.Machine.execGetCapabilities s
  | .negotiateAlgorithms => Sys2Proof.Machine.execNegotiateAlgorithms s
  | .getDigests => Sys2Proof.Machine.execGetDigests s
  | .getCertificate => Sys2Proof.Machine.execGetCertificate s
  | .challenge => Sys2Proof.Machine.execChallenge s
  | .getMeasurements => Sys2Proof.Machine.execGetMeasurements s
  | .keyExchange => Sys2Proof.Machine.execKeyExchange s
  | .finish => Sys2Proof.Machine.execFinish s
  | .endSession => Sys2Proof.Machine.execEndSession s
  | .keySlotWrite slot key => Sys2Proof.Machine.execKeySlotWrite slot key s
  | .recoveryLoad a b => Sys2Proof.Machine.execRecoveryLoad a b s
  | .packageReset => Sys2Proof.Machine.execPackageReset s
  | .readySet bit => Sys2Proof.Machine.execReadySet bit s
  | .readyClear bit => Sys2Proof.Machine.execReadyClear bit s
  | .powerSample watts celsius => Sys2Proof.Machine.execPowerSample watts celsius s
  | .thermalTrip => Sys2Proof.Machine.execThermalTrip s
  | .parityResend core route => Sys2Proof.Machine.execParityResend core route s
  | .load addr bytes => Sys2Proof.Machine.execLoad addr bytes s
  | .launch addr => Sys2Proof.Machine.execLaunch addr s
  | .run => Sys2Proof.Machine.execRun s
  | .continue => Sys2Proof.Machine.execContinue s
  | .breakLabel launch addr => Sys2Proof.Machine.execBreakLabel launch addr s
  | .breakWave core e n => Sys2Proof.Machine.execBreakWave core e n s
  | .breakMark core node ch level => Sys2Proof.Machine.execBreakMark core node ch level s
  | .breakCounter core k v => Sys2Proof.Machine.execBreakCounter core k v s
  | .breakFault core node => Sys2Proof.Machine.execBreakFault core node s
  | .pilotBreakpointHit core => Sys2Proof.Machine.execPilotBreakpointHit core s
  | .step core n => Sys2Proof.Machine.execStep core n s
  | .waveCommand core e n => Sys2Proof.Machine.execWaveCommand core e n s
  | .print items => Sys2Proof.Machine.execPrint items s
  | .mem addr n => Sys2Proof.Machine.execMem addr n s
  | .chan core node ch n => Sys2Proof.Machine.execChan core node ch n s
  | .ha core => Sys2Proof.Machine.execHa core s
  | .trig core => Sys2Proof.Machine.execTrig core s
  | .cocoon addr => Sys2Proof.Machine.execCocoon addr s
  | .instructionFetch core => Sys2Proof.Machine.execInstructionFetch core s
  | .wfeTimeout core => Sys2Proof.Machine.execWfeTimeout core s
  | .quiesceBound isle => Sys2Proof.Machine.execQuiesceBound isle s
  | .tinvComplete => Sys2Proof.Machine.execTinvComplete s

end Sys2Proof.Machine
end

