-- ==== Sys2Proof/Machine/Inputs.lean ====
section
/-! DEFINITION. What comes from outside beside the rows of the opcode table: errors of the hardware (R347 to R349, R355) and what the
host does to the port (R85, R87, R88). DESIGN CHOICE: notes/assumptions/73.md. -/

namespace Sys2Proof.Machine

/-! ### Uncorrectable errors (R87, R347) -/

/-- The oldest token of a channel carries a lost value (R164). -/
def soilToken (node ch : Nat) (x : Core) : Core :=
  { x with chans := putQ x.chans (chanKey node ch) ((chanQ x node ch).modifyHead (fun t => { t with poison := true })) }

/-- A resident entry of the HA or HS carries a lost value (R200). -/
def soilEntry (set : Bool) (slot : Nat) (x : Core) : Core :=
  if set then
    { x with hsU := { x.hsU with tab := { x.hsU.tab with slots := x.hsU.tab.slots.map (fun (k, e) => if k = slot then (k, { e with poison := true }) else (k, e)) } } }
  else
    { x with haU := { x.haU with tab := { x.haU.tab with slots := x.haU.tab.slots.map (fun (k, e) => if k = slot then (k, { e with poison := true }) else (k, e)) } } }

/-- A register of the tile engine carries a lost value (R220). -/
def soilTile (t : Nat) (x : Core) : Core := { x with mt := { x.mt with t := mapPut x.mt.t t { mapGet {} x.mt.t t with poison := true } } }

def soilAcc (a : Nat) (x : Core) : Core := { x with mt := { x.mt with a := mapPut x.mt.a a { mapGet {} x.mt.a a with poison := true } } }

/-- A row of an element's local memory carries a lost value (R190). -/
def soilRow (e row : Nat) (x : Core) : Core := onElem e (fun y => { y with rowPoison := mapPut y.rowPoison row 15 }) x

/-- The launch that holds a core meets an unrecoverable error (R349, R355). Its CODE and VALUE are free (notes/assumptions/6.md). -/
def coreLost (c : Nat) (s : State) : State :=
  match (coreOf s c).isle with
  | none => sendVector 3 s
  | some n => let (v, s) := freeVal s; unrecoverable n c (v.toNat % 256) 0 v s

/-- A saved launch whose state is lost goes back to its commit point, or its context ends (R355). -/
def savedLost (id : Nat) (s : State) : State :=
  match s.hub.saved.find? (fun k => k.id == id) with
  | none => s
  | some k =>
    let (v, s) := freeVal (sendVector 3 s)
    let s := svcEmit { code := v.toNat % 256, source := 12, ctx := k.ctx, core := leadOf k.isle, tag := k.isle.lrec.tag, value := v } s
    match k.isle.commit.map (fun a => cocoonAt k.isle a.toNat s) with
    | some (.ok (some q) s) =>
      onHub (fun h => { h with saved := h.saved.map (fun o => if o.id = id then { q with isle := commitIsle k.isle q } else o) }) s
    | _ => endContext k.ctx s

/-- An error that was corrected is counted (R349, R374). -/
def countCorrected (code at_ : Nat) (s : State) : State :=
  if code = 0x00D then tallyCore at_ code 1 s
  else if code = 0x106 then onMs (tallySlice at_ code) s
  else if code = 0x202 then onMs (tallyBase at_ code) s
  else if code = 0x304 then tallyHub code s
  else s

/-! ### Inputs -/

/-- What an input does; every uncorrectable error sends ERROR (R87). -/
def takeInput (x : Input) (s : State) : State :=
  match x with
  | .memoryError g => sendVector 3 (onMs (fun m => { m with poison := mapPut m.poison g () }) s)
  | .scratchError c g => sendVector 3 (onCore c (fun x => { x with scratchPoison := mapPut x.scratchPoison g () }) s)
  | .rowError c e r => sendVector 3 (onCore c (soilRow e r) s)
  | .tokenError c n j => sendVector 3 (onCore c (soilToken n j) s)
  | .entryError c set k => sendVector 3 (onCore c (soilEntry set k) s)
  | .tileError c t => sendVector 3 (onCore c (soilTile t) s)
  | .accError c a => sendVector 3 (onCore c (soilAcc a) s)
  | .registerError c => coreLost c s
  | .latchError c => coreLost c s
  | .savedError id => savedLost id s
  | .corrected code a => countCorrected code a s
  | .hostRead off n => hostArrive (.look off n) s
  | .msixEntry v e => onHost (fun h => sendPending { h with msixTab := mapPut h.msixTab v e }) s
  | .msixEnable on => onHost (fun h => sendPending { h with msixOn := on }) s
  | .hostStore a b => onHost (fun h => { h with mem := memStore h.mem a b }) s

end Sys2Proof.Machine
end

