-- ==== Sys2Proof/Machine/Step.lean ====
section
/-! DEFINITION. One step of the package: the next move of the agenda, else the pilot whose turn it is after one clk; and
the placement of an instruction where the next step fetches it. -/

namespace Sys2Proof.Machine

/-- Time passes before a move: n clk, which the watchdogs count (R128). -/
def State.passing (n : Nat) (s : State) : State := { elapse n s with cycle := s.cycle + n, moves := s.moves + 1 }

/-- The pilot of core `turn` moves: it stops at a breakpoint, else fetches, decodes and runs one instruction. -/
def pilotMove (s : State) : Host.Outcome State Fault Refusal :=
  if !pilotRunnable s s.turn then done s
  else if atBreak s s.turn then done (holdAtBreak s.turn s)
  else
    match fetchDecode s s.turn with
    | .run i s => exec i s
    | .other s => done s

/-- One step (notes/assumptions/5.md). -/
def step (s : State) : Host.Outcome State Fault Refusal :=
  match s.agenda with
  | [] => pilotMove (s.passing 1)
  | (n, .pilot c) :: rest => pilotMove { s.passing n with agenda := rest, turn := c }
  | (n, .event i) :: rest => exec i { s.passing n with agenda := rest }
  | (n, .input x) :: rest => done (takeInput x { s.passing n with agenda := rest })

/-- The isle, context and page table under which the placed instruction runs: core 0 of die 0, context 1, one page of 64
KiB at address 0, its four tables at physical 0x1000 to 0x4FFF and its frame at 0x1_0000. -/
def placeTables (m : Memory) : Memory :=
  let m := memPutNat m 0x1000 8 0x2001
  let m := memPutNat m 0x2000 8 0x3001
  let m := memPutNat m 0x3000 8 0x4001
  memPutNat m 0x4000 16 (1 + 0xF * 2 ^ 32 + 1 * 2 ^ 64)

/-- Removes the lines and marks that stand between the placed bytes and the fetch. -/
def MemSys.place (m : MemSys) (bs : List Byte) : MemSys :=
  { m with mem := memStore (placeTables m.mem) 0x10000 bs
           llc := mapKeep (fun l => !([0x40, 0x80, 0xC0, 0x100, 0x400].contains l)) m.llc
           poison := mapKeep (fun g => !([0x80, 0x100, 0x180, 0x200, 0x800].contains g)) m.poison
           guests := [], frr := [], packets := [] }

/-- s with an instruction stored where step fetches its next one: core 0 runs in a launch of context 1 on an isle of one
core, its program counter at address 0 of tensor 0, where the instruction's bytes stand. -/
def State.withFetchWord (s : State) (nbits w : Nat) : State :=
  let bs := bytesOfWord (BitVec.ofNat 64 (w % 2 ^ nbits))
  let i : Isle := { isleOf s 0 with die := 0, x0 := 0, y0 := 0, width := 1, height := 1, index := 0, phase := .running
                                    ctx := 1, t0ptb := 0x1000, t0page2m := false, frozen := false
                                    quiesceAt := none, resume := none }
  let c := coreOf s 0
  let p := { c.pilot with pc := 0, running := true, halted := false, held := false, stage := .none, wfeUntil := none
                          passBreak := some 0, icache := [] }
  let host := { s.host with readymap := s.host.readymap ||| 0x100000 }
  { s with agenda := [], turn := 0
           cores := mapPut s.cores 0 { c with isle := some 0, pilot := p }
           hub := { s.hub with isles := mapPut s.hub.isles 0 i, chipid := 0 }
           host := host, ms := s.ms.place bs }

end Sys2Proof.Machine
end

