-- ==== Sys2Proof/Safety.lean ====
section
/-! DEFINITION. What counts as a safe run, and the terms in which claims say what an instruction changes and what it leaves. -/

namespace Sys2Proof.Safety

open Sys2Proof.Machine

/-- HBM, host memory and every scratchpad, those of saved isles and cocoons among them, are in canonical form. -/
def MemoriesWf (s : State) : Prop :=
  s.ms.mem.wf = true ∧ s.host.mem.wf = true ∧ (∀ e ∈ s.cores, e.2.scratch.wf = true) ∧
  ∀ k ∈ s.hub.saved ++ s.hub.cocoons, ∀ x ∈ k.cores, x.scratch.wf = true

/-- Everything outside core c is as before: memory and the home slices, the hub with its isles, the host port, the
security function, power, nydb, the clk, and every other core. -/
structure OnlyCore (c : Nat) (s t : State) : Prop where
  cycle : t.cycle = s.cycle
  agenda : t.agenda = s.agenda
  turn : t.turn = s.turn
  tick : t.tick = s.tick
  moves : t.moves = s.moves
  hub : t.hub = s.hub
  host : t.host = s.host
  trust : t.trust = s.trust
  power : t.power = s.power
  ms : t.ms = s.ms
  nydb : t.nydb = s.nydb
  others : ∀ d, d ≠ c → coreOf t d = coreOf s d

/-- As OnlyCore, but that launches queued at the hub were told of a counter of the core that they wait for (R98). -/
def OnlyCoreTold (c : Nat) (s t : State) : Prop := OnlyCore c s { t with hub := { t.hub with fifos := s.hub.fifos } }

/-- Of a core, all but its pilot and its event counters is as before: scratchpad, trigger counters, engines, operators. -/
def CoreKept (x y : Core) : Prop := y = { x with pilot := y.pilot, evctrs := y.evctrs }

/-- Of a pilot, all is as before but its registers, its program counter, the wait it was in and nydb's marks on it: the trap
registers, the event latch, the store buffer, the caches, the launches and the reports. -/
def PilotKept (p q : Pilot) : Prop :=
  q = { p with regs := q.regs, pc := q.pc, stage := q.stage, wfeUntil := q.wfeUntil, passBreak := q.passBreak
               steps := q.steps, inWord := q.inWord }

/-- An instruction of the pilot whose turn it is completed from state s: register gd holds v (g0 still reads 0 and nothing
is written), every other register is as before, the pilot goes on at pc in no wait, and all else is as before. -/
def Completed (s : State) (gd : Reg) (v pc : Word) (t : State) : Prop :=
  OnlyCore s.turn s t ∧ CoreKept (coreOf s s.turn) (coreOf t s.turn) ∧ PilotKept (pilot s) (pilot t) ∧
  (∀ r, reg t r = if r = gd ∧ r ≠ 0 then v else reg s r) ∧ (pilot t).pc = pc ∧ (pilot t).stage = .none

/-- The pilot whose turn it is has entered its handler (R151): the saved registers, INTRAP and the program counter; its
registers, its store buffer, all of memory and all else are as before. -/
def Trapped (s : State) (cause : Nat) (fabric soft : Bool) (val pc : Word) (t : State) : Prop :=
  OnlyCore s.turn s t ∧ CoreKept (coreOf s s.turn) (coreOf t s.turn) ∧
  (pilot t).trapCause = BitVec.ofNat 64 cause + (if fabric then 0x100 else 0) + (if soft then 0x200 else 0) ∧
  (pilot t).trapVal = val ∧ (pilot t).trapPc = pc ∧ (pilot t).inTrap = true ∧ (pilot t).pc = (pilot s).trapVec ∧
  pilot t = { pilot s with
    trapCause := (pilot t).trapCause, trapVal := val, trapPc := pc, inTrap := true, pc := (pilot s).trapVec
    stage := .none, savedStage := (pilot t).savedStage, wfeUntil := none, passBreak := (pilot t).passBreak
    steps := (pilot t).steps, fixRounds := (pilot t).fixRounds, inWord := (pilot t).inWord }

/-- A handler can be entered: none is running and TRAPVEC is nonzero (R151). -/
def CanTrap (s : State) : Prop := (pilot s).inTrap = false ∧ (pilot s).trapVec ≠ 0

/-- What a read of memory may change: memory with its home slices, the caches and clocks of cores, their stash windows with the
scratchpad bytes of those, and the count of the model's free values. Everything else is as before: every register, program counter, trap register, store buffer, trigger
counter and unit of every core, the hub, the host port, the security function, power and nydb. -/
structure MemorySide (s u : State) : Prop where
  cycle : u.cycle = s.cycle
  moves : u.moves = s.moves
  agenda : u.agenda = s.agenda
  turn : u.turn = s.turn
  hub : u.hub = s.hub
  host : u.host = s.host
  trust : u.trust = s.trust
  power : u.power = s.power
  nydb : u.nydb = s.nydb
  cores : ∀ d, coreOf u d =
    { coreOf s d with
      pilot := { (coreOf s d).pilot with dcache := (coreOf u d).pilot.dcache, icache := (coreOf u d).pilot.icache }
      scratch := (coreOf u d).scratch, scratchPoison := (coreOf u d).scratchPoison, stashes := (coreOf u d).stashes
      pts := (coreOf u d).pts, fabricPts := (coreOf u d).fabricPts, readWts := (coreOf u d).readWts }

/-- The entry that a store of bytes at a location makes in the store buffer (R144, R155). -/
def storeEntry (l : Loc) (ea : Nat) (bs : List Byte) (rel : Bool) : BufStore :=
  match l with
  | .scratch o => { scratch := true, addr := o, va := ea, bytes := bs, rel := rel }
  | .phys t => { scratch := false, addr := t.pa, va := ea, bytes := bs, rel := rel, cache := t.cache, key := t.key, home := t.home }

/-- An access of n bytes at ea lies in the scratchpad window, aligned, in no stash window, and waits for no copy (R148,
R155, R262, R263). -/
def PlainWindow (s : State) (store : Bool) (ea n : Nat) : Prop :=
  ea % n = 0 ∧ 0x7F0000000000 ≤ ea ∧ ea < 0x7F0000040000 ∧ stashAt (coreOf s s.turn) (ea - 0x7F0000000000) = none ∧
  scoreboardHit (coreOf s s.turn) store ea n = false

/-- The scratchpad line under a barrier is ready, which leaves state u (R263); a barrier in local memory needs none. -/
def Touched (s : State) (a : Nat) (store : Bool) (u : State) : Prop :=
  (inWindow a = true → pilotTouch s a store = .ok () u) ∧ (inWindow a = false → u = s)

/-- R157: the new value of n bytes that an AMO computes from the old one and gb mod 2^(8n). -/
def amoResult (f : AmoFn) (n old b : Nat) : Nat :=
  let signed := fun (x : Nat) => (BitVec.ofNat (8 * n) x).toInt
  match f with
  | .add => (old + b) % 2 ^ (8 * n)
  | .and => old &&& b
  | .or => old ||| b
  | .xor => old ^^^ b
  | .mins => if signed old ≤ signed b then old else b
  | .maxs => if signed old ≤ signed b then b else old
  | .minu => if old ≤ b then old else b
  | .maxu => if old ≤ b then b else old
  | .swap => b

/-- R55, R59 and R157: what an AMOF stores over an old value: the sum of the two values, rounded once to the format of the form. -/
def amofSum (f : AmofFn) (old b draw : Nat) : Nat :=
  let (fmt, mode) := match f with
    | .f32rne => (Fmt.fp32, RMode.rne)
    | .bf16rne => (Fmt.bf16, RMode.rne)
    | .bf16sr => (Fmt.bf16, RMode.sr)
  (roundFloat fmt false mode draw (xadd mode (decodeFmt fmt [] old) (decodeFmt fmt [] b))).1

/-- The bytes of an AMO or CAS: 4 for .w, 8 for .d (R157). -/
def asize : ASz → Nat
  | .w => 4 | .d => 8

/-- No store of a core's pilot that ended on its way to another chip is still to be reported (R300). -/
def NoneLost (s : State) (c : Nat) : Prop :=
  ∀ r ∈ s.ms.far, r.agent = some (.pilot c) → isWrite r.body = true → r.answer = none

/-- Every earlier store of the pilot whose turn it is has been performed: none is buffered, and none is on its way to another
chip (R144, R252). -/
def StoresDone (s : State) : Prop := (pilot s).storeBuf = [] ∧ farSettled s (.pilot s.turn) = true

/-- A release waits for nothing: every store has been performed, the core has no stash window, and no write of its engines is on
its way to another chip (R156, R264). -/
def NothingOwed (s : State) : Prop :=
  StoresDone s ∧ (coreOf s s.turn).stashes = [] ∧ farSettled s (.fabric s.turn) = true

/-- The pilot of a core is inside the word that it has fetched (R62, R146). -/
def entered (c : Nat) (s : State) : State := onPilot c (fun p => { p with inWord := true }) s

/-- Scratchpad x became y by a write of the low n bytes of v at offset o: the location reads v, every other byte as before. -/
def ScratchWrote (x y : Memory) (o n v : Nat) : Prop :=
  memNat y o n = v % 256 ^ n ∧ ∀ a, a < o ∨ o + n ≤ a → memByte y a = memByte x a

/-- Counter k of core c rose by inc (R295, R298): modulo 2^64, its posted entries tested against the new value, the event
latch of its pilot set (which ends a WFE whose clk had passed, R160), and the queued launches that wait for that value told
of it (R98). Every other counter and all else is as before. -/
structure Raised (c k : Nat) (inc : Word) (s u : State) : Prop where
  only : OnlyCoreTold c s u
  forwarded : u.hub.fifos = s.hub.fifos.map (fun (p, q) => (p, q.map (forwardTo c k (counterOf s c k + inc))))
  value : counterOf u c k = counterOf s c k + inc
  others : ∀ j, j ≠ k → counterOf u c j = counterOf s c j
  kept : coreOf u c = latchAt s.cycle { coreOf s c with
    counters := (coreOf u c).counters
    posted := (coreOf s c).posted.map (fun e => (e.1, testPosted s.cycle k (counterOf s c k + inc) e.2)) }

/-- Core c took a value for one field alone: all else of the machine is as before. -/
def CoreBecame (c : Nat) (f : Core → Core) (s t : State) : Prop := OnlyCore c s t ∧ coreOf t c = f (coreOf s c)

/-! ### Tables of the spec -/

/-- The major opcodes that R65 assigns. -/
def assignedOpcode (op : Nat) : Bool :=
  [(0x01, 0x1C), (0x20, 0x29), (0x40, 0x47), (0x50, 0x52), (0x60, 0x63), (0x70, 0x77), (0x80, 0x89), (0x90, 0x95),
   (0xA0, 0xA4), (0xB0, 0xB4), (0xC0, 0xC8), (0xD0, 0xD6)].any (fun r => decide (r.1 ≤ op) && decide (op ≤ r.2))

/-- 1 when a comparison holds, else 0. -/
def truth (p : Bool) : Word := if p then 1 else 0

/-- R152: gd and its new value, row by row. -/
def rrResult (i : Instr) (s : State) : Option (Reg × Word) :=
  match i with
  | .add gd ga gb => some (gd, reg s ga + reg s gb)
  | .sub gd ga gb => some (gd, reg s ga - reg s gb)
  | .and gd ga gb => some (gd, reg s ga &&& reg s gb)
  | .or gd ga gb => some (gd, reg s ga ||| reg s gb)
  | .xor gd ga gb => some (gd, reg s ga ^^^ reg s gb)
  | .sll gd ga gb => some (gd, reg s ga <<< (reg s gb).extractLsb' 0 6)
  | .srl gd ga gb => some (gd, reg s ga >>> (reg s gb).extractLsb' 0 6)
  | .sra gd ga gb => some (gd, (reg s ga).sshiftRight' ((reg s gb).extractLsb' 0 6))
  | .mul gd ga gb => some (gd, reg s ga * reg s gb)
  | .mulhs gd ga gb => some (gd, ((reg s ga).signExtend 128 * (reg s gb).signExtend 128).extractLsb' 64 64)
  | .mulhu gd ga gb => some (gd, ((reg s ga).setWidth 128 * (reg s gb).setWidth 128).extractLsb' 64 64)
  | .divs gd ga gb => some (gd,
      if reg s gb = 0 then -1
      else if reg s ga = BitVec.intMin 64 ∧ reg s gb = -1 then BitVec.intMin 64
      else (reg s ga).sdiv (reg s gb))
  | .divu gd ga gb => some (gd, if reg s gb = 0 then BitVec.allOnes 64 else reg s ga / reg s gb)
  | .rems gd ga gb => some (gd,
      if reg s gb = 0 then reg s ga
      else if reg s ga = BitVec.intMin 64 ∧ reg s gb = -1 then 0
      else (reg s ga).srem (reg s gb))
  | .remu gd ga gb => some (gd, if reg s gb = 0 then reg s ga else reg s ga % reg s gb)
  | .mins gd ga gb => some (gd, if (reg s ga).toInt ≤ (reg s gb).toInt then reg s ga else reg s gb)
  | .maxs gd ga gb => some (gd, if (reg s ga).toInt ≤ (reg s gb).toInt then reg s gb else reg s ga)
  | .minu gd ga gb => some (gd, if (reg s ga).toNat ≤ (reg s gb).toNat then reg s ga else reg s gb)
  | .maxu gd ga gb => some (gd, if (reg s ga).toNat ≤ (reg s gb).toNat then reg s gb else reg s ga)
  | .seq gd ga gb => some (gd, truth (decide (reg s ga = reg s gb)))
  | .sne gd ga gb => some (gd, truth (decide (reg s ga ≠ reg s gb)))
  | .slt gd ga gb => some (gd, truth (decide ((reg s ga).toInt < (reg s gb).toInt)))
  | .sltu gd ga gb => some (gd, truth (decide ((reg s ga).toNat < (reg s gb).toNat)))
  | .sel gd ga gb gc => some (gd, if reg s gc ≠ 0 then reg s ga else reg s gb)
  | .clz gd ga => some (gd, (reg s ga).clz)
  | .ctz gd ga => some (gd, (reg s ga).ctz)
  | .popc gd ga => some (gd, (reg s ga).cpop)
  | .brev gd ga => some (gd, (reg s ga).reverse)
  | _ => none

/-- R153: gd and its new value, row by row. -/
def riResult (i : Instr) (s : State) : Option (Reg × Word) :=
  match i with
  | .addi gd ga imm => some (gd, reg s ga + BitVec.ofInt 64 imm.toInt)
  | .andi gd ga imm => some (gd, reg s ga &&& BitVec.ofInt 64 imm.toInt)
  | .ori gd ga imm => some (gd, reg s ga ||| BitVec.ofInt 64 imm.toInt)
  | .xori gd ga imm => some (gd, reg s ga ^^^ BitVec.ofInt 64 imm.toInt)
  | .slli gd ga n => some (gd, reg s ga <<< n)
  | .srli gd ga n => some (gd, reg s ga >>> n)
  | .srai gd ga n => some (gd, (reg s ga).sshiftRight' n)
  | .slti gd ga imm => some (gd, truth (decide ((reg s ga).toInt < imm.toInt)))
  | .sltui gd ga imm => some (gd, truth (decide ((reg s ga).toNat < (BitVec.ofInt 64 imm.toInt).toNat)))
  | .lih gd ga u => some (gd, BitVec.ofNat 64 (u.toNat * 2 ^ 32 + (reg s ga).toNat % 2 ^ 32))
  | _ => none

/-- R154: whether a conditional branch is taken, and its offset. -/
def branchTest (i : Instr) (s : State) : Option (Bool × BitVec 32) :=
  match i with
  | .beq ga gb off => some (decide (reg s ga = reg s gb), off)
  | .bne ga gb off => some (decide (reg s ga ≠ reg s gb), off)
  | .blt ga gb off => some (decide ((reg s ga).toInt < (reg s gb).toInt), off)
  | .bge ga gb off => some (decide ((reg s gb).toInt ≤ (reg s ga).toInt), off)
  | .bltu ga gb off => some (decide ((reg s ga).toNat < (reg s gb).toNat), off)
  | .bgeu ga gb off => some (decide ((reg s gb).toNat ≤ (reg s ga).toNat), off)
  | _ => none

/-- R149: what SYSRD reads, by number; none for a number that is no register. -/
def sysRead (s : State) (n : Nat) : Option Word :=
  let p := pilot s
  let i := isleOfCore s s.turn
  match n with
  | 0x000 => some (BitVec.ofNat 64 i.ctx)
  | 0x001 => some (BitVec.ofNat 64 i.prio)
  | 0x002 => some (BitVec.ofNat 64 (2 ^ 8 * i.die + i.index))
  | 0x003 => some (BitVec.ofNat 64 s.turn)
  | 0x004 => some (BitVec.ofNat 64 (selectedId s s.turn))
  | 0x005 => some (BitVec.ofNat 64 i.seq)
  | 0x008 => some p.trapCause
  | 0x009 => some p.trapPc
  | 0x00A => some p.trapVal
  | 0x00B => some p.trapVec
  | 0x00C => some (truth p.inTrap)
  | 0x010 => some (BitVec.ofNat 64 s.cycle)
  | 0x011 => some i.fpflags
  | 0x012 => some i.srkey
  | 0x013 => some s.host.readymap
  | 0x014 => some (BitVec.ofNat 64 i.stallwd)
  | 0x018 => some i.ttbase
  | 0x019 => some i.ttlen
  | 0x01A => some i.rtbase
  | 0x01B => some i.rtlen
  | 0x01C => some i.rubase
  | 0x01D => some i.rulen
  | 0x020 => some i.blktab
  | 0x021 => some (BitVec.ofNat 64 i.blklen)
  | _ => none

/-- R149 and R150: what a register holds after a SYSWR of v by the pilot whose turn it is; none where it raises PERM. -/
def sysWritten (s : State) (n : Nat) (v : Word) : Option Word :=
  match n with
  | 0x008 => some (v &&& 0x3FF)
  | 0x009 | 0x00B => some (v &&& ~~~7)
  | 0x00A | 0x018 | 0x019 | 0x01A | 0x01B | 0x01C | 0x01D => some v
  | 0x00C => if v.toNat ≤ 1 then some v else none
  | 0x011 => some (v &&& 0x7F)
  | 0x014 => if 12 ≤ v.toNat ∧ v.toNat ≤ 30 then some v else none
  | 0x020 => if v.toNat % 16 = 0 ∧ isLead s = true then some v else none
  | 0x021 => if v.toNat ≤ 32 ∧ isLead s = true then some v else none
  | _ => none

/-! ### Stage instructions of elements (R176 to R189) -/

/-- R70: an integer condition. -/
def intCond (m : Nat) (a b : BitVec 32) : Bool :=
  match m with
  | 0 => decide (a = b)
  | 1 => decide (a ≠ b)
  | 2 => decide (a.toInt < b.toInt)
  | 3 => decide (b.toInt ≤ a.toInt)
  | 4 => decide (a.toInt ≤ b.toInt)
  | 5 => decide (b.toInt < a.toInt)
  | 6 => decide (a.toNat < b.toNat)
  | _ => decide (b.toNat ≤ a.toNat)

/-- R70 and R179: a floating-point condition and the flags it sets. -/
def floatCond (m a b : Nat) : Bool × FpFlags :=
  let un := xisNan (f32 a) || xisNan (f32 b)
  let o := xcmp (f32 a) (f32 b)
  match m with
  | 0 => (!un && o == 0, 0)
  | 1 => (un || o != 0, 0)
  | 2 => (!un && o == -1, if un then flagNV else 0)
  | 3 => (!un && o != -1, if un then flagNV else 0)
  | 4 => (!un && o != 1, if un then flagNV else 0)
  | 5 => (!un && o == 1, if un then flagNV else 0)
  | 6 => (un, 0)
  | _ => (!un, 0)

/-- R176 and R177: what an operation gives from one lane of each source, c the control of BFX and BFI; none for other operations. -/
def stageInt (op m : Nat) (a b c : BitVec 32) : Option (BitVec 32) :=
  let p := c.toNat % 32
  let ones := BitVec.ofNat 32 ((2 ^ (c.toNat / 32 % 32 + 1) - 1) * 2 ^ p)
  match op with
  | 0x01 => some a
  | 0x08 => some (a + b)
  | 0x09 => some (a - b)
  | 0x0A => some (a * b)
  | 0x0B => some ((a.signExtend 64 * b.signExtend 64).extractLsb' 32 32)
  | 0x0C => some (a * b + c)
  | 0x0D => some (if a.toInt ≤ b.toInt then a else b)
  | 0x0E => some (if a.toInt ≤ b.toInt then b else a)
  | 0x0F => some (if a.toNat ≤ b.toNat then a else b)
  | 0x10 => some (if a.toNat ≤ b.toNat then b else a)
  | 0x11 => some (a &&& b)
  | 0x12 => some (a ||| b)
  | 0x13 => some (a ^^^ b)
  | 0x14 => some (a <<< (b.toNat % 32))
  | 0x15 => some (a >>> (b.toNat % 32))
  | 0x16 => some (a.sshiftRight (b.toNat % 32))
  | 0x17 => some (if intCond m a b then 1 else 0)
  | 0x18 => some (if c = 0 then b else a)
  | 0x19 => some a.cpop
  | 0x1A => some a.clz
  | 0x1C => some ((a &&& ones) >>> p)
  | 0x1D => some ((a &&& ~~~ones) ||| ((b <<< p) &&& ones))
  | _ => none

/-- R176, R177 and R184 to R187: what lane l of an operation that reads other lanes gives, or that passes A or a head on. -/
def stageMove (g : Stg) (op : Nat) (a b : Nat → BitVec 32) (head : Nat → BitVec 32) (l : Nat) : Option (BitVec 32) :=
  match op with
  | 0x00 => if g.iform then some ((BitVec.ofNat 16 g.imm).signExtend 32) else none
  | 0x02 => some (if l = g.opt % 4 then b 0 else a l)
  | 0x03 => some (a ((b l).toNat % 4))
  | 0x04 => some (a ((b 0).toNat % 4))
  | 0x1B => some ((List.range (l + g.opt % 2)).foldl (fun n k => n + a k) 0)
  | 0x34 => some (head l)
  | 0x35 | 0x36 | 0x37 => some (a l)
  | _ => none

/-- R178 to R183: what a floating-point, conversion or weight operation gives from one lane of each source and the lane's draw,
with its flags. `old` is the lane before it and `t` says that the wave retracts. -/
def stageFloat (g : Stg) (a b c old draw : Nat) (t : Bool) : Option (Nat × FpFlags) :=
  let rm := (rmodeOf g.mode).getD .rne
  let half := fun (x k : Nat) => decodeFmt .bf16 [] (x / 2 ^ (16 * k) % 2 ^ 16)
  let two := fun (lo hi : Nat × FpFlags) => (lo.1 + 2 ^ 16 * hi.1, lo.2 ||| hi.2)
  let r0 := draw / 2 ^ 48
  let r1 := draw / 2 ^ 32 % 2 ^ 16
  let fun1 := fun (f : Fun) => let v := funVal f (f32 a); ((toF32 rm r0 v.1).1, (toF32 rm r0 v.1).2 ||| v.2)
  match g.op with
  | 0x20 => some (addRound .fp32 rm r0 (f32 a) (f32 b))
  | 0x21 => some (addRound .fp32 rm r0 (f32 a) (xneg (f32 b)))
  | 0x22 => some (mulRound .fp32 rm r0 (f32 a) (f32 b))
  | 0x23 => some (fmaRound .fp32 rm r0 (f32 a) (f32 b) (f32 c))
  | 0x24 => some (fmin32 a b, 0)
  | 0x25 => some (fmax32 a b, 0)
  | 0x26 => some (if (floatCond g.mode a b).1 then 1 else 0, (floatCond g.mode a b).2)
  | 0x27 => some (fun1 .rcp)
  | 0x28 => some (fun1 .rsq)
  | 0x29 => some (fun1 .exp2)
  | 0x2A => some (fun1 .log2)
  | 0x2B => some (two (fmaRound .bf16 rm r0 (half a 0) (half b 0) (half c 0)) (fmaRound .bf16 rm r1 (half a 1) (half b 1) (half c 1)))
  | 0x2C => some (two (addRound .bf16 rm r0 (half a 0) (half b 0)) (addRound .bf16 rm r1 (half a 1) (half b 1)))
  | 0x2D => if g.sb % 16 = 5 ∨ g.sc % 16 = 5 then none else some (cvtLane g a old draw)
  | 0x30 => if g.mode = 7 then none else (algOf g.mode).map (fun al => if t ∧ al = .cnt then (a - b, 0) else algAdd al a b)
  | 0x31 => if g.mode = 7 then none else (algOf g.mode).map (fun al => algMul al a b)
  | 0x32 => if g.mode = 7 then none else (algOf g.mode).map (fun al => algCompl al a)
  | _ => none

/-- Lane l of register d in the bank that a stage left. -/
def laneOf (w : Wv) (d l : Nat) : Nat := w.bank.getD (4 * d + l) 0

/-- R174: a stage writes register d in the lanes of a mask, and keeps every other lane and register. -/
def LanesTook (w w' : Wv) (d : Nat) (mask : Nat → Bool) (v : Nat → Nat) : Prop :=
  w'.bank.length = 16 ∧ ∀ d' l, d' < 4 → l < 4 → laneOf w' d' l = if d' = d ∧ mask l = true then v l else laneOf w d' l

/-- A clk of the model's free values has passed. -/
def drew (s : State) : State := { s with tick := s.tick + 1 }

end Sys2Proof.Safety
end

