-- ==== Sys2Proof/Certificates/Slice0/Obligations.lean ====
section
/-! DEFINITION. The statements for the provers. Each names the rule of spec/ it formalises or the model's choice it rests
on; `Sys2Proof.Safety` holds the terms they use. -/

open Sys2Proof Sys2Proof.Machine Sys2Proof.Safety

/-! ### Decoding (R60 to R66) -/

/-- Every well-formed instruction decodes from its own encoding, with every operand as it was encoded. -/
def Obligations.DecodeOfEncode : Prop :=
  ∀ (i : Instr) (w : Word), wellFormed i = true → encode i = some w → decodeWord w = .ok i

/-- A word that decodes is the encoding of what it decodes to, which is well formed: each word has one meaning, and every
bit of it counts. -/
def Obligations.EncodeOfDecode : Prop :=
  ∀ (i : Instr) (w : Word), decodeWord w = .ok i → encode i = some w ∧ wellFormed i = true

/-- Words the spec writes out decode to the instructions it writes them for. -/
def Obligations.SpecWordsDecode : Prop :=
  decodeWord 0x292800000000_7F00 = .ok (.lih 5 0 0x7F00) ∧
  decodeWord 0x1848C85000000000 = .ok (.sel 9 3 4 5) ∧
  decodeWord 0x4700400000000000 = .ok (.jalr 0 1 0) ∧
  decodeWord 0x60190A0000000007 = .ok (.amo .add .d true false 3 4 5) ∧
  decodeWord 0x6231D00C00000000 = .ok (.amof .bf16sr false false 6 7 8) ∧
  decodeWord 0xC248000000000010 = .ok (.sysrd 9 0x010)

/-- A major opcode that R65 leaves unassigned is no instruction, whatever the rest of the word holds. -/
def Obligations.UnassignedOpcodesRejected : Prop :=
  ∀ w : Word, assignedOpcode (w.extractLsb' 56 8).toNat = false → decodeWord w = .error .unassigned

/-! ### Steps and traps (R62, R146, R151) -/

/-- A step with no agenda, and one whose agenda names a pilot, runs the instruction that the word at the program counter
decodes to, in the state that its fetch left, the pilot inside that word; one whose agenda names an event is that event, and one whose agenda names an
input is that input. Before each the clk of the move pass. -/
def Obligations.StepRunsDecoded : Prop :=
  (∀ (s u : State) (w : Word) (i : Instr), s.agenda = [] →
    let s' := s.passing 1
    pilotRunnable s' s.turn = true → atBreak s' s.turn = false → fetchWord s' s.turn = .ok w u → decodeWord w = .ok i →
    step s = exec i (entered s.turn u)) ∧
  (∀ (s u : State) (n c : Nat) (rest : List (Nat × Move)) (w : Word) (i : Instr), s.agenda = (n, .pilot c) :: rest →
    let s' := { s.passing n with agenda := rest, turn := c }
    pilotRunnable s' c = true → atBreak s' c = false → fetchWord s' c = .ok w u → decodeWord w = .ok i →
    step s = exec i (entered c u)) ∧
  (∀ (s : State) (n : Nat) (rest : List (Nat × Move)) (i : Instr), s.agenda = (n, .event i) :: rest →
    step s = exec i { s.passing n with agenda := rest }) ∧
  (∀ (s : State) (n : Nat) (rest : List (Nat × Move)) (x : Input), s.agenda = (n, .input x) :: rest →
    step s = .next (takeInput x { s.passing n with agenda := rest }))

/-- A word that is no instruction raises ILLEGAL with TRAPVAL holding the whole word, and changes nothing else. -/
def Obligations.IllegalWordTraps : Prop :=
  ∀ (s u : State) (w : Word) (r : Reject), s.agenda = [] →
    let s' := s.passing 1
    pilotRunnable s' s.turn = true → atBreak s' s.turn = false → fetchWord s' s.turn = .ok w u → decodeWord w = .error r →
    u.turn = s.turn → CanTrap u →
    ∃ t, step s = .next t ∧ Trapped u 0x01 false false w (pilot s').pc t

/-- No instruction and no event is refused or stops the machine: in every state each answers a next state. -/
def Obligations.NothingRefused : Prop := ∀ (i : Instr) (s : State), ∃ t, exec i s = .next t

/-! ### Integer instructions and branches (R152 to R154) -/

/-- R152: every register-register instruction completes with the result its row gives, and changes nothing but gd. -/
def Obligations.RegisterResults : Prop :=
  ∀ (i : Instr) (s : State) (gd : Reg) (v : Word), rrResult i s = some (gd, v) →
    ∃ t, exec i s = .next t ∧ Completed s gd v ((pilot s).pc + 8) t

/-- R153: every immediate instruction completes with the result its row gives, and changes nothing but gd. -/
def Obligations.ImmediateResults : Prop :=
  ∀ (i : Instr) (s : State) (gd : Reg) (v : Word), riResult i s = some (gd, v) →
    ∃ t, exec i s = .next t ∧ Completed s gd v ((pilot s).pc + 8) t

/-- R64 and R154: a conditional branch goes to its own address plus 8 times the offset when its comparison holds, else to
the next word, and writes no register. -/
def Obligations.BranchesGo : Prop :=
  ∀ (i : Instr) (s : State) (taken : Bool) (off : BitVec 32), branchTest i s = some (taken, off) →
    ∃ t, exec i s = .next t ∧
      Completed s 0 0 (if taken then (pilot s).pc + BitVec.ofInt 64 (8 * off.toInt) else (pilot s).pc + 8) t

/-- R64: a conditional branch that is taken and JAL go to their own address plus 8 times the offset, and JALR to ga plus its
immediate. R154: JAL and JALR write the next address into gd; JALR reads ga before it writes gd, and with a target off 8
bytes it traps ALIGN instead. -/
def Obligations.JumpsLink : Prop :=
  (∀ (i : Instr) (s : State) (off : BitVec 32), branchTest i s = some (true, off) →
    ∃ t, exec i s = .next t ∧ Completed s 0 0 ((pilot s).pc + BitVec.ofInt 64 (8 * off.toInt)) t) ∧
  (∀ (s : State) (gd : Reg) (off : BitVec 32),
    ∃ t, exec (.jal gd off) s = .next t ∧
      Completed s gd ((pilot s).pc + 8) ((pilot s).pc + BitVec.ofInt 64 (8 * off.toInt)) t) ∧
  (∀ (s : State) (gd ga : Reg) (imm : BitVec 32), (reg s ga + imm.signExtend 64).toNat % 8 = 0 →
    ∃ t, exec (.jalr gd ga imm) s = .next t ∧ Completed s gd ((pilot s).pc + 8) (reg s ga + imm.signExtend 64) t) ∧
  (∀ (s : State) (gd ga : Reg) (imm : BitVec 32), (reg s ga + imm.signExtend 64).toNat % 8 ≠ 0 →
    CanTrap s →
    ∃ t, exec (.jalr gd ga imm) s = .next t ∧
      Trapped s 0x02 false false (reg s ga + imm.signExtend 64) (pilot s).pc t)

/-! ### Loads and stores (R144, R145, R148, R155, R156) -/

/-- R155: a load whose access answers bytes completes: LD zero-extends them into gd, LDS sign-extends them, and LD.acq has
acquired. The access itself changes no register, no program counter and nothing else outside the memory side. -/
def Obligations.LoadsComplete : Prop :=
  (∀ (sz : Sz) (acq : Bool) (gd ga : Reg) (d : BitVec 32) (s u : State) (b : List Byte),
    pilotLoad s (reg s ga + d.signExtend 64).toNat (szBytes sz) true = .ok b u →
    ∃ t, exec (.ld sz acq gd ga d) s = .next t ∧ MemorySide s u ∧
      Completed (if acq then acquire u.turn u else u) gd (BitVec.ofNat 64 (ofBytes b)) ((pilot u).pc + 8) t) ∧
  (∀ (sz : Sz) (gd ga : Reg) (d : BitVec 32) (s u : State) (b : List Byte),
    pilotLoad s (reg s ga + d.signExtend 64).toNat (szBytes sz) false = .ok b u → b.length = szBytes sz →
    ∃ t, exec (.lds sz gd ga d) s = .next t ∧ MemorySide s u ∧
      Completed u gd ((BitVec.ofNat (8 * szBytes sz) (ofBytes b)).signExtend 64) ((pilot u).pc + 8) t)

/-- R144, R148 and R155 for the scratchpad window: the newest buffered store that holds every byte of a load forwards
them; a load that overlaps no buffered store reads the scratchpad, and traps POISON where its bytes carry poison; one that a
buffered store overlaps only in part waits; nothing but gd and the program counter changes. -/
def Obligations.WindowLoads : Prop :=
  ∀ (sz : Sz) (gd ga : Reg) (d : BitVec 32) (s : State),
    let ea := (reg s ga + d.signExtend 64).toNat
    let o := ea - 0x7F0000000000
    let found := forward (pilot s).storeBuf true 0 o (szBytes sz)
    let bad := scratchBad (coreOf s s.turn) o (szBytes sz)
    PlainWindow s false ea (szBytes sz) →
    (∀ acq b, found = .bytes b →
      ∃ t, exec (.ld sz acq gd ga d) s = .next t ∧
        Completed (if acq then acquire s.turn s else s) gd (BitVec.ofNat 64 (ofBytes b)) ((pilot s).pc + 8) t) ∧
    (∀ acq, found = .none → bad = false →
      ∃ t, exec (.ld sz acq gd ga d) s = .next t ∧
        Completed (if acq then acquire s.turn s else s) gd
          (BitVec.ofNat 64 (memNat (coreOf s s.turn).scratch o (szBytes sz))) ((pilot s).pc + 8) t) ∧
    (found = .none → bad = false →
      ∃ t, exec (.lds sz gd ga d) s = .next t ∧
        Completed s gd
          ((BitVec.ofNat (8 * szBytes sz) (memNat (coreOf s s.turn).scratch o (szBytes sz))).signExtend 64)
          ((pilot s).pc + 8) t) ∧
    (∀ acq i, i = .ld sz acq gd ga d ∨ i = .lds sz gd ga d → found = .none → bad = true → CanTrap s →
      ∃ t, exec i s = .next t ∧ Trapped s 0x11 false false (BitVec.ofNat 64 ea) (pilot s).pc t) ∧
    (found = .wait →
      exec (.ld sz true gd ga d) s = .next s ∧ exec (.ld sz false gd ga d) s = .next s ∧ exec (.lds sz gd ga d) s = .next s)

/-- R144 and R155: a store whose checks pass enters the buffer as its newest entry with the low bytes of gb, and the pilot
goes on. No register and no byte of memory changes. With eight entries it waits. -/
def Obligations.StoresEnterBuffer : Prop :=
  ∀ (sz : Sz) (rel : Bool) (ga gb : Reg) (d : BitVec 32) (s u : State) (l : Loc),
    let ea := (reg s ga + d.signExtend 64).toNat
    let e := storeEntry l ea (toBytes (szBytes sz) (reg s gb).toNat) rel
    locate s ea (szBytes sz) .write = .ok l u →
    ((pilot u).storeBuf.length < 8 → (∀ p, l = .phys p → storeAllowed u p (szBytes sz) = true) →
      ∃ t, exec (.st sz rel ga gb d) s = .next t ∧ OnlyCore u.turn u t ∧ CoreKept (coreOf u u.turn) (coreOf t u.turn) ∧
        PilotKept { pilot u with storeBuf := (pilot u).storeBuf ++ [e] } (pilot t) ∧ (∀ r, reg t r = reg u r) ∧
        (pilot t).pc = (pilot u).pc + 8) ∧
    (8 ≤ (pilot u).storeBuf.length → exec (.st sz rel ga gb d) s = .next u)

/-- Where an access goes (R148, R155): in the window, plain, to its offset, with nothing changed; a store there must end
below the isle descriptor; outside it, to its translation. -/
def Obligations.AccessesLocated : Prop :=
  (∀ (s : State) (ea n : Nat) (acc : Access), acc ≠ .fetch → PlainWindow s (acc != .read) ea n →
    (acc = .read ∨ ea - 0x7F0000000000 + n ≤ 0x3FFC0) → locate s ea n acc = .ok (.scratch (ea - 0x7F0000000000)) s) ∧
  (∀ (s u : State) (ea n : Nat) (acc : Access) (t : Target), acc ≠ .fetch → ea % n = 0 → ea < 0x7F0000000000 → ea + n ≤ 0xFFFFFFFFFF →
    translate s (viewOf s s.turn) ea acc = .ok t u → scoreboardHit (coreOf u u.turn) (acc != .read) ea n = false →
    u.turn = s.turn → locate s ea n acc = .ok (.phys t) u)

/-- R155 and R157: an access off its own size traps ALIGN, before anything else of it. R148 and R155: an aligned access
outside the window with a byte past tensor 0 traps OOB, a store or atomic into the isle descriptor traps PERM, and so does an AMOF
anywhere in the window; in each TRAPVAL is the address. -/
def Obligations.ForbiddenAccessesTrap : Prop :=
  ∀ (s : State) (gd ga gb gc : Reg) (d : BitVec 32) (acq rel : Bool), CanTrap s →
    let ea := reg s ga + d.signExtend 64
    let traps := fun (i : Instr) (c : Nat) (v : Word) => ∃ t, exec i s = .next t ∧ Trapped s c false false v (pilot s).pc t
    (∀ sz, ea.toNat % szBytes sz ≠ 0 →
      traps (.ld sz acq gd ga d) 0x02 ea ∧ traps (.lds sz gd ga d) 0x02 ea ∧ traps (.st sz rel ga gb d) 0x02 ea) ∧
    (∀ sz f, (reg s ga).toNat % asize sz ≠ 0 →
      traps (.amo f sz acq rel gd ga gb) 0x02 (reg s ga) ∧ traps (.cas sz acq rel gd ga gb gc) 0x02 (reg s ga)) ∧
    (∀ f n, n = (if f = .f32rne then 4 else 2) → (reg s ga).toNat % n ≠ 0 → traps (.amof f acq rel gd ga gb) 0x02 (reg s ga)) ∧
    let out := fun (a n : Nat) => a % n = 0 ∧ (a < 0x7F0000000000 ∨ 0x7F0000040000 ≤ a) ∧ 0xFFFFFFFFFF < a + n
    let desc := fun (a n : Nat) => a % n = 0 ∧ 0x7F0000000000 ≤ a ∧ a < 0x7F0000040000 ∧ 0x3FFC0 < a - 0x7F0000000000 + n
    (∀ sz, out ea.toNat (szBytes sz) →
      traps (.ld sz acq gd ga d) 0x0B ea ∧ traps (.lds sz gd ga d) 0x0B ea ∧ traps (.st sz rel ga gb d) 0x0B ea) ∧
    (∀ sz f, out (reg s ga).toNat (asize sz) →
      traps (.amo f sz acq rel gd ga gb) 0x0B (reg s ga) ∧ traps (.cas sz acq rel gd ga gb gc) 0x0B (reg s ga)) ∧
    (∀ f n, n = (if f = .f32rne then 4 else 2) → out (reg s ga).toNat n → traps (.amof f acq rel gd ga gb) 0x0B (reg s ga)) ∧
    (∀ sz, desc ea.toNat (szBytes sz) → traps (.st sz rel ga gb d) 0x09 ea) ∧
    (∀ sz f, desc (reg s ga).toNat (asize sz) →
      traps (.amo f sz acq rel gd ga gb) 0x09 (reg s ga) ∧ traps (.cas sz acq rel gd ga gb gc) 0x09 (reg s ga)) ∧
    (∀ f n, n = (if f = .f32rne then 4 else 2) → (reg s ga).toNat % n = 0 → 0x7F0000000000 ≤ (reg s ga).toNat →
      (reg s ga).toNat < 0x7F0000040000 → traps (.amof f acq rel gd ga gb) 0x09 (reg s ga))

/-! ### Atomics, FENCE and the home slice (R145, R157, R158, R371) -/

/-- R157: an atomic on bytes of the scratchpad window, owing nothing, completes with gd the old value zero-extended and the
location holding the new one: AMO by its function, CAS gc where the old value equals gb. Every other byte of the scratchpad,
every other register and all else is as before. -/
def Obligations.WindowAtomics : Prop :=
  ∀ (sz : ASz) (acq rel : Bool) (gd ga gb gc : Reg) (s : State),
    let ea := (reg s ga).toNat
    let o := ea - 0x7F0000000000
    let n := asize sz
    let old := memNat (coreOf s s.turn).scratch o n
    let b := (reg s gb).toNat % 2 ^ (8 * n)
    let c := (reg s gc).toNat % 2 ^ (8 * n)
    let wrote := fun (i : Instr) (v : Nat) => ∃ u t, exec i s = .next t ∧
      Completed (if acq then acquire s.turn u else u) gd (BitVec.ofNat 64 old) ((pilot s).pc + 8) t ∧
      OnlyCore s.turn s u ∧ coreOf u s.turn = { coreOf s s.turn with
        scratch := (coreOf u s.turn).scratch, scratchPoison := (coreOf u s.turn).scratchPoison } ∧
      ScratchWrote (coreOf s s.turn).scratch (coreOf u s.turn).scratch o n v
    PlainWindow s true ea n → o + n ≤ 0x3FFC0 → NothingOwed s → (coreOf s s.turn).scratch.wf = true →
    (∀ f, wrote (.amo f sz acq rel gd ga gb) (amoResult f n old b)) ∧
    wrote (.cas sz acq rel gd ga gb gc) (if old = b then c else old)

/-- R157: an atomic whose location is found, that owes nothing and whose event is performed there completes with gd the old
value, and changes nothing outside the memory side of the machine but gd and the program counter; one on a page of host
memory (R252) changes that memory too. The operation is AMO's function of gb, CAS's comparison with gb and store of gc, or
AMOF's sum with gb under the SRKEY of the launch. An AMOF on a cached line that the home slice holds without versions stores the sum
of the old value and gb, rounded once to its format, SR by the draw of the slice's counter, which rises by 1 (R55, R59): its
bytes alone change in the line. -/
def Obligations.AtomicsComplete : Prop :=
  ∀ (acq rel : Bool) (gd ga gb gc : Reg) (s u v : State) (l : Loc) (old : Nat),
    let ea := (reg s ga).toNat
    let goes := fun (i : Instr) (n : Nat) (op : AtomOp) =>
      locate s ea n .both = .ok l u → NothingOwed u → atomicAt u ea n l op = .ok old v →
      ∃ t, exec i s = .next t ∧ MemorySide u { v with host := u.host } ∧
        ((∀ p, l = .phys p → p.home ≠ u.hub.chipid ∨ placeOf p.pa ≠ .host) → v.host = u.host) ∧
        Completed (if acq then acquire v.turn v else v) gd (BitVec.ofNat 64 old) ((pilot v).pc + 8) t
    (∀ f sz, let n := asize sz
      goes (.amo f sz acq rel gd ga gb) n (.amo f ((reg s gb).toNat % 2 ^ (8 * n)))) ∧
    (∀ sz, let n := asize sz
      goes (.cas sz acq rel gd ga gb gc) n
        (.cas ((reg s gb).toNat % 2 ^ (8 * n)) ((reg s gc).toNat % 2 ^ (8 * n)))) ∧
    (∀ f n, n = (if f = .f32rne then 4 else 2) → ¬ (0x7F0000000000 ≤ ea ∧ ea < 0x7F0000040000) →
      goes (.amof f acq rel gd ga gb) n (.amof f ((reg s gb).toNat % 2 ^ (8 * n)) (isleOfCore s s.turn).srkey)) ∧
    (∀ (f : AmofFn) (n : Nat) (p : Target) (x : LlcLine), n = (if f = .f32rne then 4 else 2) →
      ¬ (0x7F0000000000 ≤ ea ∧ ea < 0x7F0000040000) → locate s ea n .both = .ok (.phys p) u → u.turn = s.turn → NothingOwed u →
      p.home = u.hub.chipid → p.pa < 12 * 0xC00000000 → p.cache ≠ 2 → p.pa % 64 + n ≤ 64 → (coreOf u u.turn).rings = [] →
      writeReady u (some (.pilot u.turn)) p.cache p.pa = true → mapFind u.ms.versions (p.pa / 64) = none →
      mapFind u.ms.llc (p.pa / 64) = some x → x.data.length = 64 →
      let o := p.pa % 64
      let was := ofBytes ((x.data.drop o).take n)
      let seq := mapGet 0 u.ms.srSeq (homeSlice p.pa)
      let sum := amofSum f was ((reg s gb).toNat % 2 ^ (8 * n)) (srBits (drawZ (isleOfCore s s.turn).srkey seq))
      ∃ t, exec (.amof f acq rel gd ga gb) s = .next t ∧ (gd ≠ 0 → reg t gd = BitVec.ofNat 64 was) ∧
        (pilot t).pc = (pilot u).pc + 8 ∧
        (∀ i, i < 64 → (lineData t p.key (p.pa / 64)).getD i 0 =
          if o ≤ i ∧ i < o + n then (toBytes n sum).getD (i - o) 0 else x.data.getD i 0) ∧
        (∀ l, l ≠ p.pa / 64 → mapFind t.ms.llc l = mapFind u.ms.llc l) ∧
        mapGet 0 t.ms.srSeq (homeSlice p.pa) = if f = .bf16sr then seq + 1 else seq)

/-- R158: a FENCE of any scope waits while a store is buffered, and changes nothing; owing nothing it completes and discards
the instruction cache, and changes nothing else. -/
def Obligations.FenceCompletes : Prop :=
  ∀ (k : Scope) (s : State),
    ((pilot s).storeBuf ≠ [] → exec (.fence k) s = .next s) ∧
    (NothingOwed s → ∃ u t, exec (.fence k) s = .next t ∧ OnlyCore s.turn s u ∧
      coreOf u s.turn = { coreOf s s.turn with pilot := { pilot s with icache := [] } } ∧
      Completed u 0 0 ((pilot s).pc + 8) t)

/-- R144: the store buffer drains in program order, one store at a time. The oldest store of a core's own scratchpad is
performed there: its bytes stand at its offset, every other byte of the scratchpad is as before, the buffer loses its head,
and nothing else changes. -/
def Obligations.WindowStoresDrain : Prop :=
  ∀ (c : Nat) (s : State) (b : BufStore) (rest : List BufStore), (coreOf s c).pilot.storeBuf = b :: rest →
    NoneLost s c → b.sent = false → b.scratch = true → (coreOf s c).stashes = [] → (coreOf s c).scratch.wf = true →
    ∃ t, exec (.storeBufferDrain c) s = .next t ∧ OnlyCore c s t ∧
      coreOf t c = { coreOf s c with
        pilot := { (coreOf s c).pilot with storeBuf := rest }, scratch := (coreOf t c).scratch
        scratchPoison := (coreOf t c).scratchPoison } ∧
      memBytes (coreOf t c).scratch b.addr b.bytes.length = b.bytes ∧
      ∀ a, a < b.addr ∨ b.addr + b.bytes.length ≤ a → memByte (coreOf t c).scratch a = memByte (coreOf s c).scratch a

/-- R144 and R145: the oldest store of a core, to a cached line of its own die that is ready and has no version (R371), is
performed at the home slice: the line reads with the store's bytes in their places and its other bytes as before, every
other line held there is as before, and of the core only the buffer, the clock and the data cache change. -/
def Obligations.HomeStoresDrain : Prop :=
  ∀ (c : Nat) (s : State) (b : BufStore) (rest : List BufStore) (x : LlcLine),
    NoneLost s c → (coreOf s c).pilot.storeBuf = b :: rest → b.sent = false → b.scratch = false → b.rel = false → b.home = s.hub.chipid →
    b.addr < 12 * 0xC00000000 → b.cache ≠ 2 → b.addr % 64 + b.bytes.length ≤ 64 → homeDie b.addr = dieOfCore c →
    hbmReady s b.addr b.cache = true → (coreOf s c).rings = [] → mapFind s.ms.versions (b.addr / 64) = none →
    mapFind s.ms.llc (b.addr / 64) = some x → x.data.length = 64 →
    ∃ t, exec (.storeBufferDrain c) s = .next t ∧ t.hub = s.hub ∧ t.host = s.host ∧
      (∀ i, i < 64 → (lineData t b.key (b.addr / 64)).getD i 0 =
        if b.addr % 64 ≤ i ∧ i < b.addr % 64 + b.bytes.length then b.bytes.getD (i - b.addr % 64) 0 else x.data.getD i 0) ∧
      (∀ l, l ≠ b.addr / 64 → mapFind t.ms.llc l = mapFind s.ms.llc l) ∧ (∀ a, memByte t.ms.mem a = memByte s.ms.mem a) ∧
      (∀ d, d ≠ c → coreOf t d = coreOf s d) ∧
      coreOf t c = { coreOf s c with
        pilot := { (coreOf s c).pilot with storeBuf := rest, dcache := (coreOf t c).pilot.dcache }, pts := (coreOf t c).pts }

/-- The model's own invariant (the canonical form of notes/assumptions/1.md): HBM, host memory and the scratchpads stay in canonical
form. Each integer, branch, system register, memory, atomic and fence instruction of a pilot keeps it, and so do the drain of a store
buffer, a fetch, the packets of a slice and their replies, a message between dies and the advance of a clock. The statement is about
those alone: other events that write memory are not in it. -/
def Obligations.MemoryKept : Prop :=
  ∀ (i : Instr) (s t : State), MemoriesWf s → exec i s = .next t →
    (rrResult i s).isSome = true ∨ (riResult i s).isSome = true ∨ (branchTest i s).isSome = true ∨
      (∃ gd off, i = .jal gd off) ∨ (∃ gd ga imm, i = .jalr gd ga imm) ∨
      (∃ sz acq gd ga d, i = .ld sz acq gd ga d) ∨ (∃ sz gd ga d, i = .lds sz gd ga d) ∨ (∃ sz rel ga gb d, i = .st sz rel ga gb d) ∨
      (∃ f sz acq rel gd ga gb, i = .amo f sz acq rel gd ga gb) ∨ (∃ sz acq rel gd ga gb gc, i = .cas sz acq rel gd ga gb gc) ∨
      (∃ f acq rel gd ga gb, i = .amof f acq rel gd ga gb) ∨ (∃ k, i = .fence k) ∨ (∃ gd n, i = .sysrd gd n) ∨
      (∃ ga n, i = .syswr ga n) ∨ (∃ c, i = .storeBufferDrain c) ∨ (∃ c, i = .instructionFetch c) ∨
      (∃ op pa g, i = .baseDiePacket op pa g) ∨ (∃ n k g, i = .baseDieReply n k g) ∨ (∃ d k, i = .dieMessage d k) ∨
      (∃ g, i = .ptsTick g) →
    MemoriesWf t

/-! ### System instructions and the pilot's own events (R149 to R151, R160, R342) -/

/-- R151 and R160: TRAP completes and enters the handler with its cause, SOFT set, TRAPVAL ga and TRAPPC the next
instruction; BRK outside nydb does so with cause BRK and TRAPVAL its tag. R274: in a launch that nydb is attached to BRK stops
the pilot before it completes, and completes once nydb has resumed it. R151: a trap while a handler runs, or with TRAPVEC 0,
halts the pilot; here TRAP does, in a launch without a commit point while the service ring is disabled. -/
def Obligations.TrapsEnterHandlers : Prop :=
  ∀ (s : State) (ga : Reg) (cause : Byte) (tag : BitVec 32),
    (CanTrap s → ∃ t, exec (.trap ga cause) s = .next t ∧
      Trapped s cause.toNat false true (reg s ga) ((pilot s).pc + 8) t) ∧
    (CanTrap s → (isleOfCore s s.turn).attached = false → ∃ t, exec (.brk tag) s = .next t ∧
      Trapped s 0x1C false false (tag.setWidth 64) ((pilot s).pc + 8) t) ∧
    ((isleOfCore s s.turn).attached = true → (pilot s).passBreak ≠ some (pilot s).pc → (pilot s).steps = 0 →
      exec (.brk tag) s = .next (onPilot s.turn (fun p => { p with held := true }) s)) ∧
    ((isleOfCore s s.turn).attached = true → (pilot s).passBreak = some (pilot s).pc →
      ∃ t, exec (.brk tag) s = .next t ∧ Completed s 0 0 ((pilot s).pc + 8) t) ∧
    ((pilot s).inTrap = true ∨ (pilot s).trapVec = 0 → frSlots s = 0 → (isleOfCore s s.turn).commit = none →
      ∃ t, exec (.trap ga cause) s = .next t ∧ (coreOf t s.turn).pilot.halted = true)

/-- R160: ERET inside a handler clears INTRAP and goes on at TRAPPC in the wait that the trap interrupted, and changes no
register; outside one it raises PERM (its TRAPVAL is a free value). -/
def Obligations.EretReturns : Prop :=
  ∀ s : State,
    ((pilot s).inTrap = true → ∃ t, exec .eret s = .next t ∧ OnlyCore s.turn s t ∧ CoreKept (coreOf s s.turn) (coreOf t s.turn) ∧
      pilot t = { pilot s with inTrap := false, pc := (pilot s).trapPc, stage := (pilot s).savedStage, savedStage := .none
                               passBreak := (pilot t).passBreak, steps := (pilot s).steps - 1, inWord := false }) ∧
    (CanTrap s → ∃ t v, exec .eret s = .next t ∧ Trapped (drew s) 0x09 false false v (pilot s).pc t)

/-- R149: SYSRD of every register completes with its value in gd. -/
def Obligations.SysrdReads : Prop :=
  ∀ (gd : Reg) (n : BitVec 12) (s : State) (v : Word), sysRead s n.toNat = some v →
    ∃ t, exec (.sysrd gd n) s = .next t ∧ Completed s gd v ((pilot s).pc + 8) t

/-- R149 and R150: SYSWR of every register that may be written, with a value it takes, completes: the register then reads
that value with its reserved bits 0, every other system register and every general register as before, and nothing outside
the core and its isle changes. One that the register does not take raises PERM and changes nothing: of a register marked R
with TRAPVAL its number; of STALLWD outside 12 to 30, BLKLEN above 32 or BLKTAB off 16 bytes with TRAPVAL the value; of BLKLEN
or BLKTAB by a pilot other than the lead, and of a reserved bit of TRAPSTAT (their TRAPVAL is a free value). -/
def Obligations.SyswrWrites : Prop :=
  (∀ (ga : Reg) (n : BitVec 12) (s : State) (v : Word) (k : Nat), sysWritten s n.toNat (reg s ga) = some v →
    (coreOf s s.turn).isle = some k →
    ∃ t, exec (.syswr ga n) s = .next t ∧ sysRead t n.toNat = some v ∧ (∀ m, m ≠ n.toNat → sysRead t m = sysRead s m) ∧
      (∀ r, reg t r = reg s r) ∧ (pilot t).pc = (pilot s).pc + 8 ∧ CoreKept (coreOf s s.turn) (coreOf t s.turn) ∧
      t.ms = s.ms ∧ t.host = s.host ∧ t.turn = s.turn ∧ (∀ d, d ≠ s.turn → coreOf t d = coreOf s d) ∧
      (∀ j, j ≠ k → isleOf t j = isleOf s j)) ∧
  (∀ (ga : Reg) (s : State), CanTrap s →
    (∀ n : BitVec 12, n.toNat ∈ [0x000, 0x001, 0x002, 0x003, 0x004, 0x005, 0x010, 0x012, 0x013] →
      ∃ t, exec (.syswr ga n) s = .next t ∧ Trapped s 0x09 false false (n.setWidth 64) (pilot s).pc t) ∧
    (∀ n : BitVec 12, (n = 0x014 ∧ ((reg s ga).toNat < 12 ∨ 30 < (reg s ga).toNat)) ∨ (n = 0x021 ∧ 32 < (reg s ga).toNat) ∨
        (n = 0x020 ∧ (reg s ga).toNat % 16 ≠ 0) →
      ∃ t, exec (.syswr ga n) s = .next t ∧ Trapped s 0x09 false false (reg s ga) (pilot s).pc t) ∧
    (∀ n : BitVec 12, (n = 0x00C ∧ 1 < (reg s ga).toNat) ∨
        (isLead s = false ∧ ((n = 0x020 ∧ (reg s ga).toNat % 16 = 0) ∨ (n = 0x021 ∧ (reg s ga).toNat ≤ 32))) →
      ∃ t v, exec (.syswr ga n) s = .next t ∧ Trapped (drew s) 0x09 false false v (pilot s).pc t))

/-- R160: WFE with the latch set clears it and answers 1; else with a bound it begins to wait, and once its t clk have passed
it answers 0, on its own turn or by the timeout, unless nydb has frozen the isle; without a bound it waits unchanged. -/
def Obligations.WfeWaits : Prop :=
  ∀ (gd : Reg) (t : BitVec 32) (s : State),
    ((pilot s).eventLatch = true → ∃ u v, exec (.wfe gd t) s = .next v ∧
      u = onPilot s.turn (fun p => { p with eventLatch := false }) s ∧ Completed u gd 1 ((pilot s).pc + 8) v) ∧
    ((pilot s).eventLatch = false → (pilot s).wfeUntil = none → t ≠ 0 → exec (.wfe gd t) s =
      .next (onPilot s.turn (fun p => { p with wfeUntil := some (s.cycle + t.toNat), wfeGd := gd.toNat }) s)) ∧
    ((pilot s).eventLatch = false → (pilot s).wfeUntil = none → t = 0 → exec (.wfe gd t) s = .next s) ∧
    (∀ n, (pilot s).eventLatch = false → (pilot s).wfeUntil = some n → n ≤ s.cycle → (pilot s).wfeGd = gd.toNat →
      (∃ v, exec (.wfe gd t) s = .next v ∧ Completed s gd 0 ((pilot s).pc + 8) v) ∧
      ((isleOfCore s s.turn).frozen = false → ∃ v, exec (.wfeTimeout s.turn) s = .next v ∧ Completed s gd 0 ((pilot s).pc + 8) v))

/-- R151 and R342: a pilot that moves outside a handler takes the oldest report of its queue: TRAPCAUSE is its code with
FABRIC set, TRAPPC the instruction it stands at, the wait it is in is kept for ERET (one of STEPCMT or STEPABT begins again), and the
next report becomes the oldest. A
raised report joins the queue with its record written in the report ring, and sets the event latch, which ends a WFE whose
clk have passed. -/
def Obligations.ReportsQueueAndTrap : Prop :=
  (∀ (c : Nat) (s : State) (r : Report) (rs : List Report), pilotRunnable s c = true →
    (coreOf s c).pilot.inTrap = false → (coreOf s c).pilot.trapVec ≠ 0 → (isleOfCore s c).quiesceAt = none →
    (coreOf s c).pilot.stage ≠ .restore → farWaits s (.pilot c) = false → (coreOf s c).pilot.reports = r :: rs →
    ∃ t, exec (.takeTrap c) s = .next t ∧ OnlyCore c s t ∧
      coreOf t c = { coreOf s c with pts := (coreOf t c).pts, pilot := { (coreOf s c).pilot with
        reports := rs, reportsTaken := (coreOf s c).pilot.reportsTaken + 1
        trapCause := BitVec.ofNat 64 (r.code + 0x100), trapVal := r.val, trapPc := (coreOf s c).pilot.pc, inTrap := true
        pc := (coreOf s c).pilot.trapVec, stage := .none, savedStage := (coreOf s c).pilot.stage.kept, inWord := false
        wfeUntil := none } }) ∧
  (∀ (c : Nat) (s u : State) (r : Report) (rs : List Report), (coreOf s c).pilot.raised = r :: rs → r.parked = false →
    (coreOf s c).pilot.reports.length < 16 → (coreOf s c).isle ≠ none → (isleOfCore s c).frozen = false →
    writeFlat s (some (.fabric c)) (viewOf s c)
      ((isleOfCore s c).spillBase + 0xC800000 + 1024 * c +
        64 * (((coreOf s c).pilot.reportsTaken + (coreOf s c).pilot.reports.length) % 16))
      ((reportBytes r ((coreOf s c).pilot.reportSeq + 1)).map some) false = .ok () u →
    exec (.fabricReport c) s = .next (onCore c (fun x => latchAt u.cycle { x with pilot := { x.pilot with
      raised := rs, reports := x.pilot.reports ++ [r], reportSeq := (coreOf s c).pilot.reportSeq + 1 } }) u))

/-- R146 and R274: a fetch that brings in a word that decodes changes nothing but the memory side, and the pilot is inside that word;
a pilot whose program counter stands at a breakpoint of nydb is held there, and nothing else changes. -/
def Obligations.FetchesAndBreakpoints : Prop :=
  (∀ (c : Nat) (s u : State) (w : Word) (i : Instr), pilotRunnable s c = true → fetchWord s c = .ok w u → decodeWord w = .ok i →
    exec (.instructionFetch c) s = .next (entered c u) ∧ MemorySide s u) ∧
  (∀ (c : Nat) (s : State), pilotRunnable s c = true → atBreak s c = true →
    exec (.pilotBreakpointHit c) s = .next (onPilot c (fun p => { p with held := true }) s))

/-! ### Trigger counters and posted operations (R295 to R310) -/

/-- R295 and R308 to R310, while nydb has no breakpoint: TADD waits while a store is still to be performed, and then raises its own counter
by ga; TRD reads a counter and acquires nothing; TWAIT goes on and acquires once the counter is at or above ga and waits unchanged until then; the oldest increment
that a message brought is applied. -/
def Obligations.CountersRise : Prop :=
  ∀ s : State,
    (∀ (ga : Reg) (c : CtrRef), s.nydb.breaks = [] → StoresDone s → (pilot s).wfeUntil = none → ∃ u t, exec (.tadd ga c) s = .next t ∧
      Raised s.turn (ctrOf s c) (reg s ga) s u ∧ Completed u 0 0 ((pilot s).pc + 8) t) ∧
    (∀ (ga : Reg) (c : CtrRef), ¬ StoresDone s → exec (.tadd ga c) s = .next s) ∧
    (∀ (gd : Reg) (c : CtrRef), ∃ t, exec (.trd gd c) s = .next t ∧
      Completed s gd (counterOf s s.turn (ctrOf s c)) ((pilot s).pc + 8) t) ∧
    (∀ (ga : Reg) (c : CtrRef), (reg s ga).toNat ≤ (counterOf s s.turn (ctrOf s c)).toNat →
      ∃ t, exec (.twait ga c) s = .next t ∧ Completed (acquire s.turn s) 0 0 ((pilot s).pc + 8) t) ∧
    (∀ (ga : Reg) (c : CtrRef), (counterOf s s.turn (ctrOf s c)).toNat < (reg s ga).toNat → exec (.twait ga c) s = .next s) ∧
    (∀ (c k : Nat) (inc : Word) (rest : List (Nat × Word)), s.nydb.breaks = [] → k < 64 →
      (coreOf s c).incoming = (k, inc) :: rest → (isleOfCore s c).frozen = false → ∃ t, exec (.counterIncrement c) s = .next t ∧
        Raised c k inc (onCore c (fun x => { x with incoming := rest }) s) t)

/-- R306 and R307: NPOST, its record read and accepted and its stores performed, fills the lowest free entry, or the one it
names, and answers its number; with no entry free it answers all ones and fills none. NCANCEL answers 0 for a free entry,
frees one that is not in progress and answers 1, or 2 where it has fired, and asks one in progress to end and waits. -/
def Obligations.PostedEntries : Prop :=
  (∀ (at_ : Option Byte) (gd ga : Reg) (s u : State) (b : List Byte) (p : PostRec) (e : Nat),
    (reg s ga).toNat % 64 = 0 → pilotRecord s (reg s ga).toNat 64 = .ok b u → parsePost b = some p →
    chainOk (coreOf u u.turn) p = true → StoresDone u →
    (match at_ with
      | none => freePosted (coreOf u u.turn) = some e
      | some n => n.toNat = e ∧ mapFind (coreOf u u.turn).posted e = none ∧ (e < 252 ∨ (coreOf u u.turn).quiesce.armed = false)) →
    ∃ v t, exec (.npost at_ gd ga) s = .next t ∧ OnlyCore u.turn u v ∧
      coreOf v u.turn = { coreOf u u.turn with fabricPts := (coreOf v u.turn).fabricPts, readWts := (coreOf v u.turn).readWts
                                               posted := (coreOf v u.turn).posted } ∧
      mapFind (coreOf v u.turn).posted e =
        some (testPosted u.cycle p.trigk (counterOf u u.turn p.trigk) { post := p, raw := b, thresh := p.thresh }) ∧
      (∀ j, j ≠ e → mapFind (coreOf v u.turn).posted j = mapFind (coreOf u u.turn).posted j) ∧
      Completed v gd (BitVec.ofNat 64 e) ((pilot u).pc + 8) t) ∧
  (∀ (gd ga : Reg) (s u : State) (b : List Byte) (p : PostRec),
    (reg s ga).toNat % 64 = 0 → pilotRecord s (reg s ga).toNat 64 = .ok b u → parsePost b = some p →
    chainOk (coreOf u u.turn) p = true → freePosted (coreOf u u.turn) = none →
    ∃ t, exec (.npost none gd ga) s = .next t ∧ Completed u gd (BitVec.allOnes 64) ((pilot u).pc + 8) t) ∧
  (∀ (gd ga : Reg) (s : State), (reg s ga).toNat < 256 →
    (∀ q ∈ (coreOf s s.turn).posted, inFlight q.2 = true → (reg s ga).toNat ∉ q.2.post.slots) →
    (mapFind (coreOf s s.turn).posted (reg s ga).toNat = none →
      ∃ t, exec (.ncancel gd ga) s = .next t ∧ Completed s gd 0 ((pilot s).pc + 8) t) ∧
    (∀ p, mapFind (coreOf s s.turn).posted (reg s ga).toNat = some p →
      (inFlight p = false → ∃ v t, exec (.ncancel gd ga) s = .next t ∧
        CoreBecame s.turn (fun x => { x with posted := mapDel x.posted (reg s ga).toNat }) s v ∧
        Completed v gd (if p.fired then 2 else 1) ((pilot s).pc + 8) t) ∧
      (inFlight p = true → ∃ t, exec (.ncancel gd ga) s = .next t ∧
        CoreBecame s.turn (fun x => { x with posted := mapPut x.posted (reg s ga).toNat { p with cancelled := true } }) s t)))

/-- R298 to R300, while nydb has no breakpoint: the engine starts an entry that is ready, first in order and finds room
among 16, one per clk; an operation in progress whose action is performed, and whose bytes for other chips have been performed
there, raises RK at its target, frees its entry and raises DONEK, when it is neither periodic nor cancelled; while such bytes
are on their way it waits; one whose target is not held ends with a PERM report of the entry's number plus 2^8. -/
def Obligations.PostedOperations : Prop :=
  ∀ (c e : Nat) (s : State) (p : Posted), mapFind (coreOf s c).posted e = some p →
    (∀ clk, p.state = .ready clk → sourcesOn s c = true →
      (∀ q ∈ (coreOf s c).posted, q.1 ≠ e → firesBefore q (e, p) = false) →
      ((coreOf s c).posted.filter (fun q => inFlight q.2)).length < 16 → (coreOf s c).firedAt ≠ some s.cycle →
      ∃ t, exec (.postedFire c e) s = .next t ∧ OnlyCore c s t ∧
        coreOf t c = { coreOf s c with
          fabricPts := (coreOf t c).fabricPts, readWts := (coreOf t c).readWts, evctrs := (coreOf t c).evctrs, fireSeq := (coreOf s c).fireSeq + 1
          firedAt := some s.cycle
          posted := mapPut (coreOf s c).posted e
            { p with state := .inProgress (coreOf s c).fireSeq, fired := true, chainPos := 0, moved := none } }) ∧
    (∀ seq u rk, p.state = .inProgress seq → fabricOn s c = true → p.post.action ≠ 4 → p.moved = none →
      actionFails s c e p.post = false → olderToTarget s (coreOf s c) p.post seq = false → perform c e p.post s = .ok rk u →
      (farSettled u (.fabric c) = true →
        let w := raiseRk rk c p.post (dropEntry c e u)
        w.nydb.breaks = [] → mapFind (coreOf w c).posted e = some p → p.post.periodic = false → p.cancelled = false →
        p.post.donek < 64 →
        ∃ v t, CoreBecame c (fun x => { x with posted := mapDel x.posted e }) w v ∧ exec (.postedComplete c e) s = .next t ∧
          (if p.post.doneken = true then Raised c p.post.donek 1 v t else t = v)) ∧
      (farSettled u (.fabric c) = false → exec (.postedComplete c e) s =
        .next (onCore c (fun x => { x with posted := mapPut x.posted e { p with moved := some rk } }) u))) ∧
    (∀ seq, p.state = .inProgress seq → p.post.action ≠ 4 → p.moved = none → actionFails s c e p.post = true →
      reportRoom s c = true →
      s.nydb.breaks = [] → p.cancelled = false → (coreOf s c).pilot.trapVec ≠ 0 →
      ∃ t, exec (.postedFailure c e) s = .next t ∧ OnlyCore c (dropEntry c e s) t ∧
        coreOf t c = { coreOf s c with
          evctrs := (coreOf t c).evctrs, posted := mapDel (coreOf s c).posted e
          pilot := { (coreOf s c).pilot with raised := (coreOf s c).pilot.raised ++
            [{ code := 0x09, val := BitVec.ofNat 64 (e + 2 ^ 8), source := 4 }] } })

/-! ### Barriers, copies and stash windows (R257 to R272) -/

/-- R261: a subtraction of arrivals and sectors is refused when either would fall below 0; when both reach 0 the phase
completes: PHASE rises by 1 modulo 16 and ARRIVALS takes FANIN; otherwise only the two counts fall. POISON stays once set.
R269 and R270, while nydb has no breakpoint: TBINIT writes the barrier that gb gives; TBARV, its stores performed,
subtracts 1 or gb, raises PHK when that completes the phase, and traps TBOVF when it cannot; TBWAIT waits while PHASE is
gb[3:0], and with TBTEST then answers PHASE, acquires, and traps POISON after gd where the barrier holds poison; the oldest
update that an engine owes is subtracted while the isle is not frozen, and one that subtracts nothing leaves its POISON. Before each the
stash line under the barrier has been made ready (R263). That an update without arrivals or sectors leaves its POISON is the
model's choice (notes/assumptions/18.md). -/
def Obligations.BarrierInstructions : Prop :=
  (∀ (b : Bar) (n k : Nat) (p : Bool),
    ((b.arrivals < n ∨ b.sectors < k) → b.sub n k p = none) ∧
    (b.arrivals = n → b.sectors = k → b.sub n k p = some
      ({ b with phase := (b.phase + 1) % 16, arrivals := b.fanin, sectors := 0, poison := b.poison || p }, true)) ∧
    (n ≤ b.arrivals → k ≤ b.sectors → (n < b.arrivals ∨ k < b.sectors) → b.sub n k p = some
      ({ b with arrivals := b.arrivals - n, sectors := b.sectors - k, poison := b.poison || p }, false))) ∧
  (∀ s : State,
    (∀ ga gb : Reg,
      let a := (reg s ga).toNat
      let v := (reg s gb).toNat
      let b : Bar := { phk := v / 2 ^ 20 % 64, phken := v / 2 ^ 26 % 2 == 1, fanin := v % 2 ^ 20, arrivals := v % 2 ^ 20 }
      barPlaceOk a = true → (inWindow a = true → a - 0x7F0000000000 + 16 ≤ 0x3FFC0) → v < 2 ^ 27 → barInUse s s.turn a = false →
      ∀ u, Touched s a true u →
      ∃ t, exec (.tbinit ga gb) s = .next t ∧ Completed (onCore u.turn (putBar a b) u) 0 0 ((pilot u).pc + 8) t ∧
        (inWindow a = true → (coreOf u u.turn).scratch.wf = true → readBar (coreOf t u.turn) a = b)) ∧
    (∀ (n : Bool) (ga gb : Reg) (u : State),
      let a := (reg s ga).toNat
      let k := if n then (reg u gb).toNat else 1
      barPlaceOk a = true → (inWindow a = true → a - 0x7F0000000000 + 16 ≤ 0x3FFC0) → StoresDone s →
      Touched s a true u →
      (∀ b flip, (readBar (coreOf u u.turn) a).sub k 0 false = some (b, flip) → b.phk < 64 → u.nydb.breaks = [] →
        (pilot u).wfeUntil = none →
        ∃ v t, exec (.tbarv n ga gb) s = .next t ∧ Completed v 0 0 ((pilot u).pc + 8) t ∧
          (if flip = true ∧ b.phken = true then Raised u.turn b.phk 1 (onCore u.turn (putBar a b) u) v
           else v = onCore u.turn (putBar a b) u)) ∧
      ((readBar (coreOf u u.turn) a).sub k 0 false = none → CanTrap u →
        ∃ t, exec (.tbarv n ga gb) s = .next t ∧ Trapped u 0x12 false false (reg u ga) (pilot u).pc t)) ∧
    (∀ (gd ga gb : Reg) (u : State),
      let a := (reg s ga).toNat
      let b := readBar (coreOf u u.turn) a
      let shows := fun (i : Instr) =>
        (b.poison = false → ∃ t, exec i s = .next t ∧
          Completed (acquire u.turn u) gd (BitVec.ofNat 64 b.phase) ((pilot u).pc + 8) t) ∧
        (b.poison = true → CanTrap u → ∃ t, exec i s = .next t ∧
          Trapped (setReg gd (BitVec.ofNat 64 b.phase) (acquire u.turn u)) 0x11 false false (reg u ga) (pilot u).pc t)
      barPlaceOk a = true → Touched s a false u →
      shows (.tbtest gd ga) ∧ (b.phase ≠ (reg u gb).toNat % 16 → shows (.tbwait gd ga gb)) ∧
        (b.phase = (reg u gb).toNat % 16 → exec (.tbwait gd ga gb) s = .next u)) ∧
    (∀ (c : Nat) (u : BarUpdate) (us : List BarUpdate), (coreOf s c).barQueue = u :: us → (isleOfCore s c).frozen = false →
      (inWindow u.addr = true → (fabricTouch c (u.addr - 0x7F0000000000) 16 s).1 = true) →
      (∀ b flip, ¬ (u.arrivals = 0 ∧ u.sectors = 0) →
        (readBar (coreOf s c) u.addr).sub u.arrivals u.sectors u.poison = some (b, flip) → b.phk < 64 → s.nydb.breaks = [] →
        ∃ v, exec (.barrierUpdate c) s = .next (onCore c (fun x => { x with barQueue := us }) v) ∧
          (if flip = true ∧ b.phken = true then Raised c b.phk 1 (onCore c (putBar u.addr b) s) v
           else v = onCore c (putBar u.addr b) s)) ∧
      (u.arrivals = 0 → u.sectors = 0 → exec (.barrierUpdate c) s =
        .next (onCore c (fun x => { putBar u.addr { readBar x u.addr with poison := (readBar x u.addr).poison || u.poison } x with
          barQueue := us }) s))))

/-- R259, R262 and R268: a CPY or CPYT whose record and tensors are read and accepted, with a scoreboard entry free, its
stores performed and no barrier named, takes the lowest free entry with the intervals of R262 and the segments of R259 and
completes at issue. A pending segment that has moved whole is finished: the copy retires with its last and then raises CK; while
bytes of it are on their way to other chips it waits, and is finished once they are performed there. One whose destination is an
ATOLL moves slot by slot. How a copy is cut into segments, and that an ATOLL's segment moves slot by slot, is the model's choice
(notes/assumptions/18.md), and so is the wait for far bytes (notes/assumptions/74.md). -/
def Obligations.CopiesIssueAndLand : Prop :=
  (∀ (tr : Bool) (ga : Reg) (s u v w : State) (b : List Byte) (r : CopyRec) (st dt : TensorRec) (e k : Nat),
    (reg s ga).toNat % 256 = 0 → pilotRecord s (reg s ga).toNat 256 = .ok b u → parseCopy tr b = some r →
    copyTensor r.skind r.saddr u = .ok st v → copyTensor r.dkind r.daddr v = .ok dt w →
    k = (if r.skind = 0 then st.width else if r.dkind = 0 then dt.width else (fmtOf r.efmt).elim 8 fmtWidth) →
    copyOk (coreOf w w.turn) r k st dt = true →
    overlapsStash (coreOf w w.turn) (intervalOf r.skind r.saddr k st r.scoord r.srcTerms) = false →
    let lands := fun (i : Option (Nat × Nat × Nat)) =>
      (r.dkind ≠ 3 ∧ i = intervalOf r.dkind r.daddr k dt r.dcoord r.dstTerms) ∨
      ∃ a, r.dkind = 3 ∧ atollOf (coreOf w w.turn) r.daddr = some a ∧ i = some (1, a.base, a.base + atollExtent a - 1)
    (∀ i, lands i → overlapsStash (coreOf w w.turn) i = false) →
    freeEntry (coreOf w w.turn) = some e → StoresDone w → r.tbar = 0 →
    ∃ x j t, exec (if tr then .cpyt ga else .cpy ga) s = .next t ∧ Completed x 0 0 ((pilot w).pc + 8) t ∧
      x.ms = w.ms ∧ x.hub = w.hub ∧ (∀ d, d ≠ w.turn → coreOf x d = coreOf w d) ∧
      coreOf x w.turn = { coreOf w w.turn with
        fabricPts := (coreOf x w.turn).fabricPts, readWts := (coreOf x w.turn).readWts, jobs := mapPut (coreOf w w.turn).jobs e j } ∧
      j.copy = r ∧ j.width = k ∧ j.stensor = st ∧ j.dtensor = dt ∧
      j.src = intervalOf r.skind r.saddr k st r.scoord r.srcTerms ∧ lands j.dst ∧
      j.segs = segmentsOf { j with segs := [] }) ∧
  (∀ (c e n : Nat) (s u : State) (j0 j : CopyJob) (g : Seg) (bad moved : Bool),
    let now := bad || moved
    let keep := fun (f : Seg → Seg) => onCore c (fun x => { x with jobs := mapPut x.jobs e { j with segs := j.segs.modify n f } }) u
    let j' := { j with segs := j.segs.modify n (fun g => { g with state := .done }) }
    mapFind (coreOf s c).jobs e = some j0 → j0.segs[n]? = some g → (isleOfCore s c).frozen = false → unitHeld (coreOf s c) 3 0 = false →
    ((g.state = .pending ∧ g.bad = bad ∧ moveSeg c j0 g s = .ok (moved, j) u) ∨ (g.state = .sent now ∧ u = s ∧ j = j0)) →
    (g.state = .pending → j0.copy.dkind = 3 → (nextSlot j g).isSome = true →
      exec (.copySegmentLand c e n) s = .next (keep (fun g => { g with bad := now }))) ∧
    (g.state = .pending → (j0.copy.dkind = 3 → nextSlot j g = none) → farSettled u (.fabric c) = false →
      exec (.copySegmentLand c e n) s = .next (keep (fun g => { g with state := .sent now }))) ∧
    ((g.state = .pending → j0.copy.dkind = 3 → nextSlot j g = none) → farSettled u (.fabric c) = true → u.nydb.breaks = [] →
      j.copy.tbar = 0 → j.copy.ck < 64 →
    ∃ v t, exec (.copySegmentLand c e n) s = .next t ∧ OnlyCore c u v ∧
      coreOf v c = { coreOf u c with
        evctrs := (coreOf v c).evctrs
        jobs := if j'.segs.all (fun g => g.state == .done) then mapDel (coreOf u c).jobs e else mapPut (coreOf u c).jobs e j' } ∧
      (if j'.segs.all (fun g => g.state == .done) = true ∧ j.copy.cken = true then Raised c j.copy.ck 1 v t else t = v)))

/-- R263, R264, R271 and R272: STASH, its descriptor read and accepted, its stores performed and an earlier window of its
number written back,
makes the window live and empty; UNSTASH of a live window that no running graph defines, its stores performed and its lines
written back, retires it, and of one not live does nothing; a line that a unit wants fills from its tensor. -/
def Obligations.StashWindows : Prop :=
  (∀ (ga : Reg) (w : BitVec 3) (s u v x : State) (b : List Byte) (g : StashCfg) (tr : TensorRec),
    (reg s ga).toNat % 32 = 0 → pilotRecord s (reg s ga).toNat 32 = .ok b u →
    g = { spbase := fieldAt b 0 0 18, len := fieldAt b 4 0 18, toff := fieldAt b 8 0 64, tid := fieldAt b 16 0 20 } →
    fieldAt b 0 18 14 + fieldAt b 4 18 14 + fieldAt b 16 20 44 + fieldAt b 24 0 64 = 0 → stashOk g = true →
    stashOverlap (coreOf u u.turn) w.toNat g = false → stashByGraph u u.turn w.toNat = false →
    readTensor u (some (.fabric u.turn)) u.turn g.tid = .ok tr v → StoresDone v → coreBack v.turn (· == w.toNat) v = .ok () x →
    ∃ t, exec (.stash ga w) s = .next t ∧
      Completed (onCore x.turn (fun y => { y with stashes := mapPut y.stashes w.toNat { cfg := g, tensor := tr } }) x) 0 0
        ((pilot x).pc + 8) t) ∧
  (∀ (w : BitVec 3) (s : State), mapFind (coreOf s s.turn).stashes w.toNat = none →
    ∃ t, exec (.unstash w) s = .next t ∧ Completed s 0 0 ((pilot s).pc + 8) t) ∧
  (∀ (w : BitVec 3) (s x : State), (mapFind (coreOf s s.turn).stashes w.toNat).isSome = true →
    stashByGraph s s.turn w.toNat = false → StoresDone s → coreBack s.turn (· == w.toNat) s = .ok () x →
    ∃ t, exec (.unstash w) s = .next t ∧
      Completed (onCore x.turn (fun y => { y with stashes := mapDel y.stashes w.toNat }) x) 0 0 ((pilot x).pc + 8) t) ∧
  (∀ (c n line : Nat) (s u : State) (w : Stash), mapFind (coreOf s c).stashes n = some w → 64 * line < w.cfg.len →
    stashLive s c w line = false → (mapGet (0, 0, false) w.parked line).2.2 = false → (isleOfCore s c).frozen = false →
    stashFill c n line s = .ok () u →
    exec (.stashLineFill c n line) s = .next u ∧ MemorySide s u ∧
      ∃ w', mapFind (coreOf u c).stashes n = some w' ∧ (mapFind w'.lines line).isSome = true)

/-! ### Launches, blocks and graphs from pilots (R111 to R120) -/

/-- R111: LNCH of a record that passes the checks of R97, owing nothing, queues it by its priority under the next LAUNCHSEQ,
which gd holds and the pilot remembers; LNCH.NEAR does the same unless its isle can take the launch at once, which it then
gets. A record that fails a check answers 2^63 plus the check and is recorded; one for another context traps PERM.
That LNCH queues while LAUNCH is clear, and that NEAR keeps an isle's number, are the model's choices (notes/assumptions/21.md
and 80.md). -/
def Obligations.LaunchesFromPilots : Prop :=
  ∀ (gd ga gb : Reg) (s u : State) (b : List Byte),
    let a := reg s ga
    let r := parseLaunch b
    let q := u.hub.nextSeq
    let n := 64 * dieOfCore s.turn + (reg s gb).toNat
    let taken := onPilot u.turn (fun p => { p with launches := (q :: p.launches).take 8 })
      (tallyHub 0x300 (onHub (fun h => { h with nextSeq := q + 1 }) u))
    let queued := onHub (fun h => { h with fifos := mapPut h.fifos r.prio (mapGet [] h.fifos r.prio ++
      [{ lrec := r, seq := q, met0 := depMet u r.dep0 r.thr0, met1 := depMet u r.dep1 r.thr1 }]) }) taken
    let goes := fun (i : Instr) (x : State) (v : Word) =>
      ∃ t, exec i s = .next t ∧ Completed x gd v ((pilot x).pc + 8) t
    a.toNat % 64 = 0 → u.turn = s.turn → pilotRecord s a.toNat 64 = .ok b u →
    (r.ctx = (viewOf u u.turn).ctx → ∀ e, ctxEntry u r.ctx = some e →
      (checkLaunch u e r = 0 → NothingOwed u →
        goes (.lnch gd ga) queued (BitVec.ofNat 64 q) ∧
        (64 ≤ (reg s gb).toNat ∨ nearOk taken r n = false ∨ readGrants n taken = none →
          goes (.lnchNear gd ga gb) queued (BitVec.ofNat 64 q)) ∧
        ((reg s gb).toNat < 64 → nearOk taken r n = true →
          ∀ g x, readGrants n taken = some (g, x) →
            let i := isleOf x n
            goes (.lnchNear gd ga gb)
              (placeLaunch e { lrec := r, seq := q, met0 := true, met1 := true } g n i.die i.x0 i.y0 x) (BitVec.ofNat 64 q))) ∧
      (∀ c, checkLaunch u e r = c → c ≠ 0 →
        let x := tallyHub 0x301 (svcEmit { code := 0, source := 11, ctx := r.ctx, core := u.turn, tag := r.tag, value := BitVec.ofNat 64 c } u)
        goes (.lnch gd ga) x (BitVec.ofNat 64 (2 ^ 63 + c)) ∧ goes (.lnchNear gd ga gb) x (BitVec.ofNat 64 (2 ^ 63 + c)))) ∧
    (r.ctx ≠ (viewOf u u.turn).ctx → CanTrap u → ∀ i, i = .lnch gd ga ∨ i = .lnchNear gd ga gb →
      ∃ t, exec i s = .next t ∧ Trapped u 0x09 false false a (pilot u).pc t)

/-- R112 to R115: LWAIT and LWAIT.T of a launch this pilot made answer its end status and acquire; LWAIT.T answers 0xFE and
LWAIT waits while it runs; of any other number both answer 0xFF. SPAWN, its tokens and block read, a queue slot free and its
stores performed, puts the thread at the tail and answers the thread's number. YIELD is the lead's: with BLKLEN 0 or no turn it does nothing, else it asks the turn to end.
PRIO swaps the priority up to the ceiling, and traps PERM above it. The free TRAPVAL of YIELD's PERM, that YIELD completes at
once, and a thread's record and queue are the model's choices (notes/assumptions/6.md, 39.md and 20.md). -/
def Obligations.ThreadsAndTurns : Prop :=
  ∀ (gd ga gb : Reg) (s : State),
    let a := reg s ga
    let n := myIsle s
    let i := isleOf s n
    let goes := fun (j : Instr) (r : Reg) (x : State) (v : Word) => ∃ t, exec j s = .next t ∧ Completed x r v ((pilot x).pc + 8) t
    (∀ st, a.toNat ∈ (pilot s).launches → mapFind s.hub.ends a.toNat = some st →
      goes (.lwait gd ga) gd (acquire s.turn s) (BitVec.ofNat 64 st) ∧
      goes (.lwaitTest gd ga) gd (acquire s.turn s) (BitVec.ofNat 64 st)) ∧
    (a.toNat ∈ (pilot s).launches → mapFind s.hub.ends a.toNat = none →
      exec (.lwait gd ga) s = .next s ∧ goes (.lwaitTest gd ga) gd s 0xFE) ∧
    (a.toNat ∉ (pilot s).launches → goes (.lwait gd ga) gd s 0xFF ∧ goes (.lwaitTest gd ga) gd s 0xFF) ∧
    (∀ (k : BitVec 3) (u v v' : State) (toks : List Byte) (e : BlockEntry) (q : AtollCfg),
      let lead := leadOf (isleOfCore s s.turn)
      let b := (reg s gb).toNat
      b < (isleOfCore s s.turn).blklen → a.toNat % 16 = 0 → pilotRecord s a.toNat (16 * k.toNat) = .ok toks u →
      readBlock u u.turn b = .ok e v → blockAtoll v lead e = some q →
      (counterOf v lead q.tailk - counterOf v lead q.headk).toNat < q.slots → StoresDone v →
      touchTail v lead q = .ok () v' →
      let w := putThread lead e q b k.toNat toks v'
      let x := onIsle (myIsle w) (fun i => { i with threads := i.threads + 1 }) w
      goes (.spawn gd ga gb k) gd x ((isleOfCore s s.turn).threads.setWidth 64)) ∧
    ((isleOfCore s s.turn).blklen ≤ (reg s gb).toNat → CanTrap s →
      ∀ k, ∃ t, exec (.spawn gd ga gb k) s = .next t ∧ Trapped s 0x09 false false (reg s gb) (pilot s).pc t) ∧
    (isLead s = true →
      (i.turn = none ∨ i.blklen = 0 → goes .yield 0 s 0) ∧
      (i.turn ≠ none → i.blklen ≠ 0 → goes .yield 0 (onIsle n (fun i => { stopGraphs .drain i with yielding := true }) s) 0)) ∧
    (isLead s = false → CanTrap s →
      ∃ t, exec .yield s = .next t ∧ Trapped (drew s) 0x09 false false (Config.freeWord s.tick) (pilot s).pc t) ∧
    (a.toNat ≤ i.ceil → i.ceil < 64 →
      ∃ x t, exec (.prio gd ga) s = .next t ∧ x = writeDescriptors n (onIsle n (fun i => { i with prio := a.toNat }) s) ∧
        Completed x gd (BitVec.ofNat 64 i.prio) ((pilot s).pc + 8) t) ∧
    (i.ceil < a.toNat → CanTrap s →
      ∃ t, exec (.prio gd ga) s = .next t ∧ Trapped s 0x09 false false a (pilot s).pc t)

/-- R120, while nydb has no breakpoint: a pilot that arrives at SBAR or SBAR.END owing nothing waits while another pilot of
its isle has not arrived. With all arrived each counter rises by as many as name it; when the lead came by SBAR every pilot of the isle acquires and every waiting
one goes on, one that is inside a handler after it returns, and when it came by SBAR.END the launch begins to end with status 0 and its
pilots stop. -/
def Obligations.IsleBarriers : Prop :=
  ∀ (s : State) (k : Option Ctr) (ends : Bool), s.nydb.breaks = [] → NothingOwed s → (pilot s).stage = .none →
    let n := myIsle s
    let i := isleOf s n
    let arr := i.arrivals ++ [(s.turn, k.map (·.toNat))]
    let fin := if isLead s then ends else i.endForm
    let w := onIsle n (fun i => { i with arrivals := arr, endForm := fin }) (onPilot s.turn (fun p => { p with stage := .sbarWait }) s)
    let x := arr.foldl (fun s (c, k) => match k with | some k => raiseCounter c k 1 s | none => s) w
    let y := onIsle n (fun i => { i with arrivals := [], endForm := false }) x
    let j : Instr := if ends then .sbarEnd k else .sbar k
    let all := ∀ c ∈ isleCores i, ∃ e ∈ arr, e.1 = c
    (¬ all → exec j s = .next w) ∧
    let named := fun (c q : Nat) => BitVec.ofNat 64 (arr.filter (· == (c, some q))).length
    (all → fin = true →
      ∃ t, exec j s = .next t ∧ t = beginEnd n 0 y ∧ (isleOf t n).phase = .ending 0 ∧ (isleOf t n).arrivals = [] ∧
        (∀ c q, q < 64 → counterOf t c q = counterOf s c q + named c q) ∧
        (∀ c ∈ isleCores i, (coreOf t c).pilot.running = false)) ∧
    (all → fin = false →
      ∃ t, exec j s = .next t ∧ t.ms = s.ms ∧ t.host = s.host ∧ t.cycle = s.cycle ∧
        (isleOf t n).arrivals = [] ∧ (isleOf t n).endForm = false ∧ (isleOf t n).phase = i.phase ∧
        (∀ c q, q < 64 → counterOf t c q = counterOf s c q + named c q) ∧
        (∀ c ∈ isleCores i,
          ptsOf t (some (.pilot c)) = latest (ptsOf s (some (.pilot c))) (latestWts s) ∧
          ((coreOf w c).pilot.stage = .sbarWait → (coreOf s c).pilot.wfeUntil = none →
            (coreOf t c).pilot.pc = (coreOf s c).pilot.pc + 8 ∧ (coreOf t c).pilot.stage = .none ∧
            (coreOf t c).pilot.regs = (coreOf s c).pilot.regs) ∧
          ((coreOf s c).pilot.savedStage = .sbarWait → (coreOf t c).pilot.savedStage = .waitDone)) ∧
        (isleCores i = [s.turn] → (pilot s).wfeUntil = none → (pilot s).savedStage ≠ .sbarWait →
          Completed (acquire s.turn y) 0 0 ((pilot s).pc + 8) t))

/-- R116 to R119: the lead's CFGLD of an idle slot begins the load and waits; it completes when the load has succeeded and
traps CFGBAD with the frame when it has failed. CFGSEL and CFGSEL.ID, their reads and checks passed, select the slot and
answer its number. GO of a selected idle graph whose tables keep their geometry starts it and goes on; GO.WAIT then waits for
its end and acquires. STOPG and STOPG.ABORT ask a running graph to stop and wait for its end; of one not running, a slot number above 3 too, they do
nothing. While the block scheduler runs, GO and STOPG trap PERM with a free TRAPVAL. That GO needs no lead, and STOPG of such a
number, are the model's choices (notes/assumptions/39.md), as is that TRAPVAL (notes/assumptions/6.md). -/
def Obligations.GraphsLoadAndRun : Prop :=
  ∀ (gd ga : Reg) (s : State),
    let n := myIsle s
    let i := isleOf s n
    let a := reg s ga
    let sl := a.toNat
    let goes := fun (j : Instr) (r : Reg) (x : State) (v : Word) => ∃ t, exec j s = .next t ∧ Completed x r v ((pilot x).pc + 8) t
    (∀ l : BitVec 2, (pilot s).stage = .none → isLead s = true → schedulerOn i = false →
      (∀ g, mapFind i.slots l.toNat = some g → g.running = false) → a.toNat % 32 = 0 →
      exec (.cfgld ga l) s = .next (onPilot s.turn (fun p => { p with stage := .cfgldWait }) (beginLoad n l.toNat a.toNat (some s.turn) s))) ∧
    (∀ l : BitVec 2, (pilot s).stage = .cfgldWait → i.loader = none → i.loadFail = none → goes (.cfgld ga l) 0 s 0) ∧
    (∀ (l : BitVec 2) (f : Nat), (pilot s).stage = .cfgldWait → i.loader = none → i.loadFail = some (0x03, f) → CanTrap s →
      ∃ t, exec (.cfgld ga l) s = .next t ∧
        Trapped (onIsle n (fun i => { i with loadFail := none }) s) 0x03 false false (BitVec.ofNat 64 f) (pilot s).pc t) ∧
    (∀ (l : BitVec 2) (g : IsleSlot) (ps : List (Nat × CoreSel)) (u : State), isLead s = true → schedulerOn i = false →
      mapFind i.slots l.toNat = some g → coresBusy s n g.cores = false → prepareSelect s.turn l.toNat g s = .ok ps u →
      let x := selectSlot n l.toNat g ps u
      (a = 0 ∨ sl = g.cfgid → goes (.cfgsel gd ga l) gd x (BitVec.ofNat 64 l.toNat)) ∧
      (slotOfId i (if a = 0 then i.lrec.cfgid % 2 ^ 64 else sl) = some l.toNat → goes (.cfgselId gd ga) gd x (BitVec.ofNat 64 l.toNat))) ∧
    (∀ (k : Option Ctr) (g : IsleSlot), (pilot s).stage = .none → schedulerOn i = false → sl ≤ 3 → mapFind i.slots sl = some g →
      g.selected = true → g.running = false → (∀ c ∈ g.cores, goRefused (coreOf s c) = none) → NothingOwed s →
      let x := startGraph n sl g (k.map (fun k => (s.turn, k.toNat))) s
      goes (.go ga k) 0 x 0 ∧ exec (.goWait ga k) s = .next (onPilot x.turn (fun p => { p with stage := .goWait sl }) x)) ∧
    (∀ (k : Option Ctr) (m : Nat), (pilot s).stage = .goWait m → (∀ g, mapFind i.slots m = some g → g.running = false) →
      goes (.goWait ga k) 0 (acquire s.turn s) 0) ∧
    (∀ (j : Instr) (f : StopForm), (j, f) = (.stopg ga, .drain) ∨ (j, f) = (.stopgAbort ga, .abort) → schedulerOn i = false →
      (∀ g, (pilot s).stage = .none → sl ≤ 3 → mapFind i.slots sl = some g → g.running = true →
        exec j s = .next (onPilot s.turn (fun p => { p with stage := .stopWait sl })
          (onIsle n (fun i => { i with slots := mapPut i.slots sl { g with stop := some (if g.stop = some .abort then .abort else f) } }) s))) ∧
      ((pilot s).stage = .none → (∀ g, mapFind i.slots sl = some g → g.running = false) → goes j 0 s 0) ∧
      (∀ m, (pilot s).stage = .stopWait m → (∀ g, mapFind i.slots m = some g → g.running = false) → goes j 0 s 0)) ∧
    (∀ j : Instr, (∃ k, j = .go ga k ∨ j = .goWait ga k) ∨ j = .stopg ga ∨ j = .stopgAbort ga → schedulerOn i = true →
      (pilot s).stage = .none → CanTrap s →
      ∃ t, exec j s = .next t ∧ Trapped (drew s) 0x09 false false (Config.freeWord s.tick) (pilot s).pc t)

/-! ### The hash units, random streams and codebooks (R199 to R219, R239 to R241) -/

/-- R217, R218, R239 to R241: HACLR and HSCLR clear the table of a unit that no running graph of the core configures and trap
PERM with the unit's slot otherwise; while a run is written they wait. DRAIN pauses absorption, waits for the unit to settle,
and writes every record to memory and completes with their number once every record is performed, on another chip too (the
pilot then acquires, which is the model's choice, notes/assumptions/34.md), or queues its tokens and completes once they have
left, with the changes of R218 to the table; a record write that must wait leaves absorption paused. RNGSET and RNGGET write and read a stream
that no running graph draws. TBLLD of 0 restores the default codebook, and of an address loads 16 entries. -/
def Obligations.TablesFromPilots : Prop :=
  ∀ (gd ga gb : Reg) (s : State),
    let c := s.turn
    let x := coreOf s c
    let a := (reg s ga).toNat
    let goes := fun (j : Instr) (r : Reg) (x : State) (v : Word) => ∃ t, exec j s = .next t ∧ Completed x r v ((pilot x).pc + 8) t
    let traps := fun (j : Instr) (k : Nat) (v : Word) => ∃ t, exec j s = .next t ∧ Trapped s k false false v (pilot s).pc t
    let waits := onPilot c (fun p => { p with stage := .drainWait }) s
    (unitRuns s c 12 = false →
      (x.haU.tab.idle = true → goes .haclr 0 (onCore c (fun x => { x with haU := { x.haU with tab := {}, round := 0 } }) s) 0) ∧
      (x.haU.tab.idle = false → exec .haclr s = .next waits)) ∧
    (unitRuns s c 13 = false →
      (x.hsU.tab.idle = true → goes .hsclr 0 (onCore c (fun x => { x with hsU := { x.hsU with tab := {} } }) s) 0) ∧
      (x.hsU.tab.idle = false → exec .hsclr s = .next waits)) ∧
    (unitRuns s c 12 = true → CanTrap s → traps .haclr 0x09 12) ∧
    (unitRuns s c 13 = true → CanTrap s → traps .hsclr 0x09 13) ∧
    (∀ (ord chg clr marken : Bool) (lvl : BitVec 3) (k : Ctr),
      let fin := fun (n : Nat) (u : State) => onCore c (fun x =>
        { drainTable chg clr n x with haU := { (drainTable chg clr n x).haU with paused := none } }) u
      let es := rankedEntries ord chg x.haU.tab
      let rs := es.map (fun (r, e) => entryRecord x r e)
      let bs := rs.flatMap (fun r => r.1)
      let written := fun (u : State) => onCore c (fun y =>
        { y with haU := { y.haU with flags := y.haU.flags ||| rs.foldl (fun a r => a ||| r.2) 0, paused := some es.length }
                 pilot := { y.pilot with stage := .drain } }) u
      ((pilot s).stage = .none → a ≠ 0 → a % 32 = 0 → x.haU.outq = [] → x.haU.paused = none → haSettled x = false →
        exec (.drain ord chg clr gd ga lvl marken k false) s =
          .next (onCore c (fun x => { x with haU := { x.haU with paused := some 0 } }) waits)) ∧
      (a ≠ 0 → ((pilot s).stage = .none ∧ a % 32 = 0 ∧ haSettled x = true) ∨
          ((pilot s).stage = .drainWait ∧ haSettled { x with haU := { x.haU with paused := none } } = true) →
        firstFault (viewOf s c) (bs.length / 64 + 2) a bs.length s = none →
        (∀ u, writeFlat s (some (.fabric c)) (viewOf s c) a (bs.map some) false = .ok () u → u.turn = c →
          (farSettled (written u) (.fabric c) = true → goes (.drain ord chg clr gd ga lvl marken k false) gd
            (fin es.length (acquire c (written u))) (BitVec.ofNat 64 es.length)) ∧
          (farSettled (written u) (.fabric c) = false →
            exec (.drain ord chg clr gd ga lvl marken k false) s = .next (written u))) ∧
        (∀ u, writeFlat s (some (.fabric c)) (viewOf s c) a (bs.map some) false = .wait u → u.turn = c →
          ∃ t, exec (.drain ord chg clr gd ga lvl marken k false) s = .next t ∧ OnlyCore c u t ∧
            (coreOf t c).haU.tab = (coreOf u c).haU.tab ∧ (coreOf t c).haU.paused.isSome = true ∧ (pilot t).stage = .drainWait)) ∧
      ((pilot s).stage = .none → a = 0 → unitRuns s c 12 = true → routed x 76 0 = true → haSettled x = true → ∀ ken,
        ∃ t, exec (.drain ord chg clr gd ga lvl marken k ken) s = .next t ∧ OnlyCore c s t ∧ (pilot t).stage = .drain ∧
          (coreOf t c).haU.tab = x.haU.tab ∧ (coreOf t c).haU.paused = some es.length ∧
          (coreOf t c).haU.outq = es.flatMap (fun (r, e) => (entryToks x r e).1) ++
            (if marken then (0, markTok lvl.toNat false false) ::
              (if haField x 0 14 1 = 1 then [(1, markTok lvl.toNat false false)] else []) else [])) ∧
      (∀ n, (pilot s).stage = .drain → x.haU.outq = [] → x.haU.paused = some n →
        (a = 0 → goes (.drain ord chg clr gd ga lvl marken k false) gd (fin n s) (BitVec.ofNat 64 n)) ∧
        (a ≠ 0 → farSettled s (.fabric c) = true →
          goes (.drain ord chg clr gd ga lvl marken k false) gd (fin n (acquire c s)) (BitVec.ofNat 64 n)) ∧
        (a ≠ 0 → farSettled s (.fabric c) = false → exec (.drain ord chg clr gd ga lvl marken k false) s = .next s) ∧
        (a = 0 → s.nydb.breaks = [] → (pilot s).wfeUntil = none → ∃ y t, exec (.drain ord chg clr gd ga lvl marken k true) s = .next t ∧
          Raised c k.toNat 1 (fin n s) y ∧ Completed y gd (BitVec.ofNat 64 n) ((pilot s).pc + 8) t))) ∧
    (∀ z : BitVec 6, streamBusy s z.toNat = false →
      let old := mapGet {} x.sg.z z.toNat
      (∀ conly, goes (.rngset conly ga gb z) 0 (onCore c (fun x => { x with sg := { x.sg with
        z := mapPut x.sg.z z.toNat { k := if conly then old.k else reg s ga, c := reg s gb } } }) s) 0) ∧
      goes (.rngget true gd z) gd s old.k ∧ goes (.rngget false gd z) gd s old.c) ∧
    (∀ z : BitVec 6, streamBusy s z.toNat = true → CanTrap s → ∀ b,
      traps (.rngset b ga gb z) 0x09 (z.setWidth 64) ∧ traps (.rngget b gd z) 0x09 (z.setWidth 64)) ∧
    (∀ cb : BitVec 1, unitRuns s c 14 = false →
      let put := fun (es : List Nat) (u : State) => onCore c (fun x => { x with mt := { x.mt with cb := mapPut x.mt.cb cb.toNat es } }) u
      (a = 0 → goes (.tblld ga cb) 0 (put defaultCodebook s) 0) ∧
      (∀ b u, a ≠ 0 → a % 32 = 0 → pilotLoad s a 32 true = .ok b u → u.turn = c →
        goes (.tblld ga cb) 0 (put ((upTo 16).map (fun j => ofBytes ((b.drop (2 * j)).take 2))) u) 0) ∧
      (∀ v u, a ≠ 0 → a % 32 = 0 → pilotLoad s a 32 true = .fault 0x11 v u → u.turn = c → CanTrap u →
        ∃ t, exec (.tblld ga cb) s = .next t ∧ Trapped u 0x10 false false (BitVec.ofNat 64 v) (pilot u).pc t))

/-- R202 to R206, R208 and R209: the HA absorbs a contribution of a scalar or exact table into its key's entry, or into a
fresh one; MAXW keeps the larger weight with its witness, and of equal weights the smaller witness; PROBE answers on o0 and moves
nothing; a run that is written lands, and one whose page faults waits with
SPILLFAULT. R207: a retraction that holds its entry's witness deletes it and goes on; that its search moves a spilled entry into
the table first, as a contribution's does, is the model's choice (notes/assumptions/52.md). R211: DEDUP emits the first token of
a key and discards the next; COUNT counts up and down and emits at 0 to 1 and at 1 to 0; SEMI and ANTI emit by presence and
write nothing; an entry's POISON is on what it emits. -/
def Obligations.HashUnitsAbsorb : Prop :=
  ∀ (c : Nat) (s : State) (t : Tok) (g : Geom),
    let x := coreOf s c
    let h := x.haU
    let now := fun (i : Instr) (f : Core → Core → Prop) => ∃ u, exec i s = .next u ∧ OnlyCore c s u ∧ f x (coreOf u c)
    let entry := fun (y : Core) (p : Nat) (e : HaSlot) (tab : Table HaSlot) =>
      y.haU.tab = oweHa h.tab { tab with slots := mapPut tab.slots p e, blocked := none, retry := false }
    (haFree s c = true → h.tab.geom = some g → g.form ≠ 2 → h.outq = [] → headTok x 76 0 = some t → t.kind = .data →
      t.has 0 = true → t.has 1 = true → x.heldMarks = [] →
      (abortsSpill .ha s c = false → haMode x = 0 → ∀ v, weightIn x t = some v →
        let comb := fun (e : HaSlot) =>
          let r := if g.form = 1 then combineExact g.anchor h.round v t.retract e else combineAcc (haAlg x) h.round v t.retract e
          { r.1 with poison := r.1.poison || t.poison }
        (∀ p e tab, h.tab.seek haEnt t.key true = .at_ p e tab → now (.haAbsorb c) (fun x y =>
          entry y p (comb e) tab ∧ y.chans = (popChan 76 0 x).chans)) ∧
        (∀ p, h.tab.seek haEnt t.key true = .absent p → now (.haAbsorb c) (fun x y =>
          entry y p (comb { key := t.key, weight := BitVec.ofNat 64 (algZero (haAlg x)), round := h.round, changed := true }) h.tab ∧
          y.chans = (popChan 76 0 x).chans))) ∧
      (abortsSpill .ha s c = false → haMode x = 1 → g.form = 0 → ∀ (v : Nat) (w : Option Tok), weightIn x t = some v →
        w.isSome = fed s c 76 1 → (∀ w', w = some w' → headTok x 76 1 = some w' ∧ w'.kind = .data) →
        let wit := w.elim 0 (fun w => w.key)
        let cl := (clamp01 (v, 0)).1
        let keeps := fun (e : HaSlot) => xbelow (f32 e.weight.toNat) (f32 cl) = false ∧
          (xbelow (f32 cl) (f32 e.weight.toNat) = true ∨ e.wit.toNat ≤ wit.toNat)
        let comb := fun (e : HaSlot) =>
          let r := if t.retract then { e with poison := true }
            else if xisNan (f32 v) ∨ keeps e then e
            else { e with weight := BitVec.ofNat 64 cl, wit := wit, changed := true, round := h.round }
          { r with poison := r.poison || (t.poison || w.any (fun w => w.poison)) }
        let took := if w.isSome then popChan 76 1 (popChan 76 0 x) else popChan 76 0 x
        (∀ p e tab, h.tab.seek haEnt t.key true = .at_ p e tab → now (.haAbsorb c) (fun _ y =>
          entry y p (comb e) tab ∧ y.chans = took.chans)) ∧
        (∀ p, h.tab.seek haEnt t.key true = .absent p → now (.haAbsorb c) (fun _ y =>
          entry y p (comb { key := t.key, weight := BitVec.ofNat 64 (algZero (haAlg x)), round := h.round, changed := true }) h.tab ∧
          y.chans = took.chans))) ∧
      (haMode x = 2 → g.form = 0 → haAlg x ≠ .int64 → ∃ u, exec (.haProbe c) s = .next u ∧
        let e := h.tab.look haEnt t.key
        let w := e.elim (algZero (haAlg x)) (fun e => if haAlg x = .cnt then clampNet e.weight else e.weight.toNat)
        (coreOf u c).haU.tab = h.tab ∧ (coreOf u c).chans = (popChan 76 0 x).chans ∧
        (coreOf u c).haU.outq = [(0, { data := quadOf (t.lane 0) (t.lane 1) w (t.lane 3)
                                       lmask := if e.isSome then 15 else 11, poison := t.poison || e.any (fun e => e.poison) })]) ∧
      (isOverdel x = true → fed s c 76 1 = true → ∀ (w : Tok) (p : Nat) (e : HaSlot) (tab : Table HaSlot),
        headTok x 76 1 = some w → w.kind = .data → (weightIn x t).isSome = true →
        h.tab.seek haEnt t.key false = .at_ p e tab → e.wit = w.key →
        now (.haOverdel c) (fun x y =>
          entry y p { e with del := true, changed := true, round := h.round, poison := e.poison || (t.poison || w.poison) } tab ∧
          y.haU.outq = [(0, { t with retract := true })] ∧ y.chans = (popChan 76 1 (popChan 76 0 x)).chans))) ∧
    (∀ (a : Nat) (b : List Byte) (u : State), let k := writingUnit x
      owedFlags k x = [] → pendingRun k x = some (a, b) → fabricOn s c = true → waitsWake k x = false →
      (writeFlat s (some (.fabric c)) (viewOf s c) a (b.map some) false = .ok () u → owedFlags k (coreOf u c) = [] →
        u.nydb.breaks = [] →
        ∃ t, exec (.spillLanding c) s = .next t ∧ OnlyCoreTold c u t ∧
          (k = .ha → (coreOf t c).haU = { (coreOf u c).haU with tab := (coreOf u c).haU.tab.landed }) ∧
          (k = .hs → (coreOf t c).hsU = { (coreOf u c).hsU with tab := (coreOf u c).hsU.tab.landed })) ∧
      (∀ cause va, firstFault (viewOf s c) (b.length / 64 + 2) a b.length s = some (cause, va) →
        (blockedOf k x = some (0x15, va) →
          exec (.spillfault c) s = .next (onCore c (setBlocked k (some (0x15, va)) false) s)) ∧
        (blockedOf k x ≠ some (0x15, va) → faultRoom s c = true →
          let r : Report := { code := 0x15, val := BitVec.ofNat 64 va, source := k.source, slot := k.slot
                              page := va / pageSize (viewOf s c).page2m, write := true }
          exec (.spillfault c) s = .next (onCore c (setBlocked k (some (0x15, va)) false) (fabricFault c r true s))))) ∧
    (x.hsU.tab.geom = some g → abortsSpill .hs s c = false → tokensOn s c = true → hasOp x 13 = true → x.hsU.ended = false →
      x.hsU.tab.open_ = true → exitRoom x 77 0 1 = true → x.heldMarks = [] →
      headTok x 77 0 = some t → t.kind = .data → t.has 0 = true → t.has 1 = true →
      let mode := opField x 13 0 0 2
      let tab := x.hsU.tab
      let put := fun (p : Nat) (e : HsSlot) (tab : Table HsSlot) (emits : Bool) => now (.hsToken c) (fun x y =>
        y.hsU.tab.slots = mapPut tab.slots p e ∧ y.chans = (popChan 77 0 x).chans ∧
        (emits = true → routed x 77 0 = true → exitQ y 77 0 = exitQ x 77 0 ++ [{ t with poison := e.poison }]) ∧
        (emits = false → y.exits = x.exits))
      let passes := fun (emits : Bool) (u : Tok) => now (.hsToken c) (fun x y =>
        y.hsU.tab = x.hsU.tab ∧ y.chans = (popChan 77 0 x).chans ∧
        (emits = true → routed x 77 0 = true → exitQ y 77 0 = exitQ x 77 0 ++ [u]) ∧ (emits = false → y.exits = x.exits))
      (mode = 0 → t.retract = true → passes true t) ∧
      (mode = 1 → t.retract = false → (∀ p, tab.seek hsEnt t.key true = .absent p →
          put p { key := t.key, count := 1, poison := t.poison } tab true) ∧
        (∀ p e tb, tab.seek hsEnt t.key true = .at_ p e tb →
          put p { e with count := if e.count < 0xFFFFFFFF then e.count + 1 else 0xFFFFFFFF, poison := e.poison || t.poison } tb
            (decide (e.count = 0)))) ∧
      (mode = 1 → t.retract = true → (tab.seek hsEnt t.key false = .none → passes false t) ∧
        (∀ p e tb, tab.seek hsEnt t.key false = .at_ p e tb →
          put p { e with count := if e.count = 0 ∨ e.count = 0xFFFFFFFF then e.count else e.count - 1, poison := e.poison || t.poison } tb
            (decide (e.count = 1)))) ∧
      (mode = 2 ∨ mode = 3 →
        let e := tab.look hsEnt t.key
        passes (e.any (fun e => e.count != 0) == decide (mode = 2)) { t with poison := t.poison || e.any (fun e => e.poison) }) ∧
      (mode = 0 → t.retract = false → ∀ p, x.hsU.tab.seek hsEnt t.key true = .absent p → now (.hsToken c) (fun x y =>
        mapFind y.hsU.tab.slots p = some { key := t.key, count := 1, poison := t.poison } ∧
        y.chans = (popChan 77 0 x).chans ∧ (routed x 77 0 = true → exitQ y 77 0 = exitQ x 77 0 ++ [t]))) ∧
      (mode = 0 → t.retract = false → ∀ p e tab, x.hsU.tab.seek hsEnt t.key true = .at_ p e tab → e.count ≠ 0 → now (.hsToken c) (fun x y =>
        mapFind y.hsU.tab.slots p = some { e with poison := e.poison || t.poison } ∧
        y.chans = (popChan 77 0 x).chans ∧ y.exits = x.exits)))

/-! ### Rounds and quiescence (R302 to R304, R333 to R337) -/

/-- R302, R303 and R322: a message of the wave that reaches a participant whose launch runs sets its start, or adds the sums of a
report and raises k60 for wave 1 and k61 for wave 2; at one that is drained or saved the hub keeps it. An armed
participant that has received a start of a wave passes it to its children; one whose children have all
reported reports to its parent with sums that include its own; the root starts wave 2 when QS equals QA and nothing was busy,
else a new wave 1 after 256 clk, and decides when wave 2 finds nothing new. That a vote of RFIRE or FIX holds its HA from its report to
wave 2 until a new wave, and waits with `.hold` for a round that another began, is the model's reading of R324 (notes/assumptions/60.md). -/
def Obligations.WavesDecide : Prop :=
  ∀ (c : Nat) (s : State), waveOn s c = true →
    let x := coreOf s c
    let q := x.quiesce
    let set := fun (f : Quiesce → Quiesce) (u : State) => onCore c (fun x => { x with quiesce := f x.quiesce }) u
    let hold := fun (b : Bool) => if q.fire then onCore c (fun x => { x with haU := { x.haU with hold := b } }) s else s
    let own := countsOf q
    let qs := q.sumS + own.1
    let qa := q.sumA + own.2
    let live := x.haU.tab.live haEnt
    (q.start1 = true → q.wstate = .idle ∨ q.wstate = .w1done →
      exec (.wave1Start c) s = .next (q.children.foldl (tellPeer c (.start false))
        (set (fun q => { q with start1 := false, wstate := .w1, kids := 0, sumS := 0, sumA := 0, flag := false, restartAt := none })
          (hold false)))) ∧
    (q.wstate = .w1 → q.kids = q.children.length →
      let u := set (fun q => { q with act := false, wstate := .w1done }) s
      let flag := q.flag || busy s c
      (∀ p, q.parent = some p → exec (.wave1Report c) s = .next (tellPeer c (.report1 qs qa flag) u p)) ∧
      (q.parent = none → qs = qa → flag = false →
        exec (.wave1Report c) s = .next (set (fun q => { q with w1S := qs, start2 := true }) u)) ∧
      (q.parent = none → qs ≠ qa ∨ flag = true →
        exec (.wave1Report c) s = .next (set (fun q => { q with restartAt := some (s.cycle + 256) }) u))) ∧
    (q.start2 = true → q.wstate = .w1done →
      exec (.wave2Start c) s = .next (q.children.foldl (tellPeer c (.start true))
        (set (fun q => { q with start2 := false, wstate := .w2, kids := 0, sumS := 0, sumA := 0, flag := false, sumNC := 0
                                sumLive := 0, cap := false }) s))) ∧
    (q.wstate = .w2 → q.kids = q.children.length →
      let flag := q.flag || q.act || busy s c
      let nc := q.sumNC + (live.filter (fun e => e.changed)).length
      let all := q.sumLive + live.length
      let cap := q.cap || decide (q.capacity < live.length)
      (∀ p, q.parent = some p → exec (.wave2Report c) s = .next (tellPeer c (.report2 qs qa nc all flag cap)
        (set (fun q => { q with wstate := .idle }) (hold true)) p)) ∧
      (q.parent = none → qs = qa → qs = q.w1S → flag = false → q.told = false → ∀ u,
        writeFlat (hold true) (some (.pilot c)) (viewOf s c) ((isleOfCore s c).rtbase.toNat + 64 * q.rid + 24)
          ((toBytes 8 all).map some) false = .ok () u →
        exec (.wave2Report c) s = .next (set (fun q => { q with wstate := .idle, decision := some (nc % 2 ^ 48, cap) }) u)) ∧
      (q.parent = none → qs ≠ qa ∨ qs ≠ q.w1S ∨ flag = true →
        exec (.wave2Report c) s = .next (set (fun q => { q with wstate := .idle, restartAt := some (s.cycle + 256) }) (hold true)))) ∧
    (∀ t, q.restartAt = some t → t ≤ s.cycle →
      exec (.waveRestart c) s = .next (set (fun q => { q with start1 := true, restartAt := none }) s)) ∧
    (∀ (p : Nat × Nat), p.1 = s.hub.chipid → applies s p.2 (viewOf s c).ctx = true →
      let was := coreOf s p.2
      let z := was.quiesce
      let now := fun (m : WaveMsg) => coreOf (tellPeer c m s p) p.2
      (∀ second, (now (.start second)).incoming = was.incoming ∧
        (now (.start second)).quiesce = (if second then { z with start2 := true } else { z with start1 := true })) ∧
      (∀ a b flag, (now (.report1 a b flag)).incoming = was.incoming ++ [(60, 1)] ∧
        (now (.report1 a b flag)).quiesce =
          { z with kids := z.kids + 1, sumS := z.sumS + a, sumA := z.sumA + b, flag := z.flag || flag, sumNC := z.sumNC + 0
                   sumLive := z.sumLive + 0, cap := z.cap || false }) ∧
      (∀ a b nc l flag cap, (now (.report2 a b nc l flag cap)).incoming = was.incoming ++ [(61, 1)] ∧
        (now (.report2 a b nc l flag cap)).quiesce =
          { z with kids := z.kids + 1, sumS := z.sumS + a, sumA := z.sumA + b, flag := z.flag || flag, sumNC := z.sumNC + nc
                   sumLive := z.sumLive + l, cap := z.cap || cap }) ∧
      (∀ n k, (now (.decision n k)).quiesce = { z with decision := some (n, k) }) ∧
      (∀ r, (now (.hold r)).haU = { was.haU with await := was.haU.await || r == was.haU.round } ∧ (now (.hold r)).quiesce = z)) ∧
    (∀ (p : Nat × Nat) (m : WaveMsg), p.1 = s.hub.chipid → applies s p.2 (viewOf s c).ctx = false →
      (tellPeer c m s p).cores = s.cores ∧ (tellPeer c m s p).ms = s.ms ∧
      (coreHeld s p.2 (viewOf s c).ctx = false → tellPeer c m s p = s) ∧
      (∀ n, holdingIsle s p.2 (viewOf s c).ctx = some n → coreHeld s p.2 (viewOf s c).ctx = true →
        tellPeer c m s p = onIsle n (fun i => { i with heldMsgs := i.heldMsgs ++
          [{ core := rowPlace i p.2, k := 0, inc := 0, ken := false
             msg := some { chip := s.hub.chipid, src := s.hub.chipid, core := p.2, ctx := (viewOf s c).ctx, body := .wave m } }] }) s))

/-- R333 to R337: QVOTE arms its vote and completes with the decision. RFIRE drains the changed entries with a MARK of RLVL,
advances ROUND, votes, and completes with the decision under HOLD; FIX repeats that and ends with the number of rounds when
nothing changed, a table overflowed or the rounds are spent. A round that begins tells the other participants, which then hold
what reaches them until they begin it, the model's reading of R324 (notes/assumptions/60.md). RETR sends a retraction for each
record once its outputs have room and GWALK a gradient for each record of the algebra VIT that its round visits (how a record tells its
algebra is notes/assumptions/83.md); both answer how many. -/
def Obligations.RoundsFire : Prop :=
  ∀ (gd ga gb : Reg) (s : State),
    let c := s.turn
    let x := coreOf s c
    let a := (reg s ga).toNat
    let count := (reg s gb).toNat
    let begun := fun (v : VoteSetup) (u : State) =>
      let w := onCore c (fun x => { x with quiesce := setVote true v x.quiesce }) u
      beginDrain c true true (some v.round.rlvl) (if (coreOf u c).haU.hold then w else
        (v.peers.filter (fun p => p != (u.hub.chipid, c))).foldl (tellPeer c (.hold (coreOf u c).haU.round)) w)
    let passed := fun (d : Nat × Bool) =>
      acquire c (onCore c (fun x => { x with quiesce := { x.quiesce with armed := false, fire := false, decision := none, plist := [] } })
      (x.quiesce.children.foldl (tellPeer c (.decision d.1 d.2)) s))
    let goes := fun (j : Instr) (r : Reg) (x : State) (v : Word) => ∃ t, exec j s = .next t ∧ Completed x r v ((pilot x).pc + 8) t
    (∀ v u, (pilot s).stage = .none → readVote a s = .ok v u → u.turn = c → NothingOwed u →
      exec (.qvote gd ga) s = .next (onPilot c (fun p => { p with stage := .vote })
        (onCore c (fun x => { x with quiesce := armVote (setVote false v x.quiesce), haU := { x.haU with await := false } }) u)) ∧
      (firesRules s = true → haSettled (coreOf u c) = true → exec (.rfire gd ga) s =
        .next (onPilot c (fun p => { p with stage := .drain }) (begun v u)))) ∧
    (∀ v u j end_, j = .rfire gd ga ∨ j = .fix end_ gd ga → (pilot s).stage = .drainWait → readVote a s = .ok v u → u.turn = c →
      (pilot u).stage = .drainWait → haSettled { coreOf u c with haU := { (coreOf u c).haU with paused := none } } = true →
      (coreOf u c).haU.outq = [] → NothingOwed u →
      exec j s = .next (onPilot c (fun p => { p with stage := .drain }) (begun v u))) ∧
    (∀ end_ r v w u u', (pilot s).stage = .none → (pilot s).fixRounds = 0 → readRound a s = .ok r w → checkSlist r.slist w = .ok () u' →
      firesRules u' = true → readVote a u' = .ok v u → u.turn = c → haSettled (coreOf u c) = true → NothingOwed u →
      exec (.fix end_ gd ga) s = .next (onPilot c (fun p => { p with stage := .drain }) (begun v u))) ∧
    ((pilot s).stage = .drain → x.haU.outq = [] → ∀ j end_, j = .rfire gd ga ∨ j = .fix end_ gd ga → ∃ t, exec j s = .next t ∧
      OnlyCore c s t ∧ (pilot t).stage = .vote ∧ (coreOf t c).quiesce = armVote x.quiesce ∧ (coreOf t c).haU.hold = false ∧
      (coreOf t c).haU.paused = none ∧ (coreOf t c).haU.await = false ∧ (coreOf t c).haU.round = x.haU.round + 1 ∧
      (coreOf t c).haU.tab = oweHa x.haU.tab (x.haU.tab.mapAll (fun e => { e with changed := false }))) ∧
    (∀ d, (pilot s).stage = .vote → x.quiesce.decision = some d → NothingOwed s → (passed d).turn = c →
      let v := BitVec.ofNat 64 (d.1 % 2 ^ 48 + if d.2 then 2 ^ 62 else 0)
      let held := onCore c (fun x => { x with haU := { x.haU with hold := true } }) (passed d)
      goes (.qvote gd ga) gd (passed d) v ∧ goes (.rfire gd ga) gd held v ∧
      (let n := (pilot held).fixRounds + 1
       let last := x.quiesce.maxRounds
       (d.2 = true ∨ d.1 = 0 ∨ last ≤ n → ∀ end_, ∃ y t, exec (.fix end_ gd ga) s = .next t ∧
         Completed y gd (BitVec.ofNat 64 (n + (if d.2 then 2 ^ 62 else 0) + (if d.2 = false ∧ d.1 ≠ 0 then 2 ^ 63 else 0)))
           ((pilot held).pc + 8) t ∧
         OnlyCore c held y ∧ (coreOf y c).haU.hold = false ∧ (coreOf y c).haU.closed = ((coreOf held c).haU.closed || end_)) ∧
       (d.2 = false → d.1 ≠ 0 → n < last → ∀ end_,
         exec (.fix end_ gd ga) s = .next (onPilot c (fun p => { p with fixRounds := n, stage := .none }) held)))) ∧
    ((pilot s).stage = .none → a % 32 = 0 → count < 2 ^ 32 →
      (unitRuns s c 12 = true → routed x 76 0 = true →
        exec (.retr gd ga gb) s = .next (onPilot c (fun p => { p with stage := .walk 0 0 }) s)) ∧
      (walksExact s c = true → haSettled x = true → ∀ round lvl marken, ∃ t, exec (.gwalk gd ga gb round lvl marken) s = .next t ∧
        OnlyCore c s t ∧ (pilot t).stage = .walk 0 0 ∧ (coreOf t c).haU = { x.haU with paused := some 0 })) ∧
    (∀ j n, (pilot s).stage = .walk j n → j < count →
      let s' := flushHa c s
      (retrRoom (coreOf s' c) = false → exec (.retr gd ga gb) s = .next s') ∧
      (∀ b u, retrRoom (coreOf s' c) = true → pilotRecord s' (a + 32 * j) 32 = .ok b u → u.turn = c →
        let e := parseDrain b
        exec (.retr gd ga gb) s = .next (if bit e.flags 0 then
          onPilot c (fun p => { p with stage := .walk (j + 1) (n + 1) })
            (onCore c (fun x => (retractToks x e).foldl (fun x t => emitTok 76 t.1 t.2 x) x) u)
          else onPilot c (fun p => { p with stage := .walk (j + 1) n }) u))) ∧
    (∀ j n b u, (pilot s).stage = .walk j n → x.haU.outq = [] → j < count → pilotRecord s (a + 32 * j) 32 = .ok b u → u.turn = c →
      let e := parseDrain b
      ∀ (round : BitVec 16) lvl marken,
        (∀ h w, bit e.flags 0 = true → e.round = round.toNat → (coreOf u c).haU.tab.look haEnt e.key = some h →
          walksVit c e u = .ok true w → w.turn = c → (coreOf w c).haU.outq = [] →
          ∃ t, exec (.gwalk gd ga gb round lvl marken) s = .next t ∧ OnlyCore c w t ∧ (pilot t).stage = .walk (j + 1) (n + 1) ∧
            (coreOf t c).haU.outq = (gradToks (coreOf w c) e h).1 ∧ (coreOf t c).haU.tab = (coreOf w c).haU.tab) ∧
        (∀ w, walksVit c e u = .ok false w → w.turn = c → bit e.flags 0 = true → e.round = round.toNat →
          ((coreOf u c).haU.tab.look haEnt e.key).isSome = true →
          exec (.gwalk gd ga gb round lvl marken) s = .next (onPilot c (fun p => { p with stage := .walk (j + 1) n }) w)) ∧
        (bit e.flags 0 = false ∨ e.round ≠ round.toNat ∨ (coreOf u c).haU.tab.look haEnt e.key = none →
          exec (.gwalk gd ga gb round lvl marken) s = .next (onPilot c (fun p => { p with stage := .walk (j + 1) n }) u))) ∧
    (∀ j n, (pilot s).stage = .walk j n → x.haU.outq = [] →
      (count ≤ j → goes (.retr gd ga gb) gd s (BitVec.ofNat 64 n)) ∧
      (count < j → ∀ round lvl marken, goes (.gwalk gd ga gb round lvl marken) gd
        (onCore c (fun x => { x with haU := { x.haU with paused := none } }) s) (BitVec.ofNat 64 n)))

/-! ### Contexts, steps and speculation (R354 to R375) -/

/-- R358 to R360, R374 and R375: the lead's CTXSAVE first quiesces the engines, then writes the cocoon, its own PC after the
CTXSAVE and gd 2 in it, answers 0, or 1 past the bound, and with COMMIT makes it the commit point. CTXLOAD of a cocoon that may be restored begins its restore; of another
it answers 2^63 + 1. FRSP in context 0 wakes a core or every core of a context. EVSEL selects a counter and may zero it; EVRD
reads one. -/
def Obligations.ContextsAndCounters : Prop :=
  ∀ (gd ga gb : Reg) (s : State),
    let a := reg s ga
    let n := myIsle s
    let i := isleOf s n
    let goes := fun (j : Instr) (r : Reg) (x : State) (v : Word) => ∃ t, exec j s = .next t ∧ Completed x r v ((pilot x).pc + 8) t
    (∀ commit, isLead s = true → a.toNat % 64 = 0 →
      (i.quiesceAt = none → completing s n = false →
        exec (.ctxsave commit gd ga) s = .next (onIsle n (fun i => { i with quiesceAt := some s.cycle, rollback := false }) s)) ∧
      (∀ t u, i.quiesceAt = some t → i.rollback = true ∨ (∀ c ∈ isleCores i, enginesQuiet s c = true) →
        let late := i.rollback
        writeCocoon n a.toNat (makeCocoon true (commit && !late) gd.toNat n (writeBack gd 2 s)) s = .ok () u →
        goes (.ctxsave commit gd ga) gd
          (onIsle n (fun i => { i with quiesceAt := none, rollback := false })
            (if commit && !late then onIsle n (fun i => { i with commit := some a }) u else u))
          (if late then 1 else 0))) ∧
    (isLead s = true → a.toNat % 64 = 0 → completing s n = false → (pilot s).stage = .none →
      (∀ u, findCocoon n a.toNat s = .ok none u → goes (.ctxload gd ga) gd u 0x8000000000000001) ∧
      (∀ k u, findCocoon n a.toNat s = .ok (some k) u →
        exec (.ctxload gd ga) s = .next (restoreRead refillTables n k 2 (onPilot u.turn (fun p => { p with stage := .restore }) u)))) ∧
    (isLead s = false → CanTrap s → ∀ j, j = .ctxload gd ga ∨ (∃ c, j = .ctxsave c gd ga) → (pilot s).stage = .none →
      ∃ t, exec j s = .next t ∧ Trapped s 0x09 false false a (pilot s).pc t) ∧
    (∀ all, (viewOf s s.turn).ctx = 0 → a.toNat < 4096 → (all = true ∨ (reg s gb).toNat < Config.cores) → NothingOwed s →
      goes (.frsp all ga gb) 0 (wake a.toNat (if all then none else some (reg s gb).toNat) s) 0) ∧
    (∀ (imm : BitVec 32) (e : EvRef), evRef imm.toNat = some e → e.unit = 0 ∨ (viewOf s s.turn).ctx = 0 →
      let old := (evGet s s.turn e).upTo s.cycle
      let code := a.toNat % 2 ^ 10
      (a.toNat < 2 ^ 18 → evCodeOk e.unit code = true →
        goes (.evsel ga imm) 0 (evPut s.turn e
          { code := code, ovk := bits a.toNat 10 6, ovken := a.getLsbD 16, core := s.turn, since := s.cycle
            count := if a.getLsbD 17 then 0 else old.count } s) 0) ∧
      (a.toNat < 2 ^ 18 → evCodeOk e.unit code = false → CanTrap s →
        ∃ t, exec (.evsel ga imm) s = .next t ∧ Trapped s 0x09 false false (BitVec.ofNat 64 code) (pilot s).pc t) ∧
      goes (.evrd gd imm) gd s (old.count.setWidth 64)) ∧
    (∀ imm : BitVec 32, evRef imm.toNat = none → CanTrap s → ∀ j, j = .evsel ga imm ∨ j = .evrd gd imm →
      ∃ t, exec j s = .next t ∧ Trapped s 0x09 false false (imm.setWidth 64) (pilot s).pc t)

/-- R365 to R373: STEPCMT whose sources have all closed acquires and flips the banks of its tensors, STEP + 1 and LAST 1,
CK raised where CKEN asks, or on a non-finite count writes LAST 2 and answers 1; STEPABT writes LAST 3; both wait with what they have read while a source is open. A tensor listed an even number of times keeps its bank: a reading
(notes/assumptions/44.md). They, LSUPD and SPACC end once their writes to other chips are performed. LSUPD updates
the loss-scale record and answers SCODE, and traps LSFLOOR after FLOORMAX skips at the floor. SPMARK takes the next snapshot
of a ring; SPACC accepts the snapshots below its index, rolling back to it when it is one. -/
def Obligations.StepsAndSpeculation : Prop :=
  ∀ (gd ga gb : Reg) (s : State),
    let a := reg s ga
    let goes := fun (j : Instr) (r : Reg) (x : State) (v : Word) => ∃ t, exec j s = .next t ∧ Completed x r v ((pilot x).pc + 8) t
    let ends := fun (j : Instr) (r : Reg) (y : State) (v : Word) =>
      (farSettled y (.pilot y.turn) = true → goes j r y v) ∧
      (farSettled y (.pilot y.turn) = false → exec j s = .next (onPilot y.turn (fun p => { p with stage := .waitDone }) (setReg r v y)))
    let begun := fun (commit : Bool) (n ck : Nat) (cken : Bool) xs ts u =>
      ((pilot s).stage = .step n ck cken xs ts ∧ u = s) ∨
      ((pilot s).stage = .none ∧ ∃ r v w, readStep a commit s = .ok (r, xs, ts) v ∧ checkBanks ts v = .ok () w ∧
        n = r.step ∧ ck = r.ck ∧ cken = r.cken ∧ u = onPilot w.turn (fun p => { p with stage := .step n ck cken xs ts }) w)
    (∀ n ck cken xs ts u, a.toNat % 64 = 0 → begun true n ck cken xs ts u → (pilot u).stage = .step n ck cken xs ts →
      let w := acquire u.turn u
      let flips := ts.filter (fun t => (ts.filter (· == t)).length % 2 == 1)
      (sourcesReady u xs = true → NothingOwed w →
        (sourcesBad w xs = true → ∀ y, putOutcome a n 2 w = .ok () y → ends (.stepcmt gd ga) gd y 1) ∧
        (sourcesBad w xs = false → ∀ y z, flipRecords (distinctTids flips) w = .ok () y →
          putOutcome a ((n + 1) % 2 ^ 64) 1 y = .ok () z →
          ends (.stepcmt gd ga) gd (raiseIf cken z.turn ck 1 (flipCopies flips z)) 0)) ∧
      (sourcesReady u xs = false → exec (.stepcmt gd ga) s = .next u)) ∧
    (∀ n ck cken xs ts u, a.toNat % 64 = 0 → begun false n ck cken xs ts u → (pilot u).stage = .step n ck cken xs ts →
      (sourcesReady u xs = true → NothingOwed (acquire u.turn u) → ∀ y, putOutcome a n 3 (acquire u.turn u) = .ok () y →
        ends (.stepabt ga) 0 y 0) ∧
      (sourcesReady u xs = false → exec (.stepabt ga) s = .next u)) ∧
    (∀ ring : BitVec 2, (pilot s).stage = .waitDone → a.toNat % 64 = 0 → farSettled s (.pilot s.turn) = true →
      ∀ j, j = .stepcmt gd ga ∨ j = .stepabt ga ∨ j = .lsupd gd ga gb ∨ j = .spacc gd ga ring → goes j 0 s 0) ∧
    (∀ b u r, a.toNat % 64 = 0 → (pilot s).stage = .none → NothingOwed s → lossBytes a.toNat s = .ok b u → fieldAt b 40 0 64 % 16 = 0 →
      parseLoss b = some r →
      (reg s gb = 1 → ∀ y, pilotWrite a.toNat r.skip.bytes u = .ok () y →
        (r.skip.floorrun < r.floormax → ends (.lsupd gd ga gb) gd y (BitVec.ofNat 64 r.skip.scode)) ∧
        (r.floormax ≤ r.skip.floorrun → CanTrap y → ∃ t, exec (.lsupd gd ga gb) s = .next t ∧
          Trapped (setReg gd (BitVec.ofNat 64 r.skip.scode) y) 0x19 false false a (pilot y).pc t)) ∧
      (reg s gb = 0 → ∀ ls v y, readLayers a r.nlayer r.layers u = .ok ls v → pilotWrite a.toNat r.clear.bytes v = .ok () y →
        (ls = [] → ends (.lsupd gd ga gb) gd y (BitVec.ofNat 64 r.clear.scode)) ∧
        (ls ≠ [] → ∀ z, pilotWrite r.layers ls y = .ok () z → ends (.lsupd gd ga gb) gd z (BitVec.ofNat 64 r.clear.scode)))) ∧
    (∀ (ring : BitVec 2) g u ex v, a.toNat % 64 = 0 → latchRing a (ringOf s ring.toNat) s = .ok g u →
      (∀ z ∈ g.zs, streamBusy u z = false) → StoresDone u → readExtents g.rids u = .ok ex v →
      let next := (g.seq + 1) % 2 ^ 64
      (g.snaps.length ≠ 16 → goes (.spmark gd ga ring) gd
        (putRing ring.toNat { g with snaps := g.snaps ++ [takeSnap g ex v], seq := next } v) (BitVec.ofNat 64 g.seq)) ∧
      (∀ o os y, g.snaps.length = 16 → g.snaps = o :: os →
        settleFar ring.toNat (o.index + 1) (2 ^ 64) (farChips v g) v = .ok () y →
        let w := settleOwn ring.toNat (o.index + 1) (2 ^ 64) y
        goes (.spmark gd ga ring) gd
          (putRing ring.toNat { g with snaps := os ++ [takeSnap g ex w], seq := next } w) (BitVec.ofNat 64 g.seq))) ∧
    (∀ ring : BitVec 2,
      let r := ring.toNat
      let g := ringOf s r
      let m := a.toNat
      let fin := fun (u : State) => putRing r { seq := m } (settleOwn r m m u)
      g.seq ≤ m + g.snaps.length → NothingOwed s → (pilot s).stage = .none →
      (∀ y, m = g.seq → settleFar r m m (farChips s g) s = .ok () y → ends (.spacc gd ga ring) gd (fin y) 0) ∧
      (∀ n u y z, m < g.seq → (∀ z ∈ g.zs, streamBusy s z = false) → g.snaps.find? (fun x => x.index == m) = some n →
        writeExtents (g.rids.zip n.extents) s = .ok () u → settleFar r m m (farChips s g) s = .ok () y →
        writeExtents (g.rids.zip n.extents) y = .ok () z →
        ends (.spacc gd ga ring) gd (fin (restoreSnap g n z)) (BitVec.ofNat 64 (g.seq - m))))

/-! ### The hub and the loader (R36 to R38, R73 to R80, R86, R97 to R103, R106 to R108, R118, R352, R354) -/

/-- R86, R97 and R98: a launch record of 64 aligned bytes that passes the checks is queued under the next LAUNCHSEQ, one that
fails is rejected with ERROR and a record, and any other write is dropped, counted in LWDROP once and sends ERROR. A record
whose context entry the hub cannot read yet waits for it (R91). Behind host accesses that wait a launch write waits with them (R35,
notes/assumptions/37.md). A watch that an increment met keeps what it has met (how watches are counted is notes/assumptions/79.md). R99 to
R101: the hub places the first ready record as an isle of its context, shape and grants, running when its image is resident and
else loading it (which index it takes and what stays resident is notes/assumptions/80.md). The pilots of an isle that starts run from ENTRY
with the registers of R101, and every one of them and its graphs acquire, whether or not the launch had a dependence: a reading of R35 and
R98 (notes/assumptions/85.md). -/
def Obligations.LaunchesArrive : Prop :=
  ∀ s : State,
    (∀ (off : Nat) (b : List Byte) (e : CtxEntry), off % 64 = 0 → b.length = 64 → s.host.readymap.getLsbD 45 = true →
      s.hub.arrived = [] → s.host.waiting = [] →
      let r := parseLaunch b
      ctxEntry s r.ctx = some e →
      (checkLaunch s e r = 0 →
        ∃ t, exec (.launchWrite off [b]) s = .next t ∧ t.cores = s.cores ∧ t.host = s.host ∧ t.ms = s.ms ∧
          t.hub = { s.hub with
            nextSeq := s.hub.nextSeq + 1, evctrs := t.hub.evctrs
            fifos := mapPut s.hub.fifos r.prio (mapGet [] s.hub.fifos r.prio ++ [{ lrec := r, seq := s.hub.nextSeq
                                                                                   met0 := depMet s r.dep0 r.thr0
                                                                                   met1 := depMet s r.dep1 r.thr1 }]) }) ∧
      (∀ c, checkLaunch s e r = c → c ≠ 0 →
        let t := tallyHub 0x301 (svcEmit { code := 0, source := 11, ctx := r.ctx, core := 0, tag := r.tag, value := BitVec.ofNat 64 c } (sendVector 3 s))
        exec (.launchWrite off [b]) s = .next (onHub (fun h => { h with arrived := [] }) t))) ∧
    (∀ (off : Nat) (b : List Byte), off % 64 = 0 → b.length = 64 → s.host.readymap.getLsbD 45 = true → s.hub.arrived = [] →
      s.host.waiting = [] → ctxEntry s (parseLaunch b).ctx = none →
      exec (.launchWrite off [b]) s = .next (onHub (fun h => { h with arrived := [(b, false)] }) s)) ∧
    (∀ (off : Nat) (pieces : List (List Byte)) (w : HostWait) (ws : List HostWait) (t : State), s.host.waiting = w :: ws →
      hostOne w s = (false, t) →
      exec (.launchWrite off pieces) s = .next (onHost (fun h => { h with waiting := w :: (ws ++ [.launch off pieces]) }) t)) ∧
    (∀ (off : Nat) (pieces : List (List Byte)), s.host.waiting = [] → (off % 64 ≠ 0 ∨ pieces.map List.length ≠ [64]) →
      exec (.launchWrite off pieces) s = .next (sendVector 3 (onHost (fun h => { h with
        lwdrop := if h.lwdrop = BitVec.allOnes 32 then h.lwdrop else h.lwdrop + 1 }) s))) ∧
    (∀ (j seq : Nat) (second : Bool), (openWatches s)[j]? = some (seq, second) →
      exec (.dependenceWatch j) s = .next (onHub (fun h => { h with fifos := h.fifos.map (fun (p, q) => (p, q.map (fun l =>
        if l.seq ≠ seq then l
        else if second then { l with met1 := l.met1 || l.hit1 }
        else { l with met0 := l.met0 || l.hit0 }))) }) s)) ∧
    (∀ (l : QLaunch) (e : CtxEntry) (d x y : Nat) (g : Map Grant) (u : State), s.host.readymap.getLsbD 45 = true →
      s.hub.arrived = [] → pickFrom s 64 = .place l e (d, x, y) →
      let r := l.lrec
      let n := isleIndex s d x y r.width r.height
      readGrants n (unqueue l.seq s) = some (g, u) →
      (l.saved = false →
        ∃ t, exec .dispatch s = .next t ∧ (t.hub.fifos = u.hub.fifos ∧ t.cycle = u.cycle ∧ t.host = u.host) ∧
          (let i := isleOf t n
           i.die = d ∧ i.x0 = x ∧ i.y0 = y ∧ i.width = r.width ∧ i.height = r.height ∧ i.lrec = r ∧ i.ctx = r.ctx ∧ i.prio = r.prio ∧
           i.ceil = e.ceil ∧ i.seq = l.seq ∧ i.grants = g ∧ i.t0ptb = e.ptb ∧ i.srkey = e.srkey ∧ i.attached = l.attached ∧
           (let held := if stranger u r.ctx (isleCores i) then [] else residentSlots u r.ctx d x y r.width r.height
            ((∃ q ∈ held, q.2.cfgid = r.cfgid) → i.phase = .running ∧ i.slots = held) ∧
            ((∀ q ∈ held, q.2.cfgid ≠ r.cfgid) → i.phase = .loading ∧ i.loader.any (fun k => k.addr == r.image) = true)) ∧
           ∀ c ∈ isleCores i, (coreOf t c).isle = some n)) ∧
      (∀ k, l.saved = true → u.hub.saved.find? (fun k => k.isle.seq == l.seq) = some k →
        exec .dispatch s = .next (placeSaved k g n d x y u))) ∧
    (s.host.readymap.getLsbD 45 = true → s.hub.arrived = [] → (∀ l e p, pickFrom s 64 ≠ .place l e p) → exec .dispatch s = .next s) ∧
    (∀ n c : Nat, s.nydb.breaks = [] → c ∈ isleCores (isleOf s n) →
      let t := startPilots n s
      let p := (coreOf t c).pilot
      let i := isleOf s n
      p.pc = BitVec.ofNat 64 i.lrec.entry ∧ p.running = true ∧ p.reg 2 = 0x7F000003FFC0 ∧ p.reg 30 = 0x7F000003FFC0 ∧
      p.reg 28 = BitVec.ofNat 64 i.lrec.params ∧ p.reg 29 = BitVec.ofNat 64 c ∧
      (∀ r, r ≠ 2 → r ≠ 28 → r ≠ 29 → r ≠ 30 → p.reg r = 0) ∧
      ptsOf t (some (.pilot c)) = latest (ptsOf s (some (.pilot c))) (latestWts s) ∧
      ptsOf t (some (.fabric c)) = latest (ptsOf s (some (.fabric c))) (latestWts s))

/-- R102, R103, R118, R352 and R354: a launch that has begun to end completes once its graphs, copies and stores are done,
with its status; a held isle is freed when its hold expires; a latency-class launch without a place stops its victims; a
quiet victim goes on to its owed writes and is then saved, and one past the drain limit or the quiesce bound is frozen or
takes ROLLBACK. A graph whose nodes have ended, with nothing owed, ends. The block scheduler begins a turn. -/
def Obligations.LaunchesEnd : Prop :=
  ∀ (n : Nat) (s : State),
    let i := isleOf s n
    let lead := leadOf i
    (∀ st, i.phase = .ending st →
      let u := severFrom n (severInto n s)
      (∀ e ∈ i.slots, e.2.running = false) → (∀ c ∈ isleCores i, writesDone u c = true) →
      ∃ t, exec (.launchEnd n) s = .next t ∧ (isleOf t n).phase = (if st = 0 then .held else .free) ∧
        mapFind t.hub.ends i.seq = some st) ∧
    (i.phase = .held → i.holdUntil ≤ s.cycle → exec (.isleRelease n) s = .next (onIsle n (fun i => { i with phase := .free }) s)) ∧
    (∀ l vs, preemptor s = some l → bestVictims s l.lrec = some vs → ∃ t, exec .preempt s = .next t ∧
      t = vs.foldl (fun s e => stopVictim l.seq s e.1) s ∧
      ∀ m v, vs = [(m, v)] → (isleOf t m).phase = .drain ∧ (isleOf t m).stopAt = s.cycle ∧ (isleOf t m).preemptedBy = l.seq) ∧
    (i.phase = .drain → i.frozen = false → completing s n = false →
      (∀ c ∈ isleCores i, (coreOf s c).lastMove + 64 ≤ s.cycle ∧ wiresStill s c = true) →
      exec (.drainQuiet n) s = .next (onIsle n (fun i => { i with phase := .owed }) s)) ∧
    (i.phase = .drain ∨ i.phase = .owed → i.frozen = false → i.stopAt + 2 ^ s.hub.drainlim ≤ s.cycle → i.quiesceAt = none →
      let u := onIsle n (fun i => { i with quiesceAt := some s.cycle, rollback := false, phase := .owed }) s
      (∃ c ∈ isleCores i, enginesQuiet u c = false) → exec (.drainLimit n) s = .next u) ∧
    (∀ u v, i.phase = .owed → i.quiesceAt = none → i.frozen = false → (∀ c ∈ isleCores i, owedDone s c = true) →
      saveWindows (isleCores i) s = (true, u) → (isleOf u n).rollback = false →
      let k := makeCocoon false false 0 n u
      writeCocoon n (cocoonAddr (isleOf u n)) k u = .ok () v →
      ∃ t, exec (.owedDone n) s = .next t ∧ (isleOf t n).phase = .free ∧ t.hub.saved = v.hub.saved ++ [k] ∧
        t.cores = v.cores ∧ t.ms = { v.ms with exSlots := t.ms.exSlots, far := t.ms.far } ∧
        t.ms.exSlots = v.ms.exSlots.filter (fun e => !(isleCores (isleOf v n)).contains e.srcCore) ∧
        (mapGet [] t.hub.fifos (isleOf v n).lrec.prio).head?.map (fun q => (q.seq, q.saved)) = some ((isleOf v n).seq, true)) ∧
    (∀ q, i.quiesceAt = some q → i.frozen = false → q + 1600 ≤ s.cycle → i.phase ≠ .owed →
      exec (.quiesceBound n) s =
        .next (onIsle n (fun j => { j with rollback := !(isleCores i).all (enginesQuiet s) }) s)) ∧
    (∀ slot g u, mapFind i.slots slot = some g → g.running = true → i.frozen = false →
      (∀ c ∈ g.cores, nodesEnded s c = true ∧ coreQuiet s c = true) → writeBackMu slot g.cores s = (true, u) →
      (isleOf u n).resume = none → g.endK = none →
      ∃ t, exec (.graphEnd n slot) s = .next t ∧
        mapFind (isleOf t n).slots slot = some { g with running := false, stop := none, endK := none } ∧ t.ms.mem = u.ms.mem) ∧
    (∀ es u b e a, i.phase = .running → i.frozen = false → i.turn = none → i.loader = none → i.blklen ≠ 0 → readBlocks lead i.blklen 0 s = .ok es u →
      chooseBlock u n lead es = some b → es[b]? = some e → blockAtoll u lead e = some a →
      (slotOfId (isleOf u n) e.cfgid).isSome = true →
      ∃ t, exec (.blockSwitch n) s = .next t ∧ (isleOf t n).turn = some (b, counterOf u lead a.tailk) ∧
        (isleOf t n).turnOn = false ∧ t.cores = u.cores ∧ t.ms = u.ms)

/-- R36 to R38 and R73 to R80: the loader of an isle takes its next frame: HDR first, then each frame into the configuration
of its core, and END, which makes the slot valid when the frames fit together, their count is NFRAMES and the CRC matches. A
frame that breaks its layout fails the load at its number, and the slot stays empty. -/
def Obligations.FramesLoad : Prop :=
  ∀ (n : Nat) (s u : State) (l : Loader) (bs : List Byte) (bad : Bool),
    let i := isleOf s n
    let x := ofBytes bs
    let k := frameKind x
    let at_ := fun (k : Nat) => match k with
      | 1 => Instr.eiFrame n | 2 => .epFrame n | 3 => .xsFrame n | 4 => .opFrame n | 5 => .agFrame n | 6 => .muFrame n
      | 7 => .ldFrame n | 0xE => .hdrFrame n | _ => .endFrame n
    i.loader = some l → readFlat s none { ctx := i.ctx, ptb := i.t0ptb, page2m := i.t0page2m } (l.addr + 32 * l.index) 32 = .ok (bs, bad) u →
    (l.index = 0 → k = 0xE → ∀ l', readHdr i l x = some l' →
      exec (.hdrFrame n) s = .next (onIsle n (fun i => { i with loader := some { l' with index := 1 } }) u)) ∧
    (l.index ≠ 0 → 1 ≤ k → k ≤ 7 → ∀ c cfg, frameCore (isleOf u n) x = some c → repeated l x c = false → addFrame l c x = some cfg →
      frameArrives (mapPut l.cfgs c cfg) u.hub.chipid l.addrMask (frameMark l c x) = true →
      ∃ l', exec (at_ k) s = .next (onIsle n (fun i => { i with loader := some l' }) u) ∧ l'.index = l.index + 1 ∧
        l'.crc = crcBytes l.crc bs ∧ l'.cfgs = mapPut l.cfgs c cfg ∧ l'.seen = l.seen ++ [frameMark l c x] ∧
        l'.slot = l.slot ∧ l'.cfgid = l.cfgid) ∧
    (l.index ≠ 0 → k = 0xF → (∀ f ∈ l.seen, frameFits l.cfgs (isleOf u n) u.hub.chipid l.addrMask l.rules l.seen f = true) →
      bits x 0 252 = 0 → l.index + 1 = l.nframes → (crcBytes l.crc bs) ^^^ 0xFFFFFFFF = l.wantCrc →
      (isleOf u n).resume = none → (isleOf u n).phase ≠ .loading →
      ∃ t, exec (.endFrame n) s = .next t ∧ t.ms = u.ms ∧ (isleOf t n).loader = none ∧
        mapFind (isleOf t n).slots l.slot = some { cfgid := l.cfgid, image := l.addr, addrMask := l.addrMask, rules := l.rules
                                                   cores := l.cfgs.map (fun e => e.1) } ∧
        (∀ c ∈ isleCores (isleOf u n), mapFind (coreOf t c).slots l.slot = some (mapGet {} l.cfgs c))) ∧
    (l.index ≠ 0 → 1 ≤ k → k ≤ 7 → i.phase = .running → (isleOf u n).phase = .running → (isleOf u n).resume = none →
      (∀ c, frameCore (isleOf u n) x = some c → repeated l x c = true ∨ addFrame l c x = none ∨
        ∃ cfg, addFrame l c x = some cfg ∧
          frameArrives (mapPut l.cfgs c cfg) u.hub.chipid l.addrMask (frameMark l c x) = false) →
      exec (at_ k) s = .next (onIsle n (fun i => { i with loader := none, loadFail := some (0x03, l.index), resume := none }) u))

/-! ### The host port, security, power and reset (R15, R84 to R95, R345, R346) -/

/-- R84, R85 and R296: a host access through a window to a valid context reads or writes tensor 0 there, at WBBASE plus the
offset for WB; one that fails answers all ones, or is dropped, and is recorded; one that waits for readiness is performed later,
before any that follows it (R91): that accesses and register writes take one order is the model's choice (notes/assumptions/37.md).
R85 to R88, R345, R346, R355 and R360: writes of the
host's and the hub's registers take their fields, with the effects of each. A read of the write-only launch window gives 0, a wake-up out
of range is a host access that fails with PERM, and DRAINLIM holds any value of its field: the model's readings
(notes/assumptions/73.md, 11.md and 61.md). -/
def Obligations.HostAccesses : Prop :=
  ∀ s : State,
    let win := s.host.winValid = true ∧ s.host.waiting = []
    let open_ := s.host.waiting = []
    let waits := fun (w : HostWait) (t : State) => onHost (fun h => { h with waiting := [w] }) t
    let reads := fun (i : Instr) (va n : Nat) => win →
      (∀ b u, hostReadGo (n / 64 + 2) va n s = .ok b u →
        exec i s = .next (onHost (fun h => { h with replies := b :: h.replies }) u)) ∧
      (∀ c p u, hostReadGo (n / 64 + 2) va n s = .fault c p u →
        exec i s = .next (onHost (fun h => { h with replies := List.replicate n 0xFF :: h.replies }) (hostFault c p va false u))) ∧
      (∀ u, hostReadGo (n / 64 + 2) va n s = .wait u → exec i s = .next (waits (.access va (.read n)) u))
    let writes := fun (i : Instr) (va : Nat) (b : List Byte) => win →
      (∀ u, hostWrite va b s = .ok () u → exec i s = .next u) ∧
      (∀ c p u, hostWrite va b s = .fault c p u → exec i s = .next (hostFault c p va true u)) ∧
      (∀ u, hostWrite va b s = .wait u → exec i s = .next (waits (.access va (.write b)) u))
    (∀ off n, reads (.wbAccess off (.read n)) (s.host.wbbase.toNat + off) n) ∧
    (∀ off b, writes (.wbAccess off (.write b)) (s.host.wbbase.toNat + off) b) ∧
    (∀ a n, reads (.cxlMemAccess a (.read n)) a n) ∧ (∀ a b, writes (.cxlMemAccess a (.write b)) a b) ∧
    (∀ a, reads (.mappedCounterLoad a) a 8) ∧ (∀ a v, writes (.mappedCounterStore a v) a (toBytes 8 v.toNat)) ∧
    (∀ (i : Instr) (w v : HostWait) (ws : List HostWait) (t : State), s.host.waiting = w :: ws → hostOne w s = (false, t) →
      (∃ off a, i = .wbAccess off a ∧ v = .access (s.host.wbbase.toNat + off) a) ∨ (∃ a x, i = .cxlMemAccess a x ∧ v = .access a x) ∨
        (∃ a, i = .mappedCounterLoad a ∧ v = .access a (.read 8)) ∨
        (∃ (a : Nat) (x : Word), i = .mappedCounterStore a x ∧ v = .access a (.write (toBytes 8 x.toNat))) ∨
        (∃ x, i = .wbctx x ∧ v = .context (bits x.toNat 0 12)) ∨ (∃ n x, i = .hrdoor n x ∧ v = .door n x) ∨
        (∃ r x, i = .registerWrite r x ∧ v = .register r x) ∨ (∃ x, i = .frhead x ∧ v = .service 0x020 x) ∨
        (∃ x, i = .tinv x ∧ v = .service 0x040 x) ∨ (∃ x, i = .ctxend x ∧ v = .service 0x050 x) ∨
        (∃ x, i = .chipid x ∧ v = .service 0x060 x) ∨ (∃ a b all, i = .frspdoor a b all ∧ v = .wake a b all) →
      exec i s = .next (onHost (fun h => { h with waiting := w :: (ws ++ [v]) }) t)) ∧
    (∀ (v : Word) (e : CtxEntry), open_ → ctxEntry s (v.toNat % 4096) = some e →
      exec (.wbctx v) s = .next (onHost (fun h =>
        { h with wbctx := v.toNat % 4096, winPtb := e.ptb, winPage2m := e.page2m, winValid := e.valid }) s)) ∧
    (∀ (n : Nat) (v : Word), open_ → let h := (mapGet 0 s.host.hrcfg n)
      (h.getLsbD 63 = true → bits h.toNat 0 13 < Config.cores →
        exec (.hrdoor n v) s = .next (hubRaise (bits h.toNat 0 13) (bits h.toNat 13 6) v s)) ∧
      (h.getLsbD 63 = false → exec (.hrdoor n v) s = .next s)) ∧
    (∀ v : Word, open_ →
      let hub := fun (r : HostReg) (f : Hub → Hub) => exec (.registerWrite r v) s = .next (onHub f s)
      exec (.registerWrite .wbbase v) s = .next (onHost (fun h => { h with wbbase := v &&& 0xFFFFFFF000000000 }) s) ∧
      (∀ n, exec (.registerWrite (.hrcfg n) v) s = .next (onHost (fun h => { h with hrcfg := mapPut h.hrcfg n (v &&& 0x800000000007FFFF) }) s)) ∧
      hub .ctxtab (fun h => { h with ctxtab := v }) ∧ hub .granttab (fun h => { h with granttab := v }) ∧
      hub .frbase (fun h => { h with frbase := v }) ∧ hub .frslots (fun h => { h with frslots := v &&& 0xFFFF }) ∧
      hub .svccfg (fun h => { h with svccfg := v &&& 0xFFFFF }) ∧ hub .drainlim (fun h => { h with drainlim := v.toNat % 32 }) ∧
      (∀ n, n < 512 → exec (.registerWrite (.cwrt n) v) s =
        .next (sendUnsent (onHub (fun h => { h with cwrt := mapPut h.cwrt n (v &&& 0x8F8F8F8F8F8F8F8F) }) s))) ∧
      (s.hub.svcHeld = [] → exec (.frhead v) s = .next (onHub (fun h => { h with frhead := v }) s)) ∧
      exec (.tinv v) s = .next (onHub (fun h => { h with tinvBusy := true }) (dropTranslations s v.toNat)) ∧
      exec .tinvComplete s = .next (onHub (fun h => { h with tinvBusy := false }) s) ∧
      exec (.ctxend v) s = .next (endContext (v.toNat % 4096) s) ∧
      exec (.chipid v) s = .next (onHub (fun h => { h with chipid := v.toNat % 4096 }) s)) ∧
    (∀ (ctx core : Word) (all : Bool), open_ →
      (ctx.toNat < 4096 → (all = true ∨ core.toNat < Config.cores) →
        exec (.frspdoor ctx core all) s = .next (wake ctx.toNat (if all then none else some core.toNat) s)) ∧
      (4096 ≤ ctx.toNat → exec (.frspdoor ctx core all) s = .next (hostFault 0x09 0 ctx.toNat true s)) ∧
      (ctx.toNat < 4096 → all = false → Config.cores ≤ core.toNat →
        exec (.frspdoor ctx core all) s = .next (hostFault 0x09 0 core.toNat true s))) ∧
    (∀ (off : Nat) (v : Word), open_ → (off, v) ∈ [(0x1000, s.host.readymap), (0x1008, s.host.lwdrop.setWidth 64), (0x1010, s.host.bootstat),
        (0x1018, BitVec.ofNat 64 s.power.aclk), (0x1020, BitVec.ofNat 64 s.host.wbctx), (0x1028, s.host.wbbase)] ∨
        (∃ n, n < 8 ∧ off = 0x2000 + 16 * n ∧ v = mapGet 0 s.host.hrcfg n) ∨
        (off % 8 = 0 ∧ (off < 0x1000 ∨ (0x1030 ≤ off ∧ off < 0x2000)) ∧ v = 0) →
      takeInput (.hostRead off 8) s = onHost (fun h => { h with replies := toBytes 8 v.toNat :: h.replies }) s)

/-- R91 to R94: GET_VERSION is answered in every state and starts the connection again; each other request of R93 is answered
in the states that its order gives and moves the session on, while the security function is usable. A measurement covers the
slots, the fuses and which key slots hold keys. A key is written only inside a session, and once no packet of its slot is in
flight. A recovery load, while both slots fail, rewrites them and BOOTSTAT. -/
def Obligations.SessionsAnswer : Prop :=
  ∀ s : State,
    let says_ := fun (i : Instr) (name : String) (next : Spdm) (old : List Word) =>
      let msgs := Config.spdmBody (s.tick + 1) :: Config.spdmBody s.tick :: old
      ∃ r, r.name = name ∧ r.body = Config.spdmBody (s.tick + 1) ∧
        (name = "MEASUREMENTS" → r.measured = some { slotA := Config.sha384 s.trust.slotA, slotB := Config.sha384 s.trust.slotB
                                                     fuses := Config.fuseState, keySlots := s.trust.keys.map (fun e => e.1) }) ∧
        (name = "CHALLENGE_AUTH" → r.sigs = some (Config.ecdsaSign (transcriptHash msgs), Config.lmsSign (transcriptHash msgs))) ∧
        exec i s = .next { s with
          tick := s.tick + 2, trust := { s.trust with spdm := next, transcript := msgs, responses := r :: s.trust.responses } }
    let answers := fun (i : Instr) (name : String) (next : Spdm) => says_ i name next s.trust.transcript
    says_ .getVersion "VERSION" .version [] ∧
    (s.host.readymap.getLsbD 44 = true →
      (s.trust.spdm ≠ .version → answers .getCapabilities "ERROR" s.trust.spdm) ∧
      (s.trust.spdm = .version → answers .getCapabilities "CAPABILITIES" .capabilities) ∧
      (s.trust.spdm = .capabilities → answers .negotiateAlgorithms "ALGORITHMS" .algorithms) ∧
      (∀ p, s.trust.spdm = p → p = .algorithms ∨ p = .session →
        answers .getDigests "DIGESTS" p ∧ answers .getCertificate "CERTIFICATE" p ∧ answers .getMeasurements "MEASUREMENTS" p) ∧
      (s.trust.spdm = .algorithms → answers .challenge "CHALLENGE_AUTH" .algorithms ∧ answers .keyExchange "KEY_EXCHANGE_RSP" .keyed) ∧
      (s.trust.spdm = .keyed → answers .finish "FINISH_RSP" .session) ∧
      (s.trust.spdm = .session → answers .endSession "END_SESSION_ACK" .algorithms)) ∧
    (∀ (k : Nat) (key : BitVec 512), 1 ≤ k → k < 64 →
      (s.trust.spdm = .session → s.host.readymap.getLsbD 44 = true → s.trust.keyWrites = [] →
        ((∀ p ∈ s.ms.packets, p.key ≠ k) → ∃ t, exec (.keySlotWrite k key) s = .next t ∧
          t = { s with trust := t.trust } ∧ ∀ j, mapFind t.trust.keys j = if j = k then some key else mapFind s.trust.keys j) ∧
        ((∃ p ∈ s.ms.packets, p.key = k) →
          exec (.keySlotWrite k key) s = .next { s with trust := { s.trust with keyWrites := [(k, key)] } })) ∧
      (s.trust.spdm ≠ .session → exec (.keySlotWrite k key) s = .next s)) ∧
    (∀ a b : List Byte,
      let fa := failingStep a
      let fb := if fa = 0 then 0 else failingStep b
      (bootFailed s = true → exec (.recoveryLoad a b) s = .next { s with
        trust := { s.trust with slotA := a, slotB := b, booted := some (fa, fb) }
        host := { s.host with bootstat := if fa ≠ 0 ∧ fb ≠ 0 then BitVec.ofNat 64 (fa + 16 * fb) else 0 } }) ∧
      (bootFailed s = false → exec (.recoveryLoad a b) s = .next s))

/-- R15, R19, R87, R91 and R95: after PACKAGE_RESET memory lists nothing and no core runs; a vector is sent, or marked pending
while it is masked; a function that becomes ready sets
its bit and sends READY, and one that fails clears it, a die with its quadrants, and sends READY and ERROR; a power sample
moves ACLK one step at most within 400 to 800 MHz, while the management function is usable, and sends POWER while it is below 800 or the case is hot; the thermal trip
stops ACLK and the compute dies lose what they hold. What a trip keeps, a masked vector's pending bit, a die's quadrants with it,
and POWER at every such sample while MGMT is ready are the model's choices (notes/assumptions/3.md, 76.md, 62.md and 63.md). -/
def Obligations.PowerAndReset : Prop :=
  ∀ s : State,
    (∃ t, exec .packageReset s = .next t ∧ t.cycle = 0 ∧ t.cores = [] ∧ t.hub = State.reset.hub ∧ t.ms = State.reset.ms ∧
      t.power = State.reset.power ∧ t.trust.spdm = .start ∧ t.trust.keys = [] ∧ t.host.readymap = 0 ∧
      t.trust.slotA = s.trust.slotA ∧ t.trust.slotB = s.trust.slotB ∧
      let fa := failingStep s.trust.slotA
      let fb := if fa = 0 then 0 else failingStep s.trust.slotB
      t.host.bootstat = if fa ≠ 0 ∧ fb ≠ 0 then BitVec.ofNat 64 (fa + 16 * fb) else 0) ∧
    (∀ v, sendVector v s = if s.host.msixOn = true ∧ (mapGet {} s.host.msixTab v).masked = false then
        onHost (fun h => { h with msix := h.msix ++ [v] }) s else onHost (fun h => { h with pba := h.pba ||| (1#64 <<< v) }) s) ∧
    (∀ b, readyBit s b = false → (b < 44 ∨ s.trust.booted.isSome = true) → s.host.waiting = [] → s.ms.unsent = [] → mayBeReady s b = true →
      exec (.readySet b) s = .next (sendVector 2 (onHost (fun h =>
        { h with readymap := h.readymap ||| (1#64 <<< b), lost := h.lost &&& ~~~(1#64 <<< b) }) s))) ∧
    (∀ b, readyBit s b = true → s.hub.isles = [] → s.host.waiting = [] → (b < 32 ∨ 44 ≤ b ∨ s.ms.far = []) →
      exec (.readyClear b) s = .next (sendVector 3 (sendVector 2 (onHost (fun h =>
        { h with readymap := h.readymap &&& ~~~(clearMask b), lost := h.lost ||| (h.readymap &&& clearMask b) }) s)))) ∧
    (∀ w c, c < 105 → s.power.stopped = false → readyBit s 46 = true → vectorOpen s.host 4 = true → ∃ t, exec (.powerSample w c) s = .next t ∧ t.cores = s.cores ∧ t.ms = s.ms ∧
      t.power = { s.power with watts := w, celsius := c, aclk := t.power.aclk } ∧
      t.power.aclk = (if 3200 < w ∨ 95 ≤ c then max 400 (s.power.aclk - 25) else min 800 (s.power.aclk + 25)) ∧
      t.host.msix = s.host.msix ++ (if t.power.aclk < 800 ∨ 95 ≤ c then [4] else [])) ∧
    (∃ t, exec .thermalTrip s = .next t ∧ t.cores = [] ∧ t.hub.isles = [] ∧ t.hub.fifos = [] ∧ t.power.aclk = 0 ∧
      t.power.stopped = true ∧ t.ms.mem = s.ms.mem ∧ t.ms.llc = [] ∧ t.host.readymap = s.host.readymap &&& ~~~0xFFFFF ∧
      (vectorOpen s.host 4 = true → vectorOpen s.host 3 = true → (s.host.msix ++ [4, 3]) <+: t.host.msix))

/-- R15 and R149: the machine right after package reset holds the values that the spec gives: no clk has passed, nothing is
ready, memory lists nothing, no launch is queued, every core's counters and system registers are zero but STALLWD, which is
20, and TINVSTAT reads 0. The registers of a pilot and ACLK are the model's choice (notes/assumptions/3.md and 4.md), and so is what
memory that lists nothing reads as (notes/assumptions/1.md). -/
def Obligations.ResetState : Prop :=
  State.reset.cycle = 0 ∧ State.reset.host.readymap = 0 ∧ State.reset.ms.mem = [] ∧ MemoriesWf State.reset ∧
  State.reset.hub.fifos = [] ∧ State.reset.hub.isles = [] ∧ State.reset.hub.tinvBusy = false ∧ State.reset.hub.drainlim = 14 ∧
  (∀ c, (coreOf State.reset c).counters = Vector.replicate 64 0 ∧ (coreOf State.reset c).pilot.inTrap = false ∧
    (coreOf State.reset c).pilot.trapVec = 0 ∧ (coreOf State.reset c).pilot.trapCause = 0 ∧
    (coreOf State.reset c).pilot.trapPc = 0 ∧ (coreOf State.reset c).pilot.trapVal = 0 ∧ (coreOf State.reset c).pilot.running = false ∧
    (coreOf State.reset c).pilot.pc = 0 ∧ ∀ r, (coreOf State.reset c).pilot.reg r = 0) ∧
  (∀ n, (isleOf State.reset n).stallwd = 20 ∧ (isleOf State.reset n).fpflags = 0 ∧ (isleOf State.reset n).ttbase = 0 ∧
    (isleOf State.reset n).ttlen = 0 ∧ (isleOf State.reset n).rtbase = 0 ∧ (isleOf State.reset n).rtlen = 0 ∧
    (isleOf State.reset n).rubase = 0 ∧ (isleOf State.reset n).rulen = 0 ∧ (isleOf State.reset n).blktab = 0 ∧
    (isleOf State.reset n).blklen = 0 ∧ (isleOf State.reset n).srkey = 0) ∧
  State.reset.power.aclk = 800

/-! ### nydb (R274, R312, R362, R378, R390) -/

/-- R274, R312, R362 and R390: `load` writes as the host does; `launch` queues its record attached and `run` lets it go; the
break commands add a breakpoint; `step` and `wave` freeze the isle of an attached launch and allow so many words or waves;
`continue` releases a frozen isle and its stopped pilots, and lets what is queued go; the views print and change nothing else.
That load, launch, mem and cocoon act in the context of WBCTX, and the records they print, are the model's choices
(notes/assumptions/65.md and 66.md). -/
def Obligations.DebuggerCommands : Prop :=
  ∀ s : State,
    let prints := fun (i : Instr) (name : String) (xs : List Nat) =>
      exec i s = .next { s with nydb := { s.nydb with out := (name, xs) :: s.nydb.out } }
    let adds := fun (i : Instr) (b : Break) => exec i s = .next { s with nydb := { s.nydb with breaks := s.nydb.breaks ++ [b] } }
    (∀ a b, s.host.winValid = true → s.host.waiting = [] →
      (∀ u, hostWrite a b s = .ok () u → exec (.load a b) s = .next u) ∧
      (∀ c p u, hostWrite a b s = .fault c p u → exec (.load a b) s = .next (hostFault c p a true u))) ∧
    (∀ a b u e, s.host.winValid = true → s.host.readymap.getLsbD 45 = true → hostReadGo 3 a 64 s = .ok b u → u.hub.arrived = [] →
      let r := parseLaunch b
      ctxEntry u r.ctx = some e → checkLaunch u e r = 0 → ∃ t, exec (.launch a) s = .next t ∧ t.cores = u.cores ∧ t.ms = u.ms ∧
        t.hub = { u.hub with
          nextSeq := u.hub.nextSeq + 1, evctrs := t.hub.evctrs
          fifos := mapPut u.hub.fifos r.prio (mapGet [] u.hub.fifos r.prio ++ [{ lrec := r, seq := u.hub.nextSeq, attached := true
                                                                                 waitRun := true
                                                                                 met0 := depMet u r.dep0 r.thr0
                                                                                 met1 := depMet u r.dep1 r.thr1 }]) }) ∧
    exec .run s = .next (onHub (fun h => { h with fifos := h.fifos.map (fun (p, q) => (p, q.map (fun l => { l with waitRun := false }))) }) s) ∧
    (∀ n i, s.hub.isles = [(n, i)] → isStopped s i = true → s.hub.saved = [] → ∃ t, exec .continue s = .next t ∧
      (isleOf t n).frozen = false ∧ t.ms = s.ms ∧ t.cycle = s.cycle ∧
      t.hub.fifos = s.hub.fifos.map (fun (p, q) => (p, q.map (fun l => { l with waitRun := false }))) ∧
      ∀ c ∈ isleCores i, let p := (coreOf s c).pilot
        (coreOf t c).pilot.held = false ∧ (coreOf t c).pilot.steps = 0 ∧ (coreOf t c).pilot.regs = p.regs ∧
        (coreOf t c).pilot.pc = p.pc ∧ (coreOf t c).counters = (coreOf s c).counters ∧
        (p.held = true → (coreOf t c).pilot.passBreak = some p.pc)) ∧
    (∀ l a, adds (.breakLabel l a) (.label l a)) ∧ (∀ c e n, adds (.breakWave c e n) (.wave c e n)) ∧
    (∀ c m ch l, adds (.breakMark c m ch l) (.mark c m ch l)) ∧ (∀ c m, adds (.breakFault c m) (.fault c m)) ∧
    (∀ c k v, attachedAt s c = false ∨ (s.nydb.breaks = [] ∧ counterOf s c k < v) → adds (.breakCounter c k v) (.counter c k v)) ∧
    (∀ c n k, attachedAt s c = true → (coreOf s c).isle = some n → (isleOf s n).frozen = false →
      (∃ t, exec (.step c k) s = .next t ∧ t.ms = s.ms ∧ (isleOf t n) = { isleOf s n with frozen := true, frozenAt := s.cycle } ∧
        coreOf t c = { coreOf s c with pilot := { (coreOf s c).pilot with steps := k } }) ∧
      (∀ e, ∃ t, exec (.waveCommand c e k) s = .next t ∧ t.ms = s.ms ∧
        (isleOf t n) = { isleOf s n with frozen := true, frozenAt := s.cycle } ∧
        coreOf t c = { coreOf s c with elems := mapPut (coreOf s c).elems e { mapGet {} (coreOf s c).elems e with allow := k } })) ∧
    (∀ items, prints (.print items) "print" (items.flatMap (printItem s))) ∧
    (∀ a n b u, s.host.winValid = true → hostReadGo (8 * n / 64 + 2) a (8 * n) s = .ok b u →
      exec (.mem a n) s = .next { u with nydb := { u.nydb with out := ("mem", dwords n b) :: u.nydb.out } }) ∧
    (∀ c m ch n,
      let sent := (mapGet [] (coreOf s c).sent (chanKey m ch)).reverse.drop (mapGet 0 (coreOf s c).seen (chanKey m ch))
      prints (.chan c m ch n) "chan" ((if n = 0 then sent else sent.take n).flatMap tokView)) ∧
    (∀ c, prints (.ha c) "ha" (haView (coreOf s c).haU)) ∧
    (∀ c, prints (.trig c) "trig" ((coreOf s c).counters.toList.map (·.toNat) ++ (coreOf s c).posted.flatMap postView)) ∧
    (∀ (core r : Nat) (desc : Word), let x := coreOf s core
      mapGet {} x.rings r = { desc := desc } → s.ms.versions = [] →
      prints (.print [.spec core r]) "print" [desc.toNat, 0, 0]) ∧
    (∀ a h d u v w x, s.host.winValid = true → hostReadGo 6 a 256 s = .ok h u → fieldAt h 0 0 32 = 0x434F434E →
      hostReadGo (16 * fieldAt h 12 0 32 / 64 + 2) (a + 256) (16 * fieldAt h 12 0 32) u = .ok d v →
      readSections a d (fieldAt h 12 0 32) v = .ok x w →
      exec (.cocoon a) s = .next { w with nydb := { w.nydb with out := ("cocoon", h.map (·.toNat) ++ x) :: w.nydb.out } }) ∧
    (∀ a h d u v w b, s.host.winValid = true → hostReadGo 6 a 256 s = .ok h u → fieldAt h 0 0 32 = 0x434F434E →
      fieldAt h 12 0 32 = 1 → hostReadGo 2 (a + 256) 16 u = .ok d v → d.length = 16 →
      hostReadGo (fieldAt d 4 0 32 / 64 + 2) (a + fieldAt d 8 0 64) (fieldAt d 4 0 32) v = .ok b w →
      exec (.cocoon a) s = .next { w with nydb := { w.nydb with out := ("cocoon", h.map (·.toNat) ++
        ([fieldAt d 0 12 8, fieldAt d 0 20 6, fieldAt d 0 0 6, fieldAt d 0 6 6, fieldAt d 4 0 32] ++ b.map (·.toNat))) :: w.nydb.out } }) ∧
    (s.host.winValid = false → ∀ a, prints (.cocoon a) "cocoon" [])

/-! ### Elements, routes and straits (R125 to R134, R165 to R171, R349) -/

/-- R125 to R129, R132 to R134, R163 and R349: the head of an exit queue leaves onto the wire of every member that is not cut
off once each target has room, and arrives at its channel; the clk that its targets are full count while none of them is
excused, and a count of the whole period raises STALL, or cuts a detached member and gives its stream a level-7 abort MARK behind the
tokens on its wire; a token crosses a strait under an unmetered grant at once and under a metered one for 1,024 of its bucket, which
fills by RATE a clk up to 1,024 BURST, clk by clk; a hop that fails twice poisons its token and sends ERROR. What excuses a wait and
when a count starts again are the model's reading (notes/assumptions/22.md), and so are the border core and the order among equals
(notes/assumptions/38.md). -/
def Obligations.TokensMove : Prop :=
  ∀ (c i node ch : Nat) (s : State) (t : Tok) (rest : List Tok) (r : Route) (d : Nat),
    let x := coreOf s c
    let key := chanKey node ch
    let lands := moved d (pushChan r.dst r.dch { t with left := 0 })
      (moved c (fun x => { x with wires := putQ x.wires i rest, parity := x.parity.filter (· != i) }) s)
    (exitQ x node ch = t :: rest → tokensOn s c = true → membersReady s c node ch = true → s.nydb.breaks = [] →
      ∃ u, exec (.exitQueueEmit c node ch) s = .next u ∧ u.ms = s.ms ∧ (coreOf u c).exits = putQ x.exits key rest ∧
        (coreOf u c).chans = x.chans ∧ (coreOf u c).counters = x.counters ∧ (coreOf u c).pilot = x.pilot ∧
        (∀ e ∈ members x node ch, wireQ (coreOf u c) e.1 = wireQ x e.1 ++ [if isStrait s c e.2 then { t with left := s.cycle } else t]) ∧
        (∀ j, (∀ e ∈ members x node ch, e.1 ≠ j) → wireQ (coreOf u c) j = wireQ x j) ∧
        (∀ d, d ≠ c → coreOf u d = coreOf s d)) ∧
    (exitQ x node ch ≠ [] → tokensOn s c = true → membersReady s c node ch = false →
      exec (.exitQueueEmit c node ch) s = .next s) ∧
    (∀ n, ch < 4 → x.exits = [(key, t :: rest)] → tokensOn s c = true →
      let y := coreOf (elapse n s) c
      let full := fullMembers s c node ch
      (full = [] → mapFind y.watch key = none) ∧
      (full ≠ [] → (∀ e ∈ full, excused (settleClocks s) c e.1 e.2 = false) → (∀ e ∈ members x node ch, e.2.detach = false) →
        (mapGet {} y.watch key).count = (mapGet {} x.watch key).count + n) ∧
      ((∃ e ∈ full, excused (settleClocks s) c e.1 e.2 = true) → y.watch = x.watch)) ∧
    (routeAt x i = some r → wireQ x i = t :: rest → routeCore c r = some d → (chanQ (coreOf s d) r.dst r.dch).length < 4 →
      fabricOn s c = true →
      (isStrait s c r = false → (isleOfCore s c).quiesceAt = none → exec (.routeArrival c i) s = .next lands) ∧
      (isStrait s c r = true → mayCross s c i r = true → ∀ n k g, grantFor s c r = some (n, k, g) →
        g.rate = 0 → exec (.borderCrossing c i) s = .next lands)) ∧
    (∀ n k g, (isleOf s n).grants = [(k, g)] → k < 16 → g.rate ≠ 0 →
      let clk := match g.at_ with | none => 1 | some t => s.cycle - t
      let put := fun (b : Nat) => onIsle n (fun i => { i with grants := mapPut i.grants k { g with bucket := b, at_ := some s.cycle } })
      (clk ≠ 0 → exec (.straitMeterTick n) s = .next (meterClks n k g clk g.bucket s)) ∧
      (∀ b, meterClks n k g 0 b s = put b s) ∧
      (∀ d b, waitingHeads s n k s.cycle = [] → meterClks n k g (d + 1) b s = put (min (b + g.rate * (d + 1)) (1024 * g.burst)) s) ∧
      (∀ d b, waitingHeads s n k s.cycle ≠ [] →
        let b' := min (b + g.rate) (1024 * g.burst)
        (waitingUnder s n k (s.cycle - d) = none → meterClks n k g (d + 1) b s = meterClks n k g d b' s) ∧
        (∀ c i r, waitingUnder s n k (s.cycle - d) = some (c, i, r) → meterClks n k g (d + 1) b s =
          if b' < 1024 then meterClks n k g d b' s else meterClks n k g d (b' - 1024) (arrive c i r s)))) ∧
    (∀ n m, tokensOn s c = true → mapFind x.watch key = some { count := n } → watchPeriod s c ≤ n → reportRoom s c = true →
      stallNames c (fullMembers s c node ch) = some (m, r) → s.nydb.breaks = [] →
      ∃ u, exec (.stall c node ch) s = .next u ∧ OnlyCore c s u ∧ mapFind (coreOf u c).watch key = some { count := n, reported := true } ∧
        (coreOf u c).pilot = { x.pilot with raised := x.pilot.raised ++
          [{ code := 0x18, val := BitVec.ofNat 64 (stallVal s c m r), source := 8, slot := node % 64, ch := ch }] }) ∧
    (routeAt x i = some r → r.detach = true → tokensOn s c = true → watchPeriod s c ≤ (mapGet {} x.watch (1024 + i)).count →
      x.cutRoutes.contains i = false →
      ∃ u, exec (.detachCut c i) s = .next u ∧ OnlyCore c s u ∧ (coreOf u c).cutRoutes = x.cutRoutes ++ [i] ∧
        wireQ (coreOf u c) i = wireQ x i ++ (if x.severed.contains i then [] else [{ markTok 7 true false with left := s.cycle }]) ∧ (coreOf u c).chans = x.chans ∧ (coreOf u c).exits = x.exits) ∧
    (wireQ x i = t :: rest →
      (i ∉ x.parity → ∃ u, exec (.parityResend c i) s = .next u ∧ OnlyCore c s u ∧
        coreOf u c = { x with parity := x.parity ++ [i], evctrs := (coreOf u c).evctrs }) ∧
      (i ∈ x.parity → ∃ u, exec (.parityResend c i) s = .next u ∧ OnlyCore c (sendVector 3 s) u ∧
        wireQ (coreOf u c) i = { t with poison := true } :: rest))

/-- R165 to R171, while nydb has no breakpoint: a wave of an element that takes waves and has room enters when the heads it
names are present and consumes those it takes; it changes nothing outside its core, and no counter or scratchpad byte. A quiet
wave does nothing more; any other leaves its flags and local memory, advances the chain of counters, and its tokens enter the
exit queues, with a level-7 MARK on every other output when it ends the element. An
element without inputs that is being stopped gives its level-7 MARKs. A mark step consumes a MARK of each marked input,
clears the counters of its level and emits one MARK of the highest level on each marked output.
R162, R167, R174 and R176 to R190: what one stage of a wave does. An operation writes VD in the lanes of V and its LMASK with
what its table gives and passes every other register and lane on; DLY and the local-memory operations read and write their
columns alone; CNT counts; EMIT, STEER and MARK emit. -/
def Obligations.ElementsStep : Prop :=
  (∀ (c e : Nat) (s : State) (cfg : ElemCfg), s.nydb.breaks = [] →
    let x := coreOf s c
    let y := elemOf x e
    let gs := stagesOf cfg
    let head := fun (ch : Nat) => if (namedOf gs).contains ch then headTok x e ch else none
    let ins := (upTo 4).filter (fun ch => bit cfg.markin ch)
    let outs := (upTo 4).filter (fun j => bit cfg.markout j)
    mapFind (selCfg x).elems e = some cfg → takesWaves s c e = true →
    (∀ n, waveRoom x e cfg = true → consumedOf gs ≠ [] → (∀ ch ∈ namedOf gs, (head ch).isSome = true) → entryOf gs cfg.markin head = some n →
      ∃ u, exec (.wave c e) s = .next u ∧ OnlyCore c s u ∧
        (coreOf u c).chans = (n.take.foldl (fun x ch => popChan e ch x) x).chans ∧ (coreOf u c).counters = x.counters ∧
        (coreOf u c).scratch = x.scratch ∧ (coreOf u c).pilot = x.pilot ∧ (coreOf u c).posted = x.posted ∧
        (coreOf u c).wires = x.wires ∧ (∀ e', e' ≠ e → elemOf (coreOf u c) e' = elemOf x e') ∧
        let z := elemOf (coreOf u c) e
        let y0 := { y with allow := y.allow - 1, c := if n.resetC0 then y.c.set 0 0 else y.c }
        z.waves = y.waves + 1 ∧
        (n.quiet = true → z = { y0 with waves := y.waves + 1 } ∧ (coreOf u c).exits = x.exits) ∧
        (n.quiet = false →
          let w0 := startWave s c e cfg y n ((upTo 4).map head)
          let w := { w0 with y := y0 }.run cfg.stages
          let counts := w.live ∧ (w.counted = true ∨ ∀ g ∈ gs, g.op ≠ 0x37)
          let adv := if counts then advanceChain cfg.ext 4 0 w.y.c else (w.y.c, [])
          let toks := w.tokens cfg adv.2
          w0.bank = List.replicate 16 0 ∧ w0.live = !n.ends ∧ w0.out = [] ∧ w0.heads = (upTo 4).map head ∧ w0.c = y.c ∧
          z.rows = w.y.rows ∧ z.rowPoison = w.y.rowPoison ∧ z.dlyPos = w.y.dlyPos ∧ z.flags = w.y.flags ∧ z.c = adv.1 ∧
          (y.ended = true → (coreOf u c).exits = x.exits) ∧
          (y.ended = false → let last := endAbort (if n.ends then some (w.m, w.ma) else none) toks (wrapLevel cfg adv.2 == some 7)
            z.ended = last.isSome ∧
            ∀ j, j < 4 → routed x e j = true → exitQ (coreOf u c) e j = exitQ x e j ++ (toks.filter (fun t => t.1 == j)).map (·.2) ++
              last.elim [] (fun ab => if toks.any (fun t => t.1 == j && t.2.ends) then [] else [markTok 7 ab false])))) ∧
    (∀ f, waveRoom x e cfg = true → consumedOf gs = [] → sourcesOn (unfrozenFor s c e) c = true → stopOf s c = some f → y.ended = false →
      ∃ u, exec (.wave c e) s = .next u ∧ OnlyCore c s u ∧ (elemOf (coreOf u c) e).ended = true ∧
        ∀ j, j < 4 → routed x e j = true → exitQ (coreOf u c) e j = exitQ x e j ++ [markTok 7 (f == .abort) false]) ∧
    (∀ ms, ins ≠ [] → ms = ins.filterMap (fun ch => headTok x e ch) → ms.length = ins.length → (∀ t ∈ ms, t.kind = .mark) →
      (∀ j ∈ outs, exitRoom x e j 1 = true) → y.ended = false →
      let l := ms.foldl (fun l t => max l t.level) 0
      l < 7 → ∃ u, exec (.markStep c e) s = .next u ∧ OnlyCore c s u ∧
        (coreOf u c).chans = (ins.foldl (fun x ch => popChan e ch x) x).chans ∧
        (elemOf (coreOf u c) e) = { y with c := y.c.zipIdx.map (fun (v, i) => if enabledCtr cfg i ∧ cfg.mlvl.getD i 0 ≤ l then 0 else v) } ∧
        ∀ j ∈ outs, routed x e j = true → exitQ (coreOf u c) e j = exitQ x e j ++ [markTok l (ms.any (·.abort)) false])) ∧
  (∀ (w : Wv) (s word : Nat), w.bank.length = 16 → stageOk s word = true → mapSortedFrom 0 w.y.rows = true →
    let w' := w.stage s word
    let g := stgOf word
    let op := if g.iform then g.op - 0x40 else g.op
    let v32 := BitVec.ofNat 32
    let mask := fun (l : Nat) => bit g.lmask l && bit w.v l
    let a := fun (l : Nat) => w.src s g.sa l
    let b := fun (l : Nat) => if g.iform = true ∧ (op = 0x08 ∨ op = 0x0A) then ((BitVec.ofNat 16 g.imm).signExtend 32).toNat
      else if g.iform = true ∧ 0x11 ≤ op ∧ op ≤ 0x16 then g.imm else w.src s g.sb l
    let k := fun (l : Nat) => if g.iform = true ∧ (op = 0x1C ∨ op = 0x1D) then g.imm else if op = 0x1C then w.src s g.sb l else w.src s g.sc l
    let old := laneOf w g.vd
    let pair := fun (f : Nat → Nat) (l : Nat) => f (l / 2 * 2) + 2 ^ 32 * f (l / 2 * 2 + 1)
    let full := fun (l : Nat) => mask (l / 2 * 2) && mask (l / 2 * 2 + 1)
    let flagged := fun (m : Nat → Bool) (f : Nat → FpFlags) =>
      w'.y = { w.y with flags := (upTo 4).foldl (fun t l => if m l then t ||| f l else t) w.y.flags }
    let row := fun (l : Nat) => a l + g.imm
    let stores := op = 0x3A ∨ op = 0x3C
    let data := fun (ch : Nat) (d : Nat → Nat) (bad : Bool) =>
      ({ ch := ch, kind := w.kd, data := laneData d, lmask := g.lmask &&& w.v, poison := bad } : Emission)
    w' = { w with bank := w'.bank, y := w'.y, p := w'.p, out := w'.out, made := w'.made, counted := w'.counted } ∧
    w'.bank.length = 16 ∧ mapSortedFrom 0 w'.y.rows = true ∧ (word = nopWord → w' = w) ∧
    (∀ v : Nat → BitVec 32, (∀ l, l < 4 → stageInt op g.mode (v32 (a l)) (v32 (b l)) (v32 (k l)) = some (v l)) →
      LanesTook w w' g.vd mask (fun l => (v l).toNat) ∧ w'.y = w.y) ∧
    (∀ v : Nat → BitVec 32, (∀ l, l < 4 → stageMove g op (fun l => v32 (a l)) (fun l => v32 (b l)) (fun l => w.jvd.extractLsb' (32 * l) 32) l = some (v l)) →
      LanesTook w w' g.vd mask (fun l => (v l).toNat) ∧ w'.y = w.y) ∧
    (∀ v : Nat → Nat × FpFlags, (∀ l, l < 4 → stageFloat g (a l) (b l) (k l) (old l) (w.draw s l) w.t = some (v l)) →
      LanesTook w w' g.vd mask (fun l => (v l).1 % 2 ^ 32) ∧ flagged mask (fun l => (v l).2)) ∧
    (∀ v : Nat → Nat × FpFlags, (g.op = 0x2D ∧ (g.sb % 16 = 5 ∨ g.sc % 16 = 5) ∧ v = fun l => cvtPair g (pair a l) (pair old l) (w.draw s (l / 2 * 2))) ∨
        (g.mode = 7 ∧ g.op = 0x30 ∧ v = fun l => ((pair a l + pair b l) % 2 ^ 64, 0)) ∨
        (g.mode = 7 ∧ g.op = 0x31 ∧ v = fun l => (pair a l * pair b l % 2 ^ 64, 0)) →
      LanesTook w w' g.vd full (fun l => (v l).1 / 2 ^ (32 * (l % 2)) % 2 ^ 32) ∧ flagged full (fun l => (v l).2)) ∧
    (∀ q, op = 0x38 → mapFind w.regions (g.opt % 4) = some q →
      let at_ := mapGet 0 w.y.dlyPos (g.opt % 4)
      let r := q.start + at_
      LanesTook w w' g.vd mask (w.y.col r) ∧
      (∀ r' l, l < 4 → w'.y.col r' l = if r' = r ∧ mask l = true then a l else w.y.col r' l) ∧
      (∀ i, mapGet 0 w'.y.dlyPos i = if i = g.opt % 4 ∧ w.live = true then (at_ + 1) % q.rows else mapGet 0 w.y.dlyPos i) ∧
      w'.p = (w.p || ((upTo 4).any mask && w.y.rowBad r))) ∧
    (0x39 ≤ op → op ≤ 0x3C →
      LanesTook w w' g.vd mask (fun l => if op = 0x3A then b l else if 1536 ≤ row l then 0
        else w.y.col (row l) (if op = 0x3B then b l % 4 else l)) ∧
      (∀ r l, l < 4 → w'.y.col r l =
        if stores ∧ r = row l ∧ mask l = true ∧ r < 1536 ∧ w.inTable r = false then (if op = 0x3A then b l else (w.y.col r l + b l) % 2 ^ 32)
        else w.y.col r l) ∧
      w'.p = (w.p || (upTo 4).any (fun l => mask l && (decide (1536 ≤ row l) || (op != 0x3A && w.y.rowBad (row l)) ||
        (decide stores && w.inTable (row l)))))) ∧
    (op < 0x38 → w'.p = w.p) ∧
    w'.counted = (w.counted || (op == 0x37 && w.live && mask 0 && a 0 != 0)) ∧
    w'.out = w.out ++ (
      if g.emit = false then []
      else if op = 0x36 then
        if w.live = false then [{ ch := g.och, kind := .mark, level := w.m, abort := w.ma }]
        else if g.opt = 0 then [data g.och a false]
        else if a 0 = 0 then [] else [{ ch := g.och, kind := .mark, level := g.opt % 8 }]
      else if w.live = false then []
      else if op = 0x35 then
        if bit g.opt (b 0 % 4) then [data (b 0 % 4) a false] else [data ((upTo 4).find? (fun j => bit g.opt j) |>.getD 4) a true]
      else [data g.och (laneOf w' g.vd) false]))

/-! ### Memory events and causeways (R265, R278 to R280, R293, R346, R374) -/

/-- R265: a packet takes the lowest free tag of its slice and stack, a read with the bytes of its granules, and a reply frees
its tag; that a packet is performed as it is issued is the model's reading (notes/assumptions/48.md). R278: a clock ticks by 1. R280: a
message whose vector allows it is performed and counted at its die; that dies pass on counts in messages of their own is the model's
choice (notes/assumptions/8.md). R293, R297, R300 and R346: a
causeway message for this chip is performed, raises the counter it names and is answered, one whose fault can be served stays with a
service record and any other fault is answered at once, the hub keeps one for a core whose launch is drained or saved,
an answer goes to the unit that asked, and one for another chip is forwarded; how answers travel and faults wait is the model's choice
(notes/assumptions/74.md, and 6.md for what a record of such a fault leaves open). R374: a wrap is taken off its counter, and with
OVKEN raises OVK. -/
def Obligations.MemoryEvents : Prop :=
  ∀ s : State,
    (∀ (pa granules page t : Nat), freeTag s (homeSlice pa) (pa / Config.stackBytes) = some t → hbmReady s pa 2 = true → oneSlice pa granules = true →
      ∃ u, exec (.baseDiePacket .prd pa ⟨granules, page⟩) s = .next u ∧ u.cores = s.cores ∧ u.hub = s.hub ∧ u.ms =
        { s.ms with
          evctrs := u.ms.evctrs
          packets := s.ms.packets ++ [{ op := .prd, slice := homeSlice pa, stack := pa / Config.stackBytes, tag := t, pa := pa
                                        granules := granules, key := packetKey s (packetLines pa granules) page
                                        reply := hbmBytes s (packetKey s (packetLines pa granules) page) pa (32 * granules) }] }) ∧
    (∀ (op : PacketOp) (pa granules page t : Nat), op ≠ .prd → freeTag s (homeSlice pa) (pa / Config.stackBytes) = some t → hbmReady s pa 2 = true →
      oneSlice pa granules = true → mayWriteBack s (packetLines pa granules) = true →
      let w := (packetLines pa granules).foldl (writeBackPart (op == .pwr) pa granules) (onMs (tallyBase pa 0x200) s)
      exec (.baseDiePacket op pa ⟨granules, page⟩) s = .next (onMs (fun m => { m with packets := m.packets ++
        [{ op := op, slice := homeSlice pa, stack := pa / Config.stackBytes, tag := t, pa := pa, granules := granules
           key := packetKey s (packetLines pa granules) page, reply := [] }] }) w)) ∧
    (∀ slice stack tag, exec (.baseDieReply slice stack tag) s = .next (hostRetry (keyRetry (onMs (fun m => { m with
      packets := m.packets.filter (fun p => !(p.slice == slice && p.stack == stack && p.tag == tag)) }) s)))) ∧
    (∀ g, ptsOf s (some g) ≠ BitVec.allOnes 64 → ∃ u, exec (.ptsTick g) s = .next u ∧ u.hub = s.hub ∧ u.cycle = s.cycle ∧
      u.ms = { s.ms with llcPts := u.ms.llcPts } ∧
      (∀ c, coreOf u c = { coreOf s c with pts := (coreOf u c).pts, fabricPts := (coreOf u c).fabricPts, readWts := (coreOf u c).readWts }) ∧
      ptsOf u (some g) = ptsOf s (some g) + 1 ∧ ∀ h, h ≠ g → ptsOf u (some h) = ptsOf s (some h)) ∧
    (∀ dst src m, (dieQueue s src dst).head? = some m →
      let n := m.stamp.getD src 0
      (m.core = none → n ≤ vOf s dst src →
        exec (.dieMessage dst src) s = .next (onMs (fun x => { x with dieMsgs := popDieMsg src dst x.dieMsgs }) s)) ∧
      (m.core ≠ none ∨ vOf s dst src < n → stampOk s src dst m.stamp = false → exec (.dieMessage dst src) s = .next s) ∧
      (m.core = none → vOf s dst src < n → stampOk s src dst m.stamp = true →
        ∃ u, exec (.dieMessage dst src) s = .next u ∧ u.cores = s.cores ∧ u.hub = s.hub ∧ u.ms.mem = s.ms.mem ∧
          u.ms.dieMsgs = popDieMsg src dst s.ms.dieMsgs ∧ vOf u dst src = n) ∧
      (∀ c b rest, stampOk s src dst m.stamp = true → m.core = some c → (coreOf s c).pilot.storeBuf = b :: rest → b.sent = true →
        (storeReady c b s = true →
          let u := popStore c (storeAtHome c b s)
          ∃ v, exec (.dieMessage dst src) s = .next v ∧ v.cores = u.cores ∧ v.ms.mem = u.ms.mem ∧ vOf v dst src = n) ∧
        (storeReady c b s = false → exec (.dieMessage dst src) s = .next s))) ∧
    (∀ (port : Nat) (m : ChipMsg), s.ms.inbound = [] → s.host.readymap.getLsbD (32 + port) = true →
      let m' := { m with port := port, fault := none, parked := false }
      let v := onMs (fun x => { x with inbound := [m'] }) s
      let ends := fun (u : State) => exec (.causewayMessage ⟨port, some m⟩) s = .next (hostRetry (serveAllHeld u))
      let popped := fun (u : State) => onMs (fun x => { x with inbound := x.inbound.eraseIdx 0 }) u
      (m.chip = s.hub.chipid → forCore m.body = false → m.body ≠ .ended → (∀ b bad sc, m.body ≠ .reply b bad sc) →
        (∀ b u, runMsg m' v = .ok b u →
          ends (popped (respond m' b (if m.ken = true ∧ b ≠ .ended then deliver m.ctx m.core m.k m.inc u else u)))) ∧
        (∀ cause page u, runMsg m' v = .fault cause page u →
          (servedCause cause = false → ends (popped (respond m' (failedAnswer u m.body) { u with tick := u.tick + 1 }))) ∧
          (servedCause cause = true → svcRoom u = true →
            let tensor : Option Nat := match m.body with
              | .read (.elem t _) _ => some t
              | .write (.elem t _) _ _ => some t
              | _ => none
            let record : SvcRecord := { code := cause, source := if tensor.isSome then 1 else 4, ctx := m.ctx, core := m.core, tag := 0
                                        value := msgVal m' page, tid := tensor.getD 0, page := page
                                        write := match m.body with | .write _ _ _ => true | _ => false }
            ends (onMs (fun x => { x with inbound := x.inbound.set 0 { m' with fault := some (cause, page), parked := true } })
              (svcEmit record u))))) ∧
      (m.chip = s.hub.chipid → forCore m.body = true →
        (∀ b u, applies v m.core m.ctx = true → coreHeld v m.core m.ctx = true → coreMsg m' v = .ok b u →
          ends (popped (respond m' b (if m.ken = true ∧ b ≠ .ended then queueInc m.core m.k m.inc u else u)))) ∧
        (applies v m.core m.ctx = false → coreHeld v m.core m.ctx = true →
          ends (popped (holdMsg m.ctx m.core { core := 0, k := 0, inc := 0, ken := false, msg := some m' } v))) ∧
        (coreHeld v m.core m.ctx = false → (∀ a p n w d k, m.body ≠ .slot a p n w d k) → ends (popped (respond m' .ended v)))) ∧
      (m.chip = s.hub.chipid → (m.body = .ended ∨ ∃ b bad sc, m.body = .reply b bad sc) →
        exec (.causewayMessage ⟨port, some m⟩) s = .next (hostRetry (serveAllHeld (answerFar m.id m.body s)))) ∧
      (m.chip ≠ s.hub.chipid →
        (∀ p, wayTo v m.chip = .port p →
          ends (popped (tallyHub 0x303 (onMs (fun x => { x with outbound := x.outbound ++ [{ m' with port := p }] }) v)))) ∧
        (wayTo v m.chip = .gone → ends (popped (respond m' .ended v))) ∧
        (wayTo v m.chip = .later → ends v))) ∧
    (∀ (c idx : Nat) (v : EvCtr), s.nydb.breaks = [] → (mapGet {} (coreOf s c).evctrs idx).upTo s.cycle = v → v.wrapped ≠ 0 → v.ovk < 64 →
      let w := onCore c (fun x => { x with evctrs := mapPut x.evctrs idx { v with wrapped := v.wrapped - 1 } }) s
      ∃ u, exec (.eventCounterOverflow 0 c idx) s = .next u ∧ (if v.ovken = true then Raised v.core v.ovk 1 w u else u = w))

/-! ### Feeding: address generators, memory ports, the edge exit (R242 to R256, R141, R142) -/

/-- R243 and R244: an iteration of a LINEAR chain whose coordinate forms emits its token, and the MARK of the levels that wrap
(level 7 when all do), once its last tokens have left, and advances the levels. R377: a MARK below level 7 on a write stream leaves, and the level-7 MARK that
a closed chain is owed is taken. R247, while nydb has no breakpoint: a RING level emits the next token of its slot once the last
has left, and frees the slot when the last of its tokens has left. That a generator holds the tokens of one iteration is the model's
choice (notes/assumptions/23.md). R249: a request that is performed leaves its channel with its reply, a MARK with itself. R253: a walk
keeps the entry it finds, or leaves PAGEFAULT for its request. -/
def Obligations.FeedsStep : Prop :=
  ∀ (c slot ch : Nat) (s : State), tokensOn s c = true →
    let x := coreOf s c
    let node := 64 + slot
    let g := agState x slot
    let chain := chainOf (selCfg x) slot
    let walked := fun (t : TensorRec) (page : Nat) => walkReads (some (dieOfCore c)) t.ptb page s
    (∀ a coord, mapFind (selCfg x).ags slot = some a → isInnermost (selCfg x) slot = true → a.mode = 0 → g.closed = false →
      g.stopped = false → sourceOn s c = true → unitHeld x 2 slot = false → writesStream s c slot = false → exitRoom x node 0 2 = true →
      formCoord x slot none chain = .coord coord →
      let r := advanceLevels chain none x
      let marks := if r.2.1 then [markTok 7 false false] else r.2.2.toList.map (fun l => markTok l false false)
      ∃ u, exec (.agIteration c slot) s = .next u ∧ OnlyCore c s u ∧ (coreOf u c).pilot = x.pilot ∧ (coreOf u c).chans = x.chans ∧
        (coreOf u c).counters = x.counters ∧ (coreOf u c).scratch = x.scratch ∧
        (routed x node 0 = true → exitQ (coreOf u c) node 0 = exitQ x node 0 ++ iterTok a slot chain g coord none none none false :: marks) ∧
        (agState (coreOf u c) slot).n = (agState r.1 slot).n ∧ (agState (coreOf u c) slot).issued = (agState r.1 slot).issued + 1 ∧
        (agState (coreOf u c) slot).last = coord ∧ (agState (coreOf u c) slot).closed = (r.2.1 || (agState r.1 slot).closed) ∧
        (∀ k, k ≠ slot → agState (coreOf u c) k = agState r.1 k)) ∧
    (∀ t, isInnermost (selCfg x) slot = true → writesStream s c slot = true → headTok x node 1 = some t → t.kind = .mark →
      (t.level ≠ 7 → exec (.agWriteStreamToken c slot) s = .next (moved c (popChan node 1) s)) ∧
      (t.level = 7 → g.closed = true → g.owe1 = true →
        ∃ u, exec (.agWriteStreamToken c slot) s = .next u ∧ OnlyCore c s u ∧ (coreOf u c).chans = (popChan node 1 x).chans ∧
          agState (coreOf u c) slot = { g with owe1 := false, ended := !g.owe0 })) ∧
    (∀ a q, mapFind (selCfg x).ags slot = some a → a.mode = 3 → g.closed = false → s.nydb.breaks = [] → atollOf x a.atoll = some q →
      q.headk < 64 → routed x node 0 = true →
      (exitQ x node 0 ≠ [] → stopOf s c = none → exec (.ringSlotRead c slot) s = .next s) ∧
      (∀ i t, exitQ x node 0 = [] → g.ringPos < q.slotw → sourceOn s c = true → x.stashes = [] → ringHas s c a.atoll q = true →
        nextFull x q ((counterOf s c q.headk).toNat % q.slots * q.slotw) g.ringPos = some (i, t) →
        ∃ u, exec (.ringSlotRead c slot) s = .next u ∧ OnlyCore c s u ∧ exitQ (coreOf u c) node 0 = [t] ∧
          (coreOf u c).scratch = x.scratch ∧ (coreOf u c).chans = x.chans ∧ (coreOf u c).counters = x.counters ∧
          (agState (coreOf u c) slot).ringPos = (if t.ends then q.slotw + 1 else i + 1)) ∧
      (exitQ x node 0 = [] → q.slotw ≤ g.ringPos → ∃ u, exec (.ringSlotRead c slot) s = .next u ∧ OnlyCoreTold c s u ∧
        (coreOf u c).exits = x.exits ∧ (coreOf u c).scratch = x.scratch ∧ counterOf u c q.headk = counterOf s c q.headk + 1 ∧
        (∀ k, k ≠ q.headk → counterOf u c k = counterOf s c k) ∧ (agState (coreOf u c) slot).ringPos = 0 ∧
        (agState (coreOf u c) slot).closed = decide (q.slotw < g.ringPos))) ∧
    (∀ t, hasOp x slot = true → unitHeld x 1 slot = false → exitRoom x node ch 2 = true → stopOf s c ≠ some .abort → mpChan x slot ch = {} →
      headTok x node ch = some t →
      (t.kind = .mark → farSettled s (.fabric c) = true → ∃ u, exec (.mpRequest c slot ch) s = .next u ∧ OnlyCore c s u ∧ (coreOf u c).chans = (popChan node ch x).chans ∧
        (coreOf u c).pilot = x.pilot ∧ (coreOf u c).scratch = x.scratch ∧ (mpChan (coreOf u c) slot ch).ended = t.ends ∧
        (routed x node ch = true → exitQ (coreOf u c) node ch = exitQ x node ch ++ [t])) ∧
      (∀ r a u, t.kind = .data → t.req = some r → performReq c slot ch t r s = .ok a u →
        exec (.mpRequest c slot ch) s = .next (moved c (fun y =>
          let y := onChan slot ch (fun k => { k with walked := none }) (popChan node ch y)
          match a with | some a => emitTok node ch a y | none => y) (tallyCore c 0x008 1 u)))) ∧
    (∀ t page, pageOf x slot ch = some (t, page) → cachedPte x slot t page = none → (mpChan x slot ch).walked = none →
      (∀ e, walk s (some (dieOfCore c)) t.page2m t.ptb page = .ok e →
        exec (.tableWalk c slot ch) s = .next (onCore c (keepPte slot t page e) (tallyCore c 0x009 1 (walked t page)))) ∧
      (walk s (some (dieOfCore c)) t.page2m t.ptb page = .error .clear →
        exec (.tableWalk c slot ch) s = .next (onCore c (onChan slot ch (fun k => { k with walked := some 0x08 }))
          (tallyCore c 0x009 1 (walked t page)))))

/-- R141 and R142, while nydb has no breakpoint: EX takes the head of i0 into the slot it packs; with a slot packed and a
credit left it hands that over, numbered by N modulo SLOTS; the oldest slot handed over lands in its atoll's next position,
tokens and control entries, and raises TAILK. -/
def Obligations.EdgeExitSteps : Prop :=
  ∀ (c : Nat) (s : State),
    let x := coreOf s c
    let w := opField x 31 1 28 4
    let slots := opField x 31 1 10 18
    (∀ t, tokensOn s c = true → hasOp x 31 = true → headTok x 95 0 = some t → t.kind = .data → x.ex.ended = false → x.ex.ready = [] →
      x.ex.packing.length + 1 < w →
      exec (.exSlotHandoff c) s = .next (moved c (fun y =>
        { (popChan 95 0 y) with ex := { x.ex with packing := x.ex.packing ++ [t] } }) s)) ∧
    (∀ q rest, tokensOn s c = true → hasOp x 31 = true → headTok x 95 0 = none → x.ex.ready = q :: rest →
      x.ex.n < slots + (counterOf s c (opField x 31 1 4 6) - x.ex.k0).toNat →
      let e : ExSlot := { srcCore := c, chip := opField x 31 0 13 12, core := opField x 31 0 0 13, atoll := opField x 31 1 0 4
                          pos := x.ex.n % slots, slots := slots, slotw := w, toks := q, ctx := (viewOf s c).ctx }
      ∃ u, exec (.exSlotHandoff c) s = .next u ∧ u.hub = s.hub ∧ u.ms = { s.ms with exSlots := s.ms.exSlots ++ [e] } ∧
        coreOf u c = { x with ex := { x.ex with ready := rest, n := x.ex.n + 1 }, lastMove := s.cycle } ∧
        (∀ d, d ≠ c → coreOf u d = coreOf s d)) ∧
    (∀ e rest q, s.ms.exSlots = e :: rest → e.srcCore = c → e.chip = s.hub.chipid → applies s e.core e.ctx = true →
      (isleOfCore s c).frozen = false → (isleOfCore s e.core).frozen = false → slotAsked s c e = none →
      atollOf (coreOf s e.core) e.atoll = some q → e.slots = q.slots → e.slotw = q.slotw → e.toks.length = q.slotw →
      q.tailk < 64 → s.nydb.breaks = [] → (coreOf s e.core).stashes = [] →
      let pos := e.pos % q.slots * q.slotw
      ∃ u, exec (.atollLanding c) s = .next u ∧ u.hub = { s.hub with fifos := u.hub.fifos } ∧ u.ms = { s.ms with exSlots := rest } ∧
        (∀ d, d ≠ c → d ≠ e.core → coreOf u d = coreOf s d) ∧ counterOf u e.core q.tailk = counterOf s e.core q.tailk + 1 ∧
        (∀ k, k ≠ q.tailk → counterOf u e.core k = counterOf s e.core k) ∧
        (coreOf u e.core).scratch = memStore
          (memStore (coreOf s e.core).scratch (q.base + 16 * pos) (e.toks.flatMap (fun t => toBytes 16 t.data.toNat)))
          (q.base + 16 * q.slots * q.slotw + 2 * pos) (e.toks.flatMap (fun t => toBytes 2 t.control)))

/-! ### Operators (R137 to R140, R191 to R196, R212, R213, R232 to R237) -/

/-- One step of an operator with its heads present and its outputs free. R138: STEER opens a group by a control token that
names an enabled output. R139: MERGE emits the head of the input it picks. R140: LOOP sends a token around COUNT times and out.
R194: MJ compares two heads by key. R213: RD folds a DATA token, and a closing MARK follows the result. R233: SK keeps an offer
and gives them best first, then the MARK. R236: UNIF draws once for each lane. R237: SPLIT and JOIN; that SPLIT sends all its pieces in one step is the model's choice
(notes/assumptions/57.md). -/
def Obligations.OperatorsStep : Prop :=
  ∀ (c slot : Nat) (s : State) (t : Tok), tokensOn s c = true → hasOp (coreOf s c) slot = true →
    let x := coreOf s c
    let node := 64 + slot
    let h0 := headTok x node 0 = some t
    let mode := opField x slot 0 0 2
    let w := opPar x slot 0
    let m := smOf x slot
    let moves := fun (i : Instr) (f : Core → Core) => exec i s = .next (moved c f s)
    (∀ k, mode = 0 → m.ended = false → m.cur = none → exitsRoom x node 1 = true → h0 → t.kind = .data →
      headTok x node (opField x slot 0 2 2) = some k → bit w (4 + k.lane 0 % 4) = true →
      let j := k.lane 0 % 4
      moves (.steerGroup c slot) (fun y => putSm slot { m with cur := if bit w 15 then some j else none, sel := some j, curPoison := false }
        (emitTok node j t (popChan node 0 (popChan node (opField x slot 0 2 2) y))))) ∧
    (∀ j u, mode = 1 → m.ended = false → m.cur = none → exitRoom x node 0 1 = true → pickInput x slot m = some j →
      headTok x node j = some u → u.ends = false → bit w 15 = false →
      moves (.merge c slot) (fun y => putSm slot { m with cur := none, lastServed := j } (emitTok node 0 u (popChan node j y)))) ∧
    (mode = 2 → m.ended = false → exitRoom x node 0 1 = true → exitRoom x node 1 1 = true →
      (m.body = false → h0 → t.kind = .data →
        moves (.loop c slot) (fun y => putSm slot { m with body := true, count := 1 } (emitTok node 0 t (popChan node 0 y)))) ∧
      (∀ u, m.body = true → headTok x node 1 = some u → u.kind = .data →
        (m.count < opPar x slot 1 → moves (.loop c slot) (fun y => putSm slot { m with carry := some u, count := m.count + 1 }
          (emitTok node 0 u (popChan node 1 y)))) ∧
        (opPar x slot 1 ≤ m.count → moves (.loop c slot) (fun y => putSm slot { m with carry := some u, body := false }
          (emitTok node 1 u (popChan node 1 y)))))) ∧
    (∀ b, let m := mjOf x slot
      slot = 10 ∨ slot = 11 → m.ended = false → exitRoom x node 0 1 = true → h0 → headTok x node 1 = some b → t.kind = .data →
      b.kind = .data → strayKey t = false → strayKey b = false → m.disorder = false → outOfOrder m.lastA t = false →
      outOfOrder m.lastB b = false → m.filling = false →
      let ka := t.key.toNat
      let kb := b.key.toNat
      let takes := fun (f : Core → Core) => moves (.mjStep c slot) f
      (m.bufValid = false →
        (mode ≠ 2 → kb < ka → takes (takeB slot b m)) ∧
        (mode < 2 → ka < kb → takes (takeA slot t m)) ∧
        (mode = 3 → ka < kb → takes (fun y => emitTok node 0 t (takeA slot t m y))) ∧
        (mode = 0 → ka = kb → takes (fun y => emitTok node 0 t (takeA slot t m y))) ∧
        (mode = 3 → ka = kb → takes (takeA slot t m)) ∧
        (mode = 2 → ka ≤ kb → takes (fun y => emitTok node 0 t (takeA slot t m y))) ∧
        (mode = 2 → kb < ka → takes (fun y => emitTok node 0 b (takeB slot b m y))) ∧
        (mode = 1 → ka = kb → takes (takeB slot b { m with filling := true, bufKey := b.key, buf := [b], bufPoison := false }))) ∧
      (∀ p, m.bufValid = true → t.key = m.bufKey → m.buf[m.pos]? = some p → m.pos + 1 < m.buf.length →
        takes (fun y => putMj slot { m with pos := m.pos + 1 } (emitTok node 0 (pairTok t p (bit w 2) (bit w 3) m.bufPoison) y)))) ∧
    (slot = 15 ∨ slot = 16 → (rdOf x slot).ended = false → h0 →
      (t.kind = .data → moves (.rdFold c slot) (fun y => putRd slot (rdTake x slot t (rdOf x slot)) (popChan node 0 y))) ∧
      (t.kind = .mark → opField x slot 0 5 3 ≤ t.level → bit w 15 = false → exitRoom x node 0 2 = true → (rdOf x slot).any = true →
        rdAlg x slot ≠ .real → bit (opPar x slot 2) 6 = false → bit (opPar x slot 2) 13 = false → routed x node 0 = true →
        ∃ u, exec (.rdSegmentClose c slot) s = .next u ∧ OnlyCore c s u ∧ (coreOf u c).chans = (popChan node 0 x).chans ∧
          (rdOf (coreOf u c) slot).any = false ∧ (rdOf (coreOf u c) slot).ended = t.ends ∧ (rdOf (coreOf u c) slot).acc = [] ∧
          exitQ (coreOf u c) node 0 = exitQ x node 0 ++
            [rdToken x slot (rdOf x slot) ((rdPlaces x slot).map (fun l => (l, mapGet (algZero (rdAlg x slot)) (rdOf x slot).acc l))), t])) ∧
    (slot = 17 → x.sk.ended = false → h0 →
      (t.kind = .data → moves (.skOffer c) (fun y => { (popChan 81 0 y) with sk := { x.sk with
        tokens := x.sk.tokens + 1, poison := x.sk.poison || t.poison, kept := (upTo 4).foldl (fun kept l =>
          if t.has l then keepBest (bit w 9) (opField x 17 0 0 9) (t.lane l, (4 * x.sk.tokens + l) % 2 ^ 32) kept else kept) x.sk.kept } })) ∧
      (t.kind = .mark → opField x 17 0 10 3 ≤ t.level → exitRoom x 81 0 1 = true →
        (∀ v i rest, x.sk.kept = (v, i) :: rest → moves (.skEmit c) (fun y => emitTok 81 0
          { data := quadOf i (if bit w 13 then v else 0) 0 0, lmask := if bit w 13 then 3 else 1, poison := x.sk.poison }
          { y with sk := { x.sk with kept := rest } })) ∧
        (x.sk.kept = [] → moves (.skEmit c) (fun y => emitTok 81 0 t { (popChan 81 0 y) with sk := { ended := t.ends } })))) ∧
    (slot = 18 → x.sg.ended = false → exitRoom x 82 0 2 = true → mode = 0 → h0 → t.kind = .data → t.lmask = 15 →
      let z := mapGet {} x.sg.z (opField x 18 0 2 6)
      ∃ u, exec (.sgDraw c) s = .next u ∧ OnlyCore c s u ∧ (coreOf u c).chans = (popChan 82 0 x).chans ∧
        mapGet {} (coreOf u c).sg.z (opField x 18 0 2 6) = { k := z.k, c := z.c + 4 } ∧
        (routed x 82 0 = true → exitQ (coreOf u c) 82 0 = exitQ x 82 0 ++
          [{ data := laneData (fun l => drawU (drawZ z.k (z.c + BitVec.ofNat 64 l))), lmask := 15, poison := t.poison }])) ∧
    (19 ≤ slot → slot ≤ 22 → (wcOf x slot).ended = false → exitRoom x node 0 4 = true → h0 → t.kind = .data →
      let k := if bit w 2 then 2 else 1
      let ps := (wcOf x slot).part ++ [t]
      (mode = 0 → moves (.split c slot) (fun y => (piecesOf k t).foldl (fun y p => emitTok node 0 p y) (popChan node 0 y))) ∧
      (mode ≠ 0 → ps.length < 4 / k → moves (.join c slot) (fun y =>
        { (popChan node 0 y) with wcs := mapPut (popChan node 0 y).wcs slot { wcOf x slot with part := ps } })) ∧
      (mode ≠ 0 → 4 / k ≤ ps.length → ∃ u, exec (.join c slot) s = .next u ∧ OnlyCore c s u ∧ (wcOf (coreOf u c) slot).part = [] ∧
        (coreOf u c).chans = (popChan node 0 x).chans ∧
        (routed x node 0 = true → exitQ (coreOf u c) node 0 = exitQ x node 0 ++ [joinTok k ps])))

/-! ### The matrix tile engine (R220 to R231) -/

/-- R223: a DATA token enters the register its channel fills, which with its last becomes FULL. R224: a codebook header and the
token that completes it. R225: a scratchpad register takes its next tile. R226: an operation fires, and its sums land when it
ends. R227: a closing MARK hands an accumulator to the drain, which sends its tokens, or the HA takes it. R229: a parameter
word, which for a register drops what it holds but its data. That a register fills from the scratchpad in one step and a tile
passes to the HA in one are the model's choices (notes/assumptions/56.md). -/
def Obligations.MatrixEngineSteps : Prop :=
  ∀ (c ch : Nat) (s : State) (t : Tok), tokensOn s c = true → hasOp (coreOf s c) 14 = true →
    let x := coreOf s c
    let moves := fun (i : Instr) (f : Core → Core) => exec i s = .next (moved c f s)
    let now := fun (i : Instr) (f : Core → Prop) => ∃ u, exec i s = .next u ∧ OnlyCore c s u ∧ f (coreOf u c)
    (∀ n, mtOn s c ch = true → headTok x 78 ch = some t → t.kind = .data → regOn x ch = some n → (tRegOf x n).full = false →
      mapFind x.mt.cbFill ch = none →
      let r := tRegOf x n
      (r.pos + 16 < 4096 → moves (.mtFillToken c ch) (fun y => putT n { r with
        poison := r.poison || t.poison, data := memStore r.data r.pos (tokBytes t), pos := r.pos + 16 } (popChan 78 ch y))) ∧
      (r.pos + 16 = 4096 → bit (mtReg x n) 9 = false → now (.mtFillToken c ch) (fun y =>
        (tRegOf y n).full = true ∧ (tRegOf y n).ready = s.cycle + 2 ∧ (tRegOf y n).cursor = 0 ∧
        (tRegOf y n).data = memStore r.data r.pos (tokBytes t) ∧ y.chans = (popChan 78 ch x).chans ∧
        ∀ j, j ≠ n → tRegOf y j = tRegOf x j))) ∧
    (mtOn s c ch = true → headTok x 78 ch = some t → regEmpty x ch = true → (regOn x ch).isSome = true → isPort x ch = false →
      (t.kind = .ctrl → ctrlClass t = 1 → moves (.codebook c ch) (fun y => soilReg ch t (onMt (fun m => { m with
        cbFill := mapPut m.cbFill ch { reg := bits (t.lane 3) 0 1, poison := t.poison } }) (popChan 78 ch y)))) ∧
      (∀ b, t.kind = .data → mapFind x.mt.cbFill ch = some b → b.poison = false → t.poison = false → b.entries.length = 8 →
        now (.codebook c ch) (fun y => cbOf y b.reg = b.entries ++ bookEntries t ∧ y.chans = (popChan 78 ch x).chans ∧
          y.mt.cbFill = mapDel x.mt.cbFill ch))) ∧
    (∀ n, n < 8 → sourceOn s c = true → x.mt.ended = false → fillReady x n = true → (∀ j, j < n → fillReady x j = false) →
      x.stashes = [] → bit (mtReg x n) 31 = false →
      let r := tRegOf x n
      now (.mtScratchpadFill c n) (fun y => (tRegOf y n).full = true ∧ (tRegOf y n).filled = r.filled + 1 ∧
        (tRegOf y n).data = memStore [] 0 ((tileRows x n r.seq).flatMap (fun e => memBytes x.scratch e.1 e.2)) ∧
        (tRegOf y n).seq = (r.seq + 1) % max 1 (bits (mtReg x n) 14 11) ∧ (∀ j, j ≠ n → tRegOf y j = tRegOf x j) ∧
        y.scratch = x.scratch)) ∧
    (∀ m w, x.mt.firing = none → nextFiring x s.cycle = some (m, w) →
      let a := bits w 2 3
      let b := bits w 5 3
      let k := min (mtCols (mtReg x a) - (tRegOf x a).cursor) (mtCols (mtReg x b) - (tRegOf x b).cursor)
      let q := min (mtRate (mtFmtOf x a)) (mtRate (mtFmtOf x b))
      now (.mtFire c) (fun y => y.mt = { x.mt with firing := some { op := m, dst := mtDst x w, k := k, until_ := s.cycle + ceilDiv k q } })) ∧
    (∀ f, x.mt.firing = some f → f.until_ ≤ s.cycle →
      now (.mtFireEnd c) (fun y => y.mt.firing = none ∧ aRegOf y f.dst = (fireTile x (mtPar x (29 + f.op)) f.dst f.k).1 ∧
        y.mt.flags = x.mt.flags ||| (fireTile x (mtPar x (29 + f.op)) f.dst f.k).2 ∧
        (∀ j, j ≠ f.dst → aRegOf y j = aRegOf x j) ∧ y.chans = x.chans ∧ y.scratch = x.scratch)) ∧
    (∀ n w, mtOn s c ch = true → headTok x 78 ch = some t → t.kind = .mark → t.abort = false → regOn x ch = some n →
      (tRegOf x n).full = false → (tRegOf x n).pos = 0 → (tRegOf x n).nscales = 0 → closedBy x ch = [w] → bits w 8 2 = 0 →
      bits (mtPar x 0) 15 3 ≤ t.level → (aRegOf x 0).tag = .acc → x.mt.firing = none → mtFeedsHa x = false →
      now (.mtClose c ch) (fun y => aRegOf y 0 = { aRegOf x 0 with tag := .full, key := 0, anchor := mapGet 0 x.mt.anchors 0 } ∧
        y.mt.jobs = x.mt.jobs ++ [.drain 0 (aRegOf x 0).key 0, .mark t] ∧ y.chans = (popChan 78 ch x).chans ∧
        (∀ j, j ≠ 0 → aRegOf y j = aRegOf x j))) ∧
    (exitRoom x 78 0 1 = true →
      (∀ a key n rest, x.mt.jobs = .drain a key n :: rest → n + 1 < drainLength x →
        now (.mtDrain c) (fun y => y.mt.jobs = .drain a key (n + 1) :: rest ∧ y.mt.flags = x.mt.flags ||| (drainTok x a key n).2 ∧
          (routed x 78 0 = true → exitQ y 78 0 = exitQ x 78 0 ++ [(drainTok x a key n).1]))) ∧
      (∀ j rest, x.mt.jobs = .mark t :: j :: rest →
        moves (.mtDrain c) (fun y => onMt (fun m => { m with jobs := m.jobs.drop 1 }) (emitTok 78 0 t y)))) ∧
    (∀ a key rest g p e tab, x.mt.jobs = .give a key :: rest → haMode x ≠ 2 → x.haU.paused = none → x.haU.tab.open_ = true →
      x.haU.tab.geom = some g →
      (x.haU.tab.seek haEnt key true = .at_ p e tab ∨
        (x.haU.tab.seek haEnt key true = .absent p ∧ tab = x.haU.tab ∧ e = freshSlot (haAlg x) x.haU.round key)) →
      let d := aRegOf x a
      now (.haTileTransfer c) (fun y => y.mt.jobs = rest ∧ aRegOf y a = { key := d.key } ∧
        y.haU.tab = oweHa x.haU.tab
          { tab with slots := mapPut tab.slots p (combineTile d.x d.count d.risk d.poison x.haU.round e).1, blocked := none, retry := false })) ∧
    (ch = bits (mtPar x 33) 0 2 → mtOn s c ch = true → headTok x 78 ch = some t → isPort x ch = true → portOpen x = true →
      t.kind = .ctrl → ctrlClass t = 2 →
      let i := bits (t.lane 3) 0 6
      let v := t.lane 0
      (paramOk x i v = true → 13 ≤ i → moves (.param c) (fun y => onMt (fun m => { m with words := mapPut m.words i v }) (popChan 78 ch y))) ∧
      (paramOk x i v = true → 5 ≤ i → i ≤ 12 → now (.param c) (fun y =>
        let r := tRegOf x (i - 5)
        mtPar y i = v ∧ tRegOf y (i - 5) = { data := r.data, filled := r.filled, ready := s.cycle + 1 } ∧
        (∀ j, j ≠ i - 5 → tRegOf y j = tRegOf x j) ∧ (∀ a, a < 2 → mapGet 0 y.mt.anchors a = (mtAlpha x i v a).getD 0))) ∧
      (paramOk x i v = false → moves (.param c) (fun y => mtFlags 16 (popChan 78 ch y))))
end

