-- ==== Sys2Proof/Laws/Map.lean ====
section
/-! SUPPORT. The laws of finite maps and byte memories: what a read gives after a write, and that every memory operation
keeps the canonical form. -/

namespace Sys2Proof.Laws

open Sys2Proof.Machine

variable {α : Type}

/-! ### Reads of a map -/

@[simp] theorem mapFind_nil (k : Nat) : mapFind ([] : Map α) k = none := rfl

@[simp] theorem mapFind_mapPut_self (m : Map α) (k : Nat) (v : α) : mapFind (mapPut m k v) k = some v := by
  induction m with
  | nil => simp [mapPut, mapFind]
  | cons e m ih =>
    obtain ⟨j, w⟩ := e
    simp only [mapPut]
    split
    · simp [mapFind]
    · split
      · simp [mapFind]
      · simp [mapFind, *]

theorem mapFind_mapPut_ne (m : Map α) {k j : Nat} (v : α) (h : j ≠ k) : mapFind (mapPut m k v) j = mapFind m j := by
  induction m with
  | nil => simp [mapPut, mapFind, h]
  | cons e m ih =>
    obtain ⟨i, w⟩ := e
    simp only [mapPut]
    split
    · subst_vars; simp [mapFind, h]
    · split
      · simp only [mapFind, if_neg h]
        split
        · split <;> first | omega | (split <;> first | rfl | omega)
        · rfl
      · simp [mapFind, ih]

@[simp] theorem mapGet_mapPut_self (d : α) (m : Map α) (k : Nat) (v : α) : mapGet d (mapPut m k v) k = v := by
  simp [mapGet]

theorem mapGet_mapPut_ne (d : α) (m : Map α) {k j : Nat} (v : α) (h : j ≠ k) :
    mapGet d (mapPut m k v) j = mapGet d m j := by
  simp [mapGet, mapFind_mapPut_ne m v h]

theorem mapGet_mapPut (d : α) (m : Map α) (k j : Nat) (v : α) :
    mapGet d (mapPut m k v) j = if j = k then v else mapGet d m j := by
  split
  · subst_vars; simp
  · exact mapGet_mapPut_ne d m v ‹_›

/-! ### Sorted keys -/

theorem mapSortedFrom_le {lo lo' : Nat} {m : Map α} (h : mapSortedFrom lo m = true) (hl : lo' ≤ lo) :
    mapSortedFrom lo' m = true := by
  cases m with
  | nil => rfl
  | cons e m =>
    simp only [mapSortedFrom, Bool.and_eq_true, Nat.ble_eq] at h ⊢
    exact ⟨by omega, h.2⟩

/-- No key below the bound of a sorted map is listed. -/
theorem mapFind_below {lo k : Nat} {m : Map α} (h : mapSortedFrom lo m = true) (hk : k < lo) : mapFind m k = none := by
  cases m with
  | nil => rfl
  | cons e m =>
    obtain ⟨i, w⟩ := e
    simp only [mapSortedFrom, Bool.and_eq_true, Nat.ble_eq] at h
    simp [mapFind, show k ≠ i by omega, show k < i by omega]

theorem mapSortedFrom_mapPut {lo k : Nat} {m : Map α} (v : α) (h : mapSortedFrom lo m = true) (hk : lo ≤ k) :
    mapSortedFrom lo (mapPut m k v) = true := by
  induction m generalizing lo with
  | nil => simp [mapPut, mapSortedFrom, hk]
  | cons e m ih =>
    obtain ⟨i, w⟩ := e
    simp only [mapSortedFrom, Bool.and_eq_true, Nat.ble_eq] at h
    simp only [mapPut]
    split
    · subst_vars; simp [mapSortedFrom, hk, h.2]
    · split
      · simp [mapSortedFrom, hk, h.2]; omega
      · simp only [mapSortedFrom, Bool.and_eq_true, Nat.ble_eq]
        exact ⟨h.1, ih h.2 (by omega)⟩

theorem mapSortedFrom_mapDel {lo : Nat} {m : Map α} (k : Nat) (h : mapSortedFrom lo m = true) :
    mapSortedFrom lo (mapDel m k) = true := by
  induction m generalizing lo with
  | nil => rfl
  | cons e m ih =>
    obtain ⟨i, w⟩ := e
    have h' := h
    simp only [mapSortedFrom, Bool.and_eq_true, Nat.ble_eq] at h
    simp only [mapDel]
    split
    · exact mapSortedFrom_le h.2 (by omega)
    · split
      · exact h'
      · simp only [mapSortedFrom, Bool.and_eq_true, Nat.ble_eq]
        exact ⟨h.1, ih h.2⟩

theorem mapFind_mapDel_self {lo : Nat} {m : Map α} (k : Nat) (h : mapSortedFrom lo m = true) :
    mapFind (mapDel m k) k = none := by
  induction m generalizing lo with
  | nil => rfl
  | cons e m ih =>
    obtain ⟨i, w⟩ := e
    simp only [mapSortedFrom, Bool.and_eq_true, Nat.ble_eq] at h
    simp only [mapDel]
    split
    · exact mapFind_below h.2 (by omega)
    · split
      · simp [mapFind, *]
      · simp [mapFind, *, ih h.2]

theorem mapFind_mapDel_ne {lo : Nat} {m : Map α} {k j : Nat} (h : mapSortedFrom lo m = true) (hj : j ≠ k) :
    mapFind (mapDel m k) j = mapFind m j := by
  induction m generalizing lo with
  | nil => rfl
  | cons e m ih =>
    obtain ⟨i, w⟩ := e
    simp only [mapSortedFrom, Bool.and_eq_true, Nat.ble_eq] at h
    simp only [mapDel]
    split
    · subst_vars
      simp only [mapFind, if_neg hj]
      split
      · exact mapFind_below h.2 (by omega)
      · rfl
    · split
      · rfl
      · simp [mapFind, ih h.2]

/-! ### Byte memories -/

theorem all_mapPut {p : Nat × α → Bool} {m : Map α} {k : Nat} {v : α} (h : m.all p = true) (hv : p (k, v) = true) :
    (mapPut m k v).all p = true := by
  induction m with
  | nil => simp [mapPut, hv]
  | cons e m ih =>
    obtain ⟨i, w⟩ := e
    simp only [List.all_cons, Bool.and_eq_true] at h
    simp only [mapPut]
    split
    · simp [hv, h.2]
    · split
      · simp [hv, h.1, h.2]
      · simp [h.1, ih h.2]

theorem all_mapDel {p : Nat × α → Bool} {m : Map α} {k : Nat} (h : m.all p = true) : (mapDel m k).all p = true := by
  induction m with
  | nil => rfl
  | cons e m ih =>
    obtain ⟨i, w⟩ := e
    simp only [List.all_cons, Bool.and_eq_true] at h
    simp only [mapDel]
    split
    · exact h.2
    · split
      · simp [h.1, h.2]
      · simp [h.1, ih h.2]

theorem wf_iff (m : Memory) : m.wf = true ↔ mapSortedFrom 0 m = true ∧ m.all (fun c => c.2 != 0) = true := by
  simp [Memory.wf]

@[simp] theorem wf_nil : Memory.wf [] = true := rfl

/-- Storing a byte keeps the canonical form. -/
theorem memSet_wf {m : Memory} (a : Nat) (b : Byte) (h : m.wf = true) : (memSet m a b).wf = true := by
  rw [wf_iff] at h ⊢
  unfold memSet
  split
  · exact ⟨mapSortedFrom_mapDel a h.1, all_mapDel h.2⟩
  · exact ⟨mapSortedFrom_mapPut b h.1 (Nat.zero_le a), all_mapPut h.2 (by simpa using ‹¬ b = 0›)⟩

/-- Storing bytes keeps the canonical form. -/
theorem memStore_wf {m : Memory} (a : Nat) (bs : List Byte) (h : m.wf = true) : (memStore m a bs).wf = true := by
  induction bs generalizing m a with
  | nil => exact h
  | cons b bs ih => exact ih (a + 1) (memSet_wf a b h)

/-- Storing a number keeps the canonical form. -/
theorem memPutNat_wf {m : Memory} (a n v : Nat) (h : m.wf = true) : (memPutNat m a n v).wf = true :=
  memStore_wf a (toBytes n v) h

/-- Keeping some cells keeps the keys sorted. -/
theorem mapSortedFrom_filter {lo : Nat} {m : Map α} (p : Nat × α → Bool) (h : mapSortedFrom lo m = true) :
    mapSortedFrom lo (m.filter p) = true := by
  induction m generalizing lo with
  | nil => rfl
  | cons e m ih =>
    simp only [mapSortedFrom, Bool.and_eq_true, Nat.ble_eq] at h
    simp only [List.filter_cons]
    split
    · simp only [mapSortedFrom, Bool.and_eq_true, Nat.ble_eq]; exact ⟨h.1, ih h.2⟩
    · exact ih (mapSortedFrom_le h.2 (by omega))

/-- Keeping some cells keeps the canonical form. -/
theorem mapKeep_wf {m : Memory} (p : Nat → Bool) (h : m.wf = true) : Memory.wf (mapKeep p m) = true := by
  rw [wf_iff] at h ⊢
  refine ⟨mapSortedFrom_filter _ h.1, ?_⟩
  have h2 := h.2
  simp only [List.all_eq_true, mapKeep, List.mem_filter] at h2 ⊢
  exact fun e he => h2 e he.1

/-- A byte reads as it was last stored. -/
theorem memByte_memSet_self {m : Memory} (a : Nat) (b : Byte) (h : m.wf = true) : memByte (memSet m a b) a = b := by
  rw [wf_iff] at h
  unfold memByte memSet
  split
  · simp [mapGet, mapFind_mapDel_self a h.1, *]
  · simp

/-- A store leaves every other byte alone. -/
theorem memByte_memSet_ne {m : Memory} {a j : Nat} (b : Byte) (h : m.wf = true) (hj : j ≠ a) :
    memByte (memSet m a b) j = memByte m j := by
  rw [wf_iff] at h
  unfold memByte memSet mapGet
  split
  · rw [mapFind_mapDel_ne h.1 hj]
  · rw [mapFind_mapPut_ne m b hj]

/-- Bytes outside a stored range read as before. -/
theorem memByte_memStore_outside {m : Memory} {a j : Nat} (bs : List Byte) (h : m.wf = true)
    (hj : j < a ∨ a + bs.length ≤ j) : memByte (memStore m a bs) j = memByte m j := by
  induction bs generalizing m a with
  | nil => rfl
  | cons b bs ih =>
    simp only [List.length_cons] at hj
    rw [memStore, ih (memSet_wf a b h) (by omega), memByte_memSet_ne b h (by omega)]

/-- Bytes inside a stored range read as stored. -/
theorem memByte_memStore_inside {m : Memory} {a j : Nat} (bs : List Byte) (h : m.wf = true) (hl : a ≤ j)
    (hj : j < a + bs.length) : memByte (memStore m a bs) j = bs.getD (j - a) 0 := by
  induction bs generalizing m a with
  | nil => simp at hj; omega
  | cons b bs ih =>
    simp only [List.length_cons] at hj
    rw [memStore]
    by_cases hja : j = a
    · subst hja
      rw [memByte_memStore_outside bs (memSet_wf j b h) (by omega), memByte_memSet_self j b h]
      simp
    · rw [ih (memSet_wf a b h) (by omega) (by omega)]
      obtain ⟨d, rfl⟩ : ∃ d, j = a + 1 + d := ⟨j - (a + 1), by omega⟩
      rw [show a + 1 + d - (a + 1) = d by omega, show a + 1 + d - a = d + 1 by omega]
      simp [List.getD]

theorem toBytes_length (n x : Nat) : (toBytes n x).length = n := by
  induction n generalizing x with
  | zero => rfl
  | succ n ih => simp [toBytes, ih]

theorem memBytes_length (m : Memory) (a n : Nat) : (memBytes m a n).length = n := by
  induction n generalizing a with
  | zero => rfl
  | succ n ih => simp [memBytes, ih]

/-- The number that the n bytes of x hold is x modulo 2^(8 n) (R4). -/
theorem ofBytes_toBytes (n x : Nat) : ofBytes (toBytes n x) = x % 256 ^ n := by
  induction n generalizing x with
  | zero => simp [toBytes, ofBytes, Nat.mod_one]
  | succ n ih =>
    rw [Nat.pow_add_one', Nat.mod_mul]
    simp only [toBytes, ofBytes, ih, BitVec.toNat_ofNat]

/-- What was stored is read back. -/
theorem memBytes_memStore {m : Memory} (a : Nat) (bs : List Byte) (h : m.wf = true) :
    memBytes (memStore m a bs) a bs.length = bs := by
  induction bs generalizing m a with
  | nil => rfl
  | cons b bs ih =>
    simp only [memStore, List.length_cons, memBytes]
    rw [memByte_memStore_outside bs (memSet_wf a b h) (by omega), memByte_memSet_self a b h, ih (a + 1) (memSet_wf a b h)]

/-- A number stored in n bytes reads back modulo 2^(8 n). -/
theorem memNat_memPutNat {m : Memory} (a n v : Nat) (h : m.wf = true) : memNat (memPutNat m a n v) a n = v % 256 ^ n := by
  have := memBytes_memStore a (toBytes n v) h
  rw [toBytes_length] at this
  rw [memNat, memPutNat, this, ofBytes_toBytes]

end Sys2Proof.Laws
end

