-- ==== Sys2Proof/Laws/State.lean ====
section
/-! SUPPORT. One lemma per field of State per update, true by rfl, and what the updates of a core, a pilot and an isle show. -/

namespace Sys2Proof.Laws

open Sys2Proof.Machine

/-! ### onCore -/

@[simp] theorem onCore_cycle (c : Nat) (f : Core → Core) (s : State) : (onCore c f s).cycle = s.cycle := rfl
@[simp] theorem onCore_agenda (c : Nat) (f : Core → Core) (s : State) : (onCore c f s).agenda = s.agenda := rfl
@[simp] theorem onCore_turn (c : Nat) (f : Core → Core) (s : State) : (onCore c f s).turn = s.turn := rfl
@[simp] theorem onCore_tick (c : Nat) (f : Core → Core) (s : State) : (onCore c f s).tick = s.tick := rfl
@[simp] theorem onCore_moves (c : Nat) (f : Core → Core) (s : State) : (onCore c f s).moves = s.moves := rfl
@[simp] theorem onCore_hub (c : Nat) (f : Core → Core) (s : State) : (onCore c f s).hub = s.hub := rfl
@[simp] theorem onCore_host (c : Nat) (f : Core → Core) (s : State) : (onCore c f s).host = s.host := rfl
@[simp] theorem onCore_trust (c : Nat) (f : Core → Core) (s : State) : (onCore c f s).trust = s.trust := rfl
@[simp] theorem onCore_power (c : Nat) (f : Core → Core) (s : State) : (onCore c f s).power = s.power := rfl
@[simp] theorem onCore_ms (c : Nat) (f : Core → Core) (s : State) : (onCore c f s).ms = s.ms := rfl
@[simp] theorem onCore_nydb (c : Nat) (f : Core → Core) (s : State) : (onCore c f s).nydb = s.nydb := rfl

/-! ### onPilot -/

@[simp] theorem onPilot_cycle (c : Nat) (f : Pilot → Pilot) (s : State) : (onPilot c f s).cycle = s.cycle := rfl
@[simp] theorem onPilot_agenda (c : Nat) (f : Pilot → Pilot) (s : State) : (onPilot c f s).agenda = s.agenda := rfl
@[simp] theorem onPilot_turn (c : Nat) (f : Pilot → Pilot) (s : State) : (onPilot c f s).turn = s.turn := rfl
@[simp] theorem onPilot_tick (c : Nat) (f : Pilot → Pilot) (s : State) : (onPilot c f s).tick = s.tick := rfl
@[simp] theorem onPilot_moves (c : Nat) (f : Pilot → Pilot) (s : State) : (onPilot c f s).moves = s.moves := rfl
@[simp] theorem onPilot_hub (c : Nat) (f : Pilot → Pilot) (s : State) : (onPilot c f s).hub = s.hub := rfl
@[simp] theorem onPilot_host (c : Nat) (f : Pilot → Pilot) (s : State) : (onPilot c f s).host = s.host := rfl
@[simp] theorem onPilot_trust (c : Nat) (f : Pilot → Pilot) (s : State) : (onPilot c f s).trust = s.trust := rfl
@[simp] theorem onPilot_power (c : Nat) (f : Pilot → Pilot) (s : State) : (onPilot c f s).power = s.power := rfl
@[simp] theorem onPilot_ms (c : Nat) (f : Pilot → Pilot) (s : State) : (onPilot c f s).ms = s.ms := rfl
@[simp] theorem onPilot_nydb (c : Nat) (f : Pilot → Pilot) (s : State) : (onPilot c f s).nydb = s.nydb := rfl

/-! ### onIsle -/

@[simp] theorem onIsle_cycle (n : Nat) (f : Isle → Isle) (s : State) : (onIsle n f s).cycle = s.cycle := rfl
@[simp] theorem onIsle_agenda (n : Nat) (f : Isle → Isle) (s : State) : (onIsle n f s).agenda = s.agenda := rfl
@[simp] theorem onIsle_turn (n : Nat) (f : Isle → Isle) (s : State) : (onIsle n f s).turn = s.turn := rfl
@[simp] theorem onIsle_tick (n : Nat) (f : Isle → Isle) (s : State) : (onIsle n f s).tick = s.tick := rfl
@[simp] theorem onIsle_moves (n : Nat) (f : Isle → Isle) (s : State) : (onIsle n f s).moves = s.moves := rfl
@[simp] theorem onIsle_cores (n : Nat) (f : Isle → Isle) (s : State) : (onIsle n f s).cores = s.cores := rfl
@[simp] theorem onIsle_host (n : Nat) (f : Isle → Isle) (s : State) : (onIsle n f s).host = s.host := rfl
@[simp] theorem onIsle_trust (n : Nat) (f : Isle → Isle) (s : State) : (onIsle n f s).trust = s.trust := rfl
@[simp] theorem onIsle_power (n : Nat) (f : Isle → Isle) (s : State) : (onIsle n f s).power = s.power := rfl
@[simp] theorem onIsle_ms (n : Nat) (f : Isle → Isle) (s : State) : (onIsle n f s).ms = s.ms := rfl
@[simp] theorem onIsle_nydb (n : Nat) (f : Isle → Isle) (s : State) : (onIsle n f s).nydb = s.nydb := rfl

/-! ### onHub -/

@[simp] theorem onHub_cycle (f : Hub → Hub) (s : State) : (onHub f s).cycle = s.cycle := rfl
@[simp] theorem onHub_agenda (f : Hub → Hub) (s : State) : (onHub f s).agenda = s.agenda := rfl
@[simp] theorem onHub_turn (f : Hub → Hub) (s : State) : (onHub f s).turn = s.turn := rfl
@[simp] theorem onHub_tick (f : Hub → Hub) (s : State) : (onHub f s).tick = s.tick := rfl
@[simp] theorem onHub_moves (f : Hub → Hub) (s : State) : (onHub f s).moves = s.moves := rfl
@[simp] theorem onHub_cores (f : Hub → Hub) (s : State) : (onHub f s).cores = s.cores := rfl
@[simp] theorem onHub_host (f : Hub → Hub) (s : State) : (onHub f s).host = s.host := rfl
@[simp] theorem onHub_trust (f : Hub → Hub) (s : State) : (onHub f s).trust = s.trust := rfl
@[simp] theorem onHub_power (f : Hub → Hub) (s : State) : (onHub f s).power = s.power := rfl
@[simp] theorem onHub_ms (f : Hub → Hub) (s : State) : (onHub f s).ms = s.ms := rfl
@[simp] theorem onHub_nydb (f : Hub → Hub) (s : State) : (onHub f s).nydb = s.nydb := rfl
@[simp] theorem onHub_hub (f : Hub → Hub) (s : State) : (onHub f s).hub = f s.hub := rfl

/-! ### onMs -/

@[simp] theorem onMs_cycle (f : MemSys → MemSys) (s : State) : (onMs f s).cycle = s.cycle := rfl
@[simp] theorem onMs_agenda (f : MemSys → MemSys) (s : State) : (onMs f s).agenda = s.agenda := rfl
@[simp] theorem onMs_turn (f : MemSys → MemSys) (s : State) : (onMs f s).turn = s.turn := rfl
@[simp] theorem onMs_tick (f : MemSys → MemSys) (s : State) : (onMs f s).tick = s.tick := rfl
@[simp] theorem onMs_moves (f : MemSys → MemSys) (s : State) : (onMs f s).moves = s.moves := rfl
@[simp] theorem onMs_cores (f : MemSys → MemSys) (s : State) : (onMs f s).cores = s.cores := rfl
@[simp] theorem onMs_hub (f : MemSys → MemSys) (s : State) : (onMs f s).hub = s.hub := rfl
@[simp] theorem onMs_host (f : MemSys → MemSys) (s : State) : (onMs f s).host = s.host := rfl
@[simp] theorem onMs_trust (f : MemSys → MemSys) (s : State) : (onMs f s).trust = s.trust := rfl
@[simp] theorem onMs_power (f : MemSys → MemSys) (s : State) : (onMs f s).power = s.power := rfl
@[simp] theorem onMs_nydb (f : MemSys → MemSys) (s : State) : (onMs f s).nydb = s.nydb := rfl
@[simp] theorem onMs_ms (f : MemSys → MemSys) (s : State) : (onMs f s).ms = f s.ms := rfl

/-! ### onHost -/

@[simp] theorem onHost_cycle (f : HostPort → HostPort) (s : State) : (onHost f s).cycle = s.cycle := rfl
@[simp] theorem onHost_agenda (f : HostPort → HostPort) (s : State) : (onHost f s).agenda = s.agenda := rfl
@[simp] theorem onHost_turn (f : HostPort → HostPort) (s : State) : (onHost f s).turn = s.turn := rfl
@[simp] theorem onHost_tick (f : HostPort → HostPort) (s : State) : (onHost f s).tick = s.tick := rfl
@[simp] theorem onHost_moves (f : HostPort → HostPort) (s : State) : (onHost f s).moves = s.moves := rfl
@[simp] theorem onHost_cores (f : HostPort → HostPort) (s : State) : (onHost f s).cores = s.cores := rfl
@[simp] theorem onHost_hub (f : HostPort → HostPort) (s : State) : (onHost f s).hub = s.hub := rfl
@[simp] theorem onHost_trust (f : HostPort → HostPort) (s : State) : (onHost f s).trust = s.trust := rfl
@[simp] theorem onHost_power (f : HostPort → HostPort) (s : State) : (onHost f s).power = s.power := rfl
@[simp] theorem onHost_ms (f : HostPort → HostPort) (s : State) : (onHost f s).ms = s.ms := rfl
@[simp] theorem onHost_nydb (f : HostPort → HostPort) (s : State) : (onHost f s).nydb = s.nydb := rfl
@[simp] theorem onHost_host (f : HostPort → HostPort) (s : State) : (onHost f s).host = f s.host := rfl

/-! ### onNydb -/

@[simp] theorem onNydb_cycle (f : Nydb → Nydb) (s : State) : (onNydb f s).cycle = s.cycle := rfl
@[simp] theorem onNydb_agenda (f : Nydb → Nydb) (s : State) : (onNydb f s).agenda = s.agenda := rfl
@[simp] theorem onNydb_turn (f : Nydb → Nydb) (s : State) : (onNydb f s).turn = s.turn := rfl
@[simp] theorem onNydb_tick (f : Nydb → Nydb) (s : State) : (onNydb f s).tick = s.tick := rfl
@[simp] theorem onNydb_moves (f : Nydb → Nydb) (s : State) : (onNydb f s).moves = s.moves := rfl
@[simp] theorem onNydb_cores (f : Nydb → Nydb) (s : State) : (onNydb f s).cores = s.cores := rfl
@[simp] theorem onNydb_hub (f : Nydb → Nydb) (s : State) : (onNydb f s).hub = s.hub := rfl
@[simp] theorem onNydb_host (f : Nydb → Nydb) (s : State) : (onNydb f s).host = s.host := rfl
@[simp] theorem onNydb_trust (f : Nydb → Nydb) (s : State) : (onNydb f s).trust = s.trust := rfl
@[simp] theorem onNydb_power (f : Nydb → Nydb) (s : State) : (onNydb f s).power = s.power := rfl
@[simp] theorem onNydb_ms (f : Nydb → Nydb) (s : State) : (onNydb f s).ms = s.ms := rfl
@[simp] theorem onNydb_nydb (f : Nydb → Nydb) (s : State) : (onNydb f s).nydb = f s.nydb := rfl

/-! ### Cores, pilots and isles -/

@[simp] theorem coreOf_onCore_self (c : Nat) (f : Core → Core) (s : State) : coreOf (onCore c f s) c = f (coreOf s c) := by
  simp [coreOf, onCore]

theorem coreOf_onCore_ne {c d : Nat} (f : Core → Core) (s : State) (h : d ≠ c) : coreOf (onCore c f s) d = coreOf s d := by
  simp [coreOf, onCore, mapGet_mapPut_ne, h]

theorem coreOf_onCore (c d : Nat) (f : Core → Core) (s : State) :
    coreOf (onCore c f s) d = if d = c then f (coreOf s c) else coreOf s d := by
  split
  · subst_vars; simp
  · exact coreOf_onCore_ne f s ‹_›

@[simp] theorem coreOf_onPilot_self (c : Nat) (f : Pilot → Pilot) (s : State) :
    coreOf (onPilot c f s) c = { coreOf s c with pilot := f (coreOf s c).pilot } := by
  simp [onPilot]

theorem coreOf_onPilot_ne {c d : Nat} (f : Pilot → Pilot) (s : State) (h : d ≠ c) :
    coreOf (onPilot c f s) d = coreOf s d := coreOf_onCore_ne _ s h

theorem isleOf_onIsle (n m : Nat) (f : Isle → Isle) (s : State) :
    isleOf (onIsle n f s) m = if m = n then f (isleOf s n) else isleOf s m := by
  simp [isleOf, onIsle, mapGet_mapPut]

@[simp] theorem isleOf_onCore (c : Nat) (f : Core → Core) (s : State) (m : Nat) : isleOf (onCore c f s) m = isleOf s m := rfl
@[simp] theorem isleOf_onPilot (c : Nat) (f : Pilot → Pilot) (s : State) (m : Nat) : isleOf (onPilot c f s) m = isleOf s m := rfl
@[simp] theorem coreOf_onIsle (n : Nat) (f : Isle → Isle) (s : State) (d : Nat) : coreOf (onIsle n f s) d = coreOf s d := rfl
@[simp] theorem coreOf_onHub (f : Hub → Hub) (s : State) (d : Nat) : coreOf (onHub f s) d = coreOf s d := rfl
@[simp] theorem coreOf_onMs (f : MemSys → MemSys) (s : State) (d : Nat) : coreOf (onMs f s) d = coreOf s d := rfl
@[simp] theorem isleOf_onMs (f : MemSys → MemSys) (s : State) (m : Nat) : isleOf (onMs f s) m = isleOf s m := rfl
@[simp] theorem coreOf_onHost (f : HostPort → HostPort) (s : State) (d : Nat) : coreOf (onHost f s) d = coreOf s d := rfl
@[simp] theorem isleOf_onHost (f : HostPort → HostPort) (s : State) (m : Nat) : isleOf (onHost f s) m = isleOf s m := rfl
@[simp] theorem coreOf_onNydb (f : Nydb → Nydb) (s : State) (d : Nat) : coreOf (onNydb f s) d = coreOf s d := rfl
@[simp] theorem isleOf_onNydb (f : Nydb → Nydb) (s : State) (m : Nat) : isleOf (onNydb f s) m = isleOf s m := rfl

/-! ### Registers -/

@[simp] theorem pilot_reg_zero (p : Pilot) : p.reg 0 = 0 := rfl

theorem reg_zero (s : State) : reg s 0 = 0 := rfl

end Sys2Proof.Laws
end

