-- ==== Sys2Proof/Laws/Ops.lean ====
section
/-! SUPPORT. For each shared operation of the pilot, once, what it can do: the outcome of an instruction, registers and the
program counter, taking a trap and returning from one, and the results of accesses. -/

namespace Sys2Proof.Laws

open Sys2Proof.Machine

/-! ### Outcomes -/

@[simp] theorem done_next (s : State) : done s = .next s := rfl

theorem done_eq_next {s t : State} : done s = .next t ↔ s = t := by simp

/-! ### Registers and the program counter -/

/-- A register after one was set: g0 stays 0, the one set shows the value, the others stay. -/
theorem pilot_reg_setReg (p : Pilot) (r : Nat) (v : Word) (q : Nat) (hr : r < 32) :
    (p.setReg r v).reg q = if q = r ∧ q ≠ 0 then v else p.reg q := by
  unfold Pilot.setReg Pilot.reg
  by_cases h0 : r = 0
  · subst h0; simp
  · by_cases hq : q = 0
    · simp [hq]
    · by_cases hqr : q = r
      · subst hqr
        simp [h0, hr, Vector.setIfInBounds, List.getD]
      · simp [hq, hqr, h0, Vector.setIfInBounds, List.getD, Ne.symm hqr]

theorem pilot_eq (s : State) : pilot s = (coreOf s s.turn).pilot := rfl

/-- Reading a register after writing one (R147). -/
theorem reg_setReg (s : State) (r q : Reg) (v : Word) :
    reg (setReg r v s) q = if q = r ∧ q ≠ 0 then v else reg s q := by
  have hq : (q.toNat = r.toNat ∧ q.toNat ≠ 0) ↔ (q = r ∧ q ≠ 0) := by
    simp only [← BitVec.toNat_inj, ne_eq]
    simp
  unfold reg pilot setReg
  simp only [onPilot_turn, coreOf_onPilot_self]
  rw [pilot_reg_setReg _ _ _ _ r.isLt]
  simp only [hq]

@[simp] theorem setReg_pc (s : State) (r : Reg) (v : Word) : (pilot (setReg r v s)).pc = (pilot s).pc := by
  unfold pilot setReg
  simp only [onPilot_turn, coreOf_onPilot_self]
  unfold Pilot.setReg
  split <;> rfl

@[simp] theorem setReg_moves (s : State) (r : Reg) (v : Word) : (setReg r v s).moves = s.moves := rfl
@[simp] theorem setReg_turn (s : State) (r : Reg) (v : Word) : (setReg r v s).turn = s.turn := rfl
@[simp] theorem setReg_ms (s : State) (r : Reg) (v : Word) : (setReg r v s).ms = s.ms := rfl
@[simp] theorem setReg_hub (s : State) (r : Reg) (v : Word) : (setReg r v s).hub = s.hub := rfl
@[simp] theorem setReg_host (s : State) (r : Reg) (v : Word) : (setReg r v s).host = s.host := rfl

@[simp] theorem goto_pc (s : State) (pc : Word) : (pilot (goto pc s)).pc = pc := by simp [pilot, goto]
@[simp] theorem goto_moves (s : State) (pc : Word) : (goto pc s).moves = s.moves := rfl
@[simp] theorem goto_turn (s : State) (pc : Word) : (goto pc s).turn = s.turn := rfl
@[simp] theorem goto_ms (s : State) (pc : Word) : (goto pc s).ms = s.ms := rfl
@[simp] theorem goto_hub (s : State) (pc : Word) : (goto pc s).hub = s.hub := rfl
@[simp] theorem goto_host (s : State) (pc : Word) : (goto pc s).host = s.host := rfl
@[simp] theorem wordDone_regs (p : Pilot) : p.wordDone.regs = p.regs := rfl

@[simp] theorem goto_reg (s : State) (pc : Word) (r : Reg) : reg (goto pc s) r = reg s r := by
  simp [reg, pilot, goto, Pilot.reg]

@[simp] theorem advance_pc (s : State) : (pilot (advance s)).pc = (pilot s).pc + 8 := goto_pc _ _
@[simp] theorem advance_moves (s : State) : (advance s).moves = s.moves := rfl
@[simp] theorem advance_turn (s : State) : (advance s).turn = s.turn := rfl
@[simp] theorem advance_ms (s : State) : (advance s).ms = s.ms := rfl
@[simp] theorem advance_hub (s : State) : (advance s).hub = s.hub := rfl
@[simp] theorem advance_host (s : State) : (advance s).host = s.host := rfl
@[simp] theorem advance_reg (s : State) (r : Reg) : reg (advance s) r = reg s r := goto_reg _ _ r

/-- What writing a result and going on can do (R146, R147). -/
theorem writeBack_reg (s : State) (gd r : Reg) (v : Word) :
    reg (writeBack gd v s) r = if r = gd ∧ r ≠ 0 then v else reg s r := by
  rw [writeBack, advance_reg, reg_setReg]

@[simp] theorem writeBack_pc (s : State) (gd : Reg) (v : Word) : (pilot (writeBack gd v s)).pc = (pilot s).pc + 8 := by
  rw [writeBack, advance_pc, setReg_pc]

@[simp] theorem writeBack_moves (s : State) (gd : Reg) (v : Word) : (writeBack gd v s).moves = s.moves := rfl
@[simp] theorem writeBack_turn (s : State) (gd : Reg) (v : Word) : (writeBack gd v s).turn = s.turn := rfl
@[simp] theorem writeBack_ms (s : State) (gd : Reg) (v : Word) : (writeBack gd v s).ms = s.ms := rfl
@[simp] theorem writeBack_hub (s : State) (gd : Reg) (v : Word) : (writeBack gd v s).hub = s.hub := rfl
@[simp] theorem writeBack_host (s : State) (gd : Reg) (v : Word) : (writeBack gd v s).host = s.host := rfl

theorem coreOf_goto_ne (s : State) (pc : Word) {d : Nat} (h : d ≠ s.turn) : coreOf (goto pc s) d = coreOf s d :=
  coreOf_onCore_ne _ s h

theorem coreOf_writeBack_ne (s : State) (gd : Reg) (v : Word) {d : Nat} (h : d ≠ s.turn) :
    coreOf (writeBack gd v s) d = coreOf s d := by
  rw [writeBack, advance, coreOf_goto_ne _ _ (by simpa using h), setReg, coreOf_onPilot_ne _ _ h]

/-! ### Traps -/

/-- A trap while none is in progress and TRAPVEC is nonzero enters the handler (R151). -/
theorem takeTrap_enters {s : State} {c cause : Nat} {fabric soft : Bool} {val pc : Word}
    (h : (coreOf s c).pilot.inTrap = false) (hv : (coreOf s c).pilot.trapVec ≠ 0) :
    takeTrap c cause fabric soft val pc s = onPilot c (fun p => p.enterTrap cause fabric soft val pc) s := by
  rw [takeTrap, if_neg (by rw [h]; simpa using hv)]

/-- ERET inside a handler goes on at TRAPPC with INTRAP clear (R160). -/
theorem returnFromTrap_pc {s : State} (h : (pilot s).inTrap = true) :
    (pilot (returnFromTrap s)).pc = (pilot s).trapPc ∧ (pilot (returnFromTrap s)).inTrap = false := by
  rw [returnFromTrap, if_pos h]
  simp [pilot]

/-! ### Results of accesses -/

variable {α β : Type}

@[simp] theorem andThen_ok (a : α) (s : State) (f : α → State → Res β) : (Res.ok a s).andThen f = f a s := rfl
@[simp] theorem andThen_fault (c p : Nat) (s : State) (f : α → State → Res β) : (Res.fault c p s).andThen f = .fault c p s := rfl
@[simp] theorem andThen_wait (s : State) (f : α → State → Res β) : (Res.wait s).andThen f = .wait s := rfl

/-- An access that goes through two parts went through both. -/
theorem andThen_eq_ok {r : Res α} {f : α → State → Res β} {b : β} {t : State} :
    r.andThen f = .ok b t ↔ ∃ a s, r = .ok a s ∧ f a s = .ok b t := by
  cases r with
  | ok a s => exact ⟨fun h => ⟨a, s, rfl, h⟩, fun ⟨_, _, e, h⟩ => by cases e; exact h⟩
  | fault c p s => simp
  | wait s => simp

@[simp] theorem onRes_ok (a : α) (s : State) (k : α → State → State) : onRes (.ok a s) k = k a s := rfl
@[simp] theorem onRes_fault (c v : Nat) (s : State) (k : α → State → State) :
    onRes (.fault c v s) k = trapAt c (BitVec.ofNat 64 v) s := rfl
@[simp] theorem onRes_wait (s : State) (k : α → State → State) : onRes (.wait s) k = s := rfl

theorem afterStores_done {s : State} (h : storesDone s s.turn = true) (k : State → State) : afterStores s k = k s := by
  simp [afterStores, h]

theorem afterStores_waits {s : State} (h : storesDone s s.turn = false) (k : State → State) : afterStores s k = s := by
  simp [afterStores, h]

/-- A release with nothing buffered, no dirty stash line and no write of the core's engines on its way goes on at once
(R156, R264). -/
theorem afterRelease_done {s : State} (h : storesDone s s.turn = true) (hs : (coreOf s s.turn).stashes = [])
    (hf : farSettled s (.fabric s.turn) = true) (k : State → State) : afterRelease s k = k s := by
  simp [afterRelease, afterStores, h, coreBack, writeBackStash, hs, writeBackGo, hf]

end Sys2Proof.Laws
end

