-- ==== Sys2Proof/Laws/Claims.lean ====
section
/-! SUPPORT. What the shared operations of the pilot do in the terms of Safety: completing with a result, jumping, and
entering a handler. -/

namespace Sys2Proof.Laws

open Sys2Proof.Machine Sys2Proof.Safety

theorem onlyCore_refl (c : Nat) (s : State) : OnlyCore c s s :=
  ⟨rfl, rfl, rfl, rfl, rfl, rfl, rfl, rfl, rfl, rfl, rfl, fun _ _ => rfl⟩

theorem onlyCore_onCore (c : Nat) (f : Core → Core) (s : State) : OnlyCore c s (onCore c f s) :=
  ⟨rfl, rfl, rfl, rfl, rfl, rfl, rfl, rfl, rfl, rfl, rfl, fun _ h => coreOf_onCore_ne f s h⟩

theorem onlyCore_onPilot (c : Nat) (f : Pilot → Pilot) (s : State) : OnlyCore c s (onPilot c f s) :=
  onlyCore_onCore c _ s

theorem onlyCore_trans {c : Nat} {s t u : State} (a : OnlyCore c s t) (b : OnlyCore c t u) : OnlyCore c s u :=
  ⟨b.cycle.trans a.cycle, b.agenda.trans a.agenda, b.turn.trans a.turn, b.tick.trans a.tick, b.moves.trans a.moves,
   b.hub.trans a.hub, b.host.trans a.host, b.trust.trans a.trust, b.power.trans a.power, b.ms.trans a.ms,
   b.nydb.trans a.nydb, fun d h => (b.others d h).trans (a.others d h)⟩

theorem onlyCore_goto (pc : Word) (s : State) : OnlyCore s.turn s (goto pc s) := onlyCore_onCore s.turn _ s

theorem onlyCore_advance (s : State) : OnlyCore s.turn s (advance s) := onlyCore_goto _ s

theorem onlyCore_tallyCore (c code n : Nat) (s : State) : OnlyCore c s (tallyCore c code n s) := onlyCore_onCore c _ s

theorem onlyCore_acquire (c : Nat) (s : State) : OnlyCore c s (acquire c s) := by
  unfold acquire raisePts; exact onlyCore_onCore c _ s

theorem onlyCore_acquireFabric (c : Nat) (s : State) : OnlyCore c s (acquireFabric c s) := by
  unfold acquireFabric raisePts; exact onlyCore_onCore c _ s

/-- Setting gd and going on at an address completes an instruction. -/
theorem completed_goto_setReg (s : State) (gd : Reg) (v pc : Word) : Completed s gd v pc (goto pc (setReg gd v s)) := by
  refine ⟨onlyCore_trans (t := setReg gd v s) (onlyCore_onPilot _ _ s) (onlyCore_onCore s.turn _ _), ?_, ?_, ?_, ?_, ?_⟩
  · simp [CoreKept, goto, setReg]
  · simp only [PilotKept, pilot, goto, setReg, onPilot_turn, onCore_turn, coreOf_onCore_self, coreOf_onPilot_self,
      Pilot.setReg]
    split <;> rfl
  · intro r
    rw [goto_reg, reg_setReg]
  · simp
  · simp [pilot, goto]

theorem completed_writeBack (s : State) (gd : Reg) (v : Word) : Completed s gd v ((pilot s).pc + 8) (writeBack gd v s) := by
  simpa [writeBack, advance] using completed_goto_setReg s gd v ((pilot s).pc + 8)

/-- Going on at an address completes an instruction that writes no register. -/
theorem completed_goto (s : State) (pc : Word) : Completed s 0 0 pc (goto pc s) := by
  refine ⟨onlyCore_onCore _ _ s, ?_, ?_, ?_, ?_, ?_⟩
  · simp [CoreKept, goto]
  · simp [PilotKept, pilot, goto, Pilot.wordDone]
  · intro r; simp
  · simp
  · simp [pilot, goto]

theorem completed_advance (s : State) : Completed s 0 0 ((pilot s).pc + 8) (advance s) := completed_goto s _

/-- A precise trap enters the handler (R151). -/
theorem trapped_trapAt {s : State} (h : CanTrap s) (cause : Nat) (val : Word) :
    Trapped s cause false false val (pilot s).pc (trapAt cause val s) := by
  obtain ⟨h1, h2⟩ := h
  rw [trapAt, takeTrap_enters (by simpa [pilot] using h1) (by simpa [pilot] using h2)]
  refine ⟨onlyCore_trans (onlyCore_onPilot _ _ s) (onlyCore_onPilot _ _ _), ?_, ?_, ?_, ?_, ?_, ?_, ?_⟩ <;>
    simp [CoreKept, pilot, Pilot.enterTrap, ofBool]

/-- An instruction that writes its result back completes there. -/
theorem completes_of_writeBack {i : Instr} {s x : State} {gd : Reg} {v : Word} (h : exec i s = done (writeBack gd v x)) :
    ∃ t, exec i s = .next t ∧ Completed x gd v ((pilot x).pc + 8) t :=
  ⟨writeBack gd v x, h, completed_writeBack x gd v⟩

/-- An instruction that goes on completes there. -/
theorem completes_of_advance {i : Instr} {s x : State} (h : exec i s = done (advance x)) :
    ∃ t, exec i s = .next t ∧ Completed x 0 0 ((pilot x).pc + 8) t :=
  ⟨advance x, h, completed_advance x⟩

/-- An instruction that traps in a state whose pilot can enter its handler enters it there. -/
theorem traps_of_trapAt {i : Instr} {s x : State} {cause : Nat} {v : Word} (h : exec i s = done (trapAt cause v x))
    (hc : CanTrap x) : ∃ t, exec i s = .next t ∧ Trapped x cause false false v (pilot x).pc t :=
  ⟨trapAt cause v x, h, trapped_trapAt hc cause v⟩

/-- Owing nothing, an instruction that releases goes on at once (R156, R264). -/
theorem afterRelease_owed {s : State} (h : NothingOwed s) (k : State → State) : afterRelease s k = k s := by
  obtain ⟨⟨h1, hp⟩, h2, hf⟩ := h
  exact afterRelease_done (by simpa [storesDone, pilot] using ⟨h1, hp⟩) h2 hf k

/-- Without breakpoints a counter breakpoint never hits. -/
theorem hitCounter_nil {s : State} (h : s.nydb.breaks = []) (c k : Nat) : hitCounter c k s = s := by
  unfold hitCounter
  split
  · simp only [hitBreak, h, List.any_nil, Bool.false_eq_true, if_false, List.filter_nil]
    conv => rhs; rw [show s = { s with nydb := { s.nydb with breaks := [] } } by rw [← h]]
  · rfl

/-- What the hub hears of a counter that rose: its queued launches, and nothing else (R98). -/
theorem forwardWatch_eq (c k : Nat) (s : State) :
    forwardWatch c k s = onHub (fun h => { h with fifos := h.fifos.map (fun (p, q) => (p, q.map (forwardTo c k (counterOf s c k)))) }) s := by
  unfold forwardWatch
  split
  · rfl
  · next h =>
    have same : s.hub.fifos.map (fun (p, q) => (p, q.map (forwardTo c k (counterOf s c k)))) = s.hub.fifos := by
      refine (List.map_congr_left fun e he => ?_).trans (List.map_id _)
      refine Prod.ext rfl ((List.map_congr_left fun l hl => ?_).trans (List.map_id _))
      exact Decidable.byContradiction fun hne =>
        h (List.any_eq_true.mpr ⟨e, he, List.any_eq_true.mpr ⟨l, hl, by simpa using hne⟩⟩)
    show s = { s with hub := { s.hub with fifos := s.hub.fifos.map _ } }
    rw [same]

/-- A counter after it rose. -/
theorem counterOf_raiseIn (s : State) (c : Nat) {k : Nat} (hk : k < 64) (inc : Word) (j : Nat) :
    counterOf (onCore c (raiseIn s.cycle k inc) s) c j = if j = k then counterOf s c k + inc else counterOf s c j := by
  have kept : ∀ x : Core, (latchAt s.cycle x).counters = x.counters := by
    intro x; unfold latchAt; dsimp only; split <;> rfl
  simp only [counterOf, coreOf_onCore_self, raiseIn, kept]
  by_cases h : j = k
  · subst h; simp [hk, List.getD]
  · simp [List.getD, h, Ne.symm h]

/-- Raising a counter while nydb has no breakpoint (R295). -/
theorem raised_raiseCounter {s : State} (h : s.nydb.breaks = []) (c : Nat) {k : Nat} (hk : k < 64) (inc : Word) :
    Raised c k inc s (raiseCounter c k inc s) := by
  have e : raiseCounter c k inc s =
      onHub (fun h => { h with fifos := h.fifos.map (fun (p, q) => (p, q.map (forwardTo c k (counterOf s c k + inc)))) })
        (onCore c (raiseIn s.cycle k inc) s) := by
    have v := counterOf_raiseIn s c hk inc k
    rw [if_pos rfl] at v
    rw [raiseCounter, forwardWatch_eq, v, hitCounter_nil (by simpa using h)]
  rw [e]
  refine ⟨onlyCore_onCore c _ s, rfl, ?_, ?_, ?_⟩
  · simpa [counterOf] using counterOf_raiseIn s c hk inc k
  · intro j hj
    simpa [counterOf, hj] using counterOf_raiseIn s c hk inc j
  · simp only [coreOf_onHub, coreOf_onCore_self, raiseIn, latchAt, counterOf]
    split <;> rfl

end Sys2Proof.Laws
end

