-- ==== Sys2Proof/Laws/Decode.lean ====
section
/-! SUPPORT. A pilot word and its fields say the same thing (R60). -/

namespace Sys2Proof.Laws

/-- The fields of a packed word are the fields that were packed. -/
theorem fieldsOf_packFields (f : Fields) : fieldsOf (packFields f) = f := by
  obtain ⟨op, gd, ga, gb, gc, fn, imm⟩ := f
  simp only [fieldsOf, packFields, Fields.mk.injEq]
  refine ⟨?_, ?_, ?_, ?_, ?_, ?_, ?_⟩ <;> apply BitVec.eq_of_getLsbD_eq <;> intro i hi <;>
    simp only [BitVec.getLsbD_extractLsb', BitVec.getLsbD_append, hi, decide_true, Bool.true_and] <;>
    repeat' (first | (rw [if_pos (by omega)]) | (rw [if_neg (by omega)]))
  all_goals congr 1; omega

/-- A word is what packs its fields. -/
theorem packFields_fieldsOf (w : Word) : packFields (fieldsOf w) = w := by
  apply BitVec.eq_of_getLsbD_eq
  intro i hi
  simp only [fieldsOf, packFields, BitVec.getLsbD_extractLsb', BitVec.getLsbD_append]
  repeat' split
  all_goals
    first
      | rw [decide_eq_true (by omega), Bool.true_and]
        congr 1; omega

end Sys2Proof.Laws
end

