-- ==== Sys2Proof/Laws/Exec.lean ====
section
/-! SUPPORT. Every meaning answers a next state: the machine never stops, and refuses nothing. -/

namespace Sys2Proof.Laws

open Sys2Proof.Machine

theorem exec_eq_done (i : Instr) (s : State) : ∃ u, exec i s = done u := by
  unfold exec
  split
  all_goals
    delta
      execAdd execSub execAnd execOr execXor execSll execSrl execSra execMul execMulhs execMulhu execDivs execDivu
      execRems execRemu execMins execMaxs execMinu execMaxu execSeq execSne execSlt execSltu execSel execClz execCtz
      execPopc execBrev execAddi execAndi execOri execXori execSlli execSrli execSrai execSlti execSltui execLih
      execBeq execBne execBlt execBge execBltu execBgeu execJal execJalr execLd execLds execSt execStoreBufferDrain
      execAmo execCas execAmof execFence execCpy execCpyt execTbinit execTbarv execTbwait execTbtest execStash
      execUnstash execLnch execLnchNear execLwait execLwaitTest execSpawn execYield execPrio execCfgld execCfgsel
      execCfgselId execGo execGoWait execStopg execStopgAbort execSbar execSbarEnd execHaclr execDrain execHsclr
      execRngset execRngget execTblld execNpost execNcancel execTadd execTrd execTwait execRfire execFix execQvote
      execRetr execGwalk execTrap execEret execSysrd execSyswr execWfe execBrk execCtxsave execCtxload execFrsp
      execSpmark execSpacc execStepcmt execStepabt execLsupd execEvsel execEvrd execTakeTrap execWave execMarkStep
      execExitQueueEmit execRouteArrival execStall execDetachCut execBorderCrossing execStraitMeterTick execAgIteration
      execAgWriteStreamToken execRingSlotRead execMpRequest execTableWalk execCopySegmentLand execBarrierUpdate
      execStashLineFill execExSlotHandoff execAtollLanding execGraphEnd execHaAbsorb execSpillfault execSpillLanding
      execHaProbe execHaOverdel execHaTileTransfer execHsToken execMjStep execRdFold execRdSegmentClose execMtFillToken
      execCodebook execMtScratchpadFill execMtFire execMtFireEnd execMtClose execMtDrain execParam execSkOffer
      execSkEmit execSgDraw execSplit execJoin execSteerGroup execMerge execLoop execCounterIncrement execPostedFire
      execPostedComplete execPostedFailure execWave1Start execWave1Report execWave2Start execWave2Report
      execWaveRestart execFabricReport execBaseDiePacket execBaseDieReply execDieMessage execCausewayMessage
      execPtsTick execEventCounterOverflow execLaunchWrite execDependenceWatch execDispatch execLaunchEnd
      execIsleRelease execPreempt execDrainQuiet execDrainLimit execOwedDone execBlockSwitch execHdrFrame execEiFrame
      execEpFrame execXsFrame execOpFrame execAgFrame execMuFrame execLdFrame execEndFrame execWbAccess
      execCxlMemAccess execWbctx execHrdoor execRegisterWrite execMappedCounterStore execMappedCounterLoad execFrhead
      execFrspdoor execTinv execCtxend execChipid execGetVersion execGetCapabilities execNegotiateAlgorithms
      execGetDigests execGetCertificate execChallenge execGetMeasurements execKeyExchange execFinish execEndSession
      execKeySlotWrite execRecoveryLoad execPackageReset execReadySet execReadyClear execPowerSample execThermalTrip
      execParityResend execLoad execLaunch execRun execContinue execBreakLabel execBreakWave execBreakMark
      execBreakCounter execBreakFault execPilotBreakpointHit execStep execWaveCommand execPrint execMem execChan execHa
      execTrig execCocoon execInstructionFetch execWfeTimeout execQuiesceBound execTinvComplete
    exact ⟨_, rfl⟩

/-- Every instruction and event has a next state. -/
theorem exec_next (i : Instr) (s : State) : ∃ t, exec i s = .next t := exec_eq_done i s

end Sys2Proof.Laws
end

