-- ==== Sys2Proof/Laws/MemSystem.lean ====
section
/-! SUPPORT. The canonical form of memory through the memory system: reset has it, and every operation of a home slice, of
a base die and of an agent's access keeps it; and so does every write of a core's scratchpad. -/

namespace Sys2Proof.Laws

open Sys2Proof.Machine

/-- The memory of a state is in canonical form. -/
abbrev MemWf (s : State) : Prop := s.ms.mem.wf = true

theorem reset_memWf : MemWf State.reset := rfl

/-- An update of the memory system that leaves the bytes alone keeps the form. -/
theorem onMs_memWf {s : State} {f : MemSys → MemSys} (hf : (f s.ms).mem = s.ms.mem) (h : MemWf s) : MemWf (onMs f s) := by
  show (f s.ms).mem.wf = true
  rw [hf]; exact h

theorem putGranule_memWf {s : State} (key g : Nat) (d : List Byte) (h : MemWf s) : MemWf (putGranule s key g d) :=
  memStore_wf _ _ h

theorem rawPut_memWf {s : State} (key a : Nat) (b : Byte) (h : MemWf s) : MemWf (rawPut s key a b) := by
  unfold rawPut
  split
  · exact memSet_wf a b h
  · exact putGranule_memWf _ _ _ h

theorem rawPuts_memWf {s : State} (key a : Nat) (bs : List (Option Byte)) (h : MemWf s) : MemWf (rawPuts s key a bs) := by
  induction bs generalizing s a with
  | nil => exact h
  | cons b bs ih =>
    cases b with
    | none => exact ih (a + 1) h
    | some b => exact ih (a + 1) (rawPut_memWf key a b h)

theorem putCodes_memWf (key w : Nat) : ∀ (xs : List Nat) (s : State) (a : Nat), MemWf s → MemWf (putCodes s key a w xs)
  | [], _, _, h => h
  | [x], _, a, h => by
    unfold putCodes
    split
    · exact rawPut_memWf _ _ _ h
    · exact h
  | x :: y :: ys, _, a, h => by
    unfold putCodes
    split
    · exact putCodes_memWf key w (y :: ys) _ (a + 1) (rawPut_memWf _ _ _ h)
    · exact putCodes_memWf key w ys _ (a + 1) (rawPut_memWf _ _ _ h)

theorem putBlock_memWf {s : State} (key : Nat) (r : FmtRange) (g b : Nat) (vs : List Nat) (h : MemWf s) :
    MemWf (putBlock s key r g b vs) :=
  putCodes_memWf _ _ _ _ _ (rawPut_memWf _ _ _ h)

theorem putInBlock_memWf {s : State} (key : Nat) (r : FmtRange) (o : Nat) (bs : List (Option Byte)) (h : MemWf s) :
    MemWf (putInBlock s key r o bs) :=
  putBlock_memWf _ _ _ _ _ h

theorem putEncoded_memWf {s : State} (key : Nat) (r : FmtRange) (n o : Nat) (bs : List (Option Byte)) (h : MemWf s) :
    MemWf (putEncoded s key r n o bs) := by
  induction n generalizing s o bs with
  | zero => exact h
  | succ n ih =>
    simp only [putEncoded]
    split
    · exact h
    · apply ih
      split
      · exact putInBlock_memWf _ _ _ _ h
      · exact h

theorem putOperand_memWf {s : State} (key : Nat) (r : FmtRange) (o : Nat) (bs : List (Option Byte)) (h : MemWf s) :
    MemWf (putOperand s key r o bs) := by
  induction bs generalizing s o with
  | nil => exact h
  | cons b bs ih =>
    cases b with
    | none => exact ih (o + 1) h
    | some b =>
      simp only [putOperand]
      apply ih
      split
      · exact h
      · exact rawPut_memWf _ _ _ h

/-- A write as the base die performs it keeps the form (R265, R266). -/
theorem hbmPut_memWf {s : State} (key pa : Nat) (bs : List (Option Byte)) (h : MemWf s) : MemWf (hbmPut s key pa bs) := by
  unfold hbmPut
  split
  · exact rawPuts_memWf _ _ _ h
  · dsimp only
    split
    · exact putEncoded_memWf _ _ _ _ _ h
    · exact putOperand_memWf _ _ _ _ h

/-- A count of accesses changes no byte. -/
@[simp] theorem hbmCount_mem (pa : Nat) (s : State) : (hbmCount pa s).ms.mem = s.ms.mem := by
  unfold hbmCount
  dsimp only
  split <;> rfl

theorem hbmCount_memWf {s : State} (pa : Nat) (h : MemWf s) : MemWf (hbmCount pa s) := by
  show (hbmCount pa s).ms.mem.wf = true
  rw [hbmCount_mem]; exact h

theorem hbmWrite_memWf {s : State} (key pa : Nat) (bs : List (Option Byte)) (h : MemWf s) : MemWf (hbmWrite s key pa bs) := by
  unfold hbmWrite
  dsimp only
  apply hbmPut_memWf
  split <;> exact h

theorem flushLine_memWf {s : State} (line : Nat) (h : MemWf s) : MemWf (flushLine s line) := by
  unfold flushLine
  split
  · exact h
  · dsimp only
    apply onMs_memWf rfl
    split
    · exact h
    · exact hbmWrite_memWf _ _ _ h

theorem giveUp_memWf {s : State} (w : Way16) (h : MemWf s) : MemWf (giveUp s w) := by
  cases w with
  | line n => exact flushLine_memWf n h
  | guest d n => exact h

/-- What a set gives up for a new line keeps the form. -/
theorem makeRoom_memWf {s : State} (set : Nat) (stream : Bool) (h : MemWf s) : MemWf (makeRoom s set stream) := by
  unfold makeRoom
  split
  · exact h
  · split
    · exact giveUp_memWf (s := { s with tick := s.tick + 1 }) _ h
    · exact h

theorem holdLine_memWf {s : State} (key line : Nat) (stream : Bool) (h : MemWf s) : MemWf (holdLine s key line stream) := by
  unfold holdLine
  split
  · exact h
  · exact hbmCount_memWf _ (onMs_memWf rfl (makeRoom_memWf (setOf line) stream h))

theorem meetLine_memWf {s : State} (key cache line : Nat) (h : MemWf s) : MemWf (meetLine s key cache line) := by
  unfold meetLine
  split
  · exact hbmCount_memWf _ (flushLine_memWf _ h)
  · exact holdLine_memWf _ _ _ h

/-- A write at the home slice keeps the form. -/
theorem homePut_memWf {s : State} (key cache pa : Nat) (bs : List (Option Byte)) (h : MemWf s) :
    MemWf (homePut s key cache pa bs) := by
  unfold homePut
  dsimp only
  split
  · exact hbmWrite_memWf _ _ _ (flushLine_memWf _ h)
  · exact onMs_memWf rfl (holdLine_memWf key (pa / 64) (cache == 1) h)

theorem raisePts_memWf {s : State} (t : Word) (a : Option CacheAgent) (h : MemWf s) : MemWf (raisePts t s a) := by
  rcases a with _ | a
  · exact h
  · cases a <;> exact h

theorem stampWrite_memWf {s : State} (a : Option CacheAgent) (line : Nat) (h : MemWf s) : MemWf (stampWrite s a line) := by
  unfold stampWrite
  dsimp only
  apply raisePts_memWf
  split <;> exact h

theorem foldl_memWf {β : Type} {f : State → β → State} (hf : ∀ s b, MemWf s → MemWf (f s b)) (xs : List β) {s : State}
    (h : MemWf s) : MemWf (xs.foldl f s) := by
  induction xs generalizing s with
  | nil => exact h
  | cons x xs ih => exact ih (hf s x h)

theorem setBad_memWf {s : State} (line bad : Nat) (h : MemWf s) : MemWf (setBad line bad s) := h

theorem markPoison_memWf {s : State} (bad : Bool) (pa : Nat) (bs : List (Option Byte)) (h : MemWf s) :
    MemWf (markPoison bad pa bs s) := by
  unfold markPoison
  split
  · exact h
  · exact setBad_memWf _ _ h

theorem openVersions_memWf {s : State} (key line : Nat) (h : MemWf s) : MemWf (openVersions s key line) := by
  unfold openVersions
  split
  · exact h
  · exact onMs_memWf rfl (flushLine_memWf line h)

theorem addVersions_memWf {s : State} (line : Nat) (w : Writer) (data : List Byte) (fresh : List (Nat × Nat)) (h : MemWf s) :
    MemWf (addVersions line w data fresh s) :=
  foldl_memWf (fun _ _ hs => onMs_memWf rfl (makeRoom_memWf _ _ hs)) fresh h

/-- A write to a line with versions keeps the form (R371). -/
theorem versionPut_memWf {s : State} (au : Author) (key pa : Nat) (bs : List (Option Byte)) (bad : Bool) (h : MemWf s) :
    MemWf (versionPut s au key pa bs bad) := by
  unfold versionPut
  dsimp only
  apply onMs_memWf rfl
  apply setBad_memWf
  have h1 : MemWf (match au.who with
      | some w => addVersions (pa / 64) w (lineData s key (pa / 64)) (freshTags s au (pa / 64)) (openVersions s key (pa / 64))
      | none => openVersions s key (pa / 64)) := by
    split
    · exact addVersions_memWf _ _ _ _ (openVersions_memWf _ _ h)
    · exact openVersions_memWf _ _ h
  split
  · exact hbmWrite_memWf _ _ _ h1
  · exact h1

theorem linePut_memWf {s : State} (au : Author) (key cache pa : Nat) (bs : List (Option Byte)) (bad : Bool) (h : MemWf s) :
    MemWf (linePut s au key cache pa bs bad) := by
  unfold linePut
  split
  · exact versionPut_memWf _ _ _ _ _ h
  · exact markPoison_memWf _ _ _ (homePut_memWf _ _ _ _ h)

/-- A write that an agent performs keeps the form. -/
theorem performWrite_memWf {s : State} (a : Option CacheAgent) (key cache pa : Nat) (bs : List (Option Byte)) (bad : Bool)
    (far : Option Author) (h : MemWf s) : MemWf (performWrite s a key cache pa bs bad far) :=
  linePut_memWf _ _ _ _ _ _ (stampWrite_memWf _ _ (onMs_memWf rfl h))

theorem mergeV_memWf {s : State} (d k : Nat) (h : MemWf s) : MemWf (mergeV d k s) := by
  unfold mergeV
  split
  · exact h
  · exact foldl_memWf (f := fun s j => setV d j (latest (vOf s d j) (vOf s k j)) s) (fun _ _ hs => hs) _ h

/-- A read that an agent performs keeps the form. -/
theorem performRead_memWf {s : State} (a : Option CacheAgent) (key cache pa n : Nat) (h : MemWf s) :
    MemWf (performRead s a key cache pa n).2 := by
  have h1 := meetLine_memWf key cache (pa / 64) (s := onMs (tallySlice pa 0x100) s) (onMs_memWf rfl h)
  unfold performRead
  dsimp only
  split
  · exact mergeV_memWf _ _ (raisePts_memWf _ _ h1)
  · exact raisePts_memWf _ _ h1

/-- What a base die or a release of versions settles on a line keeps the form (R371 to R373). -/
theorem settleLine_memWf {s : State} (w : Writer) (ring below from_ : Nat) (a : Option CacheAgent) (line : Nat) (h : MemWf s) :
    MemWf (settleLine w ring below from_ a s line) := by
  unfold settleLine
  dsimp only
  split
  · exact h
  · have keep : ∀ (u : State), u.ms.mem = s.ms.mem → MemWf u := fun u e => by show u.ms.mem.wf = true; rw [e]; exact h
    split
    · apply stampWrite_memWf
      apply setBad_memWf
      split
      · exact keep _ rfl
      · split
        · exact keep _ rfl
        · exact onMs_memWf rfl (hbmWrite_memWf _ _ _ h)
    · apply setBad_memWf
      split
      · exact keep _ rfl
      · split
        · exact keep _ rfl
        · exact onMs_memWf rfl (hbmWrite_memWf _ _ _ h)

/-- A write of a core's scratchpad keeps its form. -/
theorem markScratch_scratch (bad : Bool) (o n : Nat) (x : Core) : (markScratch bad o n x).scratch = x.scratch := by
  unfold markScratch
  dsimp only
  split
  · rfl
  · split
    · rfl
    · split <;> rfl

theorem putScratch_scratch (o : Nat) (bs : List Byte) (x : Core) : (putScratch o bs x).scratch = memStore x.scratch o bs := by
  rw [putScratch, putScratchAs, markScratch_scratch]; rfl

theorem putScratch_wf {x : Core} (o : Nat) (bs : List Byte) (h : x.scratch.wf = true) : (putScratch o bs x).scratch.wf = true := by
  rw [putScratch_scratch]
  exact memStore_wf o bs h

theorem reset_scratch_wf (c : Nat) : (coreOf State.reset c).scratch.wf = true := rfl

end Sys2Proof.Laws
end

