-- ==== Sys2Proof/Tests/Slice0.lean ====
section
/-! SUPPORT. Tests: every pilot constructor decoded from a word written out from the spec's encoding tables, an ill-formed
term for each check of well-formedness, for every obligation a state that meets the hypotheses of each of its clauses, and
single steps and worked examples with the results that the spec gives. -/

section

-- One theorem at a time: each that waits for the kernel would hold a thread of its own.
set_option Elab.async false

open Sys2Proof Sys2Proof.Machine Sys2Proof.Safety
/-- Each word decodes to the instruction beside it. -/
def decodesTo (ws : List Nat) (is : List Instr) : Bool := ws.length == is.length && (ws.zip is).all (fun e => decodeTableWord 64 e.1 == some e.2)

/-! ### States for the tests -/

/-- Core 0 in isle 0, which runs a launch of one core: a pilot at 0x40 with a trap vector, and the changes of f. -/
def one (f : Core → Core) (g : Isle → Isle := id) : State :=
  { cores := [(0, f { isle := some 0, pilot := { running := true, pc := 0x40, trapVec := 0x1000 } })]
    hub := { isles := [(0, g { phase := .running, seq := 1, lrec := { cfgid := 7 } })] } }

/-- Registers with one or two set. -/
def withReg (r : Nat) (v : Word) (x : Core) : Core :=
  { x with pilot := { x.pilot with regs := x.pilot.regs.setIfInBounds r v } }

def withPilot (f : Pilot → Pilot) (x : Core) : Core := { x with pilot := f x.pilot }

/-- Every condition of a list holds. -/
def meets (cs : List Bool) : Bool := cs.all id

/-- The state that an outcome goes on with. -/
def after (o : Host.Outcome State Fault Refusal) : State :=
  match o with | .next t => t | .fault _ => {} | .refused _ => {}

/-- An access answered, and its state meets a condition. -/
def okWith {α : Type} (r : Res α) (p : α → State → Bool) : Bool := match r with | .ok a s => p a s | _ => false

def s0 : State := one id

/-- Register instructions: words written out from the field tables of R60, R61, R65. -/
theorem test_decode_rr : decodesTo
    [0x0148E800_00000000, 0x0248E800_00000000, 0x0348E800_00000000, 0x0448E800_00000000, 0x0548E800_00000000,
    0x0648E800_00000000, 0x0748E800_00000000, 0x0848E800_00000000, 0x0948E800_00000000, 0x0A48E800_00000000,
    0x0B48E800_00000000, 0x0C48E800_00000000, 0x0D48E800_00000000, 0x0E48E800_00000000, 0x0F48E800_00000000,
    0x1048E800_00000000, 0x1148E800_00000000, 0x1248E800_00000000, 0x1348E800_00000000, 0x1448E800_00000000,
    0x1548E800_00000000, 0x1648E800_00000000, 0x1748E800_00000000, 0x1848C850_00000000, 0x19FC4000_00000000,
    0x1AFC4000_00000000, 0x1BFC4000_00000000, 0x1CFC4000_00000000]
    [.add 9 3 20, .sub 9 3 20, .and 9 3 20, .or 9 3 20, .xor 9 3 20, .sll 9 3 20, .srl 9 3 20, .sra 9 3 20,
    .mul 9 3 20, .mulhs 9 3 20, .mulhu 9 3 20, .divs 9 3 20, .divu 9 3 20, .rems 9 3 20, .remu 9 3 20, .mins 9 3 20,
    .maxs 9 3 20, .minu 9 3 20, .maxu 9 3 20, .seq 9 3 20, .sne 9 3 20, .slt 9 3 20, .sltu 9 3 20, .sel 9 3 4 5,
    .clz 31 17, .ctz 31 17, .popc 31 17, .brev 31 17] = true := by decide +kernel

/-- Immediate instructions: words written out from the field tables of R61, R63, R65. -/
theorem test_decode_ri : decodesTo
    [0x20298000_FFFFFFF8, 0x21298000_FFFFFFF8, 0x22298000_FFFFFFF8, 0x23298000_FFFFFFF8, 0x24298000_0000003F,
    0x25298000_0000003F, 0x26298000_0000003F, 0x27298000_00007F00, 0x28298000_00007F00, 0x29298000_00007F00]
    [.addi 5 6 0xFFFFFFF8, .andi 5 6 0xFFFFFFF8, .ori 5 6 0xFFFFFFF8, .xori 5 6 0xFFFFFFF8, .slli 5 6 63,
    .srli 5 6 63, .srai 5 6 63, .slti 5 6 0x7F00, .sltui 5 6 0x7F00, .lih 5 6 0x7F00] = true := by decide +kernel

/-- Branches: words written out from the field tables of R61, R64, R65. -/
theorem test_decode_br : decodesTo
    [0x4000E400_FFFFFFFD, 0x4100E400_FFFFFFFD, 0x4200E400_FFFFFFFD, 0x4300E400_FFFFFFFD, 0x4400E400_FFFFFFFD,
    0x4500E400_FFFFFFFD, 0x46080000_00000005, 0x47088000_00000018]
    [.beq 3 18 0xFFFFFFFD, .bne 3 18 0xFFFFFFFD, .blt 3 18 0xFFFFFFFD, .bge 3 18 0xFFFFFFFD, .bltu 3 18 0xFFFFFFFD,
    .bgeu 3 18 0xFFFFFFFD, .jal 1 5, .jalr 1 2 24] = true := by decide +kernel

/-- Loads, stores, atomics and FENCE: words written out from the field tables of R61, R66. -/
theorem test_decode_mem : decodesTo
    [0x50288006_00000018, 0x51288001_FFFFFFFE, 0x52008E07_00000008, 0x60190A08_00000006, 0x61190A60_0000000B,
    0x62190A0C_00000004, 0x63000003_00000000]
    [.ld .w true 5 2 0x18, .lds .h 5 2 0xFFFFFFFE, .st .d true 2 7 8, .amo .swap .w true false 3 4 5,
    .cas .d false true 3 4 5 6, .amof .bf16sr true false 3 4 5, .fence .package] = true := by decide +kernel

/-- Copies, barriers and stash windows: words written out from the field tables of R267. -/
theorem test_decode_copy : decodesTo
    [0x70014000_00000000, 0x71014000_00000000, 0x72010C00_00000000, 0x73010000_00000000, 0x73010C01_00000000,
    0x74491400_00000000, 0x75490000_00000000, 0x76018000_00000003, 0x77000000_00000007]
    [.cpy 5, .cpyt 5, .tbinit 4 6, .tbarv false 4 0, .tbarv true 4 6, .tbwait 9 4 10, .tbtest 9 4, .stash 6 3,
    .unstash 7] = true := by decide +kernel

/-- Launches, blocks and graphs: words written out from the field tables of R110. -/
theorem test_decode_launch : decodesTo
    [0x80190000_00000000, 0x80190A01_00000000, 0x81190000_00000000, 0x81190001_00000000, 0x82190A07_00000000,
    0x83000000_00000000, 0x84190000_00000000, 0x85010003_00000000, 0x86190002_00000000, 0x86190004_00000000,
    0x8702C000_00000000, 0x8702C001_0000007E, 0x88010000_00000000, 0x88010001_00000000, 0x89000000_00000045,
    0x89000001_00000000]
    [.lnch 3 4, .lnchNear 3 4 5, .lwait 3 4, .lwaitTest 3 4, .spawn 3 4 5 7, .yield, .prio 3 4, .cfgld 4 3,
    .cfgsel 3 4 2, .cfgselId 3 4, .go 11 none, .goWait 11 (some 62), .stopg 4, .stopgAbort 4, .sbar (some 5),
    .sbarEnd none] = true := by decide +kernel

/-- Tables, streams and codebooks: words written out from the field tables of R216, R239. -/
theorem test_decode_table : decodesTo
    [0x90000000_00000000, 0x91180003_0000000A, 0x91214004_000005F0, 0x92000000_00000000, 0x9300C800_00000005,
    0x93000801_00000005, 0x94480001_00000005, 0x94480000_00000005, 0x9501C000_00000001]
    [.haclr, .drain true true false 3 0 2 true 0 false, .drain false false true 4 5 0 false 31 true, .hsclr,
    .rngset false 3 4 5, .rngset true 0 4 5, .rngget true 9 5, .rngget false 9 5, .tblld 7 1] = true := by decide +kernel

/-- Counters and posted operations: words written out from the field tables of R305. -/
theorem test_decode_trigger : decodesTo
    [0xA0494000_00000000, 0xA0494001_000000FB, 0xA11A4000_00000000, 0xA200C000_00000005, 0xA3581401_00000000,
    0xA4024000_0000003E]
    [.npost none 9 5, .npost (some 0xFB) 9 5, .ncancel 3 9, .tadd 3 (.imm 5), .trd 11 (.reg 10), .twait 9 (.imm 62)] = true := by decide +kernel

/-- Rounds: words written out from the field tables of R332. -/
theorem test_decode_round : decodesTo
    [0xB01D0000_00000000, 0xB11D0001_00000000, 0xB2250000_00000000, 0xB3298E00_00000000, 0xB4442200_000A0003]
    [.rfire 3 20, .fix true 3 20, .qvote 4 20, .retr 5 6 7, .gwalk 8 16 17 3 2 true] = true := by decide +kernel

/-- System instructions and the frontier: words written out from the field tables of R159, R357. -/
theorem test_decode_system : decodesTo
    [0xC0010000_0000001E, 0xC1000000_00000000, 0xC2480000_00000010, 0xC3010000_00000021, 0xC4200000_00000064,
    0xC5000000_0000CAFE, 0xC64D0001_00000000, 0xC74D0000_00000000, 0xC800C800_00000000, 0xC800C001_00000000]
    [.trap 4 0x1E, .eret, .sysrd 9 0x010, .syswr 4 0x021, .wfe 4 100, .brk 0xCAFE, .ctxsave true 9 20, .ctxload 9 20,
    .frsp false 3 4, .frsp true 3 0] = true := by decide +kernel

/-- Speculation, steps and event counters: words written out from the field tables of R376. -/
theorem test_decode_step : decodesTo
    [0xD01D0000_00000001, 0xD1224000_00000001, 0xD21D4000_00000000, 0xD3054000_00000000, 0xD42D8600_00000000,
    0xD5024000_00000003, 0xD6500000_00000452]
    [.spmark 3 20 1, .spacc 4 9 1, .stepcmt 3 21, .stepabt 21, .lsupd 5 22 3, .evsel 9 3, .evrd 10 0x452] = true := by decide +kernel

/-! ### Well-formedness: one ill-formed term for each check, beside a well-formed neighbour at the boundary -/

def illFormed (is : List Instr) : Bool := is.all (fun i => !wellFormed i)
def formed (is : List Instr) : Bool := is.all wellFormed

theorem test_refused_pilot : illFormed [.lds .d 1 2 0, .tbarv false 1 2, .rngset true 1 2 0, .trap 1 0x07, .sysrd 1 0x006, .syswr 1 0x022] = true := by decide +kernel

theorem test_formed_pilot : formed [.lds .w 1 2 0, .tbarv false 1 0, .tbarv true 1 2, .rngset true 0 2 0, .trap 1 0x1E, .sysrd 1 0x021, .syswr 1 0x000] = true := by decide +kernel

theorem test_refused_places : illFormed [.takeTrap 6400, .wave 0 64, .markStep 0 64, .exitQueueEmit 0 96 0, .exitQueueEmit 0 0 4, .routeArrival 0 448, .stall 0 96 0,
    .detachCut 0 448, .borderCrossing 0 448, .straitMeterTick 256, .agIteration 0 8, .mpRequest 0 7 0, .tableWalk 0 10 0, .mjStep 0 9, .rdFold 0 17, .split 0 18, .join 0 23,
    .steerGroup 0 22, .merge 0 31, .copySegmentLand 0 272 0, .stashLineFill 0 8 0, .stashLineFill 0 0 4096, .graphEnd 0 4, .mtScratchpadFill 0 8, .mtFillToken 0 4,
    .postedFire 0 256] = true := by decide +kernel

theorem test_refused_package : illFormed [.baseDiePacket .prd 16 ⟨1, 0⟩, .baseDiePacket .prd Config.hbmEnd ⟨1, 0⟩, .baseDiePacket .prd 0 ⟨0, 0⟩, .baseDiePacket .prd 0 ⟨33, 0⟩, .baseDieReply 256 0 0,
    .baseDieReply 0 12 0, .baseDieReply 0 0 8, .dieMessage 4 0, .dieMessage 0 4, .causewayMessage ⟨12, none⟩, .ptsTick (.pilot 6400), .ptsTick (.llc 4), .eventCounterOverflow 4 0 0,
    .eventCounterOverflow 1 256 0, .eventCounterOverflow 0 6400 0, .eventCounterOverflow 0 0 16, .launchWrite 0x1000 [], .dependenceWatch 1024] = true := by decide +kernel

theorem test_refused_host : illFormed [.wbAccess (2 ^ 36) (.read 8), .hrdoor 8 0, .registerWrite (.hrcfg 8) 0, .registerWrite (.cwrt 512) 0, .registerWrite (.frr 12 0 0) 0,
    .registerWrite (.frr 0 16 0) 0, .registerWrite (.frr 0 0 4) 0, .keySlotWrite 0 0, .keySlotWrite 64 0, .readySet 47, .readyClear 47,
    .breakMark 0 0 0 8, .breakCounter 0 64 0, .breakFault 0 96] = true := by decide +kernel

theorem test_formed_events : formed [.takeTrap 6399, .wave 0 63, .exitQueueEmit 0 95 3, .routeArrival 0 447, .straitMeterTick 255, .agIteration 0 7, .mpRequest 0 9 3, .mjStep 0 11,
    .rdFold 0 16, .split 0 22, .steerGroup 0 30, .copySegmentLand 0 271 0, .stashLineFill 0 7 4095, .graphEnd 255 3, .postedFire 0 255, .baseDiePacket .prd 32 ⟨32, 0⟩, .baseDieReply 255 11 7,
    .dieMessage 3 3, .eventCounterOverflow 0 6399 15, .launchWrite 0xFFF [], .causewayMessage ⟨11, none⟩, .dependenceWatch 1023, .keySlotWrite 63 0, .recoveryLoad [] [], .readySet 46, .breakMark 0 95 3 7] = true := by
  decide +kernel

/-! ### Single steps and worked examples, their results written out from the spec -/

/-- Register gd after a pilot instruction whose g2 and g3 hold a and b. -/
def gives (i : Instr) (a b : Word) (d : Reg) : Word := reg (after (exec i (one (fun x => withReg 3 b (withReg 2 a x))))) d

/-- R152: UINT64(a + b). -/
theorem test_add_wraps : gives (.add 4 2 3) 0xFFFFFFFFFFFFFFFF 2 4 = 1 := by decide +kernel

/-- R152: DIVS of −7 by 2 gives −3, and REMS gives −1. -/
theorem test_divs_truncates : (gives (.divs 4 2 3) (-7) 2 4, gives (.rems 4 2 3) (-7) 2 4) = ((-3, -1) : Word × Word) := by decide +kernel

/-- R152: a division by zero, and −2^63 by −1. -/
theorem test_divs_corners : (gives (.divs 4 2 3) 51 0 4, gives (.rems 4 2 3) 51 0 4, gives (.divs 4 2 3) (1 <<< 63) (-1) 4, gives (.rems 4 2 3) (1 <<< 63) (-1) 4) =
    ((-1, 51, 1 <<< 63, 0) : Word × Word × Word × Word) := by decide +kernel

/-- R152: DIVU of 51 by 0, MULHS of −1 by 3, and CLZ of 1. -/
theorem test_unsigned_corners : (gives (.divu 4 2 3) 51 0 4, gives (.mulhs 4 2 3) (-1) 3 4, gives (.clz 4 2) 1 0 4) = (0xFFFFFFFFFFFFFFFF, 0xFFFFFFFFFFFFFFFF, 63) := by
  decide +kernel

/-- R152: shift amounts are b[5:0]; SEL takes ga when gc is not zero. -/
theorem test_sra_sel : (gives (.sra 4 2 3) (-8) 65 4, gives (.sel 4 2 3 3) 9 0 4, gives (.sel 4 2 3 2) 9 5 4) = (-4, 0, 9) := by decide +kernel

/-- R153: LIH puts u above the low half; ADDI sign-extends its immediate. -/
theorem test_lih_addi : (gives (.lih 4 2 0x7F00) 0xFFFFFFFF00000005 0 4, gives (.addi 4 2 0xFFFFFFFF) 5 0 4) = (0x00007F0000000005, 4) := by decide +kernel

/-- The register g0 reads as zero and discards writes. -/
theorem test_g0 : (gives (.add 0 2 3) 5 6 0, gives (.add 4 0 3) 5 6 4) = (0, 6) := by decide +kernel

/-- The program counter of the pilot at 0x40 after an instruction whose g2 and g3 hold a and b. -/
def pcAfter (i : Instr) (a b : Word) : Word := (pilot (after (exec i (one (fun x => withReg 3 b (withReg 2 a x)))))).pc

/-- R64, R154: offsets count words from the branch's own address, and BLT compares as INT64. -/
theorem test_branch_back : (pcAfter (.beq 2 3 0xFFFFFFFF) 7 7, pcAfter (.beq 2 3 0xFFFFFFFF) 7 8, pcAfter (.blt 2 3 3) (-1) 0, pcAfter (.bltu 2 3 3) (-1) 0) =
    (0x38, 0x48, 0x58, 0x48) := by decide +kernel

/-- R154: JALR of a target that is not a multiple of 8 traps with ALIGN and writes no register. -/
theorem test_jalr_align :
    let s := after (exec (.jalr 4 2 0) (one (withReg 2 0x1004)))
    (reg s 4, (pilot s).trapCause, (pilot s).trapVal, (pilot s).trapPc, (pilot s).pc) = (0, 0x02, 0x1004, 0x40, 0x1000) := by decide +kernel

/-- R154: JALR reads ga before it writes gd. -/
theorem test_jalr_link : (gives (.jalr 2 2 8) 0x2000 0 2, pcAfter (.jalr 2 2 8) 0x2000 0) = (0x48, 0x2008) := by decide +kernel

/-- A store to the scratchpad window followed by a load: LDS sign-extends what LD leaves zero-extended (R155, R156). -/
theorem test_store_load :
    let s := after (exec (.st .b false 2 3 5) (one (fun x => withReg 3 0x1F0 (withReg 2 0x7F0000000100 x))))
    let s := after (exec (.storeBufferDrain 0) s)
    (reg (after (exec (.lds .b 4 2 5) s)) 4, reg (after (exec (.ld .b false 4 2 5) s)) 4) = (-16, 0xF0) := by decide +kernel

/-- R46: the examples of 2.5, 5.0, 1.75, 0.25, −0.25 and 9.0 in E2M1. -/
theorem test_e2m1 : [0x40200000, 0x40A00000, 0x3FE00000, 0x3E800000, 0xBE800000, 0x41100000].map (fun v => (roundTo .e2m1 false [] .rne 0 (f32 v)).1) =
    [4, 6, 4, 0, 8, 7] := by decide +kernel

/-- The worked example of R50: 2^24, 1 and −2^24 sum to 1 exactly in every order. -/
theorem test_exact_order : [[0x4B800000, 0x3F800000, 0xCB800000], [0x4B800000, 0xCB800000, 0x3F800000], [0x3F800000, 0xCB800000, 0x4B800000]].map (fun vs =>
      (leave 12 .fp32 .rne 0 (vs.foldl (fun e v => contribute 12 (f32 v) e) {})).1) = [0x3F800000, 0x3F800000, 0x3F800000] := by decide +kernel

/-- The worked example of R51: three quarters of a grid step truncate to nothing, and a contribution of 2^43 sets OVF. -/
theorem test_exact_truncates :
    let e := [0x3F800000, 0x0D400000, 0x0D400000, 0x8D400000].foldl (fun e v => contribute 12 (f32 v) e) {}
    ((leave 12 .fp32 .rne 0 e).1, e.count, e.ovf, e.risk, (contribute 12 (f32 0x55000000) e).ovf) = (0x3F800000, 4, false, false, true) := by decide +kernel

/-- The worked example of R54: weights 1.0, 0.0 and 3.0 at u53 = 2^52 give index 2. -/
theorem test_categ : categ [0x3F800000, 0, 0x40400000] (2 ^ 63) = (2, false) := by decide +kernel

/-- The worked example of R26: element (300, 130) of a BF16 tensor of 1,000 by 600 lies in page 5 at offset 0x258. -/
theorem test_layout : layout { rank := 2, fmt := 7, tile := [7, 7], ext := [1000, 600] } [300, 130] = { page := 5, off := 0x258, high := false } := by decide +kernel

/-- R110: the worked word of `go.wait g11, k62`. -/
theorem test_go_wait_word : decodeTableWord 64 0x8702_C001_0000_007E = some (.goWait 11 (some 62)) := by decide +kernel

/-- R151, R160: TRAP saves its cause with SOFT, its value and the next instruction's address, and enters the handler; ERET continues there. -/
theorem test_trap_eret :
    let s := after (exec (.trap 2 0x1D) (one (withReg 2 77)))
    let u := after (exec .eret s)
    ((pilot s).pc, (pilot s).trapCause, (pilot s).trapPc, (pilot s).trapVal, (pilot s).inTrap, (pilot u).pc, (pilot u).inTrap) =
      (0x1000, 0x21D, 0x48, 77, true, 0x48, false) := by decide +kernel

/-- R308: TADD raises a counter, modulo 2^64. -/
theorem test_tadd_wraps : counterOf (after (exec (.tadd 2 (.imm 5)) (one (fun x => withReg 2 3 { x with counters := x.counters.setIfInBounds 5 (-1) })))) 0 5 = 2 := by
  decide +kernel

/-- R62: the all-zero word is ILLEGAL and so is a word whose major opcode is 0xFF. -/
theorem test_illegal_word : decodeTableWord 64 0 = none ∧ decodeTableWord 64 0xFF00000000000000 = none := by decide +kernel

/-- A core with a token in a channel, two parked requests, a local row, a tile accumulator and an entry in the HA. -/
def coreKept : Core :=
  let t : Tok := { data := 0x123456789ABCDEF0, kind := .scale, level := 5, lmask := 5, wts := 7 }
  let q : Tok := { t with wts := 0, req := some { tid := 9, coord := [-3, 7], write := true } }
  { pilot := { regs := Vector.ofFn (fun i => BitVec.ofNat 64 i.val), pc := 0x88, stage := .goWait 3, reports := [{ code := 0x21, val := 5, coord := [-1] }], reportSeq := 1 }
    selected := some 2, chans := [(5, [t, q])], mps := [(8, { chans := [(0, { stalled := some { tok := q, cause := 0x20, page := 99 }, diverted := [{ tok := q, cause := 0x22, page := 4 }] })] })]
    elems := [(3, { c := [1, 2, 3, 4], rows := [(5, 0x99)], rowPoison := [(5, 3)] })], mt := { a := [(0, { tag := .acc, x := [(1, { n := -5, count := 9 })] })] }
    haU := { tab := { geom := some { form := 1, alg := 2, anchor := -7 }, slots := [(3, { key := 9, x := { n := -1, count := 2, nan := true }, del := true })] }, round := 3 } }

/-- R353, R359: what a restore reads from the sections of a core is the core that was saved. -/
theorem test_sections_read_back : readCore (coreSections false true 4 {} [] 1 2 coreKept) 1 2 = coreKept := by decide +kernel

/-! ### Witnesses: for each statement, states and operands that meet its hypotheses, one for each clause -/

/-- A page of memory at address 0 of tensor 0 (as withFetchWord places it), with word w at its front. -/
def paged (w : Nat) (f : Core → Core := id) (g : Isle → Isle := id) : State :=
  let s := State.reset.withFetchWord 64 w
  onCore 0 (fun x => f { x with pilot := { x.pilot with trapVec := 0x1000 } }) (onIsle 0 (fun i => g { i with seq := 1 }) s)

theorem test_meets_DecodeOfEncode : meets [wellFormed (.addi 1 2 3), (encode (.addi 1 2 3)).isSome] = true := by decide +kernel

theorem test_meets_EncodeOfDecode : decodeTableWord 64 0x0148_C800_0000_0000 = some (.add 9 3 4) := by decide +kernel

theorem test_meets_UnassignedOpcodesRejected : assignedOpcode ((0x1D00_0000_0000_0000 : Word).extractLsb' 56 8).toNat = false := by
  decide +kernel

/-- addi g1, g0, 5 at the front of the page. -/
def pAddi : State := paged 0x2008_0000_0000_0005

theorem test_meets_StepRunsDecoded : meets [
    pilotRunnable (pAddi.passing 1) 0, !atBreak (pAddi.passing 1) 0,
    okWith (fetchWord (pAddi.passing 1) 0) (fun w _ => decodeTableWord 64 w.toNat == some (.addi 1 0 5)),
    okWith (fetchWord { pAddi.passing 7 with agenda := [], turn := 0 } 0) (fun w _ => decodeTableWord 64 w.toNat == some (.addi 1 0 5)),
    pilotRunnable (pAddi.passing 7) 0] = true := by
  decide +kernel

theorem test_meets_IllegalWordTraps : meets [pilotRunnable ((paged 0).passing 1) 0, !atBreak ((paged 0).passing 1) 0,
    okWith (fetchWord ((paged 0).passing 1) 0) (fun w u => decodeTableWord 64 w.toNat == none && u.turn == 0 &&
      !(pilot u).inTrap && (pilot u).trapVec != 0)] = true := by decide +kernel

theorem test_meets_RegisterResults : meets [rrResult (.add 1 2 3) s0 == some (1, 0)] = true := by decide +kernel

theorem test_meets_ImmediateResults : riResult (.lih 1 0 5) s0 = some (1, 0x5_0000_0000) := by decide +kernel

theorem test_meets_BranchesGo : meets [branchTest (.beq 0 0 4) s0 == some (true, 4), branchTest (.bne 0 0 4) s0 == some (false, 4)] = true := by
  decide +kernel

def sR (r : Nat) (v : Word) : State := one (withReg r v)

theorem test_meets_JumpsLink : meets [branchTest (.beq 0 0 3) s0 == some (true, 3), (reg (sR 2 0x100) 2 + (8 : BitVec 32).signExtend 64).toNat % 8 == 0,
    (reg (sR 2 0x100) 2 + (4 : BitVec 32).signExtend 64).toNat % 8 != 0, !(pilot (sR 2 0x100)).inTrap, (pilot (sR 2 0x100)).trapVec != 0] = true := by
  decide +kernel

/-- Register 2 holds the address of scratchpad byte 0x100, which holds 0x80. -/
def sWin : State := one (fun x => withReg 2 0x7F0000000100 { x with scratch := memStore [] 0x100 [0x80] })

theorem test_meets_LoadsComplete : meets [
    okWith (pilotLoad sWin 0x7F0000000100 2 true) (fun b _ => b.length == 2),
    okWith (pilotLoad sWin 0x7F0000000100 8 false) (fun b _ => b.length == 8)] = true := by decide +kernel

/-- PlainWindow as a check. -/
def plain (s : State) (store : Bool) (ea n : Nat) : Bool :=
  ea % n == 0 && decide (0x7F0000000000 ≤ ea) && decide (ea < 0x7F0000040000) && (stashAt (coreOf s s.turn) (ea - 0x7F0000000000)).isNone &&
  !scoreboardHit (coreOf s s.turn) store ea n

/-- A window store of four bytes at offset 0x104 waits in the buffer. -/
def bufW : BufStore := { scratch := true, addr := 0x104, va := 0x7F0000000104, bytes := [1, 2, 3, 4], rel := false }
def sBuf : State := one (fun x => withReg 2 0x7F0000000100 (withPilot (fun p => { p with storeBuf := [bufW] }) x))

def sLostWin : State := one (fun x => withReg 2 0x7F0000000100 { x with scratchPoison := [(8, ())] })

theorem test_meets_WindowLoads : meets [
    plain sLostWin false 0x7F0000000100 4, scratchBad (coreOf sLostWin 0) 0x100 4, !scratchBad (coreOf sWin 0) 0x100 4,
    plain sWin false 0x7F0000000100 4, forward (pilot sWin).storeBuf true 0 0x100 4 == .none,
    plain sBuf false 0x7F0000000104 4, forward (pilot sBuf).storeBuf true 0 0x104 4 == .bytes [1, 2, 3, 4],
    plain sBuf false 0x7F0000000100 8, forward (pilot sBuf).storeBuf true 0 0x100 8 == .wait] = true := by decide +kernel

def sFull : State := one (fun x => withReg 2 0x7F0000000100 (withPilot (fun p => { p with storeBuf := List.replicate 8 bufW }) x))

theorem test_meets_StoresEnterBuffer : meets [
    okWith (locate sWin 0x7F0000000100 4 .write) (fun l u => l == .scratch 0x100 && decide ((pilot u).storeBuf.length < 8)),
    okWith (locate (paged 0) 0x40 8 .write) (fun l u => (match l with | .phys p => storeAllowed u p 8 | _ => false) && (pilot u).storeBuf.isEmpty && u.ms.far.isEmpty),
    okWith (locate sFull 0x7F0000000100 4 .write) (fun _ u => decide (8 ≤ (pilot u).storeBuf.length))] = true := by decide +kernel

theorem test_meets_AccessesLocated : meets [
    plain sWin false 0x7F000003FFF8 8, plain sWin true 0x7F000003FFB8 8, decide (0x7F000003FFB8 - 0x7F0000000000 + 8 ≤ 0x3FFC0),
    okWith (translate (paged 0) (viewOf (paged 0) 0) 0xFFF8 .read) (fun _ u => !scoreboardHit (coreOf u 0) false 0xFFF8 8 && u.turn == 0)] = true := by
  decide +kernel

theorem test_meets_ForbiddenAccessesTrap : meets [
    (0x7F0000000101 : Nat) % 2 != 0, (0x7F0000000104 : Nat) % 8 != 0, (0x10000000000 : Nat) % 8 == 0, decide (0xFFFFFFFFFF < 0xFFFFFFFFF8 + 8),
    decide (0x3FFC0 < 0x7F000003FFC0 - 0x7F0000000000 + 4), decide (0x3FFC0 < 0x7F000003FFBC - 0x7F0000000000 + 8),
    (0x10000000000 : Nat) % 2 == 0, decide (0xFFFFFFFFFF < 0x10000000000 + 2), (reg sWin 2).toNat % 4 == 0, decide (0x7F0000000000 ≤ (reg sWin 2).toNat), !(pilot sWin).inTrap, (pilot sWin).trapVec != 0] = true := by
  decide +kernel

theorem test_meets_WindowAtomics : meets [plain sWin true 0x7F0000000100 8, decide (0x100 + 8 ≤ 0x3FFC0), (pilot sWin).storeBuf.isEmpty && sWin.ms.far.isEmpty,
    (coreOf sWin 0).stashes.isEmpty, (coreOf sWin 0).scratch.wf] = true := by decide +kernel

/-- Register 2 holds address 0x40 of tensor 0. -/
def pMem : State := paged 0 (withReg 2 0x40)

/-- The home slice holds the line of that address: BF16 1.0 in every place. -/
def pSum : State :=
  { pMem with host := { pMem.host with readymap := 0xFFFFFFFFFFFF }
              ms := { pMem.ms with llc := [(0x10040 / 64, { data := (List.replicate 32 [0x80, 0x3F]).flatten })] } }

theorem test_meets_AtomicsComplete : meets [
    okWith (locate pMem 0x40 4 .both) (fun l u => (pilot u).storeBuf.isEmpty && u.ms.far.isEmpty && (coreOf u 0).stashes.isEmpty &&
      okWith (atomicAt u 0x40 4 l (.amo .add 1)) (fun _ _ => true)),
    okWith (locate pMem 0x40 8 .both) (fun l u => okWith (atomicAt u 0x40 8 l (.cas 0 1)) (fun _ _ => true)),
    okWith (locate pMem 0x40 2 .both) (fun l u => okWith (atomicAt u 0x40 2 l (.amof .bf16rne 1 0)) (fun _ _ => true)),
    !(decide (0x7F0000000000 ≤ (0x40 : Nat))),
    okWith (locate pSum 0x40 2 .both) (fun l u => (match l with
      | .phys p => p.home == u.hub.chipid && decide (p.pa < 12 * 0xC00000000) && p.cache != 2 && decide (p.pa % 64 + 2 ≤ 64) &&
          writeReady u (some (.pilot u.turn)) p.cache p.pa && (mapFind u.ms.versions (p.pa / 64)).isNone &&
          (mapFind u.ms.llc (p.pa / 64)).any (fun x => x.data.length == 64)
      | _ => false : Bool) && u.turn == 0 && (pilot u).storeBuf.isEmpty && u.ms.far.isEmpty && (coreOf u 0).stashes.isEmpty && u.ms.far.isEmpty && (coreOf u 0).rings.isEmpty)] = true := by
  decide +kernel

theorem test_meets_FenceCompletes : meets [!(pilot sBuf).storeBuf.isEmpty, (pilot s0).storeBuf.isEmpty && s0.ms.far.isEmpty, (coreOf s0 0).stashes.isEmpty] = true := by
  decide +kernel

theorem test_meets_WindowStoresDrain : meets [(coreOf sBuf 0).pilot.storeBuf == [bufW], sBuf.ms.far.isEmpty, !bufW.sent, bufW.scratch, (coreOf sBuf 0).stashes.isEmpty,
    (coreOf sBuf 0).scratch.wf] = true := by decide +kernel

theorem test_meets_MemoryKept : meets [(pMem.ms.mem).wf, pMem.host.mem.wf, pMem.cores.all (fun e => e.2.scratch.wf), pMem.hub.cocoons.isEmpty,
    pMem.hub.saved.isEmpty, (after (exec (.amo .add .d true true 1 2 3) pMem)).ms.mem.wf, (rrResult (.add 1 2 3) pMem).isSome] = true := by decide +kernel

/-- A store to physical 0x10048, of a line that its home slice holds. -/
def bufM : BufStore := { scratch := false, addr := 0x10048, va := 0x48, bytes := [1, 2, 3, 4], rel := false }
def sHome : State :=
  let s := one (withPilot (fun p => { p with storeBuf := [bufM] }))
  { s with host := { readymap := 0xFFFFFFFFFFFF }, ms := { llc := [(0x10048 / 64, { data := List.replicate 64 7 })] } }

theorem test_meets_HomeStoresDrain : meets [sHome.ms.far.isEmpty, !bufM.sent, !bufM.scratch, !bufM.rel, bufM.home == sHome.hub.chipid, decide (bufM.addr < 12 * 0xC00000000), bufM.cache != 2,
    decide (bufM.addr % 64 + bufM.bytes.length ≤ 64), homeDie bufM.addr == dieOfCore 0, hbmReady sHome bufM.addr, (coreOf sHome 0).rings.isEmpty,
    (mapFind sHome.ms.llc (bufM.addr / 64)).any (fun x => x.data.length == 64)] = true := by decide +kernel

def sTrapped : State := one (withPilot (fun p => { p with inTrap := true, trapPc := 0x80, savedStage := .goWait 1 }))
def sNydb : State := one id (fun i => { i with attached := true })
def sPassed : State := one (withPilot (fun p => { p with passBreak := some 0x40 })) (fun i => { i with attached := true })

theorem test_meets_TrapsEnterHandlers : meets [!(pilot s0).inTrap, (pilot s0).trapVec != 0, !(isleOfCore s0 0).attached,
    (isleOfCore sNydb 0).attached, (pilot sNydb).passBreak.isNone, (pilot sNydb).steps == 0, (pilot sPassed).passBreak == some (pilot sPassed).pc,
    (pilot sTrapped).inTrap, frSlots sTrapped == 0, (isleOfCore sTrapped 0).commit.isNone] = true := by decide +kernel

theorem test_meets_EretReturns : meets [(pilot sTrapped).inTrap, !(pilot s0).inTrap, (pilot s0).trapVec != 0] = true := by decide +kernel

theorem test_meets_SysrdReads : meets [sysRead s0 0x00B == some 0x1000, (sysRead s0 0x006).isNone] = true := by decide +kernel

theorem test_meets_SyswrWrites : meets [sysWritten (sR 2 15) 0x008 15 == some 15, sysWritten (sR 2 30) 0x014 30 == some 30,
    sysWritten (sR 2 12) 0x014 12 == some 12, (sysWritten s0 0x014 11).isNone, (sysWritten s0 0x014 31).isNone, sysWritten s0 0x020 16 == some 16,
    (coreOf s0 0).isle == some 0, isLead s0, (sysWritten s0 0x00C 2).isNone, decide (32 < (33 : Word).toNat)] = true := by decide +kernel

def sLatched : State := one (withPilot (fun p => { p with eventLatch := true }))
def sWfe : State := { one (withPilot (fun p => { p with wfeUntil := some 4, wfeGd := 3 })) with cycle := 4 }

theorem test_meets_WfeWaits : meets [(pilot sLatched).eventLatch, !(pilot s0).eventLatch, (pilot s0).wfeUntil.isNone,
    (pilot sWfe).wfeUntil == some 4, decide (4 ≤ sWfe.cycle), !(isleOfCore sWfe 0).frozen, (pilot sWfe).wfeGd == 3] = true := by decide +kernel

def rep1 : Report := { code := 0x09, val := 1, source := 4 }
def sQueued : State := one (withPilot (fun p => { p with reports := [rep1] }))
/-- The page table of `paged` with the page of the report ring of spill base 0 as well. -/
def ringPage (s : State) : State :=
  { s with ms := { s.ms with mem := memPutNat (memPutNat s.ms.mem 0x3060 8 0x4001) 0x4800 16 (2 + 0xF * 2 ^ 32 + 1 * 2 ^ 64) } }
def pRaised : State := ringPage (paged 0 (withPilot (fun p => { p with raised := [rep1] })))

theorem test_meets_ReportsQueueAndTrap : meets [pilotRunnable sQueued 0, !(pilot sQueued).inTrap, (pilot sQueued).trapVec != 0,
    (isleOfCore sQueued 0).quiesceAt.isNone, !farWaits sQueued (.pilot 0), (pilot sQueued).stage == .none, !(pilot pRaised).reports.any (fun _ => true), !rep1.parked,
    (coreOf pRaised 0).isle == some 0, !(isleOfCore pRaised 0).frozen,
    okWith (writeFlat pRaised (some (.fabric 0)) (viewOf pRaised 0) 0xC800000 ((reportBytes rep1 1).map some) false) (fun _ _ => true)] = true := by decide +kernel

def sLabel : State := { sNydb with nydb := { breaks := [.label 1 0x40] } }

theorem test_meets_FetchesAndBreakpoints : meets [pilotRunnable pAddi 0, okWith (fetchWord pAddi 0) (fun w _ => w != 0),
    pilotRunnable sLabel 0, atBreak sLabel 0] = true := by decide +kernel

/-- A scratchpad whose bytes at offset o hold fields: byte offset, bytes, value. -/
def record (o : Nat) (fs : List (Nat × Nat × Nat)) : Memory := fs.foldl (fun m f => memPutNat m (o + f.1) f.2.1 f.2.2) []

/-- Register 2 holds 0x7F00_0000_0100, where a record of these fields stands. -/
def sRec (fs : List (Nat × Nat × Nat)) (f : Core → Core := id) : State := one (fun x => f (withReg 2 0x7F0000000100 { x with scratch := record 0x100 fs }))

def sCount : State := { one (fun x => withReg 2 1 { x with incoming := [(3, 2), (4, 1)] }) with cycle := 9 }

theorem test_meets_CountersRise : meets [(pilot sCount).storeBuf.isEmpty && sCount.ms.far.isEmpty, !(pilot sBuf).storeBuf.isEmpty, sCount.nydb.breaks.isEmpty,
    decide ((reg sCount 0).toNat ≤ (counterOf sCount 0 5).toNat), decide ((counterOf sCount 0 5).toNat < (reg sCount 2).toNat),
    (coreOf sCount 0).incoming == [(3, 2), (4, 1)]] = true := by decide +kernel

/-- A posted RTRIG of core 0, counter 5, armed at counter 3 reaching 2 (R297). -/
def postFields : List (Nat × Nat × Nat) := [(0, 1, 3), (1, 1, 3), (2, 1, 0x44), (8, 8, 2), (48, 1, 0x45), (56, 8, 1)]
def post1 : PostRec := { trigk := 3, action := 3, donek := 4, doneken := true, thresh := 2, rk := 5, rken := true, rinc := 1 }
def withPosted (ps : Map Posted) (x : Core) : Core := { x with posted := ps }
def armed : Posted := { post := post1, raw := [], thresh := 2 }

def sReady : State := one (withPosted [(3, { armed with state := .ready 0 }), (4, armed)])
def sFlight : State := one (withPosted [(3, { armed with state := .inProgress 1 })])
/-- A write of core 0's engines is on its way to chip 1. -/
def owing (s : State) : State :=
  { s with ms := { s.ms with far := [{ id := 7, agent := some (.fabric 0), chip := 1, body := .write (.phys 64 0 0) [some 1] false }] } }
def sFar : State := one (withPosted [(3, { armed with post := { post1 with core := 7 }, state := .inProgress 1 })])

theorem test_meets_PostedOperations : meets [
    sourcesOn sReady 0, (coreOf sReady 0).posted.all (fun q => q.1 == 3 || !firesBefore q (3, { armed with state := .ready 0 })),
    decide (((coreOf sReady 0).posted.filter (fun q => inFlight q.2)).length < 16),
    fabricOn sFlight 0, !actionFails sFlight 0 3 post1, !olderToTarget sFlight (coreOf sFlight 0) post1 1,
    (coreOf sReady 0).firedAt == none, okWith (perform 0 3 post1 sFlight) (fun rk u => farSettled u (.fabric 0) &&
      (let w := raiseRk rk 0 post1 (dropEntry 0 3 u)
       w.nydb.breaks.isEmpty && mapFind (coreOf w 0).posted 3 == some { armed with state := .inProgress 1 })),
    okWith (perform 0 3 post1 (owing sFlight)) (fun _ u => !farSettled u (.fabric 0)),
    actionFails sFar 0 3 { post1 with core := 7 }, reportRoom sFar 0, (coreOf sFar 0).pilot.trapVec != 0] = true := by decide +kernel

/-- A barrier at offset 0x100: FANIN 1, one arrival owed, PHK 5 enabled; g2 its address, g3 the word that makes it. -/
def bar1 : Bar := { phk := 5, phken := true, fanin := 1, arrivals := 1 }
def sBar (b : Bar) : State := one (fun x => withReg 3 (1 + 5 * 2 ^ 20 + 2 ^ 26) (withReg 2 0x7F0000000100 (putBar 0x7F0000000100 b x)))
def sBarQ : State := one (fun x => { putBar 0x7F0000000100 bar1 x with barQueue := [{ addr := 0x7F0000000100, arrivals := 1, sectors := 0, poison := true }] })
def sBarN : State := one (fun x => { x with barQueue := [{ addr := 0x7F0000000100, arrivals := 0, sectors := 0, poison := true }] })

theorem test_meets_BarrierInstructions : meets [
    decide (bar1.arrivals < 2), bar1.arrivals == 1 && bar1.sectors == 0, decide (1 ≤ ({ bar1 with arrivals := 2 } : Bar).arrivals),
    barPlaceOk 0x7F0000000100, decide (0x7F000003FFB0 - 0x7F0000000000 + 16 ≤ 0x3FFC0), barPlaceOk 0x7F000003FFB0,
    decide (1 + 5 * 2 ^ 20 + 2 ^ 26 < 2 ^ 27), !barInUse (sBar bar1) 0 0x7F0000000100, (coreOf (sBar bar1) 0).scratch.wf,
    ((readBar (coreOf (sBar bar1) 0) 0x7F0000000100).sub 1 0 false).any (fun r => decide (r.1.phk < 64) && r.2),
    ((readBar (coreOf (sBar bar1) 0) 0x7F0000000100).sub 2 0 false).isNone,
    (readBar (coreOf (sBar bar1) 0) 0x7F0000000100).phase == 0, (readBar (coreOf (sBar { bar1 with poison := true }) 0) 0x7F0000000100).poison,
    (readBar (coreOf (sBar { bar1 with phase := 3 }) 0) 0x7F0000000100).phase != (reg (sBar bar1) 3).toNat % 16,
    okWith (pilotTouch (sBar bar1) 0x7F0000000100 true) (fun _ u => u == sBar bar1), (fabricTouch 0 0x100 16 sBarQ).1,
    inWindow 0x7F0000000100, !inWindow 0x7F0100000000, (coreOf sBarN 0).barQueue == [{ addr := 0x7F0000000100, arrivals := 0, sectors := 0, poison := true }],
    ((readBar (coreOf sBarQ 0) 0x7F0000000100).sub 1 0 true).any (fun r => decide (r.1.phk < 64))] = true := by decide +kernel

/-- A copy of 64 FP32 numbers from scratchpad address 0x7F00_0000_0400 to 0x7F00_0000_0800 that raises counter 3 (R257). -/
def copyFields : List (Nat × Nat × Nat) :=
  [(0, 1, 0x11), (1, 1, 0x10), (2, 1, 4), (3, 1, 0x43), (16, 8, 0x7F0000000400), (24, 8, 0x7F0000000800), (112, 16, 64 + 2 ^ 48 + 2 ^ 88)]

/-- A transposition of the 8 by 8 FP32 numbers of tensor 1 to the scratchpad (R260), and the tensor's record (R25). -/
def copytFields : List (Nat × Nat × Nat) :=
  [(0, 1, 0x10), (1, 1, 0x20), (16, 8, 1), (24, 8, 0x7F0000000800), (112, 16, 8 + 2 ^ 48 + 2 ^ 88),
   (128, 16, 8 + 2 ^ 40 + 2 ^ 48 + 8 * 2 ^ 88)]
def tensorFields : List (Nat × Nat × Nat) := [(0, 4, 1 + 2 * 2 ^ 24 + 4 * 2 ^ 28), (8, 8, 0x1000), (24, 1, 0x33), (40, 8, 8), (48, 8, 8)]
def pTensor : State :=
  let s := paged 0 (fun x => withReg 2 0x7F0000000100 { x with scratch := record 0x100 copytFields }) (fun i => { i with ttbase := 0x800, ttlen := 2 })
  { s with ms := { s.ms with mem := tensorFields.foldl (fun m f => memPutNat m (0x10880 + f.1) f.2.1 f.2.2) s.ms.mem } }

def copyMeets (tr : Bool) (s : State) : Bool :=
  okWith (pilotRecord s 0x7F0000000100 256) (fun b u => (parseCopy tr b).any (fun r =>
    okWith (copyTensor r.skind r.saddr u) (fun st v => okWith (copyTensor r.dkind r.daddr v) (fun dt w =>
      let k := if r.skind = 0 then st.width else if r.dkind = 0 then dt.width else (fmtOf r.efmt).elim 8 fmtWidth
      copyOk (coreOf w 0) r k st dt &&
      !overlapsStash (coreOf w 0) (intervalOf r.skind r.saddr k st r.scoord r.srcTerms) &&
      !overlapsStash (coreOf w 0) (intervalOf r.dkind r.daddr k dt r.dcoord r.dstTerms) && freeEntry (coreOf w 0) == some 0 &&
      (pilot w).storeBuf.isEmpty && w.ms.far.isEmpty && r.tbar == 0))))

/-- The same copy into atoll 2 of the core (R258). -/
def atoll2 : AtollCfg := { base := 0x2000, slots := 4, slotw := 4, headk := 6, tailk := 7 }
def sAtoll : State := sRec ((0, 1, 0x31) :: (24, 8, 2) :: copyFields.filter (fun f => f.1 != 0 && f.1 != 24))
  (fun x => { x with selected := some 1, slots := [(1, { atolls := [(2, atoll2)] })] })

/-- The state in which that copy has issued. -/
def sCopying : State := after (exec (.cpy 2) (sRec copyFields))

/-- The state in which the copy into the atoll has issued, that in which one slot is left, and a segment on its way. -/
def sAtolling : State := after (exec (.cpy 2) sAtoll)
def sAtolled : State := (upTo 3).foldl (fun s _ => after (exec (.copySegmentLand 0 0 0) s)) sAtolling
def sSentSeg : State := onCore 0 (fun x => { x with jobs := x.jobs.map (fun e => (e.1, { e.2 with segs := e.2.segs.map (fun g => { g with state := .sent false }) })) }) sCopying

/-- A stash window of 64 bytes at offset 0x1000 over tensor 0 from byte 0x40 (R271). -/
def stashFields : List (Nat × Nat × Nat) := [(0, 4, 0x1000), (4, 4, 64), (8, 8, 0x40)]
def pStash : State := paged 0 (fun x => withReg 2 0x7F0000000100 { x with scratch := record 0x100 stashFields })
def window0 : Stash := { cfg := { spbase := 0x1000, len := 64, tid := 0, toff := 0x40 }, tensor := { ptb0 := 0x1000 } }
def pStashed : State := paged 0 (fun x => { x with stashes := [(3, window0)] })

theorem test_meets_StashWindows : meets [
    okWith (pilotRecord pStash 0x7F0000000100 32) (fun b u =>
      fieldAt b 0 18 14 + fieldAt b 4 18 14 + fieldAt b 16 20 44 + fieldAt b 24 0 64 == 0 && stashOk window0.cfg &&
      fieldAt b 0 0 18 == 0x1000 && fieldAt b 4 0 18 == 64 && fieldAt b 8 0 64 == 0x40 && !stashOverlap (coreOf u 0) 3 window0.cfg &&
      !stashByGraph u 0 3 && okWith (readTensor u (some (.fabric 0)) 0 0) (fun _ v => okWith (coreBack 0 (· == 3) v) (fun _ _ => true))),
    (mapFind (coreOf pStash 0).stashes 3).isNone, (mapFind (coreOf pStashed 0).stashes 3).isSome, !stashByGraph pStashed 0 3,
    okWith (coreBack 0 (· == 3) pStashed) (fun _ _ => true), !stashLive pStashed 0 window0 0, !(mapGet (0, 0, false) window0.parked 0).2.2, decide (64 * 0 < window0.cfg.len),
    okWith (stashFill 0 3 0 pStashed) (fun _ _ => true)] = true := by decide +kernel

/-- Core 0 under context 1, whose entry of the context table stands at physical 0x30020: valid, ceiling 63, table 0x1000. -/
def pCtx (fs : List (Nat × Nat × Nat)) (f : Core → Core := id) (g : Isle → Isle := id) : State :=
  let s := paged 0 (fun x => f (withReg 2 0x7F0000000100 { x with scratch := record 0x100 fs })) (fun i => g { i with prio := 9 })
  { s with hub := { s.hub with ctxtab := 0x30000 }
           ms := { s.ms with mem := memPutNat (memPutNat s.ms.mem 0x30020 2 0x3F01) 0x30038 8 0x1000 } }

/-- A launch of one core at priority 5 under context 1, image identity 7 (R23). -/
def launchFields : List (Nat × Nat × Nat) := [(0, 1, 1), (1, 1, 5), (2, 2, 1), (4, 2, 7), (6, 1, 1), (7, 1, 1)]
def sLnch : State := pCtx launchFields
def sLnchBad : State := pCtx (launchFields ++ [(6, 1, 0)])
def sLnchOther : State := pCtx (launchFields ++ [(2, 2, 2)])
/-- Isle 1 holds the image of the launch and waits for one. -/
def sNear : State :=
  let s := pCtx launchFields (withReg 3 1)
  { s with hub := { s.hub with isles := mapPut s.hub.isles 1 { x0 := 1, index := 1, phase := .held, ctx := 1, slots := [(0, { cfgid := 7 })] } }
           host := { s.host with readymap := 0x100011 } }

/-- A table of grants that cannot be read yet: its stack is not ready. -/
def noGrants (s : State) : State := { s with hub := { s.hub with granttab := 0xC00000000 } }

/-- A record read by a launch, with what the statement asks of it. -/
def launchMeets (s : State) (p : CtxEntry → LaunchRec → State → Bool) : Bool :=
  okWith (pilotRecord s 0x7F0000000100 64) (fun b u => u.turn == s.turn &&
    (match ctxEntry u (parseLaunch b).ctx with | some e => p e (parseLaunch b) u | _ => false))

theorem test_meets_LaunchesFromPilots : meets [
    launchMeets sLnch (fun e r u => r.ctx == (viewOf u 0).ctx && checkLaunch u e r == 0 && (pilot u).storeBuf.isEmpty && u.ms.far.isEmpty && (coreOf u 0).stashes.isEmpty),
    decide ((64 : Word).toNat ≥ 64), launchMeets sNear (fun e r u => checkLaunch u e r == 0 && nearOk u r 1 && (readGrants 1 u).isSome),
    launchMeets (noGrants sNear) (fun _ r u => nearOk u r 1 && (readGrants 1 u).isNone),
    launchMeets sLnchBad (fun e r u => r.ctx == (viewOf u 0).ctx && checkLaunch u e r == 6),
    okWith (pilotRecord sLnchOther 0x7F0000000100 64) (fun b u => (parseLaunch b).ctx != (viewOf u 0).ctx && !(pilot u).inTrap && (pilot u).trapVec != 0)] = true := by
  decide +kernel

/-- A pilot that made launch 5, which ended with status 1, and launch 6, which runs. -/
def sLwait (n : Word) : State :=
  let s := one (fun x => withReg 2 n (withPilot (fun p => { p with launches := [6, 5] }) x))
  { s with hub := { s.hub with ends := [(5, 1)] } }

def atoll0 : AtollCfg := { base := 0x2000, slots := 4, slotw := 2, headk := 10, tailk := 11 }
/-- One block of atoll 0 in the block table at tensor 0 address 0x40; g3 names it, and a token stands at the address in g2. -/
def pSpawn : State :=
  let s := paged 0 (fun x => withReg 2 0x7F0000000100 { x with slots := [(0, { atolls := [(0, atoll0)] })] }) (fun i => { i with blktab := 0x40, blklen := 1 })
  { s with ms := { s.ms with mem := memPutNat s.ms.mem 0x10040 2 7 } }
def sTwo (f : Isle → Isle := id) : State := { one id (fun i => f { i with width := 2 }) with turn := 1 }
/-- Core 1 of an isle of two has the turn. -/
def sSecond (f : Isle → Isle := id) : State :=
  let s := sTwo f
  { s with cores := s.cores ++ [(1, { isle := some 0, pilot := { running := true, pc := 0x40, trapVec := 0x1000 } })] }
def sTurn : State := one id (fun i => { i with turn := some (0, 0), blklen := 1 })

theorem test_meets_ThreadsAndTurns : meets [
    (pilot (sLwait 5)).launches.contains 5 && mapFind (sLwait 5).hub.ends 5 == some 1, (mapFind (sLwait 6).hub.ends 6).isNone,
    !(pilot (sLwait 7)).launches.contains 7,
    decide (0 < (isleOfCore pSpawn 0).blklen), okWith (pilotRecord pSpawn 0x7F0000000100 16) (fun b u =>
      b.length == 16 && okWith (readBlock u 0 0) (fun e v => (blockAtoll v 0 e).any (fun q =>
        decide ((counterOf v 0 q.tailk - counterOf v 0 q.headk).toNat < q.slots) && (pilot v).storeBuf.isEmpty && v.ms.far.isEmpty &&
        okWith (touchTail v 0 q) (fun _ _ => true)))),
    decide ((isleOfCore s0 0).blklen ≤ (reg s0 3).toNat), isLead s0 && (isleOf s0 0).turn.isNone, isLead sTurn && (isleOf sTurn 0).turn.isSome,
    !isLead sSecond && (pilot sSecond).trapVec != 0, decide ((reg (sR 2 63) 2).toNat ≤ (isleOf s0 0).ceil), decide ((isleOf s0 0).ceil < (reg (sR 2 64) 2).toNat)] = true := by
  decide +kernel

/-- Core 0, the lead, waits at SBAR, in a handler or not. -/
def sWaits : State := onCore 0 (withPilot (fun p => { p with stage := .sbarWait })) (sSecond (fun i => { i with arrivals := [(0, some 3)] }))
def sHandler : State := onCore 0 (withPilot (fun p => { p with inTrap := true, stage := .none, savedStage := .sbarWait })) sWaits

theorem test_meets_IsleBarriers : meets [(pilot s0).stage == .none && s0.nydb.breaks.isEmpty && (pilot s0).storeBuf.isEmpty && s0.ms.far.isEmpty && (coreOf s0 0).stashes.isEmpty,
    isleCores (isleOf s0 0) == [0], isleCores (isleOf sSecond 0) == [0, 1], (isleOf sSecond 0).arrivals.isEmpty,
    (isleOf (sSecond (fun i => { i with arrivals := [(0, none)] })) 0).arrivals == [(0, none)],
    (isleOf (sSecond (fun i => { i with arrivals := [(0, none)], endForm := true })) 0).endForm,
    (pilot sSecond).stage == .none,
    -- Core 0 waits in a handler and core 1 comes last; the lead came by SBAR.
    (let s := sHandler
     (coreOf s 0).pilot.savedStage == .sbarWait && (pilot s).stage == .none && s.nydb.breaks.isEmpty && (coreOf s 1).pilot.wfeUntil.isNone &&
       (isleCores (isleOf s 0)).all (fun c => c == s.turn || (isleOf s 0).arrivals.any (fun e => e.1 == c))),
    (coreOf sWaits 0).pilot.stage == .sbarWait && (coreOf sWaits 0).pilot.wfeUntil.isNone] = true := by decide +kernel

def g1 : IsleSlot := { cfgid := 7, cores := [0] }
/-- Slot 1 of the isle, which g2 names, holds an image with core 0. -/
def sSlot (g : IsleSlot) (f : Core → Core := id) : State :=
  one (fun x => f (withReg 2 1 { x with slots := [(1, {})], selected := if g.selected then some 1 else none })) (fun i => { i with slots := [(1, g)] })
def staged (k : Stage) : Core → Core := withPilot (fun p => { p with stage := k })

theorem test_meets_GraphsLoadAndRun : meets [
    isLead s0 && (isleOf s0 0).blklen == 0 && (pilot s0).stage == .none && (reg (sR 2 0x20) 2).toNat % 32 == 0,
    (isleOf s0 0).loader.isNone && (isleOf s0 0).loadFail.isNone && (pilot (one (staged .cfgldWait))).stage == .cfgldWait,
    (isleOf (one id (fun i => { i with loadFail := some (3, 3) })) 0).loadFail == some (3, 3),
    mapFind (isleOf (sSlot g1) 0).slots 1 == some g1 && !coresBusy (sSlot g1) 0 g1.cores &&
      okWith (prepareSelect 0 1 g1 (sSlot g1)) (fun _ _ => true), slotOfId (isleOf (sSlot g1) 0) 7 == some 1,
    mapFind (isleOf (sSlot { g1 with selected := true }) 0).slots 1 == some { g1 with selected := true } &&
      (goRefused (coreOf (sSlot { g1 with selected := true }) 0)).isNone,
    (pilot (sSlot g1 (staged (.goWait 1)))).stage == .goWait 1, mapFind (isleOf (sSlot { g1 with running := true }) 0).slots 1 == some { g1 with running := true },
    (pilot (sSlot g1 (staged (.stopWait 1)))).stage == .stopWait 1, schedulerOn (isleOf sTurn 0) && (pilot sTurn).trapVec != 0 && !(pilot sTurn).inTrap,
    (mapFind (isleOf (sSlot g1) 0).slots 9).isNone] = true := by decide +kernel

/-- A page at address 0 and a running graph, in slot 1, with a configuration of core 0. -/
def graph (cfg : CoreCfg) (f : Core → Core := id) (g : IsleSlot → IsleSlot := id) : State :=
  paged 0 (fun x => f { x with slots := [(1, cfg)], selected := some 1 })
    (fun i => { i with slots := [(1, g { cfgid := 7, cores := [0], selected := true, running := true, rules := true })] })

def wire0 (src sch dst dch : Nat) : Route := { src := src, sch := sch, dx := 0, dy := 0, dst := dst, dch := dch, detach := false }
/-- An HA of this mode with its output routed and, for OVERDEL, its witness input; its table holds entry e, or none. -/
def haCfg (mode : Nat) : CoreCfg := { ops := [(12, [(0, 4 * mode)])], routes := [wire0 76 0 0 0, wire0 0 0 76 1] }
def haTable (e : Option HaSlot) : Table HaSlot :=
  match e with
  | none => { geom := some { s := 64 } }
  | some e => match ({ geom := some { s := 64 } } : Table HaSlot).seek haEnt e.key true with | .absent p => { geom := some { s := 64 }, slots := [(p, e)] } | _ => {}
def withHa (mode : Nat) (e : Option HaSlot) (f : Ha → Ha := id) (x : Core) : Core := { x with haU := f { words := [(0, 4 * mode)], tab := haTable e } }
def onChans (ts : List (Nat × Nat × Tok)) (x : Core) : Core :=
  { x with chans := ts.foldl (fun m t => mapPut m (chanKey t.1 t.2.1) (mapGet [] m (chanKey t.1 t.2.1) ++ [t.2.2])) x.chans }
def tok5 : Tok := { data := 5 + 2 ^ 64, lmask := 7 }
def slot5 : HaSlot := { key := 5, weight := 1, wit := 9, changed := true }
def sHa (mode : Nat) (e : Option HaSlot) (ts : List (Nat × Nat × Tok)) (f : Ha → Ha := id) : State :=
  graph (haCfg mode) (fun x => withHa mode e f (onChans ts x))
def isAt (t : Table HaSlot) (k : Word) (del : Bool) : Bool := match t.seek haEnt k del with | .at_ _ e _ => e.key == k | _ => false
def isAbsent (t : Table HaSlot) (k : Word) : Bool := match t.seek haEnt k true with | .absent _ => true | _ => false
def pHaIdle : State := paged 0 (fun x => withReg 2 0x400 (withHa 0 (some slot5) id x))
def owedRun : Run HaSlot := { addr := 0x400, bytes := 64, entries := [slot5] }
/-- A run of the table is being written. -/
def pHaBusy : State := paged 0 (fun x => withReg 2 0x400 (withHa 0 (some slot5) (fun h => { h with tab := { h.tab with pending := some (owedRun, false) } }) x))
def pHaWaits : State := paged 0 (fun x => withReg 2 0x400 (withPilot (fun p => { p with stage := .drainWait }) (withHa 0 (some slot5) (fun h => { h with paused := some 0 }) x)))
def pHsBusy : State := paged 0 (fun x => { x with hsU := { tab := { pending := some ({ addr := 0x400, bytes := 64, entries := [] }, false) } } })
def sDrained : State := sHa 0 (some slot5) [] (fun h => { h with paused := some 1 })
def pBook : State := paged 0 (withReg 2 0x7F0000000100)

/-- The page of the records lies in a stack that is not ready. -/
def pHaNoStack : State := onMs (fun m => { m with mem := memPutNat (memPutNat m.mem 0x4000 4 0xC0000) 0x4004 1 0x2F }) pHaIdle
/-- Records of a DRAIN to memory are on their way to another chip, or performed. -/
def pHaDrain : State := onPilot 0 (fun p => { p with stage := .drain }) (onCore 0 (fun x => { x with haU := { x.haU with paused := some 1 } }) pHaIdle)
/-- The codebook's bytes carry poison. -/
def pBookBad : State := onCore 0 (fun x => { x with scratchPoison := [(0x100 / 32, ())] }) pBook
def drainRecords (s : State) : List Byte := (rankedEntries true true (coreOf s 0).haU.tab).flatMap (fun e => (entryRecord (coreOf s 0) e.1 e.2).1)
def drainWrites (s : State) : Res Unit := writeFlat s (some (.fabric 0)) (viewOf s 0) 0x400 ((drainRecords s).map some) false
def drainWritten (u : State) : State :=
  let rs := (rankedEntries true true (coreOf pHaIdle 0).haU.tab).map (fun e => entryRecord (coreOf pHaIdle 0) e.1 e.2)
  onCore 0 (fun y => { y with haU := { y.haU with flags := y.haU.flags ||| rs.foldl (fun a r => a ||| r.2) 0, paused := some rs.length }
                              pilot := { y.pilot with stage := .drain } }) u

theorem test_meets_TablesFromPilots : meets [
    !unitRuns pHaIdle 0 12 && (coreOf pHaIdle 0).haU.tab.idle, !(coreOf pHaBusy 0).haU.tab.idle && !unitRuns pHaBusy 0 12,
    (coreOf pHsBusy 0).hsU.tab.idle == false && !unitRuns pHsBusy 0 13, (coreOf pHaIdle 0).hsU.tab.idle,
    !haSettled (coreOf pHaBusy 0) && (coreOf pHaBusy 0).haU.outq.isEmpty && (coreOf pHaBusy 0).haU.paused.isNone && (pilot pHaBusy).stage == .none,
    (pilot pHaWaits).stage == .drainWait && haSettled { coreOf pHaWaits 0 with haU := { (coreOf pHaWaits 0).haU with paused := none } }, !unitRuns pHaIdle 0 13, unitRuns (sHa 0 none []) 0 12,
    unitRuns (graph { ops := [(13, [])] }) 0 13, haSettled (coreOf pHaIdle 0) && (pilot pHaIdle).stage == .none,
    (let x := coreOf pHaIdle 0
     let rs := (rankedEntries true true x.haU.tab).map (fun e => entryRecord x e.1 e.2)
     let bs := rs.flatMap (fun r => r.1)
     bs.length == 32 && (firstFault (viewOf pHaIdle 0) (bs.length / 64 + 2) 0x400 bs.length pHaIdle).isNone &&
       okWith (writeFlat pHaIdle (some (.fabric 0)) (viewOf pHaIdle 0) 0x400 (bs.map some) false) (fun _ u => u.turn == 0)),
    routed (coreOf (sHa 0 (some slot5) []) 0) 76 0 && haSettled (coreOf (sHa 0 (some slot5) []) 0), (coreOf sDrained 0).haU.paused == some 1 &&
      (coreOf sDrained 0).haU.outq.isEmpty, !streamBusy s0 5, streamBusy (graph { ops := [(18, [(0, 5 * 4)])] }) 5, !unitRuns pBook 0 14,
    okWith (pilotLoad pBook 0x7F0000000100 32 true) (fun _ u => u.turn == 0),
    (match pilotLoad pBookBad 0x7F0000000100 32 true with | .fault c _ u => c == 0x11 && u.turn == 0 && (pilot u).trapVec != 0 && !(pilot u).inTrap | _ => false : Bool) && !unitRuns pBookBad 0 14,
    okWith (drainWrites pHaIdle) (fun _ u => u.turn == 0 && farSettled (drainWritten u) (.fabric 0)),
    okWith (drainWrites (owing pHaIdle)) (fun _ u => u.turn == 0 && !farSettled (drainWritten u) (.fabric 0)) && haSettled (coreOf (owing pHaIdle) 0),
    (match drainWrites pHaNoStack with | .wait u => u.turn == 0 && haSettled (coreOf pHaNoStack 0) | _ => false : Bool) &&
      (firstFault (viewOf pHaNoStack 0) 2 0x400 32 pHaNoStack).isNone,
    (pilot pHaDrain).stage == .drain && (coreOf pHaDrain 0).haU.paused == some 1 && farSettled pHaDrain (.fabric 0) && !farSettled (owing pHaDrain) (.fabric 0),
    (pilot sDrained).wfeUntil.isNone && sDrained.nydb.breaks.isEmpty] = true := by decide +kernel

def sSpill (addr : Nat) (b : Option (Nat × Nat)) : State :=
  sHa 0 none [] (fun h => { h with tab := { h.tab with pending := some ({ addr := addr, bytes := 64, entries := [slot5] }, false), blocked := b, retry := b.isSome } })
def spillMeets (s : State) (p : Nat → List Byte → Bool) : Bool :=
  fabricOn s 0 && (owedFlags .ha (coreOf s 0)).isEmpty && writingUnit (coreOf s 0) == .ha && !waitsWake .ha (coreOf s 0) && (pendingRun .ha (coreOf s 0)).any (fun r => p r.1 r.2)
def faultsAt (s : State) (a : Nat) (b : List Byte) : Bool := (firstFault (viewOf s 0) (b.length / 64 + 2) a b.length s).any (fun f => f.2 == a)
def sHs (e : Option HsSlot) : State :=
  let t : Table HsSlot := match e with
    | none => { geom := some { s := 64 } }
    | some e => match ({ geom := some { s := 64 } } : Table HsSlot).seek hsEnt e.key true with | .absent p => { geom := some { s := 64 }, slots := [(p, e)] } | _ => {}
  graph { ops := [(13, [])], routes := [wire0 77 0 0 0] } (fun x => onChans [(77, 0, tok5)] { x with hsU := { tab := t } })
def retr5 : Tok := { tok5 with retract := true }
def wit9 : Tok := { data := 9, lmask := 3 }

/-- An HA in MAXW, fed by a witness or not, and an HS of a mode. -/
def sMax (fed : Bool) (e : Option HaSlot) (f : Tok → Tok := id) : State :=
  let s := onCore 0 (fun x => { x with haU := { x.haU with tab := { x.haU.tab with geom := some { s := 64, alg := 3 } } } })
    (sHa 1 e ((76, 0, f tok5) :: (if fed then [(76, 1, wit9)] else [])))
  if fed then s else onCore 0 (fun x => { x with slots := [(1, { haCfg 1 with routes := [wire0 76 0 0 0] })] }) s
def sHsMode (mode : Nat) (e : Option HsSlot) (t : Tok := tok5) : State :=
  onCore 0 (fun x => { x with slots := [(1, { ops := [(13, [(0, mode)])], routes := [wire0 77 0 0 0] })], chans := [(chanKey 77 0, [t])] }) (sHs e)
def hsSeeks (s : State) (grow : Bool) : Nat :=
  match (coreOf s 0).hsU.tab.seek hsEnt 5 grow with | .absent _ => 1 | .at_ _ e _ => 2 + e.count | .none => 0 | _ => 99

theorem test_meets_HashUnitsAbsorb : meets [
    (coreOf (sHa 0 none [(76, 0, tok5)]) 0).heldMarks.isEmpty && haFree (sHa 0 none [(76, 0, tok5)]) 0 && haMode (coreOf (sHa 0 none [(76, 0, tok5)]) 0) == 0 && (weightIn (coreOf (sHa 0 none [(76, 0, tok5)]) 0) tok5).isSome &&
      !abortsSpill .ha (sHa 0 none [(76, 0, tok5)]) 0, isAbsent (haTable none) 5, isAt (haTable (some slot5)) 5 true,
    haMode (coreOf (sHa 2 none [(76, 0, tok5)]) 0) == 2 && haFree (sHa 2 none [(76, 0, tok5)]) 0 && haAlg (coreOf (sHa 2 none [(76, 0, tok5)]) 0) != .int64,
    (let s := sHa 3 (some slot5) [(76, 0, retr5), (76, 1, wit9)]
     haFree s 0 && isOverdel (coreOf s 0) && fed s 0 76 1 && headTok (coreOf s 0) 76 1 == some wit9 && isAt (coreOf s 0).haU.tab 5 false && slot5.wit == wit9.key),
    spillMeets (sSpill 0x400 none) (fun a b => okWith (writeFlat (sSpill 0x400 none) (some (.fabric 0)) (viewOf (sSpill 0x400 none) 0) a (b.map some) false)
      (fun _ u => u.nydb.breaks.isEmpty && (owedFlags .ha (coreOf u 0)).isEmpty)),
    spillMeets (sSpill 0x20000 none) (fun a b => faultsAt (sSpill 0x20000 none) a b && faultRoom (sSpill 0x20000 none) 0),
    spillMeets (sSpill 0x20000 (some (0x15, 0x20000))) (faultsAt (sSpill 0x20000 (some (0x15, 0x20000)))),
    (coreOf (sHs none) 0).hsU.tab.open_ && exitRoom (coreOf (sHs none) 0) 77 0 1 && !abortsSpill .hs (sHs none) 0 && headTok (coreOf (sHs none) 0) 77 0 == some tok5,
    (match (coreOf (sHs none) 0).hsU.tab.seek hsEnt tok5.key true with | .absent _ => true | _ => false),
    (match (coreOf (sHs (some { key := 5, count := 1 })) 0).hsU.tab.seek hsEnt tok5.key true with | .at_ _ e _ => e.count != 0 | _ => false),
    [sMax true none, sMax true (some slot5), sMax true (some slot5) (fun t => { t with retract := true })].all (fun s =>
      haFree s 0 && haMode (coreOf s 0) == 1 && !abortsSpill .ha s 0 && fed s 0 76 1 && headTok (coreOf s 0) 76 1 == some wit9 && wit9.kind == .data &&
        (weightIn (coreOf s 0) tok5).isSome && (coreOf s 0).heldMarks.isEmpty),
    haFree (sMax false none) 0 && haMode (coreOf (sMax false none) 0) == 1 && !fed (sMax false none) 0 76 1,
    [sHsMode 1 none, sHsMode 1 (some { key := 5, count := 1 }), sHsMode 1 none retr5, sHsMode 1 (some { key := 5, count := 1 }) retr5, sHsMode 2 none, sHsMode 3 none, sHsMode 0 none retr5].all (fun s =>
      tokensOn s 0 && hasOp (coreOf s 0) 13 && (coreOf s 0).hsU.tab.open_ && exitRoom (coreOf s 0) 77 0 1 && !abortsSpill .hs s 0 && (headTok (coreOf s 0) 77 0).isSome),
    hsSeeks (sHsMode 1 none) true == 1 && hsSeeks (sHsMode 1 (some { key := 5, count := 1 })) true == 3 && hsSeeks (sHsMode 1 none retr5) false == 0 &&
      hsSeeks (sHsMode 1 (some { key := 5, count := 1 }) retr5) false == 3] = true := by
  decide +kernel

/-- Core 0 with this vote state; core 1 of the same isle and context stands by it. -/
def sVote (q : Quiesce) (f : Core → Core := id) : State :=
  let s := sSecond
  { onCore 0 (fun x => f { x with quiesce := { q with armed := true } }) s with turn := 0 }
def rootQ : Quiesce := { plist := [(0, 0), (0, 1)], place := 0 }
def leafQ : Quiesce := { plist := [(0, 1), (0, 0)], place := 1 }
/-- The root of a vote of one in a page whose relation table stands at 0x800. -/
def pRoot (q : Quiesce) : State := paged 0 (fun x => { x with quiesce := { q with armed := true, plist := [(0, 0)] } }) (fun i => { i with rtbase := 0x800, rtlen := 1 })
/-- Core 1 stands in isle 1, whose launch of the same context drains. -/
def sDrains : State :=
  let s := sVote leafQ
  onIsle 1 (fun _ => { isleOf s 0 with phase := .drain, seq := 2, x0 := 1 }) (onCore 1 (fun x => { x with isle := some 1 }) s)
def wave2Of (s : State) : Nat × Nat × Bool :=
  let q := (coreOf s 0).quiesce
  (q.sumS + (countsOf q).1, q.sumA + (countsOf q).2, q.flag || q.act || busy s 0)

theorem test_meets_WavesDecide : meets [coreRuns (sVote rootQ) 1 (viewOf (sVote rootQ) 0).ctx, (sVote rootQ).hub.saved.isEmpty, (sVote rootQ).hub.chipid == 0,
    waveOn (sVote { rootQ with start1 := true }) 0,
    waveOn (sVote { leafQ with wstate := .w1 }) 0 && leafQ.children.isEmpty && leafQ.parent == some (0, 1),
    (let s := sVote { rootQ with wstate := .w1, kids := 1 }
     rootQ.children == [(0, 1)] && rootQ.parent == none && !busy s 0 && countsOf (coreOf s 0).quiesce == (0, 0)),
    busy (sVote { rootQ with wstate := .w1, kids := 1 } (onChans [(76, 0, tok5)])) 0,
    waveOn (sVote { rootQ with start2 := true, wstate := .w1done }) 0, waveOn (sVote { leafQ with wstate := .w2 }) 0,
    (let s := pRoot { wstate := .w2 }
     waveOn s 0 && (coreOf s 0).quiesce.children.isEmpty && wave2Of s == (0, 0, false) &&
       okWith (writeFlat s (some (.pilot 0)) (viewOf s 0) (0x800 + 24) ((toBytes 8 0).map some) false) (fun _ _ => true)),
    wave2Of (pRoot { wstate := .w2, act := true }) == (0, 0, true), waveOn (pRoot { restartAt := some 0 }) 0,
    waveOn (sVote leafQ) 0 && applies (sVote leafQ) 1 (viewOf (sVote leafQ) 0).ctx,
    waveOn sDrains 0 && !applies sDrains 1 (viewOf sDrains 0).ctx && coreHeld sDrains 1 (viewOf sDrains 0).ctx && holdingIsle sDrains 1 (viewOf sDrains 0).ctx == some 1,
    waveOn (sVote leafQ) 0 && !applies (sVote leafQ) 9 0 && !coreHeld (sVote leafQ) 9 0] = true := by decide +kernel

/-- A round record of one participant at tensor 0 address 0x400 of a page that is not cached, its list at 0x500, and relation 0 of
one partition (R29, R321). -/
def roundFields : List (Nat × Nat × Nat) := [(0, 2, 1), (4, 1, 2), (6, 2, 3), (8, 8, 0x500)]
def relFields : List (Nat × Nat × Nat) := [(2, 1, 1), (4, 1, 1), (6, 2, 1), (32, 8, 100)]
def pRound : State :=
  let s := graph (haCfg 0) (fun x => withReg 2 0x400 (withHa 0 (some slot5) id x))
  let s := onIsle 0 (fun i => { i with rtbase := 0x800, rtlen := 1 }) s
  let fs := roundFields.map (fun f => (f.1 + 0x400, f.2)) ++ relFields.map (fun f => (f.1 + 0x800, f.2))
  { s with ms := { s.ms with mem := fs.foldl (fun m f => memPutNat m (0x10000 + f.1) f.2.1 f.2.2) (memPutNat s.ms.mem 0x4004 1 0x2F) } }
def onStage (k : Stage) (s : State) : State := onPilot 0 (fun p => { p with stage := k }) s
def pRoundWaits : State := onStage .drainWait (onCore 0 (fun x => { x with haU := { x.haU with paused := some 0 } }) pRound)
/-- A vote of one that has been decided. -/
def pDecided (d : Nat × Bool) (last : Nat) : State :=
  onStage .vote (onCore 0 (fun x => { x with quiesce := { armed := true, plist := [(0, 0)], decision := some d, maxRounds := last } }) pRound)
/-- One DRAIN record at offset 0x200, of a table in EXACT form whose outputs are routed. -/
def drainFields : List (Nat × Nat × Nat) := [(0, 8, 5), (8, 8, 1), (16, 8, 9), (26, 2, 1)]
def pWalk (k : Stage) (n : Word) : State :=
  onStage k (graph { ops := [(12, [(0, 1)])], routes := [wire0 76 0 0 0, wire0 76 1 1 0] } (fun x =>
    withReg 3 n (withReg 2 0x7F0000000200 (withHa 0 (some slot5) id { x with scratch := record 0x200 drainFields }))))

theorem test_meets_RoundsFire : meets [
    okWith (readVote 0x400 pRound) (fun v u => v.peers == [(0, 0)] && u.turn == 0 && (pilot u).storeBuf.isEmpty && u.ms.far.isEmpty &&
      (coreOf u 0).stashes.isEmpty && firesRules pRound && haSettled (coreOf u 0)),
    okWith (readRound 0x400 pRound) (fun r w => okWith (checkSlist r.slist w) (fun _ x => firesRules x &&
      okWith (readVote 0x400 x) (fun _ u => haSettled (coreOf u 0) && (pilot u).storeBuf.isEmpty && u.ms.far.isEmpty))),
    okWith (readVote 0x400 pRoundWaits) (fun _ u => u.turn == 0 && (pilot u).stage == .drainWait && (coreOf u 0).haU.outq.isEmpty &&
      haSettled { coreOf u 0 with haU := { (coreOf u 0).haU with paused := none } } && (pilot u).storeBuf.isEmpty && u.ms.far.isEmpty && (coreOf u 0).stashes.isEmpty),
    (pilot pRound).fixRounds == 0 && (pilot pRound).stage == .none,
    (pilot (onStage .drain pRound)).stage == .drain && (coreOf pRound 0).haU.outq.isEmpty,
    decide (1 < 9),
    decide ((1 : Nat) ≤ (pilot (pDecided (3, false) 1)).fixRounds + 1), unitRuns (pWalk .none 1) 0 12 && routed (coreOf (pWalk .none 1) 0) 76 0,
    walksExact (pWalk .none 1) 0 && haSettled (coreOf (pWalk .none 1) 0),
    okWith (pilotRecord (pWalk (.walk 0 0) 1) 0x7F0000000200 32) (fun b u => (coreOf u 0).haU.outq.isEmpty && bit (parseDrain b).flags 0 &&
      (parseDrain b).round == 0 && ((coreOf u 0).haU.tab.look haEnt (parseDrain b).key).isSome),
    (pilot (pWalk (.walk 1 1) 1)).stage == .walk 1 1, (pilot (pWalk (.walk 2 1) 1)).stage == .walk 2 1] = true := by decide +kernel

/-- Isle 0 while its lead saves; the isle without rows keeps the cocoon small. -/
def pSave (late : Bool) : State := paged 0 (withReg 2 0x400) (fun i => { i with height := 0, quiesceAt := some 0, rollback := late })
def saveMeets (commit : Bool) (s : State) : Bool :=
  okWith (writeCocoon 0 0x400 (makeCocoon true commit 4 0 (writeBack 4 2 s)) s) (fun _ _ => true)
/-- A cocoon of that isle in memory, its header up to the CRC alone: the fields and the CRC as R353 lays them out. -/
def cocoonFields : List (Nat × Nat × Nat) :=
  [(0, 4, 0x434F434E), (4, 1, 1), (5, 1, 1), (6, 2, 1), (8, 1, 1), (16, 8, 132), (24, 8, 1), (128, 4, 0xAB7D51F0)]
def pSaved : State :=
  let s := pSave false
  let s := onIsle 0 (fun i => { i with quiesceAt := none }) s
  let mem := cocoonFields.foldl (fun (m : Memory) (e : Nat × Nat × Nat) => memPutNat m (e.1 + 0x10400) e.2.1 e.2.2) s.ms.mem
  { s with ms := { s.ms with mem := mem } }

/-- A step record at offset 0x100: one source, core 0 counter 8 to reach 1, non-finite counter 7; one tensor, 1 (R364). -/
def stepFields : List (Nat × Nat × Nat) :=
  [(0, 2, 1), (2, 2, 1), (8, 8, 0x7F0000000200), (16, 8, 0x7F0000000240), (24, 8, 6), (0x100, 4, 7 * 2 ^ 13 + 8 * 2 ^ 19 + 2 ^ 25), (0x108, 8, 1),
   (0x140, 4, 1)]
def withCtr (k : Nat) (v : Word) (x : Core) : Core := { x with counters := x.counters.setIfInBounds k v }
/-- The record stands at tensor 0 address 0x400 of a page that is not cached, its tensor record at 0x880, with two banks. -/
def pStep (f : Core → Core) : State :=
  let fs := stepFields.map (fun e => if e.1 < 0x100 then (e.1 + 0x10400, e.2.1, if e.2.2 = 0x7F0000000200 then 0x500 else if e.2.2 = 0x7F0000000240 then 0x540 else e.2.2)
    else (e.1 + 0x10400, e.2.1, e.2.2))
  let ts := tensorFields.map (fun e => (e.1 + 0x10880, e.2.1, e.2.2))
  let s := paged 0 (fun x => f (withReg 2 0x400 x)) (fun i => { i with ttbase := 0x800, ttlen := 2 })
  { s with ms := { s.ms with mem := ((0x4004, 1, 0x2F) :: fs ++ ts ++ [(0x10884, 1, 8)]).foldl (fun (m : Memory) (e : Nat × Nat × Nat) => memPutNat m e.1 e.2.1 e.2.2) s.ms.mem } }
def stepMeets (s : State) (p : StepRec → List StepSrc → List Nat → State → Bool) : Bool :=
  okWith (readStep 0x400 true s) (fun r u => okWith (checkBanks r.2.2 u) (fun _ v => (pilot v).storeBuf.isEmpty && v.ms.far.isEmpty && p r.1 r.2.1 r.2.2 v))
def pStepOpen : State := pStep id
def pStepDone : State := pStep (withCtr 8 1)
/-- The same record with CKEN set, counter 9 to rise. -/
def pStepRaises : State := onMs (fun m => { m with mem := memPutNat m.mem 0x10428 1 0x49 }) pStepDone
/-- The record lists tensor 1 twice. -/
def pStepTwice : State := onMs (fun m => { m with mem := memPutNat (memPutNat m.mem 0x10402 1 2) 0x10544 1 1 }) pStepDone
/-- A step whose effect has taken place and whose writes are performed. -/
def pStepEnds : State := onStage .waitDone pStepDone
def pStepBad : State := pStep (fun x => withCtr 7 2 (withCtr 8 1 x))

/-- A loss-scale record at tensor 0 address 0x400 of such a page: scale 120 between 100 and 140, 2 clean steps to grow (R367). -/
def lossFields : List (Nat × Nat × Nat) := [(0, 1, 120), (1, 1, 100), (2, 1, 140), (4, 2, 2), (6, 2, 1)]
def pLoss (fs : List (Nat × Nat × Nat)) (bad : Word) : State :=
  let s := paged 0 (fun x => withReg 3 bad (withReg 2 0x400 x))
  { s with ms := { s.ms with mem := (lossFields ++ fs).foldl (fun (m : Memory) (e : Nat × Nat × Nat) => memPutNat m (e.1 + 0x10400) e.2.1 e.2.2) (memPutNat s.ms.mem 0x4004 1 0x2F) } }
def layerFields : List (Nat × Nat × Nat) := [(32, 2, 1), (40, 8, 0x500), (0x100, 8, 0x600), (0x108, 1, 7)]
def lossMeets (s : State) (p : LossRec → State → Bool) : Bool :=
  okWith (pilotHome 0x400 64 s) (fun b u => fieldAt b 40 0 64 % 16 == 0 && (parseLoss b).any (fun r => p r u))

/-- Ring 1 of core 0, its descriptor at window offset 0x100: stream 2 and register 4 (R370). -/
def ringFields : List (Nat × Nat × Nat) := [(0, 1, 16), (1, 1, 1), (16, 1, 2), (20, 1, 4)]
def ring1 (n : Nat) : Ring :=
  { desc := 0x7F0000000100, zs := [2], regNos := [4], seq := n, snaps := (upTo n).map (fun k => { index := k, extents := [], cs := [7], regs := [9] }) }
def sRing (n : Nat) : State := sRec ringFields (fun x => withReg 3 1 { x with rings := if n = 0 then [] else [(1, ring1 n)] })

/-! The hub: every function is ready, and context 1 has an entry in the table at physical 0x30000, the grants stand at 0x38000. -/
def ready (s : State) : State := { s with host := { s.host with readymap := 0xFFFFFFFFFFFF }, hub := { s.hub with ctxtab := 0x30000, granttab := 0x38000 } }
/-- Fields of 32 bits and more put at physical addresses. -/
def putMem (fs : List (Nat × Nat × Nat)) (s : State) : State :=
  { s with ms := { s.ms with mem := fs.foldl (fun m f => memPutNat m f.1 f.2.1 f.2.2) s.ms.mem } }
def pHub (f : Core → Core := id) (g : Isle → Isle := id) : State := putMem [(0x30020, 2, 0x3F01), (0x30022, 2, 4), (0x30038, 8, 0x1000)] (ready (paged 0 f g))
/-- A launch record of one core (R23), its priority, its width and height, and the changes of fs. -/
def lrec (prio n : Nat) (fs : List (Nat × Nat × Nat) := []) : List Byte :=
  memBytes (record 0 ([(0, 1, 1), (1, 1, prio), (2, 2, 1), (4, 2, 7), (6, 1, n), (7, 1, n)] ++ fs)) 0 64
def queue (prio n : Nat) (s : State) : State :=
  { s with hub := { s.hub with fifos := [(prio, [{ lrec := parseLaunch (lrec prio n), seq := 9, met0 := true, met1 := true }])] } }
def pWatch : State :=
  { pHub with hub := { pHub.hub with fifos := [(5, [{ lrec := parseLaunch (lrec 5 1 [(32, 4, 2 ^ 31), (40, 8, 1)]), seq := 9, met0 := false, met1 := true }])] } }
/-- The context table lies in a stack that is not ready. -/
def noTable : State := { pHub with hub := { pHub.hub with ctxtab := 0xC00000000 }, host := { pHub.host with readymap := 0xFFFFFFDFFFFF } }
def arriveMeets (b : List Byte) (p : Nat → Bool) : Bool :=
  b.length == 64 && pHub.host.readymap.getLsbD 45 && (match ctxEntry pHub (parseLaunch b).ctx with
    | some e => p (checkLaunch pHub e (parseLaunch b)) | _ => false : Bool)

/-- A past isle beside isle 0 still holds the image of the record that waits. -/
def pResident : State :=
  onIsle 1 (fun _ => { lrec := parseLaunch (lrec 5 1), ctx := 1, x0 := 1, width := 1, height := 1, phase := .free, slots := [(2, { cfgid := 7 })] }) (queue 5 1 pHub)
/-- The launch that waits is a saved one. -/
def pResumes : State :=
  let s := queue 5 1 pHub
  { s with hub := { s.hub with fifos := s.hub.fifos.map (fun e => (e.1, e.2.map (fun l => { l with saved := true })))
                               saved := [{ id := 4, ctx := 1, isle := { seq := 9, ctx := 1, width := 1, height := 1, phase := .saved, lrec := parseLaunch (lrec 5 1) }, cores := [{}], full := true, rollback := false, commit := false }] } }
/-- A host access waits for its stack. -/
def pQueued : State := { noTable with host := { noTable.host with waiting := [.context 1] } }
def placeMeets (s : State) (p : QLaunch → CtxEntry → Nat × Nat × Nat → Map Grant → State → Bool) : Bool :=
  match pickFrom s 64 with
  | .place l e q => (readGrants (isleIndex s q.1 q.2.1 q.2.2 l.lrec.width l.lrec.height) (unqueue l.seq s)).any (fun g => p l e q g.1 g.2)
  | _ => false

def sIsle (f : Isle → Isle) (cyc : Nat := 0) (g : Core → Core := id) : State := { one g f with cycle := cyc }
/-- Die 0 alone is ready, and its only launch runs at a priority below that of one that needs all of it. -/
def pPreempt : State :=
  let s := queue 60 40 (pHub)
  { s with host := { s.host with readymap := 0x2000FFF000F1 } }
/-- An isle that has drained, with a page for its cocoon in its spill region; it has no rows, which keeps the cocoon small. -/
def pOwed : State :=
  putMem [(0x3800, 8, 0x5001), (0x5000, 16, 3 + 0xF * 2 ^ 32 + 2 ^ 64)] (paged 0 id (fun i => { i with height := 0, phase := .owed, lrec := { prio := 9 } }))
/-- A block whose queue holds one thread. -/
def pBlock : State :=
  let s := putMem [(0x10040, 2, 7)] (paged 0 (fun x => withCtr 11 1 { x with slots := [(0, { atolls := [(0, atoll0)] })] }) (fun i =>
    { i with blktab := 0x40, blklen := 1, slots := [(0, { cfgid := 7 })] }))
  s

theorem test_meets_LaunchesEnd : meets [
    (let s := sIsle (fun i => { i with phase := .ending 0 })
     (isleOf s 0).slots.isEmpty && writesDone (severFrom 0 (severInto 0 s)) 0),
    (isleOf (sIsle (fun i => { i with phase := .held, holdUntil := 64 }) 64) 0).holdUntil == 64,
    (preemptor pPreempt).any (fun l => (bestVictims pPreempt l.lrec).any (fun vs => vs.map (fun e => e.1) == [0])),
    (let s := sIsle (fun i => { i with phase := .drain }) 64
     !completing s 0 && (coreOf s 0).lastMove + 64 == 64 && wiresStill s 0),
    (let s := sIsle (fun i => { i with phase := .drain }) (2 ^ 14) (withPilot (fun p => { p with storeBuf := [bufW] }))
     decide ((isleOf s 0).stopAt + 2 ^ s.hub.drainlim ≤ s.cycle) && !(isleOf s 0).frozen && (isleOf s 0).quiesceAt.isNone && !enginesQuiet s 0),
    (match saveWindows [] pOwed with
     | (ok, u) => ok && !(isleOf u 0).rollback && okWith (writeCocoon 0 (cocoonAddr (isleOf u 0)) (makeCocoon false false 0 0 u) u) (fun _ _ => true) : Bool),
    (isleOf (sIsle (fun i => { i with quiesceAt := some 0 }) 1600) 0).quiesceAt == some 0,
    (let s := graph {}
     (mapFind (isleOf s 0).slots 1).any (fun g => g.running && g.endK.isNone && g.cores.all (fun c => nodesEnded s c && coreQuiet s c) &&
       (match writeBackMu 1 g.cores s with | (ok, u) => ok && (isleOf u 0).resume.isNone : Bool))),
    okWith (readBlocks 0 1 0 pBlock) (fun es u => chooseBlock u 0 0 es == some 0 && (es[0]?).any (fun e => (blockAtoll u 0 e).isSome &&
      (slotOfId (isleOf u 0) e.cfgid).isSome)),
    (isleOf pBlock 0).phase == .running && !(isleOf pBlock 0).frozen && (isleOf pBlock 0).turn.isNone && (isleOf pBlock 0).loader.isNone,
    (isleOf pOwed 0).phase == .owed && (isleCores (isleOf pOwed 0)).all (fun c => owedDone pOwed c)] = true := by decide +kernel

/-- Isle 0 loads an image at tensor 0 address 0x400; the frame that the loader reads next holds x. -/
def pLoad (index x : Nat) (l : Loader → Loader := id) : State :=
  putMem [(0x10400 + 32 * index, 32, x)] (paged 0 id (fun i => { i with loader := some (l { slot := 1, addr := 0x400, index := index, nframes := index + 1 }) }))
/-- Frames: HDR, and one of each other kind (R36, R37, R74 to R80). -/
def hdrWord : Nat := 0xE * 2 ^ 252 + 0x4E59494D * 2 ^ 200 + 2 ^ 192 + 7 * 2 ^ 176 + 2 ^ 170 + 2 ^ 164
def frames : List Nat :=
  [2 ^ 252 + (upTo 6).foldl (fun w k => w + nopWord * 2 ^ (38 * k)) 0, 2 * 2 ^ 252 + 2 ^ 230, 3 * 2 ^ 252, 4 * 2 ^ 252 + 17 * 2 ^ 232 + 7 * 2 ^ 228 + 1, 5 * 2 ^ 252 + 1, 6 * 2 ^ 252, 7 * 2 ^ 252]
def endWord : Nat := 0xF * 2 ^ 252
def frameMeets (s : State) (p : Loader → Nat → List Byte → State → Bool) : Bool :=
  (isleOf s 0).loader.any (fun l => okWith (readFlat s none (viewOf s 0) (l.addr + 32 * l.index) 32) (fun b u => p l (ofBytes b.1) b.1 u))

/-- The window of the host names context 1. -/
def withWin (s : State) : State := { s with host := { s.host with wbctx := 1, winPtb := 0x1000, winValid := true } }
def pWin : State := withWin pHub
/-- The stack of the page is not ready. -/
def pWaits : State := { pWin with host := { pWin.host with readymap := 0xFFFFFFEFFFFF } }
def sCredit (on : Bool) : State := { s0 with host := { s0.host with hrcfg := [(0, if on then 1 <<< 63 else 0)] } }

def pWaiting : State := { pWaits with host := { pWaits.host with waiting := [.access 0x40 (.read 8)] } }

theorem test_meets_HostAccesses : meets [
    pWin.host.winValid && pWin.host.waiting.isEmpty && okWith (hostReadGo 2 0x40 8 pWin) (fun _ _ => true),
    (match hostReadGo 2 0x20000 8 pWin with | .fault _ _ _ => true | _ => false : Bool),
    (match hostReadGo 2 0x40 8 pWaits with | .wait _ => pWaits.host.waiting.isEmpty | _ => false : Bool),
    okWith (hostWrite 0x40 (toBytes 8 5) pWin) (fun _ _ => true),
    (match hostWrite 0x20000 (toBytes 8 5) pWin with | .fault _ _ _ => true | _ => false : Bool),
    (match hostWrite 0x40 (toBytes 8 5) pWaits with | .wait _ => true | _ => false : Bool),
    (ctxEntry pHub 1).any (fun e => e.valid) && pHub.host.waiting.isEmpty,
    (mapGet 0 (sCredit true).host.hrcfg 0).getLsbD 63 && decide (bits (mapGet 0 (sCredit true).host.hrcfg 0).toNat 0 13 < Config.cores),
    !(mapGet 0 (sCredit false).host.hrcfg 0).getLsbD 63, s0.hub.svcHeld.isEmpty, decide ((4095 : Word).toNat < 4096),
    decide ((6399 : Word).toNat < Config.cores), pWaiting.host.waiting == [.access 0x40 (.read 8)] && !(hostOne (.access 0x40 (.read 8)) pWaiting).1,
    decide (4096 ≤ (4096 : Word).toNat), decide (Config.cores ≤ (6400 : Word).toNat)] = true := by decide +kernel

def sSpdm (p : Spdm) : State := { s0 with trust := { s0.trust with spdm := p, booted := some (0, 0) }, host := { s0.host with readymap := 1 <<< 44 } }
def sKeyBusy : State := let s := sSpdm .session; { s with ms := { s.ms with packets := [{ op := .prd, slice := 0, stack := 0, tag := 0, pa := 0, granules := 1, key := 5 }] } }
def sBootBad : State := { s0 with trust := { s0.trust with booted := some (1, 3) } }

theorem test_meets_SessionsAnswer : meets [[Spdm.version, .capabilities, .algorithms, .keyed, .session].all (fun p =>
      (sSpdm p).trust.spdm == p && (sSpdm p).host.readymap.getLsbD 44), (sSpdm .session).ms.packets.isEmpty, (sSpdm .session).trust.keyWrites.isEmpty,
    sKeyBusy.ms.packets.any (fun p => p.key == 5), (sSpdm .keyed).trust.spdm != .session, bootFailed sBootBad, !bootFailed s0] = true := by decide +kernel

/-- The host has enabled MSI-X and unmasked its vectors. -/
def opened (s : State) : State :=
  { s with host := { s.host with readymap := 0x7FFFFFFFFFFF, msixOn := true, msixTab := (upTo 8).map (fun v => (v, { masked := false })) } }

theorem test_meets_PowerAndReset : meets [!readyBit State.reset 0 && mayBeReady State.reset 0 && State.reset.ms.unsent.isEmpty,
    !readyBit sBootBad 46 && sBootBad.trust.booted.isSome && mayBeReady (sSpdm .start) 46, s0.host.waiting.isEmpty,
    readyBit (ready State.reset) 0 && (ready State.reset).hub.isles.isEmpty && (ready State.reset).host.waiting.isEmpty && (ready State.reset).ms.far.isEmpty,
    !(opened s0).power.stopped && readyBit (opened s0) 46 && vectorOpen (opened s0).host 4 && vectorOpen (opened s0).host 3 && decide (104 < 105)] = true := by decide +kernel

def sFrozen : State := one id (fun i => { i with frozen := true, attached := true })
def pRecord (fs : List (Nat × Nat × Nat)) : State := putMem (fs.map (fun e => (e.1 + 0x10400, e.2.1, e.2.2))) pWin

/-- A cocoon of one section: its directory entry of 16 bytes and its bytes (R353). -/
def sectionFields : List (Nat × Nat × Nat) := cocoonFields ++ [(12, 4, 1), (256, 4, 3 * 2 ^ 12 + 5 * 2 ^ 20 + 1), (260, 4, 16), (264, 8, 320), (320, 8, 0x1122)]
def sHeldPilot : State := one (withPilot (fun p => { p with held := true })) (fun i => { i with frozen := true, attached := true })

/-! ### The fabric -/

def onExits (ts : List (Nat × Nat × Tok)) (x : Core) : Core :=
  { x with exits := ts.foldl (fun m t => mapPut m (chanKey t.1 t.2.1) (mapGet [] m (chanKey t.1 t.2.1) ++ [t.2.2])) x.exits }
/-- Output 0 of node 76 holds a token, routed to input 0 of element 0 with n tokens there, and to input 0 of element 1. -/
def sRoute (n : Nat) (rs : List Route) (f : Core → Core := id) : State :=
  graph { routes := rs } (fun x => f (onExits [(76, 0, tok5)] (onChans ((upTo n).map (fun _ => (0, 0, tok5))) x)))
def cut1 : List Route := [{ wire0 76 0 0 0 with detach := true }, wire0 76 0 1 0]
def onWire (x : Core) : Core := { x with wires := [(0, [tok5])] }
/-- Core 1 in an isle of its own, into which a route of core 0 leads under a grant of this rate and bucket. -/
def sStrait (rate bucket : Nat) : State :=
  let s := graph { routes := [{ wire0 76 0 0 0 with dx := 1 }] } onWire
  let i : Isle := { x0 := 1, index := 1, phase := .running, ctx := 1, grants := [(0, { src := 1, dst := 1, rate := rate, burst := 1, bucket := bucket })] }
  { s with cores := s.cores ++ [(1, { isle := some 1 })], hub := { s.hub with isles := s.hub.isles ++ [(1, i)] } }
def openAll (s : State) : State := { s with host := { s.host with readymap := 0xFFFFFFFFFFFF } }
/-- A strait route whose target core is full and whose isle has not granted it. -/
def strait0 : Route := { wire0 76 0 0 0 with dx := 1 }
def sExcused : State :=
  let s := sStrait 0 0
  let s := onCore 0 (fun x => { x with wires := [(0, List.replicate 4 tok5)], exits := [(chanKey 76 0, [tok5])] }) s
  onIsle 1 (fun i => { i with grants := [] }) s

theorem test_meets_TokensMove : meets [
    (let s := sRoute 3 [wire0 76 0 0 0]; tokensOn s 0 && membersReady s 0 76 0 && s.nydb.breaks.isEmpty),
    (let s := sRoute 4 [wire0 76 0 0 0]; tokensOn s 0 && !membersReady s 0 76 0),
    (let s := sRoute 3 [wire0 76 0 0 0]; fullMembers s 0 76 0 == [] && (coreOf s 0).exits == [(chanKey 76 0, [tok5])]),
    (let s := openAll (sRoute 4 [wire0 76 0 0 0]); fullMembers s 0 76 0 == [(0, wire0 76 0 0 0)] && !excused (settleClocks s) 0 0 (wire0 76 0 0 0)),
    (let s := sExcused; fullMembers s 0 76 0 == [(0, strait0)] && excused (settleClocks s) 0 0 strait0 && tokensOn s 0 && (coreOf s 0).exits == [(chanKey 76 0, [tok5])]),
    (let s := sRoute 3 [wire0 76 0 0 0] onWire
     routeAt (coreOf s 0) 0 == some (wire0 76 0 0 0) && routeCore 0 (wire0 76 0 0 0) == some 0 && fabricOn s 0 && !isStrait s 0 (wire0 76 0 0 0) && (isleOfCore s 0).quiesceAt.isNone),
    (let s := sStrait 0 0
     (routeAt (coreOf s 0) 0).any (fun r => isStrait s 0 r && mayCross s 0 0 r && routeCore 0 r == some 1 && (grantFor s 0 r).any (fun g => g.2.2.rate == 0))),
    waitingUnder (onCore 0 (fun x => { x with severed := [0] }) (sStrait 512 0)) 1 0 0 == none, (waitingUnder (sStrait 1023 0) 1 0 0).isSome,
    (waitingUnder (sStrait 512 512) 1 0 0).isSome,
    (let s := sRoute 4 [wire0 76 0 0 0] (fun x => { x with watch := [(chanKey 76 0, { count := 2 ^ 20 })] })
     tokensOn s 0 && decide (watchPeriod s 0 ≤ 2 ^ 20) && reportRoom s 0 && s.nydb.breaks.isEmpty && stallNames 0 (fullMembers s 0 76 0) == some (0, wire0 76 0 0 0)),
    (let s := sRoute 4 cut1 (fun x => { x with watch := [(1024, { count := 2 ^ 20 })] })
     (routeAt (coreOf s 0) 0).any (fun r => r.detach && !isStrait s 0 r) && tokensOn s 0 && (coreOf s 0).cutRoutes.isEmpty),
    ([sStrait 512 0, sStrait 1023 0].all (fun s => (isleOf s 1).grants.length == 1 && s.cycle == 0)),
    (coreOf (sRoute 0 [wire0 76 0 0 0] onWire) 0).parity.isEmpty,
    (coreOf (sRoute 0 [wire0 76 0 0 0] (fun x => { onWire x with parity := [0] })) 0).parity == [0]] = true := by decide +kernel

/-- MOV of the consumed input 0 to output 0 (R67 to R69). -/
def movWord : Nat := 2 ^ 31 + 2 ^ 28 + 4 * 2 ^ 21 + 16 * 2 ^ 16 + 16 * 2 ^ 11 + 15
def elemCfg (w : Nat) : ElemCfg := { stages := w :: List.replicate 5 nopWord }
def sElem (w : Nat) (ts : List Tok) (g : IsleSlot → IsleSlot := id) (f : ElemCfg → ElemCfg := id) : State :=
  graph { elems := [(0, f (elemCfg w))], routes := [wire0 0 0 1 0] } (onChans (ts.map (fun t => (0, 0, t)))) g
def stopping (k : StopForm) (g : IsleSlot) : IsleSlot := { g with stop := some k }

/-- JCMP of inputs 0 and 1 with policy 0 over two keys, an element behind its own level-7 MARK, and one whose wave ends it. -/
def jcmpWord : Nat := 0x34 * 2 ^ 31 + 4 * 2 ^ 21 + 5 * 2 ^ 16 + 16 * 2 ^ 11 + 15
def sJoin : State := onCore 0 (onChans [(0, 1, { tok5 with data := 9 })]) (sElem jcmpWord [tok5])
def sBehind : State := onCore 0 (fun x => { x with elems := [(0, { ended := true, tail := 4 })] }) (sElem movWord [tok5])
/-- A wave before its first stage, and words of one stage: ADD, BCAST, FADD, CADD of UINT64 pairs, DLY, RDLM, NOP, EMIT, STEER and MARK. -/
def wave0 : Wv :=
  { live := true, v := 15, p := false, t := false, kd := .data, heads := [some tok5], c := [1, 2, 3, 4], y := { rows := [(0, 7)] }
    regions := [(0, { start := 0, rows := 2, role := 0, tid := 0 })] }
def stageWord (op mode opt : Nat) (emit : Bool := false) : Nat :=
  op * 2 ^ 31 + (if emit then 2 ^ 28 else 0) + 4 * 2 ^ 21 + 4 * 2 ^ 16 + 16 * 2 ^ 11 + mode * 2 ^ 8 + opt * 2 ^ 4 + 15
def oneSource (op opt : Nat) (emit : Bool := false) : Nat := stageWord op 0 opt emit + 12 * 2 ^ 16

theorem test_meets_ElementsStep : meets [
    (let s := sElem movWord [tok5]
     let gs := stagesOf (elemCfg movWord)
     takesWaves s 0 0 && waveRoom (coreOf s 0) 0 (elemCfg movWord) && consumedOf gs == [0] && (entryOf gs 0 (fun ch => headTok (coreOf s 0) 0 ch)).isSome),
    (let s := sElem nopWord [] (stopping .abort)
     consumedOf (stagesOf (elemCfg nopWord)) == [] && takesWaves s 0 0 && sourcesOn (unfrozenFor s 0 0) 0 && stopOf s 0 == some .abort && !(elemOf (coreOf s 0) 0).ended),
    (let f := fun (e : ElemCfg) => { e with markin := 1, markout := 1, ext := [4, 0, 0, 0] }
     let s := sElem movWord [markTok 6 false false] id f
     takesWaves s 0 0 && (headTok (coreOf s 0) 0 0).any (fun t => t.kind == .mark && t.level == 6) && exitRoom (coreOf s 0) 0 0 1),
    (let gs := stagesOf (elemCfg jcmpWord)
     takesWaves sJoin 0 0 && waveRoom (coreOf sJoin 0) 0 (elemCfg jcmpWord) && consumedOf gs == [0, 1] && (namedOf gs).all (fun ch => (headTok (coreOf sJoin 0) 0 ch).isSome) &&
       (entryOf gs 0 (fun ch => headTok (coreOf sJoin 0) 0 ch)).any (fun n => n.quiet)),
    takesWaves sBehind 0 0 && (elemOf (coreOf sBehind 0) 0).ended && waveRoom (coreOf sBehind 0) 0 (elemCfg movWord),
    wave0.bank.length == 16 && mapSortedFrom 0 wave0.y.rows,
    stageOk 1 (stageWord 0x08 0 0) && (stageInt 0x08 0 5 5 0).isSome, stageOk 1 (stageWord 0x02 0 1) && (stageMove (stgOf (stageWord 0x02 0 1)) 0x02 (fun _ => 5) (fun _ => 5) (fun _ => 0) 0).isSome,
    stageOk 2 (stageWord 0x20 0 0) && (stageFloat (stgOf (stageWord 0x20 0 0)) 5 5 0 0 0 false).isSome, stageOk 2 (stageWord 0x30 7 0) && (stgOf (stageWord 0x30 7 0)).op == 0x30,
    stageOk 1 (oneSource 0x38 0) && (mapFind wave0.regions 0).isSome, stageOk 1 (oneSource 0x39 0), stageOk 1 nopWord, stageOk 1 (stageWord 0x08 0 0 true),
    stageOk 1 (stageWord 0x35 0 1 true), stageOk 1 (oneSource 0x36 0 true), stageOk 1 (oneSource 0x36 9 true), stageOk 1 (oneSource 0x37 0)] = true := by decide +kernel

/-- Lines of physical 0x10000 and 0x10040 that their slice holds, all dirty. -/
def sHeld (v : Map VerLine := []) : State :=
  let s := ready s0
  { s with ms := { s.ms with llc := [(0x400, { data := List.replicate 64 7, dirty := 2 ^ 64 - 1 }), (0x401, { data := List.replicate 64 8, dirty := 2 ^ 64 - 1 })], versions := v } }
def sDie (c : Option Nat) : State :=
  let s := ready (one (withPilot (fun p => { p with storeBuf := [{ bufM with sent := true }] })))
  { s with ms := { s.ms with dieMsgs := [{ src := 1, dst := 0, stamp := [0, 1, 0, 0], core := c }] } }
/-- Causeways 3 and 5 are trained; chip 9 lies behind 5, and message 7 to it waits for its answer. -/
def sChips : State :=
  let s := ready s0
  { s with hub := { s.hub with cwrt := [(1, 0x8500)] }, ms := { s.ms with far := [{ id := 7, agent := none, chip := 9, body := .signal }] } }
def toChip (chip : Nat) (b : ChipBody) : ChipMsg := { chip := chip, src := 9, id := 7, core := 0, k := 5, ken := true, inc := 1, ctx := 0, body := b }
/-- A request of an element whose page this chip does not map, one of a tensor that the context does not have, and one that reads. -/
def putMsg : ChipMsg := { toChip 0 (.read (.elem 0 [0x20000]) 16) with ctx := 1 }
def badMsg : ChipMsg := { toChip 0 (.read (.elem 5 [0]) 16) with ctx := 1 }
def readMsg : ChipMsg := toChip 0 (.read (.phys 0x10000 0 0) 8)
/-- A PUT to the scratchpad of core 0 in context 1, and one to a core that the context does not hold. -/
def coreMsg0 : ChipMsg := { toChip 0 (.put 0x7F0000000400 [1] false) with ctx := 1 }
def strayMsg : ChipMsg := { coreMsg0 with core := 99 }
def atMsg (m : ChipMsg) (s : State) : State := { s with ms := { s.ms with inbound := [{ m with port := 3 }] } }
def pChips : State := { sChips with cores := pHub.cores, hub := { pHub.hub with cwrt := [(1, 0x8500)], frslots := 4 }, ms := pHub.ms }
/-- The launch drains; the port to chip 9 is not trained; a die has taken what its message counts, or lacks one before it. -/
def pChipsDrain : State := onIsle 0 (fun i => { i with phase := .drain }) pChips
def sUntrained : State := { sChips with host := { sChips.host with readymap := 0xFFDFFFFFFFFF } }
def sDieAt (v : Word) (n : Word) : State :=
  let s := sDie none
  { s with ms := { s.ms with vclock := [(1, v)], dieMsgs := [{ src := 1, dst := 0, stamp := [0, n, 0, 0], core := none }] } }
def sDieWaits : State := { sDie (some 0) with host := {} }
def sWrapped (en : Bool) : State := one (fun x => { x with evctrs := [(7, { wrapped := 1, ovk := 63, ovken := en })] })

theorem test_meets_MemoryEvents : meets [
    freeTag sHeld (homeSlice 0x10000) (0x10000 / Config.stackBytes) == some 0 && oneSlice 0x10000 3 && hbmReady sHeld 0x10000 && oneSlice 0x1FFE0 1, mayWriteBack sHeld (packetLines 0x10000 4),
    (dieQueue (sDie none) 1 0).head?.any (fun m => stampOk (sDie none) 1 0 m.stamp && m.core == none),
    (let s := sDie (some 0)
     (dieQueue s 1 0).head?.any (fun m => stampOk s 1 0 m.stamp && m.core == some 0) && storeReady 0 { bufM with sent := true } s),
    sChips.ms.inbound.isEmpty && sChips.host.readymap.getLsbD 35 && sChips.hub.chipid == 0,
    dieQueue (sDieAt 2 2) 1 0 != [] && decide ((2 : Word) ≤ vOf (sDieAt 2 2) 0 1), decide (vOf (sDieAt 0 5) 0 1 < 5) && !stampOk (sDieAt 0 5) 1 0 [0, 5, 0, 0],
    decide (vOf (sDie none) 0 1 < 1), stampOk sDieWaits 1 0 [0, 1, 0, 0] && !storeReady 0 { bufM with sent := true } sDieWaits,
    okWith (runMsg { readMsg with port := 3 } (atMsg readMsg sChips)) (fun b _ => b != .ended) && !forCore readMsg.body,
    (match runMsg { badMsg with port := 3 } (atMsg badMsg pChips) with | .fault cause _ _ => !servedCause cause | _ => false : Bool),
    (let v := atMsg coreMsg0 pChips
     applies v 0 1 && coreHeld v 0 1 && okWith (coreMsg { coreMsg0 with port := 3 } v) (fun b _ => b != .ended) && forCore coreMsg0.body),
    !applies (atMsg coreMsg0 pChipsDrain) 0 1 && coreHeld (atMsg coreMsg0 pChipsDrain) 0 1 && pChipsDrain.ms.inbound.isEmpty,
    !coreHeld (atMsg strayMsg pChips) 99 1,
    wayTo sUntrained 9 == .later && sUntrained.host.readymap.getLsbD 35 && wayTo sChips 10 == .gone,
    ptsOf s0 (some (.pilot 0)) != BitVec.allOnes 64 && s0.nydb.breaks.isEmpty,
    (match runMsg { putMsg with port := 3 } (atMsg putMsg pChips) with
     | .fault cause _ u => servedCause cause && svcRoom u && u.host.waiting.isEmpty && u.ms.inbound == [{ putMsg with port := 3 }]
     | _ => false : Bool),
    pChips.ms.inbound.isEmpty && pChips.host.readymap.getLsbD 35,
    wayTo sChips 9 == .port 5, ((coreOf (sWrapped true) 0).evctrs).any (fun e => e.2.wrapped != 0), (coreOf (sWrapped false) 0).evctrs.length == 1] = true := by
  decide +kernel

/-! ### Feeding -/

def ag0 (extent mode : Nat) : AgCfg :=
  { extent := extent, stride := 4, base := 8, tid := 0, dim := 0, mode := mode, next := 0, chain := false, mlvl := 2, marken := true, token := false
    commut := false, atoll := 0 }
def sAg (extent : Nat) (rs : List Route) (ts : List (Nat × Nat × Tok)) (g : Ag) : State :=
  graph { ags := [(0, ag0 extent 0)], routes := rs } (fun x => onChans ts { x with ags := [(0, g)] })
/-- A RING level over atoll 0 of the core, whose first slot holds a token at position p. -/
def sRing3 (p : Nat) : State :=
  graph { ags := [(0, { ag0 1 3 with token := true })], atolls := [(0, atoll0)], routes := [wire0 64 0 0 0] } (fun x =>
    withCtr 11 1 { x with ags := [(0, { ringPos := p })], scratch := record 0 [(0x2000 + 16 * p, 8, 5), (0x2080 + 2 * p, 2, dataCtl)] })
/-- The last token of that slot has not left yet. -/
def sRingBusy : State := onCore 0 (onExits [(64, 0, tok5)]) (sRing3 1)
def req0 (k : Int) : Tok := { req := some { tid := 0, coord := [k], write := false, commut := false, chip := none, slot := 0, index := 0, empty := false } }
/-- Memory port 8 with a request of element k of tensor 0 at its head. -/
def pPort (k : Int) (cached : Bool) : State :=
  let e : TcEntry := { ptb := 0x1000, page := 0, tid := 0, pte := { ppn := 1, v := true, r := true, w := true, x := true, owner := 1 }, count := 0, counting := false }
  graph { ops := [(8, [])], routes := [wire0 72 0 0 0] } (fun x =>
    onChans [(72, 0, req0 k)] { x with tensors := [(0, { ptb0 := 0x1000 })], mps := [(8, { tcache := if cached then [e] else [] })] })

theorem test_meets_FeedsStep : meets [
    (let s := sAg 3 [wire0 64 0 72 0] [] {}
     tokensOn s 0 && isInnermost (selCfg (coreOf s 0)) 0 && sourceOn s 0 && !writesStream s 0 0 && exitRoom (coreOf s 0) 64 0 2 &&
       (match formCoord (coreOf s 0) 0 none (chainOf (selCfg (coreOf s 0)) 0) with | .coord _ => true | _ => false : Bool)),
    (advanceLevels (chainOf (selCfg (coreOf (sAg 1 [wire0 64 0 72 0] [] {}) 0)) 0) none (coreOf (sAg 1 [wire0 64 0 72 0] [] {}) 0)).2.1,
    writesStream (sAg 3 [wire0 0 0 64 1] [(64, 1, markTok 6 false false)] {}) 0 0,
    (agState (coreOf (sAg 3 [wire0 0 0 64 1] [(64, 1, markTok 7 false false)] { closed := true, owe1 := true }) 0) 0).owe1,
    (upTo 2).all (fun p =>
      let s := sRing3 p
      sourceOn s 0 && (coreOf s 0).stashes.isEmpty && (atollOf (coreOf s 0) 0 == some atoll0) && ringHas s 0 0 atoll0 &&
        (nextFull (coreOf s 0) atoll0 0 p).any (fun e => e.1 == p && e.2.kind == .data) && exitQ (coreOf s 0) 64 0 == [] && routed (coreOf s 0) 64 0 && s.nydb.breaks.isEmpty && decide (atoll0.headk < 64) && !(agState (coreOf s 0) 0).closed),
    (let s := sRingBusy; exitQ (coreOf s 0) 64 0 != [] && stopOf s 0 == none && atollOf (coreOf s 0) 0 == some atoll0),
    (upTo 2).all (fun p => let s := sRing3 (2 + p); exitQ (coreOf s 0) 64 0 == [] && decide (atoll0.slotw ≤ (agState (coreOf s 0) 0).ringPos)),
    (let s := graph { ops := [(8, [])], routes := [wire0 72 0 0 0] } (onChans [(72, 0, markTok 7 false false)])
     farSettled s (.fabric 0) && exitRoom (coreOf s 0) 72 0 2 && hasOp (coreOf s 0) 8 && stopOf s 0 != some .abort && mpChan (coreOf s 0) 8 0 == {} && headTok (coreOf s 0) 72 0 == some (markTok 7 false false)),
    (let s := pPort 4 true
     mpChan (coreOf s 0) 8 0 == {} && (headTok (coreOf s 0) 72 0).any (fun t => t.req.any (fun r => okWith (performReq 0 8 0 t r s) (fun a _ => a.isSome)))),
    (let s := pPort 4 false
     (pageOf (coreOf s 0) 8 0).any (fun e => (cachedPte (coreOf s 0) 8 e.1 e.2).isNone && (mpChan (coreOf s 0) 8 0).walked.isNone && (match walk s (some 0) e.1.page2m e.1.ptb e.2 with | .ok _ => true | _ => false : Bool))),
    (let s := pPort 0x20000 false
     (pageOf (coreOf s 0) 8 0).any (fun e => (cachedPte (coreOf s 0) 8 e.1 e.2).isNone && (mpChan (coreOf s 0) 8 0).walked.isNone && (match walk s (some 0) e.1.page2m e.1.ptb e.2 with | .error .clear => true | _ => false : Bool)))] = true := by
  decide +kernel

/-- EX sends slots of 2 to atoll 0 of core 0, four slots with credit counter 12 (R141). -/
def sEx (ts : List Tok) (f : Ex → Ex := id) : State :=
  graph { ops := [(31, [(1, 2 * 2 ^ 28 + 4 * 2 ^ 10 + 12 * 2 ^ 4)])], atolls := [(0, atoll0)] } (fun x => onChans (ts.map (fun t => (95, 0, t))) { x with ex := f x.ex })
def exSlot : ExSlot := { srcCore := 0, chip := 0, core := 0, atoll := 0, pos := 3, slots := 4, slotw := 2, toks := [tok5, tok5], ctx := 1 }
def sLanding : State := let s := sEx []; { s with ms := { s.ms with exSlots := [exSlot] } }

theorem test_meets_EdgeExitSteps : meets [
    (let s := sEx [tok5]; tokensOn s 0 && hasOp (coreOf s 0) 31 && !(coreOf s 0).ex.ended && (coreOf s 0).ex.ready.isEmpty && headTok (coreOf s 0) 95 0 == some tok5 && opField (coreOf s 0) 31 1 28 4 == 2),
    (let s := sEx [] (fun e => { e with ready := [[tok5, tok5]], n := 3 })
     headTok (coreOf s 0) 95 0 == none && decide ((coreOf s 0).ex.n < 4 + (counterOf s 0 (opField (coreOf s 0) 31 1 4 6) - (coreOf s 0).ex.k0).toNat)),
    applies sLanding 0 1 && slotAsked sLanding 0 exSlot == none && !(isleOfCore sLanding 0).frozen && sLanding.nydb.breaks.isEmpty && exSlot.toks.length == atoll0.slotw && (coreOf sLanding 0).stashes.isEmpty && atollOf (coreOf sLanding 0) 0 == some atoll0] = true := by decide +kernel

/-! ### Operators and the matrix tile engine -/

/-- Operator `slot` with these parameter words, output 0 routed, and tokens on its inputs. -/
def sOp (slot : Nat) (ws : List Nat) (ts : List (Nat × Tok)) (f : Core → Core := id) : State :=
  graph { ops := [(slot, ws.zipIdx.map (fun w => (w.2, w.1)))], routes := [wire0 (64 + slot) 0 0 0] }
    (fun x => f (onChans (ts.map (fun t => (64 + slot, t.1, t.2))) x))
def opOn (s : State) (slot : Nat) : Bool := tokensOn s 0 && hasOp (coreOf s 0) slot
def headIs (s : State) (node ch : Nat) (t : Tok) : Bool := headTok (coreOf s 0) node ch == some t
def dat (v : Nat) (m : BitVec 4 := 15) : Tok := { data := BitVec.ofNat 128 v, lmask := m }
def mergeWord : Nat := 1 + 3 * 2 ^ 8
def steerWord : Nat := 2 ^ 2 + 3 * 2 ^ 4
def sMj (mode a b : Nat) (m : Mj := {}) : State := sOp 10 [mode] [(0, dat a), (1, dat b)] (fun x => { x with mjs := [(10, m)] })
def mjMeets (s : State) (a b : Nat) : Bool :=
  let m := mjOf (coreOf s 0) 10
  opOn s 10 && headIs s 74 0 (dat a) && headIs s 74 1 (dat b) && exitRoom (coreOf s 0) 74 0 1 && !m.ended && !strayKey (dat a) && !strayKey (dat b) && !m.filling &&
    !m.disorder && !outOfOrder m.lastA (dat a) && !outOfOrder m.lastB (dat b)
def mjRun : Mj := { bufValid := true, bufKey := 5, buf := [dat 5, dat 5] }
def rdAny : Core → Core := fun x => { x with rds := [(15, { any := true, acc := [(0, 3)], got := 1 })] }
def skKept : Core → Core := fun x => { x with sk := { kept := [(5, 1)], tokens := 1 } }

theorem test_meets_OperatorsStep : meets [
    (let s := sOp 23 [steerWord] [(0, dat 7), (1, dat 1)]
     opOn s 23 && exitsRoom (coreOf s 0) 87 1 && headIs s 87 0 (dat 7) && headIs s 87 1 (dat 1) && opField (coreOf s 0) 23 0 0 2 == 0 && opField (coreOf s 0) 23 0 2 2 == 1 &&
       bit (opPar (coreOf s 0) 23 0) 5),
    (let s := sOp 23 [mergeWord] [(1, dat 7)]
     opOn s 23 && opField (coreOf s 0) 23 0 0 2 == 1 && pickInput (coreOf s 0) 23 {} == some 1 && headIs s 87 1 (dat 7) && !bit (opPar (coreOf s 0) 23 0) 15),
    (let s := sOp 23 [2, 3] [(0, dat 7)]; opOn s 23 && opField (coreOf s 0) 23 0 0 2 == 2 && headIs s 87 0 (dat 7) && exitRoom (coreOf s 0) 87 1 1),
    ([(1, 3), (3, 3)] : List (Nat × Nat)).all (fun e =>
      let s := sOp 23 [2, e.2] [(1, dat 7)] (fun x => { x with sms := [(23, { body := true, count := e.1 })] })
      opOn s 23 && (smOf (coreOf s 0) 23).body && headIs s 87 1 (dat 7) && (decide (e.1 < opPar (coreOf s 0) 23 1) == (e.1 == 1))),
    (upTo 4).all (fun k => ([(4, 5), (5, 5), (6, 5)] : List (Nat × Nat)).all (fun e =>
      mjMeets (sMj k e.1 e.2) e.1 e.2 && opField (coreOf (sMj k e.1 e.2) 0) 10 0 0 2 == k && ((dat e.1).key.toNat == e.1))),
    mjMeets (sMj 1 5 9 mjRun) 5 9 && decide (mjRun.pos + 1 < mjRun.buf.length) && (mjRun.buf[mjRun.pos]?).isSome && (dat 5).key == mjRun.bufKey,
    (let s := sOp 15 [1] [(0, dat 7)]; opOn s 15 && headIs s 79 0 (dat 7) && !(rdOf (coreOf s 0) 15).ended),
    (let s := sOp 15 [1 + 2 ^ 7, 0, 0] [(0, markTok 7 false false)] rdAny
     opOn s 15 && headIs s 79 0 (markTok 7 false false) && exitRoom (coreOf s 0) 79 0 2 && routed (coreOf s 0) 79 0 && (rdOf (coreOf s 0) 15).any && rdAlg (coreOf s 0) 15 != .real &&
       opField (coreOf s 0) 15 0 5 3 == 4 && !bit (opPar (coreOf s 0) 15 0) 15),
    (let s := sOp 17 [4] [(0, dat 7)]; opOn s 17 && headIs s 81 0 (dat 7) && !(coreOf s 0).sk.ended),
    (let s := sOp 17 [4] [(0, markTok 7 false false)] skKept; opOn s 17 && headIs s 81 0 (markTok 7 false false) && exitRoom (coreOf s 0) 81 0 1 && (coreOf s 0).sk.kept == [(5, 1)]),
    (let s := sOp 17 [4] [(0, markTok 7 false false)]; opOn s 17 && headIs s 81 0 (markTok 7 false false) && exitRoom (coreOf s 0) 81 0 1 && (coreOf s 0).sk.kept.isEmpty),
    (let s := sOp 18 [4] [(0, dat 7)]; opOn s 18 && headIs s 82 0 (dat 7) && exitRoom (coreOf s 0) 82 0 2 && opField (coreOf s 0) 18 0 0 2 == 0 && routed (coreOf s 0) 82 0),
    (let s := sOp 19 [0] [(0, dat 7)]; opOn s 19 && headIs s 83 0 (dat 7) && exitRoom (coreOf s 0) 83 0 4 && opField (coreOf s 0) 19 0 0 2 == 0),
    (upTo 4).all (fun n =>
      let s := sOp 22 [1] [(0, dat 7 1)] (fun x => { x with wcs := [(22, { part := List.replicate n (dat 3 1) })] })
      opOn s 22 && headIs s 86 0 (dat 7 1) && exitRoom (coreOf s 0) 86 0 4 && opField (coreOf s 0) 22 0 0 2 == 1 && (decide (4 / 1 ≤ n + 1) == (n == 3)) && routed (coreOf s 0) 86 0)] = true := by
  decide +kernel

/-- The MT: register 0 filled from channel 0 and register 1 from channel 1, both BF16 of 32 rows; operation 0 multiplies them into A0 and
is closed by channel 0. -/
def mtReg0 : Nat := 1 + 7 * 2 ^ 4 + 5 * 2 ^ 11
def mtParams : List Nat := [7 * 2 ^ 5, 0, 0, 0, 0, mtReg0, mtReg0 + 4, 0, 0, 0, 0, 0, 0] ++ List.replicate 16 0 ++ [1 + 2 ^ 5, 0, 0, 0, 0]
def sMt (ps : List Nat) (ch : Nat) (ts : List Tok) (m : Mt := {}) (f : Core → Core := id) : State := sOp 14 ps (ts.map (fun t => (ch, t))) (fun x => f { x with mt := m })
def fullT (cursor : Nat) : TReg := { full := true, cursor := cursor }
def mtReady : Mt := { t := [(0, fullT 62), (1, fullT 62)] }
def ctrlTok (cls n v : Nat) : Tok := { data := BitVec.ofNat 128 (v + (cls * 2 ^ 28 + n) * 2 ^ 96), kind := .ctrl, lmask := 15 }
/-- Register 2 is fed from the scratchpad: one tile of 32 rows of 128 bytes. -/
def mtPadParams : List Nat := ((mtParams.set 7 (mtReg0 + 1 + 2 ^ 14)).set 17 (7 * 2 ^ 20)).set 18 128
/-- Channel 3 is the parameter port. -/
def mtPortParams : List Nat := mtParams.set 33 7
def accA : AReg := { tag := .acc, count := 2, key := 9 }

/-- A parameter token that gives register 0 its shape again. -/
def sReshape : State := sMt mtPortParams 3 [ctrlTok 2 5 mtReg0] { t := [(0, { pos := 0, data := [(1, 5)], full := true, cursor := 4 })] }

theorem test_meets_MatrixEngineSteps : meets [
    ([0, 4080] : List Nat).all (fun n =>
      let s := sMt mtParams 0 [dat 7] { t := [(0, { pos := n })] }
      opOn s 14 && mtOn s 0 0 && headIs s 78 0 (dat 7) && regOn (coreOf s 0) 0 == some 0 && !(tRegOf (coreOf s 0) 0).full && (mapFind (coreOf s 0).mt.cbFill 0).isNone &&
        (decide ((tRegOf (coreOf s 0) 0).pos + 16 < 4096) == (n == 0)) && !bit (mtReg (coreOf s 0) 0) 9),
    (let s := sMt mtParams 0 [ctrlTok 1 1 0]
     mtOn s 0 0 && headIs s 78 0 (ctrlTok 1 1 0) && regEmpty (coreOf s 0) 0 && (regOn (coreOf s 0) 0).isSome && !isPort (coreOf s 0) 0 && ctrlClass (ctrlTok 1 1 0) == 1),
    (let s := sMt mtParams 0 [dat 7] { cbFill := [(0, { reg := 1, entries := List.replicate 8 0 })] }
     mtOn s 0 0 && headIs s 78 0 (dat 7) && regEmpty (coreOf s 0) 0 && (mapFind (coreOf s 0).mt.cbFill 0).any (fun b => b.entries.length == 8 && !b.poison)),
    (let s := sMt mtPadParams 0 []
     opOn s 14 && sourceOn s 0 && fillReady (coreOf s 0) 2 && !fillReady (coreOf s 0) 0 && !fillReady (coreOf s 0) 1 && (coreOf s 0).stashes.isEmpty && !bit (mtReg (coreOf s 0) 2) 31),
    (let s := sMt mtParams 0 [] mtReady; opOn s 14 && (coreOf s 0).mt.firing.isNone && nextFiring (coreOf s 0) s.cycle == some (0, 1 + 2 ^ 5)),
    (let s := sMt mtParams 0 [] { mtReady with firing := some { op := 0, dst := 0, k := 2, until_ := 0 } }
     opOn s 14 && (coreOf s 0).mt.firing.any (fun f => decide (f.until_ ≤ s.cycle))),
    (let s := sMt mtParams 0 [markTok 7 false false] { a := [(0, accA)] }
     opOn s 14 && mtOn s 0 0 && headIs s 78 0 (markTok 7 false false) && regOn (coreOf s 0) 0 == some 0 && !(tRegOf (coreOf s 0) 0).full && (tRegOf (coreOf s 0) 0).pos == 0 &&
       (tRegOf (coreOf s 0) 0).nscales == 0 && closedBy (coreOf s 0) 0 == [1 + 2 ^ 5] && (aRegOf (coreOf s 0) 0).tag == .acc && !mtFeedsHa (coreOf s 0)),
    (let s := sMt mtParams 0 [] { jobs := [.drain 0 9 0] }; opOn s 14 && exitRoom (coreOf s 0) 78 0 1 && routed (coreOf s 0) 78 0 && decide (0 + 1 < drainLength (coreOf s 0))),
    (let s := sMt mtParams 0 [] { jobs := [.mark (markTok 7 false false), .drain 0 9 0] }; opOn s 14 && exitRoom (coreOf s 0) 78 0 1 && (coreOf s 0).mt.jobs.length == 2),
    ([none, some 9] : List (Option Nat)).all (fun k =>
      let s := sMt mtParams 0 [] { jobs := [.give 0 9], a := [(0, accA)] } (withHa 0 (k.map (fun k => { slot5 with key := BitVec.ofNat 64 k })))
      opOn s 14 && haMode (coreOf s 0) != 2 && (coreOf s 0).haU.paused.isNone && (coreOf s 0).haU.tab.open_ && (coreOf s 0).haU.tab.geom.isSome &&
        (if k.isSome then isAt (coreOf s 0).haU.tab 9 true else isAbsent (coreOf s 0).haU.tab 9)),
    ([16, 15] : List Nat).all (fun i =>
      let s := sMt mtPortParams 3 [ctrlTok 2 i (2 ^ 24)]
      opOn s 14 && mtOn s 0 3 && headIs s 78 3 (ctrlTok 2 i (2 ^ 24)) && isPort (coreOf s 0) 3 && portOpen (coreOf s 0) && bits (mtPar (coreOf s 0) 33) 0 2 == 3 &&
        ctrlClass (ctrlTok 2 i (2 ^ 24)) == 2 && paramOk (coreOf s 0) i (2 ^ 24) == (i == 16)),
    (let s := sReshape
     opOn s 14 && mtOn s 0 3 && headIs s 78 3 (ctrlTok 2 5 mtReg0) && isPort (coreOf s 0) 3 && portOpen (coreOf s 0) && ctrlClass (ctrlTok 2 5 mtReg0) == 2 && paramOk (coreOf s 0) 5 mtReg0)] = true := by decide +kernel

/-! ### The states that take the longest to evaluate -/

theorem test_meets_PostedEntries : meets [
    okWith (pilotRecord (sRec postFields) 0x7F0000000100 64) (fun b u => parsePost b == some post1 && chainOk (coreOf u 0) post1 &&
      (pilot u).storeBuf.isEmpty && u.ms.far.isEmpty && freePosted (coreOf u 0) == some 0 && (mapFind (coreOf u 0).posted 255).isNone),
    okWith (pilotRecord (sRec postFields (withPosted ((upTo 256).map (fun i => (i, armed))))) 0x7F0000000100 64) (fun b u =>
      (parsePost b).isSome && freePosted (coreOf u 0) == none),
    decide ((reg (sR 2 255) 2).toNat < 256),
    (mapFind (coreOf (one (withPosted [(3, armed)])) 0).posted 3).any (fun p => !inFlight p),
    (mapFind (coreOf (one (withPosted [(3, { armed with state := .inProgress 1 })])) 0).posted 3).any inFlight] = true := by decide +kernel

theorem test_meets_CopiesIssueAndLand : meets [copyMeets false (sRec copyFields), copyMeets true pTensor, copyMeets false sAtoll,
    atollOf (coreOf sAtoll 0) 2 == some atoll2, !overlapsStash (coreOf sAtoll 0) (some (1, 0x2000, 0x2000 + atollExtent atoll2 - 1)),
    (mapFind (coreOf sCopying 0).jobs 0).any (fun j => j.segs.length == 1 && j.copy.ck == 3 && (j.segs[0]?).any (fun g => g.state == .pending &&
      okWith (moveSeg 0 j g sCopying) (fun _ u => farSettled u (.fabric 0) && u.nydb.breaks.isEmpty) &&
      okWith (moveSeg 0 j g (owing sCopying)) (fun _ u => !farSettled u (.fabric 0)))),
    !(isleOfCore sCopying 0).frozen && unitHeld (coreOf sCopying 0) 3 0 == false,
    (mapFind (coreOf sAtolling 0).jobs 0).any (fun j => j.copy.dkind == 3 && (j.segs[0]?).any (fun g => g.state == .pending && !g.bad &&
      okWith (moveSeg 0 j g sAtolling) (fun r _ => (nextSlot r.2 g).isSome)) && !(isleOfCore sAtolling 0).frozen && unitHeld (coreOf sAtolling 0) 3 0 == false),
    (mapFind (coreOf sAtolled 0).jobs 0).any (fun j => (j.segs[0]?).any (fun g => g.state == .pending &&
      okWith (moveSeg 0 j g sAtolled) (fun r u => (nextSlot r.2 g).isNone && farSettled u (.fabric 0) && u.nydb.breaks.isEmpty))),
    (mapFind (coreOf sSentSeg 0).jobs 0).any (fun j => (j.segs[0]?).any (fun g => g.state == .sent (false || false))) && farSettled sSentSeg (.fabric 0)] = true := by decide +kernel

theorem test_meets_ContextsAndCounters : meets [isLead pMem && (isleOf pMem 0).quiesceAt.isNone && !completing pMem 0,
    isLead (pSave false) && saveMeets false (pSave false), saveMeets true (pSave false), saveMeets false (pSave true),
    okWith (findCocoon 0 0x40 pMem) (fun k _ => k.isNone), isLead pSaved && !completing pSaved 0 && (pilot pSaved).stage == .none,
    okWith (findCocoon 0 0x400 pSaved) (fun k _ => k.isSome),
    !isLead sSecond && (pilot sSecond).trapVec != 0, (viewOf s0 0).ctx == 0 && (pilot s0).storeBuf.isEmpty && s0.ms.far.isEmpty,
    evRef 0 == some { idx := 0, unit := 0, inst := 0 } && evCodeOk 0 1 && !evCodeOk 0 0x100, (evRef 8).isNone] = true := by decide +kernel

theorem test_meets_StepsAndSpeculation : meets [
    stepMeets pStepBad (fun r xs _ v => sourcesReady v xs && sourcesBad v xs && okWith (putOutcome 0x400 r.step 2 (acquire 0 v)) (fun _ _ => true)),
    stepMeets pStepDone (fun r xs ts v => sourcesReady v xs && !sourcesBad v xs && !r.cken && ts == [1] &&
      okWith (flipRecords (distinctTids ts) (acquire 0 v)) (fun _ y => okWith (putOutcome 0x400 (r.step + 1) 1 y) (fun _ _ => true))),
    stepMeets pStepRaises (fun r xs _ v => sourcesReady v xs && !sourcesBad v xs && r.cken),
    stepMeets pStepOpen (fun r xs ts v => !sourcesReady v xs && (pilot (onStage (.step r.step r.ck r.cken xs ts) v)).stage == .step r.step r.ck r.cken xs ts),
    stepMeets pStepTwice (fun r xs ts v => sourcesReady v xs && !sourcesBad v xs && ts == [1, 1] && okWith (putOutcome 0x400 (r.step + 1) 1 (acquire 0 v)) (fun _ _ => true)),
    (pilot pStepEnds).stage == .waitDone && farSettled pStepEnds (.pilot 0),
    okWith (readStep 0x400 false pStepDone) (fun r u => sourcesReady u r.2.1 && okWith (putOutcome 0x400 r.1.step 3 (acquire 0 u)) (fun _ _ => true)),
    okWith (readStep 0x400 false pStepOpen) (fun r u => !sourcesReady u r.2.1),
    lossMeets (pLoss [] 1) (fun r u => decide (r.skip.floorrun < r.floormax) && okWith (pilotWrite 0x400 r.skip.bytes u) (fun _ _ => true)),
    lossMeets (pLoss [(0, 1, 100)] 1) (fun r u => decide (r.floormax ≤ r.skip.floorrun) && okWith (pilotWrite 0x400 r.skip.bytes u) (fun _ _ => true)),
    lossMeets (pLoss [] 0) (fun r u => okWith (readLayers 0x400 r.nlayer r.layers u) (fun ls v => ls.isEmpty &&
      okWith (pilotWrite 0x400 r.clear.bytes v) (fun _ _ => true))),
    lossMeets (pLoss layerFields 0) (fun r u => okWith (readLayers 0x400 r.nlayer r.layers u) (fun ls v => !ls.isEmpty &&
      okWith (pilotWrite 0x400 r.clear.bytes v) (fun _ y => okWith (pilotWrite r.layers ls y) (fun _ _ => true)))),
    okWith (latchRing 0x7F0000000100 (ringOf (sRing 0) 1) (sRing 0)) (fun g u => g.zs == [2] && g.regNos == [4] && !streamBusy u 2 &&
      (pilot u).storeBuf.isEmpty && u.ms.far.isEmpty && okWith (readExtents g.rids u) (fun _ _ => true)),
    okWith (latchRing 0x7F0000000100 (ringOf (sRing 16) 1) (sRing 16)) (fun g u => g.snaps.length == 16 && okWith (readExtents g.rids u) (fun _ _ => true)),
    (ringOf (sRing 2) 1).seq == 2, (ringOf (sRing 2) 1).snaps.any (fun n => n.index == 1) && !streamBusy (sRing 2) 2] = true := by decide +kernel

theorem test_meets_LaunchesArrive : meets [arriveMeets (lrec 5 1) (· == 0), arriveMeets (lrec 5 1 [(0, 1, 2)]) (· == 1), (1 : Nat) % 64 != 0,
    (lrec 5 1 ++ [0]).length != 64, (openWatches pWatch)[0]? == some (9, false), pHub.hub.arrived.isEmpty,
    (ctxEntry noTable (parseLaunch (lrec 5 1)).ctx).isNone && noTable.host.readymap.getLsbD 45,
    (let s := queue 5 1 pHub
     match pickFrom s 64 with
     | .place l _ p => !l.saved && (readGrants (isleIndex s p.1 p.2.1 p.2.2 l.lrec.width l.lrec.height) (unqueue l.seq s)).isSome
     | _ => false : Bool),
    placeMeets pResident (fun l _ p _ u => !l.saved && p == (0, 1, 0) && u.hub.saved.isEmpty && (residentSlots u 1 0 1 0 1 1).any (fun q => q.2.cfgid == l.lrec.cfgid) && !stranger u 1 [1]),
    placeMeets pResumes (fun l _ _ _ u => l.saved && (u.hub.saved.find? (fun k => k.isle.seq == l.seq)).isSome),
    (match pickFrom pHub 64 with | .place _ _ _ => false | _ => true : Bool) && pHub.host.readymap.getLsbD 45,
    pQueued.host.waiting == [.context 1] && !(hostOne (.context 1) pQueued).1,
    pHub.nydb.breaks.isEmpty && (isleCores (isleOf pHub 0)).contains 0] = true := by decide +kernel

theorem test_meets_FramesLoad : meets ([frameMeets (pLoad 0 hdrWord) (fun l x _ _ => frameKind x == 0xE && (readHdr (isleOf (pLoad 0 hdrWord) 0) l x).isSome),
    frameMeets (pLoad 2 endWord (fun l => { l with wantCrc := (crcBytes l.crc (toBytes 32 endWord)) ^^^ 0xFFFFFFFF })) (fun l x bs u =>
      l.seen.isEmpty && bits x 0 252 == 0 && l.index + 1 == l.nframes && (crcBytes l.crc bs) ^^^ 0xFFFFFFFF == l.wantCrc &&
      (isleOf u 0).resume.isNone && (isleOf u 0).phase != .loading),
    frameMeets (pLoad 1 (2 * 2 ^ 252 + 2 * 2 ^ 230)) (fun l x _ u => (frameCore (isleOf u 0) x).all (fun c => (addFrame l c x).isNone) &&
      (isleOf u 0).phase == .running && (isleOf u 0).resume.isNone)] ++
    frames.zipIdx.map (fun f => frameMeets (pLoad 1 f.1) (fun l x _ u => frameKind x == f.2 + 1 &&
      (frameCore (isleOf u 0) x).any (fun c => !repeated l x c && (addFrame l c x).any (fun cfg =>
        frameArrives (mapPut l.cfgs c cfg) u.hub.chipid l.addrMask (frameMark l c x)))))) = true := by decide +kernel

theorem test_meets_DebuggerCommands : meets [
    okWith (hostWrite 0x40 [1] pWin) (fun _ _ => true),
    okWith (hostReadGo 3 0x400 64 (pRecord launchFields)) (fun b u => (match ctxEntry u (parseLaunch b).ctx with
      | some e => checkLaunch u e (parseLaunch b) == 0 && u.hub.arrived.isEmpty | _ => false : Bool)) && pWin.host.readymap.getLsbD 45 && pWin.host.waiting.isEmpty,
    sFrozen.hub.isles.map (fun e => e.1) == [0] && isStopped sFrozen (isleOf sFrozen 0) && sFrozen.hub.saved.isEmpty,
    !attachedAt s0 0, sNydb.nydb.breaks.isEmpty && decide (counterOf sNydb 0 3 < 1), attachedAt sNydb 0 && (coreOf sNydb 0).isle == some 0 && !(isleOf sNydb 0).frozen,
    okWith (hostReadGo 3 0x40 8 pWin) (fun _ _ => true),
    okWith (hostReadGo 6 0x400 256 (pRecord sectionFields)) (fun h u => fieldAt h 0 0 32 == 0x434F434E && fieldAt h 12 0 32 == 1 &&
      okWith (hostReadGo (16 * fieldAt h 12 0 32 / 64 + 2) (0x400 + 256) (16 * fieldAt h 12 0 32) u) (fun d v => d.length == 16 &&
        okWith (readSections 0x400 d (fieldAt h 12 0 32) v) (fun _ _ => true) &&
        okWith (hostReadGo (fieldAt d 4 0 32 / 64 + 2) (0x400 + fieldAt d 8 0 64) (fieldAt d 4 0 32) v) (fun _ _ => true))),
    (match hostWrite 0x20000 [1] pWin with | .fault _ _ _ => pWin.host.waiting.isEmpty | _ => false : Bool),
    sHeldPilot.hub.isles.map (fun e => e.1) == [0] && isStopped sHeldPilot (isleOf sHeldPilot 0) && (coreOf sHeldPilot 0).pilot.held,
    mapGet {} (coreOf s0 0).rings 1 == { desc := 0 } && s0.ms.versions.isEmpty,
    !s0.host.winValid] = true := by decide +kernel

end
end

/-! SUPPORT. Package reset, readiness, power samples and the thermal trip (R15, R19, R87, R91, R95), and the state after
package reset (R15, R149). -/

namespace Sys2Proof.Proofs

open Sys2Proof.Machine Sys2Proof.Safety Sys2Proof.Laws

/-! ### Sending a vector (R87) -/

@[simp] theorem sendVector_cores (v : Nat) (s : State) : (sendVector v s).cores = s.cores := rfl
@[simp] theorem sendVector_hub (v : Nat) (s : State) : (sendVector v s).hub = s.hub := rfl
@[simp] theorem sendVector_power (v : Nat) (s : State) : (sendVector v s).power = s.power := rfl
@[simp] theorem sendVector_ms (v : Nat) (s : State) : (sendVector v s).ms = s.ms := rfl

/-- A vector is sent or marked pending, which no other register of the host port shows. -/
theorem sendVector_host (v : Nat) (s : State) : (sendVector v s).host =
    { s.host with
      msix := if vectorOpen s.host v then s.host.msix ++ [v] else s.host.msix
      pba := if vectorOpen s.host v then s.host.pba else s.host.pba ||| (1#64 <<< v) } := by
  unfold sendVector
  rw [onHost_host]
  split <;> rfl

@[simp] theorem sendVector_readymap (v : Nat) (s : State) : (sendVector v s).host.readymap = s.host.readymap := by
  rw [sendVector_host]

@[simp] theorem sendVector_waiting (v : Nat) (s : State) : (sendVector v s).host.waiting = s.host.waiting := by
  rw [sendVector_host]

@[simp] theorem vectorOpen_sendVector (v w : Nat) (s : State) : vectorOpen (sendVector v s).host w = vectorOpen s.host w := by
  rw [sendVector_host]; rfl

theorem sendVector_msix_open {v : Nat} {s : State} (h : vectorOpen s.host v = true) :
    (sendVector v s).host.msix = s.host.msix ++ [v] := by
  simp [sendVector_host, h]

/-- What has been sent stays the start of what is sent. -/
theorem prefix_sendVector_msix {l : List Nat} {s : State} (v : Nat) (h : l <+: s.host.msix) : l <+: (sendVector v s).host.msix := by
  rw [sendVector_host]
  dsimp only
  split
  · exact h.trans (List.prefix_append _ _)
  · exact h

theorem vectorOpen_iff (h : HostPort) (v : Nat) :
    vectorOpen h v = true ↔ h.msixOn = true ∧ (mapGet {} h.msixTab v).masked = false := by
  simp [vectorOpen]

/-- Whether the host has a vector open decides between sending it and its pending bit. -/
theorem sendVector_eq (v : Nat) (s : State) :
    sendVector v s = if s.host.msixOn = true ∧ (mapGet {} s.host.msixTab v).masked = false then
      onHost (fun h => { h with msix := h.msix ++ [v] }) s else onHost (fun h => { h with pba := h.pba ||| (1#64 <<< v) }) s := by
  simp only [← vectorOpen_iff]
  unfold sendVector onHost
  dsimp only
  split <;> rfl

/-! ### What waits for readiness, when nothing does (R91) -/

theorem hostRetry_of_none {s : State} (h : s.host.waiting = []) : hostRetry s = s := by simp [hostRetry, h]

theorem sendUnsent_of_none {s : State} (h : s.ms.unsent = []) : sendUnsent s = s := by
  have same : onMs (fun x => { x with unsent := [] }) s = s := by
    unfold onMs
    rw [← h]
  rw [sendUnsent, h, List.foldl_nil, same]

theorem endMessages_of_none {s : State} (port : Nat) (h : s.ms.far = []) : endMessages port s = s := by simp [endMessages, h]

theorem lostIsles_of_none {s : State} (p : Isle → Bool) (h : s.hub.isles = []) : lostIsles p s = [] := by simp [lostIsles, h]

/-- A function that fails while the hub runs no isle loses no isle. -/
theorem loseFunction_of_none {s : State} (b : Nat) (h : s.hub.isles = []) : loseFunction b s = s := by
  simp [loseFunction, lostIsles_of_none _ h]

/-! ### Readiness (R91) -/

/-- The security function boots before another, or has booted. -/
theorem bootBefore_of_booted {b : Nat} {s : State} (h : b < 44 ∨ s.trust.booted.isSome = true) : bootBefore b s = s := by
  refine if_neg ?_
  rintro ⟨hb, hn⟩
  rcases h with h | h
  · omega
  · simp [Option.isNone_iff_eq_none.mp hn] at h

/-- A function becomes ready while nothing waits for it: its bit sets and READY is sent. -/
theorem readySet_ready {b : Nat} {s : State} (hclear : readyBit s b = false) (hboot : b < 44 ∨ s.trust.booted.isSome = true)
    (hwait : s.host.waiting = []) (hsent : s.ms.unsent = []) (hmay : mayBeReady s b = true) :
    readySet b s = sendVector 2 (onHost (fun h =>
      { h with readymap := h.readymap ||| (1#64 <<< b), lost := h.lost &&& ~~~(1#64 <<< b) }) s) := by
  rw [readySet, bootBefore_of_booted hboot]
  simp only [hclear, hmay, Bool.not_true, Bool.or_false, Bool.false_eq_true, if_false]
  rw [sendUnsent_of_none (by simpa using hsent), hostRetry_of_none (by simpa using hwait)]
  rfl

/-- A function fails while no isle runs and nothing waits at the host port or for another chip: its bits clear, and READY and
ERROR are sent. -/
theorem readyClear_quiet {b : Nat} {s : State} (hset : readyBit s b = true) (hisles : s.hub.isles = [])
    (hwait : s.host.waiting = []) (hfar : b < 32 ∨ 44 ≤ b ∨ s.ms.far = []) :
    readyClear b s = sendVector 3 (sendVector 2 (onHost (fun h =>
      { h with readymap := h.readymap &&& ~~~(clearMask b), lost := h.lost ||| (h.readymap &&& clearMask b) }) s)) := by
  have noneEnds (u : State) (hu : u.ms = s.ms) : (if 32 ≤ b ∧ b < 44 then endMessages (b - 32) u else u) = u := by
    split
    · next hport =>
      have none : s.ms.far = [] := by
        rcases hfar with hb | hb | hb
        · omega
        · omega
        · exact hb
      exact endMessages_of_none _ (hu ▸ none)
    · rfl
  simp only [readyClear, hset, Bool.not_true, Bool.false_eq_true, if_false]
  rw [noneEnds (onHost _ s) rfl, hostRetry_of_none (by simpa using hwait), loseFunction_of_none _ (by simpa using hisles)]

/-! ### Power samples (R19, R95) -/

/-- ACLK while it runs: 25 MHz down to 400 MHz at most over 3,200 W or at 95 °C, and 25 MHz up to 800 MHz at most else. -/
theorem aclkStep_running {p : Power} (h : p.stopped = false) :
    aclkStep p = if 3200 < p.watts ∨ 95 ≤ p.celsius then max 400 (p.aclk - 25) else min 800 (p.aclk + 25) := by
  simp [aclkStep, h]

/-- The package after a sample below the trip, before the sample is signalled: ACLK has stepped, which the hub counts if it moved. -/
def sampled (w c : Nat) (s : State) : State :=
  let p := { s.power with watts := w, celsius := c }
  let v := { s with power := { p with aclk := aclkStep p } }
  if v.power.aclk ≠ p.aclk then tallyHub 0x306 v else v

theorem sampled_frame (w c : Nat) (s : State) :
    (sampled w c s).cores = s.cores ∧ (sampled w c s).ms = s.ms ∧ (sampled w c s).host = s.host ∧
    (sampled w c s).power = { s.power with watts := w, celsius := c, aclk := aclkStep { s.power with watts := w, celsius := c } } := by
  unfold sampled
  dsimp only
  split <;> exact ⟨rfl, rfl, rfl, rfl⟩

/-- A sample below the trip while the management function is usable sends POWER while ACLK is below 800 MHz or the case is hot. -/
theorem powerSample_running {w c : Nat} {s : State} (hc : c < 105) (hrun : s.power.stopped = false) (hready : readyBit s 46 = true) :
    powerSample w c s =
      if (sampled w c s).power.aclk < 800 ∨ 95 ≤ c then sendVector 4 (sampled w c s) else sampled w c s := by
  have hstop : ¬ (sampled w c s).power.stopped = true := by
    obtain ⟨-, -, -, hpower⟩ := sampled_frame w c s
    simp [hpower, hrun]
  rw [powerSample, if_neg (by omega), if_neg (by simp [hready])]
  exact if_neg hstop

/-! ### The thermal trip (R95) -/

/-- Clearing bits none of which is set changes nothing. -/
theorem and_not_of_and_eq_zero {x m : Word} (h : x &&& m = 0) : x &&& ~~~m = x := by
  refine BitVec.eq_of_getLsbD_eq fun i hi => ?_
  simpa [hi] using congrArg (fun y => y.getLsbD i) h

/-- What a trip says to the host: POWER and ERROR, and READY with the bits of the dies and regions cleared, if one was set. -/
def tripSignals (s : State) : State :=
  let t := sendVector 3 (sendVector 4 s)
  if t.host.readymap &&& 0xFFFFF = 0 then t
  else sendVector 2 (onHost (fun h => { h with readymap := h.readymap &&& ~~~0xFFFFF, lost := h.lost ||| (h.readymap &&& 0xFFFFF) }) t)

theorem tripSignals_frame (s : State) : (tripSignals s).cores = s.cores ∧ (tripSignals s).hub = s.hub ∧
    (tripSignals s).power = s.power ∧ (tripSignals s).ms = s.ms := by
  unfold tripSignals
  dsimp only
  split <;> exact ⟨rfl, rfl, rfl, rfl⟩

theorem tripSignals_readymap (s : State) : (tripSignals s).host.readymap = s.host.readymap &&& ~~~0xFFFFF := by
  unfold tripSignals
  simp only [sendVector_readymap]
  split
  · next hclear => simpa using (and_not_of_and_eq_zero hclear).symm
  · simp

/-- POWER and ERROR go out first while the host has both open. -/
theorem tripSignals_msix {s : State} (hpower : vectorOpen s.host 4 = true) (herror : vectorOpen s.host 3 = true) :
    s.host.msix ++ [4, 3] <+: (tripSignals s).host.msix := by
  have both : (sendVector 3 (sendVector 4 s)).host.msix = s.host.msix ++ [4, 3] := by
    rw [sendVector_msix_open (by simpa using herror), sendVector_msix_open hpower, List.append_assoc, List.singleton_append]
  rw [← both]
  unfold tripSignals
  dsimp only
  split
  · exact List.prefix_rfl
  · exact prefix_sendVector_msix 2 List.prefix_rfl

/-- The trip stops ACLK, empties the compute dies and the hub's queues and isles, leaves HBM its bytes, and signals the host. -/
theorem thermalTrip_eq (s : State) : ∃ u, thermalTrip s = tripSignals u ∧ u.cores = [] ∧ u.hub.isles = [] ∧ u.hub.fifos = [] ∧
    u.power.aclk = 0 ∧ u.power.stopped = true ∧ u.ms.mem = s.ms.mem ∧ u.ms.llc = [] ∧ u.host = s.host :=
  ⟨_, rfl, rfl, rfl, rfl, rfl, rfl, rfl, rfl, rfl⟩

/-! ### The events of PowerAndReset -/

/-- PACKAGE_RESET powers up the reset state with the firmware slots as they were, which the security function checks (R15, R92). -/
theorem packageReset_powersUp (s : State) : (packageReset s).cycle = 0 ∧ (packageReset s).cores = [] ∧
    (packageReset s).hub = State.reset.hub ∧ (packageReset s).ms = State.reset.ms ∧ (packageReset s).power = State.reset.power ∧
    (packageReset s).trust.spdm = .start ∧ (packageReset s).trust.keys = [] ∧ (packageReset s).host.readymap = 0 ∧
    (packageReset s).trust.slotA = s.trust.slotA ∧ (packageReset s).trust.slotB = s.trust.slotB ∧
    (packageReset s).host.bootstat = bootStatus (bootSteps s.trust) :=
  ⟨rfl, rfl, rfl, rfl, rfl, rfl, rfl, rfl, rfl, rfl, rfl⟩

/-- A sample moves ACLK by one step, and POWER goes out while ACLK is below 800 MHz or the case is hot (R19, R95). -/
theorem powerSample_steps {w c : Nat} {s : State} (hc : c < 105) (hrun : s.power.stopped = false)
    (hready : readyBit s 46 = true) (hopen : vectorOpen s.host 4 = true) :
    ∃ t, exec (.powerSample w c) s = .next t ∧ t.cores = s.cores ∧ t.ms = s.ms ∧
      t.power = { s.power with watts := w, celsius := c, aclk := t.power.aclk } ∧
      t.power.aclk = (if 3200 < w ∨ 95 ≤ c then max 400 (s.power.aclk - 25) else min 800 (s.power.aclk + 25)) ∧
      t.host.msix = s.host.msix ++ (if t.power.aclk < 800 ∨ 95 ≤ c then [4] else []) := by
  obtain ⟨hcores, hms, hhost, hpower⟩ := sampled_frame w c s
  have haclk := (congrArg Power.aclk hpower).trans (aclkStep_running hrun)
  refine ⟨powerSample w c s, rfl, ?_⟩
  rw [powerSample_running hc hrun hready]
  by_cases hsend : (sampled w c s).power.aclk < 800 ∨ 95 ≤ c
  · rw [if_pos hsend, sendVector_power, if_pos hsend, sendVector_msix_open (by rw [hhost]; exact hopen), hhost]
    exact ⟨hcores, hms, by rw [hpower], haclk, rfl⟩
  · rw [if_neg hsend, if_neg hsend, hhost]
    exact ⟨hcores, hms, by rw [hpower], haclk, (List.append_nil _).symm⟩

/-- The compute dies and the hub lose what they hold, HBM keeps its bytes, and the host hears of it (R95). -/
theorem thermalTrip_loses (s : State) :
    ∃ t, exec .thermalTrip s = .next t ∧ t.cores = [] ∧ t.hub.isles = [] ∧ t.hub.fifos = [] ∧ t.power.aclk = 0 ∧
      t.power.stopped = true ∧ t.ms.mem = s.ms.mem ∧ t.ms.llc = [] ∧ t.host.readymap = s.host.readymap &&& ~~~0xFFFFF ∧
      (vectorOpen s.host 4 = true → vectorOpen s.host 3 = true → (s.host.msix ++ [4, 3]) <+: t.host.msix) := by
  obtain ⟨u, ht, hcores, hisles, hfifos, haclk, hstop, hmem, hllc, hhost⟩ := thermalTrip_eq s
  obtain ⟨fcores, fhub, fpower, fms⟩ := tripSignals_frame u
  refine ⟨tripSignals u, congrArg Host.Outcome.next ht, ?_⟩
  rw [fcores, fhub, fpower, fms, ← hhost]
  exact ⟨hcores, hisles, hfifos, haclk, hstop, hmem, hllc, tripSignals_readymap u, tripSignals_msix⟩

/-- Settles O51: each clause is the lemma about its event, whose effect on the host port is that of the vectors it sends. -/
theorem powerAndReset : Obligations.PowerAndReset := by
  intro s
  refine ⟨⟨packageReset s, rfl, packageReset_powersUp s⟩, fun v => sendVector_eq v s, ?_, ?_, ?_, thermalTrip_loses s⟩
  · intro b hclear hboot hwait hsent hmay
    exact congrArg Host.Outcome.next (readySet_ready hclear hboot hwait hsent hmay)
  · intro b hset hisles hwait hfar
    exact congrArg Host.Outcome.next (readyClear_quiet hset hisles hwait hfar)
  · intro w c hc hrun hready hopen
    exact powerSample_steps hc hrun hready hopen

/-! ### The state after package reset -/

/-- Package reset lists no core, so each reads as one that nothing has touched. -/
theorem coreOf_reset (c : Nat) : coreOf State.reset c = {} := rfl

/-- Package reset lists no isle, so each reads as a free one. -/
theorem isleOf_reset (n : Nat) : isleOf State.reset n = {} := rfl

/-- Every register of a pilot that no dispatch has set holds zero. -/
theorem reg_default (r : Nat) : ({} : Pilot).reg r = 0 := by
  have zero : (Vector.replicate 32 (0 : Word)).toList.getD r 0 = 0 := by
    rw [Vector.toList_replicate, List.getD_eq_getElem?_getD, List.getElem?_replicate]
    split <;> rfl
  unfold Pilot.reg
  split
  · rfl
  · exact zero

/-- Memories that list nothing are in canonical form. -/
theorem reset_memoriesWf : MemoriesWf State.reset :=
  ⟨wf_nil, wf_nil, fun _ h => absurd h List.not_mem_nil, fun _ h => absurd h List.not_mem_nil⟩

/-- Settles O52: memory, the cores and the isles list nothing, so each core and isle reads as its default. -/
theorem resetState : Obligations.ResetState := by
  refine ⟨rfl, rfl, rfl, reset_memoriesWf, rfl, rfl, rfl, rfl, fun c => ?_, fun n => ?_, rfl⟩
  · rw [coreOf_reset]
    exact ⟨rfl, rfl, rfl, rfl, rfl, rfl, rfl, rfl, reg_default⟩
  · rw [isleOf_reset]
    exact ⟨rfl, rfl, rfl, rfl, rfl, rfl, rfl, rfl, rfl, rfl, rfl⟩

end Sys2Proof.Proofs

/-! SUPPORT. Folds over the cores of an isle, the descriptor, and the frames of an image (R36 to R38, R73 to R80). -/

namespace Sys2Proof.Proofs

open Sys2Proof.Machine Sys2Proof.Safety Sys2Proof.Laws

/-! ### Folds of updates -/

/-- What no step of a fold changes, the fold does not change. -/
theorem foldl_frame {β γ : Type} {f : State → β → State} {g : State → γ} (hf : ∀ s x, g (f s x) = g s) (xs : List β)
    (s : State) : g (xs.foldl f s) = g s := by
  induction xs generalizing s with
  | nil => rfl
  | cons x xs ih => exact (ih (f s x)).trans (hf s x)

/-- A fold over a list with b makes true what its step at b makes true and no other step undoes. -/
theorem foldl_establishes {β : Type} {f : State → β → State} {p : State → Prop} {b : β} (hmake : ∀ s, p (f s b))
    (hkeep : ∀ s x, x ≠ b → p s → p (f s x)) {xs : List β} (hb : b ∈ xs) (s : State) : p (xs.foldl f s) := by
  induction xs generalizing s with
  | nil => cases hb
  | cons x xs ih =>
    by_cases hxs : b ∈ xs
    · exact ih hxs (f s x)
    · have hx : b = x := (List.mem_cons.mp hb).resolve_right hxs
      subst hx
      have kept (u : State) (hu : p u) : p (xs.foldl f u) :=
        List.foldlRecOn xs f hu fun v hv y hy => hkeep v y (fun e => hxs (e ▸ hy)) hv
      exact kept (f s b) (hmake s)

/-- What no update of a core changes in one, a fold of such updates does not change. -/
theorem foldl_onCore_frame {γ : Type} (g : Core → γ) {h : Nat → Core → Core} (hg : ∀ c x, g (h c x) = g x) (cs : List Nat)
    (s : State) (d : Nat) : g (coreOf (cs.foldl (fun s c => onCore c (h c) s) s) d) = g (coreOf s d) := by
  refine foldl_frame (g := fun s => g (coreOf s d)) (fun s c => ?_) cs s
  rw [coreOf_onCore]
  split
  · next hd => rw [hg, hd]
  · rfl

/-- A fold of updates of cores reaches every core that it lists. -/
theorem foldl_onCore_mem {p : Core → Prop} {h : Nat → Core → Core} {d : Nat} (hp : ∀ x, p (h d x)) {cs : List Nat} (hd : d ∈ cs)
    (s : State) : p (coreOf (cs.foldl (fun s c => onCore c (h c) s) s) d) := by
  refine foldl_establishes (p := fun s => p (coreOf s d)) (fun s => ?_) (fun s c hc hs => ?_) hd s
  · rw [coreOf_onCore_self]
    exact hp _
  · rwa [coreOf_onCore_ne _ _ (Ne.symm hc)]

@[simp] theorem foldl_onCore_hub (h : Nat → Core → Core) (cs : List Nat) (s : State) :
    (cs.foldl (fun s c => onCore c (h c) s) s).hub = s.hub :=
  foldl_frame (f := fun s c => onCore c (h c) s) (g := State.hub) (fun _ _ => rfl) cs s

@[simp] theorem foldl_onCore_ms (h : Nat → Core → Core) (cs : List Nat) (s : State) :
    (cs.foldl (fun s c => onCore c (h c) s) s).ms = s.ms :=
  foldl_frame (f := fun s c => onCore c (h c) s) (g := State.ms) (fun _ _ => rfl) cs s

@[simp] theorem foldl_onCore_host (h : Nat → Core → Core) (cs : List Nat) (s : State) :
    (cs.foldl (fun s c => onCore c (h c) s) s).host = s.host :=
  foldl_frame (f := fun s c => onCore c (h c) s) (g := State.host) (fun _ _ => rfl) cs s

@[simp] theorem foldl_onCore_cycle (h : Nat → Core → Core) (cs : List Nat) (s : State) :
    (cs.foldl (fun s c => onCore c (h c) s) s).cycle = s.cycle :=
  foldl_frame (f := fun s c => onCore c (h c) s) (g := State.cycle) (fun _ _ => rfl) cs s

@[simp] theorem foldl_onCore_nydb (h : Nat → Core → Core) (cs : List Nat) (s : State) :
    (cs.foldl (fun s c => onCore c (h c) s) s).nydb = s.nydb :=
  foldl_frame (f := fun s c => onCore c (h c) s) (g := State.nydb) (fun _ _ => rfl) cs s

/-! ### Isles and their descriptors (R34) -/

@[simp] theorem isleOf_onIsle_self (n : Nat) (f : Isle → Isle) (s : State) : isleOf (onIsle n f s) n = f (isleOf s n) := by
  rw [isleOf_onIsle, if_pos rfl]

@[simp] theorem writeDescriptors_hub (n : Nat) (s : State) : (writeDescriptors n s).hub = s.hub := foldl_onCore_hub _ _ _
@[simp] theorem writeDescriptors_ms (n : Nat) (s : State) : (writeDescriptors n s).ms = s.ms := foldl_onCore_ms _ _ _
@[simp] theorem writeDescriptors_host (n : Nat) (s : State) : (writeDescriptors n s).host = s.host := foldl_onCore_host _ _ _
@[simp] theorem writeDescriptors_cycle (n : Nat) (s : State) : (writeDescriptors n s).cycle = s.cycle := foldl_onCore_cycle _ _ _
@[simp] theorem writeDescriptors_nydb (n : Nat) (s : State) : (writeDescriptors n s).nydb = s.nydb := foldl_onCore_nydb _ _ _

@[simp] theorem isleOf_writeDescriptors (n m : Nat) (s : State) : isleOf (writeDescriptors n s) m = isleOf s m := by
  rw [isleOf, writeDescriptors_hub]; rfl

/-- The descriptor lies in the scratchpad, so all else of a core is as it was. -/
theorem writeDescriptors_frame {γ : Type} (g : Core → γ) (hg : ∀ x m, g { x with scratch := m } = g x) (n : Nat) (s : State)
    (d : Nat) : g (coreOf (writeDescriptors n s) d) = g (coreOf s d) :=
  foldl_onCore_frame g (fun _ _ => hg _ _) _ s d

/-! ### The end of a load (R38) -/

/-- A load that fails while the launch runs leaves the slot empty, and says at which frame. -/
theorem failLoad_running {n k : Nat} {s : State} (hphase : (isleOf s n).phase = .running) (hresume : (isleOf s n).resume = none) :
    failLoad n k s = onIsle n (fun i => { i with loader := none, loadFail := some (0x03, k), resume := none }) s := by
  simp [failLoad, hphase, hresume, causeCfgbad]

/-- What the loader has read stands in the slot of every core of the isle, and in the isle's own record of it. -/
theorem endLoad_idle {n : Nat} {l : Loader} {s : State} (hresume : (isleOf s n).resume = none) (hphase : (isleOf s n).phase ≠ .loading) :
    (endLoad n l s).ms = s.ms ∧ (isleOf (endLoad n l s) n).loader = none ∧
    mapFind (isleOf (endLoad n l s) n).slots l.slot = some { cfgid := l.cfgid, image := l.addr, addrMask := l.addrMask, rules := l.rules
                                                             cores := l.cfgs.map (fun e => e.1) } ∧
    ∀ c ∈ isleCores (isleOf s n), mapFind (coreOf (endLoad n l s) c).slots l.slot = some (mapGet {} l.cfgs c) := by
  simp only [endLoad, hresume, Option.isSome_none, Bool.false_eq_true, if_false, hphase, ne_eq, not_false_eq_true, if_true]
  refine ⟨by simp, by simp, by simp, fun c hc => ?_⟩
  rw [writeDescriptors_frame Core.slots (fun _ _ => rfl), coreOf_onIsle]
  exact foldl_onCore_mem (p := fun x => mapFind x.slots l.slot = some (mapGet {} l.cfgs c)) (fun x => mapFind_mapPut_self _ _ _) hc s

/-! ### One frame (R36, R37, R73) -/

section
variable {n k : Nat} {s u : State} {l l' : Loader} {bs : List Byte} {bad : Bool} (hload : (isleOf s n).loader = some l)
  (hread : readFlat s none { ctx := (isleOf s n).ctx, ptb := (isleOf s n).t0ptb, page2m := (isleOf s n).t0page2m }
    (l.addr + 32 * l.index) 32 = .ok (bs, bad) u)
include hload hread

/-- HDR stands first. -/
theorem loadFrame_header (hfirst : l.index = 0) (hkind : frameKind (ofBytes bs) = 0xE)
    (hhdr : readHdr (isleOf s n) l (ofBytes bs) = some l') :
    loadFrame 0xE n s = onIsle n (fun i => { i with loader := some { l' with index := 1 } }) u := by
  simp only [loadFrame, hload, hread]
  simp [hfirst, hkind, hhdr]

/-- A frame of a kind that stands between HDR and END is taken in. -/
theorem loadFrame_between (hlater : l.index ≠ 0) (hkind : frameKind (ofBytes bs) = k) (hlow : 1 ≤ k) (hhigh : k ≤ 7) :
    loadFrame k n s = takeFrame n l bs (ofBytes bs) u := by
  have notNull : k ≠ 0 := by omega
  have notHdr : k ≠ 0xE := by omega
  have notEnd : k ≠ 0xF := by omega
  simp only [loadFrame, hload, hread]
  simp [hlater, hkind, notNull, notHdr, notEnd, hhigh]

/-- END stands last. -/
theorem loadFrame_end (hlater : l.index ≠ 0) (hkind : frameKind (ofBytes bs) = 0xF) :
    loadFrame 0xF n s = takeEnd n l bs (ofBytes bs) u := by
  simp only [loadFrame, hload, hread]
  simp [hlater, hkind]

end

/-- The loader once a frame has joined the configuration of core c. -/
def joinFrame (l : Loader) (bs : List Byte) (c x : Nat) (cfg : CoreCfg) : Loader :=
  let u := 64 * c + bits x 232 6
  { l with index := l.index + 1, crc := crcBytes l.crc bs, cfgs := mapPut l.cfgs c cfg, seen := l.seen ++ [frameMark l c x]
           ldCount := if frameKind x = 7 then mapPut l.ldCount u (mapGet 0 l.ldCount u + 1) else l.ldCount }

/-- A frame whose checks pass joins the configuration of its core. -/
theorem takeFrame_joins {n : Nat} {l : Loader} {x c : Nat} {cfg : CoreCfg} {s : State} (bs : List Byte)
    (hcore : frameCore (isleOf s n) x = some c) (hnew : repeated l x c = false) (hadd : addFrame l c x = some cfg)
    (harrives : frameArrives (mapPut l.cfgs c cfg) s.hub.chipid l.addrMask (frameMark l c x) = true) :
    takeFrame n l bs x s = onIsle n (fun i => { i with loader := some (joinFrame l bs c x cfg) }) s := by
  simp only [takeFrame, hcore, hnew, hadd, harrives, Bool.false_eq_true, Bool.not_true, if_false]
  rfl

/-- A frame that has no core on the isle, repeats another or fails a check fails the load at its number. -/
theorem takeFrame_fails {n : Nat} {l : Loader} {bs : List Byte} {x : Nat} {s : State}
    (hbad : ∀ c, frameCore (isleOf s n) x = some c → repeated l x c = true ∨ addFrame l c x = none ∨
      ∃ cfg, addFrame l c x = some cfg ∧ frameArrives (mapPut l.cfgs c cfg) s.hub.chipid l.addrMask (frameMark l c x) = false) :
    takeFrame n l bs x s = failLoad n l.index s := by
  cases hcore : frameCore (isleOf s n) x with
  | none => simp only [takeFrame, hcore]
  | some c =>
    simp only [takeFrame, hcore]
    by_cases hrep : repeated l x c = true
    · rw [if_pos hrep]
    · rw [if_neg hrep]
      rcases hbad c hcore with h | hadd | ⟨cfg, hadd, harrives⟩
      · exact absurd h hrep
      · rw [hadd]
      · simp [hadd, harrives]

/-- END makes the slot valid when every frame fits the others, and the count and the CRC are those of HDR. -/
theorem takeEnd_passes {n : Nat} {l : Loader} {bs : List Byte} {x : Nat} {s : State}
    (hfits : ∀ f ∈ l.seen, frameFits l.cfgs (isleOf s n) s.hub.chipid l.addrMask l.rules l.seen f = true) (hbits : bits x 0 252 = 0)
    (hcount : l.index + 1 = l.nframes) (hcrc : (crcBytes l.crc bs) ^^^ 0xFFFFFFFF = l.wantCrc) :
    takeEnd n l bs x s = endLoad n l s := by
  have hnone : l.seen.findIdx? (fun f => !frameFits l.cfgs (isleOf s n) s.hub.chipid l.addrMask l.rules l.seen f) = none :=
    List.findIdx?_eq_none_iff.mpr fun f hf => by simp [hfits f hf]
  simp [takeEnd, hnone, hbits, hcount, hcrc]

/-- Settles O48: HDR, the frames between and END each by the lemma on what the loader does with it. -/
theorem framesLoad : Obligations.FramesLoad := by
  intro n s u l bs bad i x k at_ hload hread
  have hexec (hlow : 1 ≤ k) (hhigh : k ≤ 7) : exec (at_ k) s = .next (loadFrame k n s) := by
    have kinds : k = 1 ∨ k = 2 ∨ k = 3 ∨ k = 4 ∨ k = 5 ∨ k = 6 ∨ k = 7 := by omega
    rcases kinds with h | h | h | h | h | h | h <;> rw [h] <;> rfl
  refine ⟨?_, ?_, ?_, ?_⟩
  · intro hfirst hkind l' hhdr
    exact congrArg Host.Outcome.next (loadFrame_header hload hread hfirst hkind hhdr)
  · intro hlater hlow hhigh c cfg hcore hnew hadd harrives
    refine ⟨joinFrame l bs c x cfg, ?_, rfl, rfl, rfl, rfl, rfl, rfl⟩
    rw [hexec hlow hhigh, loadFrame_between hload hread hlater rfl hlow hhigh, takeFrame_joins bs hcore hnew hadd harrives]
  · intro hlater hkind hfits hbits hcount hcrc hresume hphase
    have hend : exec (.endFrame n) s = .next (endLoad n l u) :=
      congrArg Host.Outcome.next ((loadFrame_end hload hread hlater hkind).trans (takeEnd_passes hfits hbits hcount hcrc))
    exact ⟨_, hend, endLoad_idle hresume hphase⟩
  · intro hlater hlow hhigh _ hphase hresume hbad
    rw [hexec hlow hhigh, loadFrame_between hload hread hlater rfl hlow hhigh, takeFrame_fails hbad, failLoad_running hphase hresume]

end Sys2Proof.Proofs

/-! SUPPORT. Launches that arrive, wait, are placed and start (R86, R91, R97 to R101). -/

namespace Sys2Proof.Proofs

open Sys2Proof.Machine Sys2Proof.Safety Sys2Proof.Laws

/-! ### Launch writes (R35, R86, R97, R98) -/

theorem bit_toNat {w : Nat} (x : BitVec w) (n : Nat) : bit x.toNat n = x.getLsbD n := by
  simp [bit, bits, BitVec.getLsbD, Nat.testBit, Nat.and_comm 1, Nat.and_one_is_mod]

/-- With nothing waiting at the port, a launch write is performed as it arrives. -/
theorem execLaunchWrite_arrives {off : Nat} {pieces : List (List Byte)} {s : State} (hwait : s.host.waiting = []) :
    exec (.launchWrite off pieces) s = .next (launchWrite off pieces s) := by
  show done (hostArrive (.launch off pieces) s) = _
  simp [hostArrive, hwait, hostOne]

/-- Behind what still waits, a launch write waits too. -/
theorem execLaunchWrite_waits {off : Nat} {pieces : List (List Byte)} {w : HostWait} {ws : List HostWait} {s t : State}
    (hwait : s.host.waiting = w :: ws) (hone : hostOne w s = (false, t)) :
    exec (.launchWrite off pieces) s = .next (onHost (fun h => { h with waiting := w :: (ws ++ [.launch off pieces]) }) t) := by
  show done (hostArrive (.launch off pieces) s) = _
  simp [hostArrive, hwait, hostServe, hone]

/-- 64 aligned bytes in one piece are a record, once the hub is ready. -/
theorem execLaunchWrite_record {off : Nat} {b : List Byte} {s : State} (hwait : s.host.waiting = []) (haligned : off % 64 = 0)
    (hlength : b.length = 64) (hready : s.host.readymap.getLsbD 45 = true) (harrived : s.hub.arrived = []) :
    exec (.launchWrite off [b]) s = .next (checkArrived [(b, false)] s) := by
  rw [execLaunchWrite_arrives hwait, launchWrite, if_neg (by simp [haligned, hlength]), bit_toNat, hready, if_pos rfl, hostLaunch,
    harrived]
  simp

/-- A record whose context entry the hub can read is checked. -/
theorem checkArrived_checks {b : List Byte} {attached : Bool} {s : State} {e : CtxEntry} (hctx : ctxEntry s (parseLaunch b).ctx = some e) :
    checkArrived [(b, attached)] s = onHub (fun h => { h with arrived := [] }) (hostRecord e b attached s) := by
  simp only [checkArrived, hctx]

/-- A record whose context entry the hub cannot read yet waits for it (R91). -/
theorem checkArrived_waits {b : List Byte} {attached : Bool} {s : State} (hctx : ctxEntry s (parseLaunch b).ctx = none) :
    checkArrived [(b, attached)] s = onHub (fun h => { h with arrived := [(b, attached)] }) s := by
  simp only [checkArrived, hctx]

/-- Nothing changes when the hub notes that no record is left to check, and none was. -/
theorem onHub_noneArrived {s : State} (h : s.hub.arrived = []) : onHub (fun h => { h with arrived := [] }) s = s := by
  unfold onHub
  rw [← h]

/-- A record that passes the checks takes the next LAUNCHSEQ and its place in the queue of its priority. -/
theorem hostRecord_passes {e : CtxEntry} {b : List Byte} {s : State} (attached : Bool) (h : checkLaunch s e (parseLaunch b) = 0) :
    hostRecord e b attached s = enqueue (parseLaunch b) s.hub.nextSeq attached (takeSeq s).2 := by
  simp [hostRecord, h, takeSeq]

/-- A record that fails a check ends there, with ERROR and a service record of the check. -/
theorem hostRecord_fails {e : CtxEntry} {b : List Byte} {s : State} (attached : Bool) (h : checkLaunch s e (parseLaunch b) ≠ 0) :
    hostRecord e b attached s = tallyHub 0x301 (svcEmit
      { code := 0, source := 11, ctx := (parseLaunch b).ctx, core := 0, tag := (parseLaunch b).tag
        value := BitVec.ofNat 64 (checkLaunch s e (parseLaunch b)) } (sendVector 3 s)) := by
  simp [hostRecord, h]

/-- The hub keeps of the dependence that a watch is for that an increment has met it (R98). -/
theorem execDependenceWatch_keeps {j seq : Nat} {second : Bool} {s : State} (hwatch : (openWatches s)[j]? = some (seq, second)) :
    exec (.dependenceWatch j) s = .next (onHub (fun h => { h with fifos := h.fifos.map (fun (p, q) => (p, q.map (fun l =>
      if l.seq ≠ seq then l
      else if second then { l with met1 := l.met1 || l.hit1 }
      else { l with met0 := l.met0 || l.hit0 }))) }) s) := by
  show done (dependenceWatch j s) = _
  rw [dependenceWatch, hwatch]
  rfl

/-! ### Counter breakpoints that hold as an isle starts (R312) -/

/-- An isle with what nydb keeps of freezing it. -/
def frozenIsle (b : Bool) (clk : Nat) (i : Isle) : Isle := { i with frozen := b, frozenAt := clk }

/-- What nydb does to an isle that it freezes. -/
def freezeAt (clk : Nat) (i : Isle) : Isle := frozenIsle true (if i.frozen then i.frozenAt else clk) i

/-- A breakpoint that hits freezes an isle. -/
theorem hitBreak_freezes (p : Break → Bool) (c : Nat) (s : State) :
    hitBreak p c s = s ∨ ∃ n, hitBreak p c s = onIsle n (freezeAt s.cycle) s := by
  unfold hitBreak
  split
  · split
    · split
      · exact .inr ⟨_, rfl⟩
      · exact .inl rfl
    · exact .inl rfl
  · exact .inl rfl

/-- What neither freezing an isle nor nydb's own list shows stays as it was. -/
theorem hitCounters_frame {γ : Type} {g : State → γ} (hfreeze : ∀ n clk s, g (onIsle n (freezeAt clk) s) = g s)
    (hnydb : ∀ s y, g { s with nydb := y } = g s) (s : State) : g (hitCounters s) = g s := by
  have hitBreak_keeps (p : Break → Bool) (c : Nat) (s : State) : g (hitBreak p c s) = g s := by
    rcases hitBreak_freezes p c s with h | ⟨n, h⟩
    · rw [h]
    · rw [h, hfreeze]
  refine foldl_frame (fun s b => ?_) _ s
  cases b with
  | counter c k v =>
    simp only [hitCounter]
    split
    · rw [hnydb, hitBreak_keeps]
    · rfl
  | _ => rfl

@[simp] theorem hitCounters_cores (s : State) : (hitCounters s).cores = s.cores :=
  hitCounters_frame (fun _ _ _ => rfl) (fun _ _ => rfl) s
@[simp] theorem hitCounters_host (s : State) : (hitCounters s).host = s.host :=
  hitCounters_frame (fun _ _ _ => rfl) (fun _ _ => rfl) s
@[simp] theorem hitCounters_cycle (s : State) : (hitCounters s).cycle = s.cycle :=
  hitCounters_frame (fun _ _ _ => rfl) (fun _ _ => rfl) s
@[simp] theorem hitCounters_fifos (s : State) : (hitCounters s).hub.fifos = s.hub.fifos :=
  hitCounters_frame (g := fun s => s.hub.fifos) (fun _ _ _ => rfl) (fun _ _ => rfl) s

/-- An isle is as it was, but that it may be frozen. -/
theorem hitCounters_isle (s : State) (n : Nat) :
    ∃ b k, isleOf (hitCounters s) n = frozenIsle b k (isleOf s n) := by
  have thawed : frozenIsle false 0 (isleOf (hitCounters s) n) = frozenIsle false 0 (isleOf s n) := by
    refine hitCounters_frame (g := fun s => frozenIsle false 0 (isleOf s n)) (fun m clk s => ?_) (fun _ _ => rfl) s
    rw [isleOf_onIsle]
    split
    · next h => rw [h]; rfl
    · rfl
  have refrozen := congrArg (frozenIsle (isleOf (hitCounters s) n).frozen (isleOf (hitCounters s) n).frozenAt) thawed
  exact ⟨_, _, refrozen⟩

theorem hitCounters_of_none {s : State} (h : s.nydb.breaks = []) : hitCounters s = s := by simp [hitCounters, h]

/-! ### Clocks (R277, R278) -/

@[simp] theorem latest_zero (a : Word) : latest a 0#64 = a := by
  unfold latest
  split
  · bv_omega
  · rfl

theorem latest_latest (a b : Word) : latest (latest a b) b = latest a b := by
  unfold latest
  split <;> simp_all

/-! ### Starting the pilots (R101) -/

/-- Every register is 0 but g2, g28, g29 and g30. -/
theorem entryPilot_reg (i : Isle) (c : Nat) (p : Pilot) (r : Nat) : (entryPilot i c p).reg r =
    if r = 30 ∨ r = 2 then 0x7F000003FFC0 else if r = 29 then BitVec.ofNat 64 c
    else if r = 28 then BitVec.ofNat 64 i.lrec.params else 0 := by
  have zero : Pilot.reg { p with regs := Vector.replicate 32 0, pc := BitVec.ofNat 64 i.lrec.entry, running := true } r = 0 := reg_default r
  simp only [entryPilot]
  rw [pilot_reg_setReg _ _ _ _ (by omega), pilot_reg_setReg _ _ _ _ (by omega), pilot_reg_setReg _ _ _ _ (by omega),
    pilot_reg_setReg _ _ _ _ (by omega), zero]
  grind

/-- One core of an isle that starts: its pilot enters, and its two sides acquire. -/
def startPilot (i : Isle) (s : State) (c : Nat) : State := acquire c (acquireFabric c (onPilot c (entryPilot i c) s))

/-- An isle as its pilots start. -/
def runningIsle (i : Isle) : Isle := { i with phase := .running, loadFail := none }

theorem startPilots_eq (n : Nat) (s : State) : startPilots n s =
    hitCounters ((isleCores (isleOf s n)).foldl (startPilot (runningIsle (isleOf s n))) (writeDescriptors n (onIsle n runningIsle s))) := by
  show hitCounters ((isleCores (isleOf (onIsle n runningIsle s) n)).foldl (startPilot (isleOf (onIsle n runningIsle s) n)) _) = _
  rw [isleOf_onIsle_self]
  rfl

theorem coreOf_startPilot_ne {c d : Nat} (i : Isle) (s : State) (h : d ≠ c) : coreOf (startPilot i s c) d = coreOf s d := by
  simp only [startPilot, acquire, acquireFabric, raisePts]
  rw [coreOf_onCore_ne _ _ h, coreOf_onCore_ne _ _ h, coreOf_onPilot_ne _ _ h]

theorem startPilot_pilot (i : Isle) (s : State) (c : Nat) : (coreOf (startPilot i s c) c).pilot = entryPilot i c (coreOf s c).pilot := by
  simp [startPilot, acquire, acquireFabric, raisePts]

theorem startPilot_isle (i : Isle) (s : State) (c d : Nat) : (coreOf (startPilot i s c) d).isle = (coreOf s d).isle := by
  by_cases h : d = c
  · subst h
    simp [startPilot, acquire, acquireFabric, raisePts]
  · rw [coreOf_startPilot_ne i s h]

/-- The clock of a core's agent is kept in its core. -/
theorem ptsOf_congr {a : CacheAgent} {c : Nat} (ha : coreOfAgent (some a) = some c) {s t : State} (hcycle : t.cycle = s.cycle)
    (hpilot : (coreOf t c).pts = (coreOf s c).pts) (hfabric : (coreOf t c).fabricPts = (coreOf s c).fabricPts)
    (hread : (coreOf t c).readWts = (coreOf s c).readWts) : ptsOf t (some a) = ptsOf s (some a) := by
  cases a with
  | pilot d => cases ha; simp only [ptsOf, clkPts, hcycle, hpilot]
  | fabric d => cases ha; simp only [ptsOf, clkPts, hcycle, hfabric, hread]
  | llc d => simp [coreOfAgent] at ha

/-- Both sides of a core acquire as its pilot starts. -/
theorem ptsOf_startPilot_self {a : CacheAgent} {c : Nat} (ha : coreOfAgent (some a) = some c) (i : Isle) (s : State) :
    ptsOf (startPilot i s c) (some a) = latest (ptsOf s (some a)) (latestWts s) := by
  cases a with
  | pilot d =>
    cases ha
    simp only [startPilot, acquire, acquireFabric, raisePts, ptsOf, clkPts, latestWts, coreOf_onCore_self, coreOf_onPilot_self,
      onCore_cycle, onCore_ms, onPilot_cycle, onPilot_ms, BitVec.sub_add_cancel]
  | fabric d =>
    cases ha
    simp only [startPilot, acquire, acquireFabric, raisePts, ptsOf, clkPts, latestWts, coreOf_onCore_self, coreOf_onPilot_self,
      onCore_cycle, onCore_ms, onPilot_cycle, onPilot_ms, BitVec.sub_add_cancel, BitVec.ofNat_eq_ofNat, latest_zero]
  | llc d => simp [coreOfAgent] at ha

@[simp] theorem foldl_startPilot_hub (i : Isle) (cs : List Nat) (s : State) : (cs.foldl (startPilot i) s).hub = s.hub :=
  foldl_frame (f := startPilot i) (g := State.hub) (fun _ _ => rfl) cs s
@[simp] theorem foldl_startPilot_host (i : Isle) (cs : List Nat) (s : State) : (cs.foldl (startPilot i) s).host = s.host :=
  foldl_frame (f := startPilot i) (g := State.host) (fun _ _ => rfl) cs s
@[simp] theorem foldl_startPilot_cycle (i : Isle) (cs : List Nat) (s : State) : (cs.foldl (startPilot i) s).cycle = s.cycle :=
  foldl_frame (f := startPilot i) (g := State.cycle) (fun _ _ => rfl) cs s
@[simp] theorem foldl_startPilot_nydb (i : Isle) (cs : List Nat) (s : State) : (cs.foldl (startPilot i) s).nydb = s.nydb :=
  foldl_frame (f := startPilot i) (g := State.nydb) (fun _ _ => rfl) cs s

@[simp] theorem isleOf_foldl_startPilot (i : Isle) (cs : List Nat) (s : State) (n : Nat) :
    isleOf (cs.foldl (startPilot i) s) n = isleOf s n := by
  rw [isleOf, foldl_startPilot_hub]; rfl

/-- The clocks of every core of an isle stand at the latest write once its pilots have started. -/
theorem ptsOf_foldl_startPilot {a : CacheAgent} {c : Nat} (ha : coreOfAgent (some a) = some c) (i : Isle) {cs : List Nat} (hc : c ∈ cs)
    (s : State) : ptsOf (cs.foldl (startPilot i) s) (some a) = latest (ptsOf s (some a)) (latestWts s) := by
  have other (s : State) (d : Nat) (h : d ≠ c) : ptsOf (startPilot i s d) (some a) = ptsOf s (some a) := by
    refine ptsOf_congr ha rfl ?_ ?_ ?_ <;> rw [coreOf_startPilot_ne i s (Ne.symm h)]
  have stamps (s : State) (d : Nat) : latestWts (startPilot i s d) = latestWts s := rfl
  have kept : latest (ptsOf (cs.foldl (startPilot i) s) (some a)) (latestWts (cs.foldl (startPilot i) s)) =
      latest (ptsOf s (some a)) (latestWts s) := by
    refine foldl_frame (g := fun s => latest (ptsOf s (some a)) (latestWts s)) (fun s d => ?_) cs s
    rw [stamps]
    by_cases h : d = c
    · rw [h, ptsOf_startPilot_self ha, latest_latest]
    · rw [other s d h]
  have reached : latest (ptsOf (cs.foldl (startPilot i) s) (some a)) (latestWts (cs.foldl (startPilot i) s)) =
      ptsOf (cs.foldl (startPilot i) s) (some a) := by
    refine foldl_establishes (p := fun s => latest (ptsOf s (some a)) (latestWts s) = ptsOf s (some a)) (fun s => ?_)
      (fun s d h hs => ?_) hc s
    · rw [stamps, ptsOf_startPilot_self ha, latest_latest]
    · rwa [stamps, other s d h]
  exact reached.symm.trans kept

/-- Every pilot of an isle has entered once its pilots have started. -/
theorem foldl_startPilot_pilot {c : Nat} (i : Isle) {cs : List Nat} (hc : c ∈ cs) (s : State) :
    ∃ p, (coreOf (cs.foldl (startPilot i) s) c).pilot = entryPilot i c p := by
  refine foldl_establishes (p := fun s => ∃ p, (coreOf s c).pilot = entryPilot i c p) (fun s => ⟨_, startPilot_pilot i s c⟩)
    (fun s d h hs => ?_) hc s
  rwa [coreOf_startPilot_ne i s (Ne.symm h)]

/-- The start of an isle frees no core of it, and takes none. -/
theorem startPilots_isle (n : Nat) (s : State) (c : Nat) : (coreOf (startPilots n s) c).isle = (coreOf s c).isle := by
  rw [startPilots_eq, coreOf, hitCounters_cores, ← coreOf]
  rw [foldl_frame (g := fun s => (coreOf s c).isle) (fun s d => startPilot_isle _ s d c),
    writeDescriptors_frame Core.isle (fun _ _ => rfl), coreOf_onIsle]

/-- The hub beside its isles, the host port and the clock stay as they were when an isle starts. -/
theorem startPilots_rest (n : Nat) (s : State) : (startPilots n s).hub.fifos = s.hub.fifos ∧ (startPilots n s).cycle = s.cycle ∧
    (startPilots n s).host = s.host := by
  rw [startPilots_eq]
  exact ⟨by simp [onIsle], by simp, by simp⟩

/-- The isle runs, and a counter breakpoint may have frozen it at once. -/
theorem isleOf_startPilots (n : Nat) (s : State) : ∃ b k, isleOf (startPilots n s) n = frozenIsle b k (runningIsle (isleOf s n)) := by
  obtain ⟨b, k, h⟩ := hitCounters_isle ((isleCores (isleOf s n)).foldl (startPilot (runningIsle (isleOf s n)))
    (writeDescriptors n (onIsle n runningIsle s))) n
  refine ⟨b, k, ?_⟩
  rw [startPilots_eq, h, isleOf_foldl_startPilot, isleOf_writeDescriptors, isleOf_onIsle_self]

/-- With no breakpoint set, every pilot of the isle enters with the registers of R101 and both its sides acquire (R98, R101). -/
theorem startPilots_enter {n c : Nat} {s : State} (hbreaks : s.nydb.breaks = []) (hc : c ∈ isleCores (isleOf s n)) :
    (∃ p, (coreOf (startPilots n s) c).pilot = entryPilot (runningIsle (isleOf s n)) c p) ∧
    ∀ a, coreOfAgent (some a) = some c → ptsOf (startPilots n s) (some a) = latest (ptsOf s (some a)) (latestWts s) := by
  have quiet : ((isleCores (isleOf s n)).foldl (startPilot (runningIsle (isleOf s n)))
      (writeDescriptors n (onIsle n runningIsle s))).nydb.breaks = [] := by
    simpa using hbreaks
  rw [startPilots_eq, hitCounters_of_none quiet]
  refine ⟨foldl_startPilot_pilot _ hc _, fun a ha => ?_⟩
  have clocks : ptsOf (writeDescriptors n (onIsle n runningIsle s)) (some a) = ptsOf s (some a) :=
    ptsOf_congr ha (writeDescriptors_cycle _ _) (writeDescriptors_frame Core.pts (fun _ _ => rfl) _ _ _)
      (writeDescriptors_frame Core.fabricPts (fun _ _ => rfl) _ _ _) (writeDescriptors_frame Core.readWts (fun _ _ => rfl) _ _ _)
  rw [ptsOf_foldl_startPilot ha _ hc, clocks, latestWts, writeDescriptors_ms]
  rfl

/-! ### Beginning a load (R38, R100) -/

/-- A value that an update of every entry leaves alone is the same after it. -/
theorem mapGet_map_fixed {α : Type} {d : α} {m : Map α} {k : Nat} {f : α → α} (h : f (mapGet d m k) = mapGet d m k) :
    mapGet d (m.map (fun (j, v) => (j, f v))) k = mapGet d m k := by
  have found : mapFind (m.map (fun (j, v) => (j, f v))) k = (mapFind m k).map f := by
    clear h
    induction m with
    | nil => rfl
    | cons e m ih =>
      simp only [List.map_cons, mapFind, ih]
      split
      · rfl
      · split <;> rfl
  unfold mapGet at h ⊢
  rw [found]
  cases hfind : mapFind m k with
  | none => rfl
  | some v => simpa [hfind] using h

@[simp] theorem isleOf_foldl_onCore (h : Nat → Core → Core) (cs : List Nat) (s : State) (n : Nat) :
    isleOf (cs.foldl (fun s c => onCore c (h c) s) s) n = isleOf s n := by
  rw [isleOf, foldl_onCore_hub]; rfl

/-- An isle as an image begins to load into a slot of it for the hub. -/
def loadingIsle (slot addr : Nat) (i : Isle) : Isle :=
  { i with slots := mapDel i.slots slot, loader := some { slot := slot, addr := addr, pilot := none }, loadFail := none }

/-- An isle beside one that begins to load: a free one on its cores loses the slot (R136). -/
def loseSlot (slot : Nat) (i o : Isle) : Isle :=
  if o.phase == .free && o.die == i.die && rectsMeet i.x0 i.y0 i.width i.height o then { o with slots := mapDel o.slots slot } else o

/-- An isle that is not free begins to load, and keeps its place. -/
theorem isleOf_beginLoad {n : Nat} {s : State} (slot addr : Nat) (h : (isleOf s n).phase ≠ .free) :
    isleOf (beginLoad n slot addr none s) n = loadingIsle slot addr (isleOf s n) := by
  unfold beginLoad
  simp only [isleOf_foldl_onCore, isleOf_writeDescriptors, isleOf_onIsle_self]
  refine congrArg (loadingIsle slot addr) ?_
  have kept : loseSlot slot (isleOf s n) (isleOf s n) = isleOf s n := if_neg (by simp [h])
  simp only [isleOf, onHub_hub, foldl_onCore_hub]
  exact mapGet_map_fixed kept

/-- A load that begins leaves the queues, the clock and the host port alone. -/
theorem beginLoad_rest (n slot addr : Nat) (p : Option Nat) (s : State) : (beginLoad n slot addr p s).hub.fifos = s.hub.fifos ∧
    (beginLoad n slot addr p s).cycle = s.cycle ∧ (beginLoad n slot addr p s).host = s.host := by
  unfold beginLoad
  exact ⟨by simp [onIsle], by simp, by simp⟩

/-- A load that begins frees no core of the isle, and takes none. -/
theorem beginLoad_isle (n slot addr : Nat) (p : Option Nat) (s : State) (c : Nat) :
    (coreOf (beginLoad n slot addr p s) c).isle = (coreOf s c).isle := by
  unfold beginLoad
  rw [writeDescriptors_frame Core.isle (fun _ _ => rfl), coreOf_onIsle, coreOf_onHub, foldl_onCore_frame Core.isle]
  exact fun _ _ => rfl

/-! ### Taking a place (R100) -/

/-- What is resident for an isle on its rectangle: nothing after another context. -/
def heldSlots (s : State) (i : Isle) : Map IsleSlot :=
  if stranger s i.ctx (isleCores i) then [] else residentSlots s i.ctx i.die i.x0 i.y0 i.width i.height

/-- One core of a place that an isle takes. -/
def takeCore (n : Nat) (cleared : Bool) (s : State) (c : Nat) : State :=
  forgetFar (.pilot c) (forgetFar (.fabric c) (onCore c (freshCore n cleared) s))

/-- The hub's record of an isle that takes its place, and of what it takes it from. -/
def seatIsle (n : Nat) (i : Isle) (s : State) : State :=
  let cs := isleCores i
  onHub (fun h => { h with isles := mapPut h.isles n { i with slots := heldSlots s i }
                           lastCtx := cs.foldl (fun m c => mapPut m c i.ctx) h.lastCtx })
    (vacate n i.die i.x0 i.y0 i.width i.height (stranger s i.ctx cs) s)

theorem takePlace_eq (n : Nat) (i : Isle) (s : State) :
    takePlace n i s = (isleCores i).foldl (takeCore n (stranger s i.ctx (isleCores i))) (seatIsle n i s) := rfl

theorem takePlace_hub (n : Nat) (i : Isle) (s : State) : (takePlace n i s).hub = (seatIsle n i s).hub :=
  foldl_frame (f := takeCore n (stranger s i.ctx (isleCores i))) (g := State.hub) (fun _ _ => rfl) _ _

@[simp] theorem isleOf_takePlace (n : Nat) (i : Isle) (s : State) : isleOf (takePlace n i s) n = { i with slots := heldSlots s i } := by
  rw [isleOf, takePlace_hub]
  exact mapGet_mapPut_self _ _ _ _

/-- Taking a place leaves the queues, the clock and the host port alone. -/
theorem takePlace_rest (n : Nat) (i : Isle) (s : State) : (takePlace n i s).hub.fifos = s.hub.fifos ∧
    (takePlace n i s).cycle = s.cycle ∧ (takePlace n i s).host = s.host := by
  refine ⟨by rw [takePlace_hub]; rfl, ?_, ?_⟩
  · exact foldl_frame (f := takeCore n (stranger s i.ctx (isleCores i))) (g := State.cycle) (fun _ _ => rfl) _ (seatIsle n i s)
  · exact foldl_frame (f := takeCore n (stranger s i.ctx (isleCores i))) (g := State.host) (fun _ _ => rfl) _ (seatIsle n i s)

theorem freshCore_isle (n : Nat) (cleared : Bool) (x : Core) : (freshCore n cleared x).isle = some n := by
  unfold freshCore
  dsimp only
  split <;> rfl

/-- Every core of the place belongs to the isle. -/
theorem takePlace_isle {n c : Nat} {i : Isle} (s : State) (hc : c ∈ isleCores i) : (coreOf (takePlace n i s) c).isle = some n := by
  rw [takePlace_eq]
  refine foldl_establishes (p := fun s => (coreOf s c).isle = some n) (fun s => ?_) (fun s d h hs => ?_) hc _
  · rw [takeCore, forgetFar, forgetFar, coreOf_onMs, coreOf_onMs, coreOf_onCore_self, freshCore_isle]
  · rwa [takeCore, forgetFar, forgetFar, coreOf_onMs, coreOf_onMs, coreOf_onCore_ne _ _ (Ne.symm h)]

/-! ### Placing a launch (R99 to R101) -/

/-- The isle of a launch as it takes its place: what the record, its context entry and its grants say. -/
def launchIsle (e : CtxEntry) (l : QLaunch) (grants : Map Grant) (n die x0 y0 : Nat) (s : State) : Isle :=
  { die := die, x0 := x0, y0 := y0, width := l.lrec.width, height := l.lrec.height, index := n % 64, phase := .loading, lrec := l.lrec
    ctx := l.lrec.ctx, prio := l.lrec.prio, ceil := e.ceil, seq := l.seq, spillBase := e.spillBase, srkey := e.srkey
    t0ptb := e.ptb, t0page2m := e.page2m, cocoonN := freeCocoon s l.lrec.ctx, attached := l.attached, grants := grants }

theorem slotOfId_isSome (i : Isle) (id : Nat) : (slotOfId i id).isSome = true ↔ ∃ q ∈ i.slots, q.2.cfgid = id := by
  simp [slotOfId]

section
variable {e : CtxEntry} {l : QLaunch} {grants : Map Grant} {n die x0 y0 : Nat} {s : State}

/-- An isle whose image is resident starts. -/
theorem placeLaunch_starts (h : ∃ q ∈ heldSlots s (launchIsle e l grants n die x0 y0 s), q.2.cfgid = l.lrec.cfgid) :
    placeLaunch e l grants n die x0 y0 s = startPilots n (takePlace n (launchIsle e l grants n die x0 y0 s) s) := by
  have resident : (slotOfId (isleOf (takePlace n (launchIsle e l grants n die x0 y0 s) s) n) l.lrec.cfgid).isSome = true := by
    rw [slotOfId_isSome, isleOf_takePlace]
    exact h
  obtain ⟨k, hk⟩ := Option.isSome_iff_exists.mp resident
  unfold placeLaunch
  dsimp only
  rw [← launchIsle, hk]

/-- An isle whose image is not resident loads it. -/
theorem placeLaunch_loads (h : ∀ q ∈ heldSlots s (launchIsle e l grants n die x0 y0 s), q.2.cfgid ≠ l.lrec.cfgid) :
    let t := takePlace n (launchIsle e l grants n die x0 y0 s) s
    placeLaunch e l grants n die x0 y0 s = beginLoad n (loadSlot t (isleOf t n)) l.lrec.image none t := by
  have absent : slotOfId (isleOf (takePlace n (launchIsle e l grants n die x0 y0 s) s) n) l.lrec.cfgid = none := by
    rw [← Option.not_isSome_iff_eq_none, slotOfId_isSome, isleOf_takePlace]
    exact fun ⟨q, hq, hid⟩ => h q hq hid
  unfold placeLaunch
  dsimp only
  rw [← launchIsle, absent]

/-- Placing a launch leaves the queues, the clock and the host port alone. -/
theorem placeLaunch_rest : (placeLaunch e l grants n die x0 y0 s).hub.fifos = s.hub.fifos ∧
    (placeLaunch e l grants n die x0 y0 s).cycle = s.cycle ∧ (placeLaunch e l grants n die x0 y0 s).host = s.host := by
  have taken := takePlace_rest n (launchIsle e l grants n die x0 y0 s) s
  by_cases h : ∃ q ∈ heldSlots s (launchIsle e l grants n die x0 y0 s), q.2.cfgid = l.lrec.cfgid
  · rw [placeLaunch_starts h]
    obtain ⟨hfifos, hcycle, hhost⟩ := startPilots_rest n (takePlace n (launchIsle e l grants n die x0 y0 s) s)
    rwa [hfifos, hcycle, hhost]
  · rw [placeLaunch_loads (by simpa using h)]
    obtain ⟨hfifos, hcycle, hhost⟩ := beginLoad_rest n _ l.lrec.image none (takePlace n (launchIsle e l grants n die x0 y0 s) s)
    rwa [hfifos, hcycle, hhost]

/-- Every core of the rectangle belongs to the launch's isle. -/
theorem placeLaunch_isle {c : Nat} (hc : c ∈ isleCores (launchIsle e l grants n die x0 y0 s)) :
    (coreOf (placeLaunch e l grants n die x0 y0 s) c).isle = some n := by
  by_cases h : ∃ q ∈ heldSlots s (launchIsle e l grants n die x0 y0 s), q.2.cfgid = l.lrec.cfgid
  · rw [placeLaunch_starts h, startPilots_isle, takePlace_isle s hc]
  · rw [placeLaunch_loads (by simpa using h), beginLoad_isle, takePlace_isle s hc]

/-- The isle of a launch runs on what is resident, or loads its image over it. -/
theorem isleOf_placeLaunch :
    let i := launchIsle e l grants n die x0 y0 s
    let held := { i with slots := heldSlots s i }
    ((∃ q ∈ heldSlots s i, q.2.cfgid = l.lrec.cfgid) ∧
      ∃ b k, isleOf (placeLaunch e l grants n die x0 y0 s) n = frozenIsle b k (runningIsle held)) ∨
    ((∀ q ∈ heldSlots s i, q.2.cfgid ≠ l.lrec.cfgid) ∧
      ∃ slot, isleOf (placeLaunch e l grants n die x0 y0 s) n = loadingIsle slot l.lrec.image held) := by
  intro i held
  by_cases h : ∃ q ∈ heldSlots s i, q.2.cfgid = l.lrec.cfgid
  · refine .inl ⟨h, ?_⟩
    rw [placeLaunch_starts h]
    simpa using isleOf_startPilots n (takePlace n i s)
  · have absent : ∀ q ∈ heldSlots s i, q.2.cfgid ≠ l.lrec.cfgid := by simpa using h
    refine .inr ⟨absent, loadSlot (takePlace n i s) (isleOf (takePlace n i s) n), ?_⟩
    rw [placeLaunch_loads absent, isleOf_beginLoad, isleOf_takePlace]
    rw [isleOf_takePlace]
    exact Phase.noConfusion

end

section
variable {e : CtxEntry} {l : QLaunch} {g : Map Grant} {d x y : Nat} {s u : State}
  (hgrants : readGrants (isleIndex s d x y l.lrec.width l.lrec.height) (unqueue l.seq s) = some (g, u))
include hgrants

/-- A record that was never placed becomes a new isle. -/
theorem dispatchAt_fresh (hfresh : l.saved = false) :
    dispatchAt l e (d, x, y) s = placeLaunch e l g (isleIndex s d x y l.lrec.width l.lrec.height) d x y u := by
  simp only [dispatchAt, hgrants, hfresh, Bool.false_eq_true, if_false]

/-- The record of a pre-empted launch resumes the cocoon that was saved for it (R103). -/
theorem dispatchAt_saved {k : Cocoon} (hsaved : l.saved = true) (hk : u.hub.saved.find? (fun k => k.isle.seq == l.seq) = some k) :
    dispatchAt l e (d, x, y) s = placeSaved k g (isleIndex s d x y l.lrec.width l.lrec.height) d x y u := by
  simp only [dispatchAt, hgrants, hsaved, if_true, hk]

end

/-- With no record to check, the hub places the first that it may. -/
theorem execDispatch_places {s : State} {l : QLaunch} {e : CtxEntry} {p : Nat × Nat × Nat} (hready : s.host.readymap.getLsbD 45 = true)
    (harrived : s.hub.arrived = []) (hpick : pickFrom s 64 = .place l e p) : exec .dispatch s = .next (dispatchAt l e p s) := by
  show done (dispatch s) = _
  rw [dispatch, bit_toNat, hready, harrived]
  simp [checkArrived, onHub_noneArrived harrived, hpick]

/-- With no record that it may place, the hub does nothing. -/
theorem execDispatch_idle {s : State} (hready : s.host.readymap.getLsbD 45 = true) (harrived : s.hub.arrived = [])
    (hpick : ∀ l e p, pickFrom s 64 ≠ .place l e p) : exec .dispatch s = .next s := by
  show done (dispatch s) = _
  rw [dispatch, bit_toNat, hready, harrived]
  simp only [checkArrived, onHub_noneArrived harrived]
  cases hfound : pickFrom s 64 with
  | place l e p => exact absurd hfound (hpick l e p)
  | none => rfl
  | blocked => rfl

/-- Settles O46: a launch write by the lemmas on the record it brings, a dispatch by what placing a launch leaves of its isle and
cores, and a start by what the fold over the cores does to each pilot and its clocks. -/
theorem launchesArrive : Obligations.LaunchesArrive := by
  intro s
  refine ⟨?_, ?_, ?_, ?_, ?_, ?_, ?_, ?_⟩
  · intro off b e haligned hlength hready harrived hwait r hctx
    have checked := execLaunchWrite_record hwait haligned hlength hready harrived
    rw [checkArrived_checks hctx] at checked
    refine ⟨fun hpass => ?_, fun c hfail hne => ?_⟩
    · have noneLeft : (enqueue (parseLaunch b) s.hub.nextSeq false (takeSeq s).2).hub.arrived = [] := harrived
      rw [hostRecord_passes false hpass, onHub_noneArrived noneLeft] at checked
      exact ⟨_, checked, rfl, rfl, rfl, rfl⟩
    · subst hfail
      rw [checked, hostRecord_fails false hne]
  · intro off b haligned hlength hready harrived hwait hctx
    rw [execLaunchWrite_record hwait haligned hlength hready harrived, checkArrived_waits hctx]
  · intro off pieces w ws t hwait hone
    exact execLaunchWrite_waits hwait hone
  · intro off pieces hwait hbad
    rw [execLaunchWrite_arrives hwait, launchWrite, if_pos hbad]
  · intro j seq second hwatch
    exact execDependenceWatch_keeps hwatch
  · intro l e d x y g u hready harrived hpick r n hgrants
    refine ⟨fun hfresh => ?_, fun k hsaved hk => ?_⟩
    · have placed := execDispatch_places hready harrived hpick
      rw [dispatchAt_fresh hgrants hfresh] at placed
      refine ⟨_, placed, placeLaunch_rest, ?_⟩
      rcases isleOf_placeLaunch (e := e) (l := l) (grants := g) (n := n) (die := d) (x0 := x) (y0 := y) (s := u) with
        ⟨hres, b, k, hisle⟩ | ⟨habsent, slot, hisle⟩
      · rw [hisle]
        exact ⟨rfl, rfl, rfl, rfl, rfl, rfl, rfl, rfl, rfl, rfl, rfl, rfl, rfl, rfl,
          ⟨fun _ => ⟨rfl, rfl⟩, fun habsent => absurd hres fun ⟨q, hq, hid⟩ => habsent q hq hid⟩,
          fun c hc => placeLaunch_isle hc⟩
      · rw [hisle]
        exact ⟨rfl, rfl, rfl, rfl, rfl, rfl, rfl, rfl, rfl, rfl, rfl, rfl, rfl, rfl,
          ⟨fun ⟨q, hq, hid⟩ => absurd hid (habsent q hq), fun _ => ⟨rfl, beq_self_eq_true r.image⟩⟩,
          fun c hc => placeLaunch_isle hc⟩
    · rw [execDispatch_places hready harrived hpick, dispatchAt_saved hgrants hsaved hk]
  · intro hready harrived hpick
    exact execDispatch_idle hready harrived hpick
  · intro n c hbreaks hc t p i
    obtain ⟨⟨q, hp⟩, hclocks⟩ := startPilots_enter hbreaks hc
    have hreg (r : Nat) : p.reg r = _ := (congrArg (Pilot.reg · r) hp).trans (entryPilot_reg _ c q r)
    refine ⟨congrArg Pilot.pc hp, congrArg Pilot.running hp, hreg 2, hreg 30, hreg 28, hreg 29, fun r h2 h28 h29 h30 => ?_,
      hclocks _ rfl, hclocks _ rfl⟩
    rw [hreg, if_neg (by omega), if_neg h29, if_neg h28]

end Sys2Proof.Proofs

/-! SUPPORT. SPDM requests, key slots and the recovery load (R91 to R94). -/

namespace Sys2Proof.Proofs

open Sys2Proof.Machine Sys2Proof.Safety Sys2Proof.Laws

/-! ### Requests (R91 to R93) -/

/-- An instruction whose effect is the answer of this name to a connection that has these messages so far: the connection takes its
next state, a measurement covers what R93 lists, and a challenge's answer carries both signatures over the transcript. -/
def Responds (i : Instr) (name : String) (next : Spdm) (old : List Word) (s : State) : Prop :=
  let msgs := Config.spdmBody (s.tick + 1) :: Config.spdmBody s.tick :: old
  ∃ r : SpdmResponse, r.name = name ∧ r.body = Config.spdmBody (s.tick + 1) ∧
    (name = "MEASUREMENTS" → r.measured = some (measure s.trust)) ∧
    (name = "CHALLENGE_AUTH" → r.sigs = some (signBoth (transcriptHash msgs))) ∧
    exec i s = .next { s with
      tick := s.tick + 2, trust := { s.trust with spdm := next, transcript := msgs, responses := r :: s.trust.responses } }

theorem spdmResponse_measured (body : Word) (msgs : List Word) (t : Trust) :
    (spdmResponse "MEASUREMENTS" body msgs t).measured = some (measure t) := by
  simp [spdmResponse]

theorem spdmResponse_challenge_sigs (body : Word) (msgs : List Word) (t : Trust) :
    (spdmResponse "CHALLENGE_AUTH" body msgs t).sigs = some (signBoth (transcriptHash msgs)) := by
  simp [spdmResponse]

theorem responds_of_spdmAnswer {i : Instr} {name : String} {next : Spdm} {old : List Word} {s : State}
    (h : exec i s = .next (spdmAnswer name next old s)) : Responds i name next old s := by
  refine ⟨_, rfl, rfl, ?_, ?_, h⟩
  · rintro rfl
    exact spdmResponse_measured _ _ _
  · rintro rfl
    exact spdmResponse_challenge_sigs _ _ _

section
variable {i : Instr} {name : String} {from_ : List Spdm} {next : Spdm → Spdm} {s : State}
  (hexec : exec i s = .next (spdmRequest name from_ next s)) (hsec : s.host.readymap.getLsbD 44 = true)
include hexec hsec

/-- In a state that its order gives, a request is answered and moves the session on. -/
theorem spdmRequest_answers {p : Spdm} (hplace : s.trust.spdm ∈ from_) (hnext : next s.trust.spdm = p) :
    Responds i name p s.trust.transcript s := by
  refine responds_of_spdmAnswer ?_
  rw [hexec, spdmRequest, secReady, bit_toNat, hsec, List.contains_iff_mem.mpr hplace, hnext]
  rfl

/-- Out of its place a request is answered with ERROR, and the session stays. -/
theorem spdmRequest_errs (hplace : s.trust.spdm ∉ from_) : Responds i "ERROR" s.trust.spdm s.trust.transcript s := by
  refine responds_of_spdmAnswer ?_
  rw [hexec, spdmRequest, secReady, bit_toNat, hsec]
  simp [hplace]

end

/-! ### Key slots (R94) -/

theorem keyInFlight_iff (s : State) (k : Nat) : keyInFlight s k = true ↔ ∃ p ∈ s.ms.packets, p.key = k := by
  simp [keyInFlight]

/-- Outside a session no key is written. -/
theorem writeKey_outside {k : Nat} {key : BitVec 512} {s : State} (h : s.trust.spdm ≠ .session) : writeKey k key s = s :=
  if_pos (.inl h)

section
variable {k : Nat} {key : BitVec 512} {s : State} (hlow : 1 ≤ k) (hhigh : k < 64) (hsession : s.trust.spdm = .session)
  (hsec : s.host.readymap.getLsbD 44 = true) (hnone : s.trust.keyWrites = [])
include hlow hhigh hsession hsec hnone

/-- Inside a session, with no key write before it, a key goes to its slot unless a packet of the slot is in flight. -/
theorem writeKey_session : writeKey k key s = keyServe [(k, key)] s := by
  have usable : secReady s = true := (bit_toNat _ _).trans hsec
  rw [writeKey, hnone, if_neg (by simp [hsession, usable]; omega), List.nil_append]

theorem writeKey_free (h : keyInFlight s k = false) : writeKey k key s =
    { s with trust := { s.trust with keys := mapPut s.trust.keys k key, keyWrites := [] } } := by
  rw [writeKey_session hlow hhigh hsession hsec hnone, keyServe, h]
  rfl

theorem writeKey_inFlight (h : keyInFlight s k = true) : writeKey k key s =
    { s with trust := { s.trust with keyWrites := [(k, key)] } } := by
  rw [writeKey_session hlow hhigh hsession hsec hnone, keyServe, if_pos h]

end

/-! ### The recovery load (R92) -/

theorem recoveryLoad_failed {a b : List Byte} {s : State} (h : bootFailed s = true) :
    recoveryLoad a b s = firmwareBoot { s with trust := { s.trust with slotA := a, slotB := b } } :=
  if_pos h

theorem recoveryLoad_refused {a b : List Byte} {s : State} (h : bootFailed s = false) : recoveryLoad a b s = s :=
  if_neg (by simp [h])

/-! ### The clauses of SessionsAnswer -/

/-- While the security function is usable, each request is answered where its order has it, and GET_CAPABILITIES elsewhere with
ERROR. -/
theorem requests_inOrder {s : State} (hsec : s.host.readymap.getLsbD 44 = true) :
    let answers := fun (i : Instr) (name : String) (next : Spdm) => Responds i name next s.trust.transcript s
    (s.trust.spdm ≠ .version → answers .getCapabilities "ERROR" s.trust.spdm) ∧
    (s.trust.spdm = .version → answers .getCapabilities "CAPABILITIES" .capabilities) ∧
    (s.trust.spdm = .capabilities → answers .negotiateAlgorithms "ALGORITHMS" .algorithms) ∧
    (∀ p, s.trust.spdm = p → p = .algorithms ∨ p = .session →
      answers .getDigests "DIGESTS" p ∧ answers .getCertificate "CERTIFICATE" p ∧ answers .getMeasurements "MEASUREMENTS" p) ∧
    (s.trust.spdm = .algorithms → answers .challenge "CHALLENGE_AUTH" .algorithms ∧ answers .keyExchange "KEY_EXCHANGE_RSP" .keyed) ∧
    (s.trust.spdm = .keyed → answers .finish "FINISH_RSP" .session) ∧
    (s.trust.spdm = .session → answers .endSession "END_SESSION_ACK" .algorithms) := by
  refine ⟨fun h => ?_, fun h => ?_, fun h => ?_, fun p h hp => ?_, fun h => ⟨?_, ?_⟩, fun h => ?_, fun h => ?_⟩
  · exact spdmRequest_errs (from_ := [.version]) rfl hsec (by simpa using h)
  · exact spdmRequest_answers rfl hsec (by simp [h]) rfl
  · exact spdmRequest_answers rfl hsec (by simp [h]) rfl
  · have hplace : s.trust.spdm ∈ [Spdm.algorithms, .session] := by simpa [h] using hp
    exact ⟨spdmRequest_answers rfl hsec hplace h, spdmRequest_answers rfl hsec hplace h, spdmRequest_answers rfl hsec hplace h⟩
  · exact spdmRequest_answers rfl hsec (by simp [h]) h
  · exact spdmRequest_answers rfl hsec (by simp [h]) rfl
  · exact spdmRequest_answers rfl hsec (by simp [h]) rfl
  · exact spdmRequest_answers rfl hsec (by simp [h]) rfl

/-- Settles O50: requests by the lemmas on what is answered in and out of place, keys by whether a packet of the slot is in flight,
and the recovery load by whether both slots have failed. -/
theorem sessionsAnswer : Obligations.SessionsAnswer := by
  intro s
  refine ⟨responds_of_spdmAnswer rfl, fun hsec => requests_inOrder hsec, fun k key hlow hhigh => ⟨?_, ?_⟩, fun a b => ⟨?_, ?_⟩⟩
  · intro hsession hsec hnone
    refine ⟨fun hquiet => ?_, fun hbusy => ?_⟩
    · have free : keyInFlight s k = false := by
        rw [← Bool.not_eq_true, keyInFlight_iff]
        exact fun ⟨p, hp, hk⟩ => hquiet p hp hk
      refine ⟨_, congrArg Host.Outcome.next (writeKey_free hlow hhigh hsession hsec hnone free), rfl, fun j => ?_⟩
      split
      · next hj => rw [hj, mapFind_mapPut_self]
      · next hj => exact mapFind_mapPut_ne _ _ hj
    · exact congrArg Host.Outcome.next (writeKey_inFlight hlow hhigh hsession hsec hnone ((keyInFlight_iff s k).mpr hbusy))
  · exact fun hout => congrArg Host.Outcome.next (writeKey_outside hout)
  · exact fun hfailed => congrArg Host.Outcome.next (recoveryLoad_failed hfailed)
  · exact fun hgood => congrArg Host.Outcome.next (recoveryLoad_refused hgood)

end Sys2Proof.Proofs

/-! SUPPORT. What arrives at the host port: window accesses, register writes and reads, doorbells and wake-ups (R84 to R88, R91,
R296, R345, R346, R355, R360). -/

namespace Sys2Proof.Proofs

open Sys2Proof.Machine Sys2Proof.Safety Sys2Proof.Laws

/-! ### The order of arrivals (R91) -/

section
variable {v : HostWait} {s t : State}

/-- With nothing waiting at the port, what arrives and need not wait is performed. -/
theorem hostArrive_performs (hopen : s.host.waiting = []) (hone : hostOne v s = (true, t)) : hostArrive v s = t := by
  simp [hostArrive, hopen, hone]

/-- With nothing waiting at the port, what cannot be performed yet is kept. -/
theorem hostArrive_keeps (hopen : s.host.waiting = []) (hone : hostOne v s = (false, t)) :
    hostArrive v s = onHost (fun h => { h with waiting := [v] }) t := by
  simp [hostArrive, hopen, hone]

/-- Behind what still waits, whatever arrives waits too. -/
theorem hostArrive_keepsBehind {w : HostWait} {ws : List HostWait} (hwait : s.host.waiting = w :: ws)
    (hone : hostOne w s = (false, t)) : hostArrive v s = onHost (fun h => { h with waiting := w :: (ws ++ [v]) }) t := by
  simp [hostArrive, hwait, hostServe, hone]

/-- An instruction that arrives at an open port and need not wait does what it brings. -/
theorem exec_performs {i : Instr} {u : State} (harrive : exec i s = .next (hostArrive v s)) (hopen : s.host.waiting = [])
    (hone : hostOne v s = (true, u)) (heffect : u = t) : exec i s = .next t := by
  rw [harrive, hostArrive_performs hopen hone, heffect]

end

/-! ### Window accesses (R84, R85, R296) -/

section
variable {i : Instr} {va : Nat} {s : State}

/-- A read through an open window is answered, answered with all ones and recorded, or kept. -/
theorem exec_windowRead {n : Nat} (harrive : exec i s = .next (hostArrive (.access va (.read n)) s))
    (hwin : s.host.winValid = true ∧ s.host.waiting = []) :
    (∀ b u, hostReadGo (n / 64 + 2) va n s = .ok b u →
      exec i s = .next (onHost (fun h => { h with replies := b :: h.replies }) u)) ∧
    (∀ c p u, hostReadGo (n / 64 + 2) va n s = .fault c p u →
      exec i s = .next (onHost (fun h => { h with replies := List.replicate n 0xFF :: h.replies }) (hostFault c p va false u))) ∧
    (∀ u, hostReadGo (n / 64 + 2) va n s = .wait u →
      exec i s = .next (onHost (fun h => { h with waiting := [.access va (.read n)] }) u)) := by
  obtain ⟨hvalid, hopen⟩ := hwin
  refine ⟨fun b u hread => ?_, fun c p u hread => ?_, fun u hread => ?_⟩
  · have answered : hostOne (.access va (.read n)) s = (true, hostReply b u) := by simp [hostOne, hostAccess, hvalid, hread]
    exact exec_performs harrive hopen answered rfl
  · have failed : hostOne (.access va (.read n)) s = (true, hostReply (List.replicate n 0xFF) (hostFault c p va false u)) := by
      simp [hostOne, hostAccess, hvalid, hread]
    exact exec_performs harrive hopen failed rfl
  · have waits : hostOne (.access va (.read n)) s = (false, u) := by simp [hostOne, hostAccess, hvalid, hread]
    rw [harrive, hostArrive_keeps hopen waits]

/-- A write through an open window is performed, dropped and recorded, or kept. -/
theorem exec_windowWrite {b : List Byte} (harrive : exec i s = .next (hostArrive (.access va (.write b)) s))
    (hwin : s.host.winValid = true ∧ s.host.waiting = []) :
    (∀ u, hostWrite va b s = .ok () u → exec i s = .next u) ∧
    (∀ c p u, hostWrite va b s = .fault c p u → exec i s = .next (hostFault c p va true u)) ∧
    (∀ u, hostWrite va b s = .wait u →
      exec i s = .next (onHost (fun h => { h with waiting := [.access va (.write b)] }) u)) := by
  obtain ⟨hvalid, hopen⟩ := hwin
  refine ⟨fun u hwrite => ?_, fun c p u hwrite => ?_, fun u hwrite => ?_⟩
  · have written : hostOne (.access va (.write b)) s = (true, u) := by simp [hostOne, hostAccess, hvalid, hwrite]
    exact exec_performs harrive hopen written rfl
  · have failed : hostOne (.access va (.write b)) s = (true, hostFault c p va true u) := by
      simp [hostOne, hostAccess, hvalid, hwrite]
    exact exec_performs harrive hopen failed rfl
  · have waits : hostOne (.access va (.write b)) s = (false, u) := by simp [hostOne, hostAccess, hvalid, hwrite]
    rw [harrive, hostArrive_keeps hopen waits]

end

/-! ### WBCTX and the ring doorbells (R85, R88) -/

theorem writeWbctx_reads {ctx : Nat} {s : State} {e : CtxEntry} (h : ctxEntry s ctx = some e) : writeWbctx ctx s =
    (true, onHost (fun h => { h with wbctx := ctx, winPtb := e.ptb, winPage2m := e.page2m, winValid := e.valid }) s) := by
  rw [writeWbctx, h]

section
variable {n : Nat} {s : State}

theorem hrdoor_enabled (v : Word) (hen : (mapGet 0 s.host.hrcfg n).getLsbD 63 = true)
    (hcore : bits (mapGet 0 s.host.hrcfg n).toNat 0 13 < Config.cores) :
    hrdoor n v s = hubRaise (bits (mapGet 0 s.host.hrcfg n).toNat 0 13) (bits (mapGet 0 s.host.hrcfg n).toNat 13 6) v s :=
  if_pos ⟨(bit_toNat _ _).trans hen, hcore⟩

theorem hrdoor_disabled (v : Word) (hen : (mapGet 0 s.host.hrcfg n).getLsbD 63 = false) : hrdoor n v s = s :=
  if_neg fun ⟨hset, _⟩ => by
    rw [bit_toNat, hen] at hset
    exact Bool.false_ne_true hset

end

/-! ### Service registers (R345, R346, R355) -/

/-- A register that keeps every bit takes the word as it is written. -/
theorem and_serviceMask_of_allOnes (off : Nat) (v : Word) (h : serviceMask off = BitVec.allOnes 64) : v &&& serviceMask off = v := by
  rw [h, BitVec.and_allOnes]

theorem bits_zero (x len : Nat) : bits x 0 len = x % 2 ^ len := rfl

section
variable (v : Word) (s : State)

theorem serviceWrite_ctxtab : serviceWrite 0x000 v s = onHub (fun h => { h with ctxtab := v }) s := by
  simp [serviceWrite, and_serviceMask_of_allOnes 0 v rfl]

theorem serviceWrite_granttab : serviceWrite 0x008 v s = onHub (fun h => { h with granttab := v }) s := by
  simp [serviceWrite, and_serviceMask_of_allOnes 0x008 v rfl]

theorem serviceWrite_frbase : serviceWrite 0x010 v s = onHub (fun h => { h with frbase := v }) s := by
  simp [serviceWrite, and_serviceMask_of_allOnes 0x010 v rfl]

theorem serviceWrite_frslots : serviceWrite 0x018 v s = onHub (fun h => { h with frslots := v &&& 0xFFFF }) s := rfl

theorem serviceWrite_svccfg : serviceWrite 0x030 v s = onHub (fun h => { h with svccfg := v &&& 0xFFFFF }) s := rfl

theorem serviceWrite_drainlim : serviceWrite 0x058 v s = onHub (fun h => { h with drainlim := v.toNat % 32 }) s := by
  simp [serviceWrite, and_serviceMask_of_allOnes 0x058 v rfl, bits_zero]

theorem serviceWrite_tinv :
    serviceWrite 0x040 v s = onHub (fun h => { h with tinvBusy := true }) (dropTranslations s v.toNat) := by
  simp [serviceWrite, and_serviceMask_of_allOnes 0x040 v rfl]

theorem serviceWrite_ctxend : serviceWrite 0x050 v s = endContext (v.toNat % 4096) s := by
  simp [serviceWrite, and_serviceMask_of_allOnes 0x050 v rfl, bits_zero]

theorem serviceWrite_chipid : serviceWrite 0x060 v s = onHub (fun h => { h with chipid := v.toNat % 4096 }) s := by
  simp [serviceWrite, and_serviceMask_of_allOnes 0x060 v rfl, bits_zero]

/-- With no record held for want of room, FRHEAD only moves. -/
theorem serviceWrite_frhead (h : s.hub.svcHeld = []) : serviceWrite 0x020 v s = onHub (fun h => { h with frhead := v }) s := by
  simp [serviceWrite, and_serviceMask_of_allOnes 0x020 v rfl, h, svcFlush]

/-- A write to the table of causeway routes puts the entries and sends what had waited for one. -/
theorem serviceWrite_cwrt {n : Nat} (h : n < 512) : serviceWrite (0x1000 + 8 * n) v s =
    sendUnsent (onHub (fun h => { h with cwrt := mapPut h.cwrt n (v &&& 0x8F8F8F8F8F8F8F8F) }) s) := by
  have inTable : 0x1000 ≤ 0x1000 + 8 * n ∧ 0x1000 + 8 * n < 0x2000 := by omega
  have mask : serviceMask (0x1000 + 8 * n) = 0x8F8F8F8F8F8F8F8F := by
    rw [serviceMask, if_neg (by omega), if_neg (by omega), if_pos inTable]
  have entry : (0x1000 + 8 * n - 0x1000) / 8 = n := by omega
  simp (disch := omega) only [serviceWrite, mask, if_neg, if_pos inTable, entry]

end

/-! ### Wake-ups (R345, R360) -/

section
variable {ctx core : Word} {all : Bool} (s : State)

theorem hostWake_inRange (hctx : ctx.toNat < 4096) (hcore : all = true ∨ core.toNat < Config.cores) :
    hostWake ctx core all s = wake ctx.toNat (if all then none else some core.toNat) s := by
  have fits : frspBad ctx core all = none := by
    rcases hcore with hall | hcore
    · rw [frspBad, if_neg (by omega), if_neg (by simp [hall])]
    · rw [frspBad, if_neg (by omega), if_neg (by simp [hcore])]
  rw [hostWake, fits]
  rfl

theorem hostWake_badContext (hctx : 4096 ≤ ctx.toNat) : hostWake ctx core all s = hostFault 0x09 0 ctx.toNat true s := by
  rw [hostWake, frspBad, if_pos hctx]
  rfl

theorem hostWake_badCore (hctx : ctx.toNat < 4096) (hall : all = false) (hcore : Config.cores ≤ core.toNat) :
    hostWake ctx core all s = hostFault 0x09 0 core.toNat true s := by
  rw [hostWake, frspBad, if_neg (by omega), if_pos (by simp [hall, hcore])]
  rfl

end

/-! ### Reads of window WA (R85) -/

/-- An aligned read of 8 bytes gives the register there. -/
theorem hostRegBytes_aligned {off : Nat} (s : State) (h : off % 8 = 0) : hostRegBytes s off 8 = toBytes 8 (hostReg s off).toNat := by
  have length : (toBytes 8 (hostReg s off).toNat).length = 8 := toBytes_length _ _
  refine List.ext_getElem (by simp [hostRegBytes, upTo, length]) fun i hi _ => ?_
  have inReg : i < 8 := by simpa [hostRegBytes, upTo] using hi
  have start : (off + i) / 8 * 8 = off := by omega
  have place : (off + i) % 8 = i := by omega
  simp [hostRegBytes, upTo, start, place, List.getD_eq_getElem?_getD, length, inReg]

/-- Each readable register stands at its offset. -/
theorem hostReg_named {off : Nat} {v : Word} {s : State} (h : (off, v) ∈ [(0x1000, s.host.readymap), (0x1008, s.host.lwdrop.setWidth 64),
      (0x1010, s.host.bootstat), (0x1018, BitVec.ofNat 64 s.power.aclk), (0x1020, BitVec.ofNat 64 s.host.wbctx), (0x1028, s.host.wbbase)]) :
    off % 8 = 0 ∧ hostReg s off = v := by
  simp only [List.mem_cons, List.not_mem_nil, or_false, Prod.mk.injEq] at h
  rcases h with ⟨rfl, rfl⟩ | ⟨rfl, rfl⟩ | ⟨rfl, rfl⟩ | ⟨rfl, rfl⟩ | ⟨rfl, rfl⟩ | ⟨rfl, rfl⟩ <;> exact ⟨rfl, rfl⟩

theorem hostReg_hrcfg {n : Nat} (s : State) (h : n < 8) : hostReg s (0x2000 + 16 * n) = mapGet 0 s.host.hrcfg n := by
  have ring : 0x2000 ≤ 0x2000 + 16 * n ∧ 0x2000 + 16 * n < 0x2080 ∧ (0x2000 + 16 * n) % 16 = 0 := by omega
  have entry : (0x2000 + 16 * n - 0x2000) / 16 = n := by omega
  simp (disch := omega) only [hostReg, if_neg, if_pos ring, entry]

/-- The launch window and the offsets between the registers read zero. -/
theorem hostReg_elsewhere {off : Nat} (s : State) (h : off < 0x1000 ∨ (0x1030 ≤ off ∧ off < 0x2000)) : hostReg s off = 0 := by
  simp (disch := omega) only [hostReg, if_neg]

/-- An aligned host read of 8 bytes at an open port is answered with the register there. -/
theorem takeInput_hostRead {off : Nat} {v : Word} {s : State} (hopen : s.host.waiting = []) (haligned : off % 8 = 0)
    (hreg : hostReg s off = v) :
    takeInput (.hostRead off 8) s = onHost (fun h => { h with replies := toBytes 8 v.toNat :: h.replies }) s := by
  rw [← hreg, ← hostRegBytes_aligned s haligned]
  exact hostArrive_performs hopen rfl

/-! ### The clauses of HostAccesses -/

/-- Settles O49: window accesses by what their translated reads and writes do, what waits by the order of the port, and registers,
doorbells, wake-ups and reads by the lemma about each. -/
theorem hostAccesses : Obligations.HostAccesses := by
  intro s win open_ waits reads writes
  refine ⟨fun off n => exec_windowRead rfl, fun off b => exec_windowWrite rfl, fun a n => exec_windowRead rfl,
    fun a b => exec_windowWrite rfl, fun a => exec_windowRead rfl, fun a v => exec_windowWrite rfl, ?_, ?_, ?_, ?_, ?_, ?_⟩
  · intro i w v ws t hwait hone harrival
    have harrive : exec i s = .next (hostArrive v s) := by
      rcases harrival with ⟨_, _, rfl, rfl⟩ | ⟨_, _, rfl, rfl⟩ | ⟨_, rfl, rfl⟩ | ⟨_, _, rfl, rfl⟩ | ⟨_, rfl, rfl⟩ | ⟨_, _, rfl, rfl⟩ |
        ⟨_, _, rfl, rfl⟩ | ⟨_, rfl, rfl⟩ | ⟨_, rfl, rfl⟩ | ⟨_, rfl, rfl⟩ | ⟨_, rfl, rfl⟩ | ⟨_, _, _, rfl, rfl⟩ <;> rfl
    rw [harrive, hostArrive_keepsBehind hwait hone]
  · intro v e hopen hctx
    exact exec_performs (v := .context (v.toNat % 4096)) rfl hopen (writeWbctx_reads hctx) rfl
  · intro n v hopen h
    exact ⟨fun hen hcore => exec_performs rfl hopen rfl (hrdoor_enabled v hen hcore),
      fun hen => exec_performs rfl hopen rfl (hrdoor_disabled v hen)⟩
  · intro v hopen hub
    exact ⟨exec_performs rfl hopen rfl rfl, fun n => exec_performs rfl hopen rfl rfl,
      exec_performs rfl hopen rfl (serviceWrite_ctxtab v s), exec_performs rfl hopen rfl (serviceWrite_granttab v s),
      exec_performs rfl hopen rfl (serviceWrite_frbase v s), exec_performs rfl hopen rfl (serviceWrite_frslots v s),
      exec_performs rfl hopen rfl (serviceWrite_svccfg v s), exec_performs rfl hopen rfl (serviceWrite_drainlim v s),
      fun n hn => exec_performs rfl hopen rfl (serviceWrite_cwrt v s hn),
      fun hheld => exec_performs rfl hopen rfl (serviceWrite_frhead v s hheld),
      exec_performs rfl hopen rfl (serviceWrite_tinv v s), rfl,
      exec_performs rfl hopen rfl (serviceWrite_ctxend v s), exec_performs rfl hopen rfl (serviceWrite_chipid v s)⟩
  · intro ctx core all hopen
    exact ⟨fun hctx hcore => exec_performs rfl hopen rfl (hostWake_inRange s hctx hcore),
      fun hctx => exec_performs rfl hopen rfl (hostWake_badContext s hctx),
      fun hctx hall hcore => exec_performs rfl hopen rfl (hostWake_badCore s hctx hall hcore)⟩
  · intro off v hopen hplace
    rcases hplace with hnamed | ⟨n, hn, rfl, rfl⟩ | ⟨haligned, helse, rfl⟩
    · obtain ⟨haligned, hreg⟩ := hostReg_named hnamed
      exact takeInput_hostRead hopen haligned hreg
    · exact takeInput_hostRead hopen (by omega) (hostReg_hrcfg s hn)
    · exact takeInput_hostRead hopen haligned (hostReg_elsewhere s helse)

end Sys2Proof.Proofs

/-! SUPPORT. Launches, threads and turns from pilots (R111 to R115). -/

namespace Sys2Proof.Proofs

open Sys2Proof.Machine Sys2Proof.Safety Sys2Proof.Laws

/-! ### LNCH and LNCH.NEAR (R111) -/

/-- A pilot's record takes the next LAUNCHSEQ, and the pilot remembers it. -/
def takenLaunch (s : State) : State :=
  onPilot s.turn (fun p => { p with launches := (s.hub.nextSeq :: p.launches).take 8 })
    (tallyHub 0x300 (onHub (fun h => { h with nextSeq := s.hub.nextSeq + 1 }) s))

/-- A pilot's record stands last in the queue of its priority. -/
def queuedLaunch (r : LaunchRec) (s : State) : State :=
  onHub (fun h => { h with fifos := mapPut h.fifos r.prio (mapGet [] h.fifos r.prio ++
    [{ lrec := r, seq := s.hub.nextSeq, met0 := depMet s r.dep0 r.thr0, met1 := depMet s r.dep1 r.thr1 }]) }) (takenLaunch s)

theorem takeSeq_fst (s : State) : (takeSeq s).1 = s.hub.nextSeq := rfl

theorem takeSeq_pilot (s : State) : onPilot (takeSeq s).2.turn (fun p =>
    { p with launches := ((takeSeq s).1 :: p.launches).take 8 }) (takeSeq s).2 = takenLaunch s := rfl

/-- An update of pilots leaves every trigger counter alone. -/
@[simp] theorem counterOf_onPilot (c : Nat) (f : Pilot → Pilot) (s : State) (d k : Nat) :
    counterOf (onPilot c f s) d k = counterOf s d k := by
  unfold counterOf
  by_cases h : d = c
  · subst h; rw [coreOf_onPilot_self]
  · rw [coreOf_onPilot_ne f s h]

/-- Taking a number meets no dependence, and misses none. -/
theorem depMet_takenLaunch (s : State) (d thr : Nat) : depMet (takenLaunch s) d thr = depMet s d thr := by
  unfold depMet takenLaunch
  rw [counterOf_onPilot]
  rfl

theorem enqueue_takenLaunch (r : LaunchRec) (s : State) : enqueue r s.hub.nextSeq false (takenLaunch s) = queuedLaunch r s := by
  unfold enqueue queuedLaunch
  rw [depMet_takenLaunch, depMet_takenLaunch]

section
variable {near : Option Word} {gd : Reg} {e : CtxEntry} {r : LaunchRec} {s : State} {n : Nat}

/-- A record is queued unless it names an isle that can take it at once. -/
theorem acceptLaunch_queues (h : ∀ n, nearIsle (takenLaunch s) near = some n →
      nearOk (takenLaunch s) r n = false ∨ readGrants n (takenLaunch s) = none) :
    acceptLaunch near gd e r s = writeBack gd (BitVec.ofNat 64 s.hub.nextSeq) (queuedLaunch r s) := by
  rw [← enqueue_takenLaunch]
  unfold acceptLaunch
  dsimp only
  rw [takeSeq_pilot, takeSeq_fst]
  cases hnear : nearIsle (takenLaunch s) near with
  | none => rfl
  | some n =>
    rcases h n hnear with hok | hgrants
    · simp [hok]
    · simp [hgrants]

/-- A record that names an isle which can take it at once gets the isle. -/
theorem acceptLaunch_takesOver {g : Map Grant} {x : State} (hnear : nearIsle (takenLaunch s) near = some n)
    (hok : nearOk (takenLaunch s) r n = true) (hgrants : readGrants n (takenLaunch s) = some (g, x)) :
    acceptLaunch near gd e r s = writeBack gd (BitVec.ofNat 64 s.hub.nextSeq)
      (placeLaunch e { lrec := r, seq := s.hub.nextSeq, met0 := true, met1 := true } g n (isleOf x n).die (isleOf x n).x0
        (isleOf x n).y0 x) := by
  unfold acceptLaunch
  dsimp only
  rw [takeSeq_pilot, takeSeq_fst]
  simp [hnear, hok, hgrants]

/-- A NEAR names an isle of the pilot's die by an index below 64. -/
theorem nearIsle_eq_some {v : Word} : nearIsle s (some v) = some n ↔ v.toNat < 64 ∧ 64 * dieOfCore s.turn + v.toNat = n := by
  simp [nearIsle]

end

section
variable {near : Option Word} {gd ga : Reg} {s u : State} {b : List Byte} {e : CtxEntry}
  (haligned : (reg s ga).toNat % 64 = 0) (hread : pilotRecord s (reg s ga).toNat 64 = .ok b u)
include haligned hread

/-- A record for a context that is not the pilot's traps. -/
theorem launchFrom_otherContext (hctx : (parseLaunch b).ctx ≠ (viewOf u u.turn).ctx) :
    launchFrom near gd ga s = trapAt causePerm (reg s ga) u := by
  simp [launchFrom, haligned, hread, hctx]

/-- A record that fails a check answers the check, and is recorded. -/
theorem launchFrom_fails (hctx : (parseLaunch b).ctx = (viewOf u u.turn).ctx) (hentry : ctxEntry u (parseLaunch b).ctx = some e)
    (hcheck : checkLaunch u e (parseLaunch b) ≠ 0) :
    launchFrom near gd ga s = writeBack gd (BitVec.ofNat 64 (2 ^ 63 + checkLaunch u e (parseLaunch b))) (tallyHub 0x301 (svcEmit
      { code := 0, source := 11, ctx := (parseLaunch b).ctx, core := u.turn, tag := (parseLaunch b).tag
        value := BitVec.ofNat 64 (checkLaunch u e (parseLaunch b)) } u)) := by
  simp only [launchFrom, haligned, hread, onRes_ok, hentry, ne_eq, not_true_eq_false, if_false]
  rw [if_neg (not_not_intro hctx), if_pos hcheck]

/-- A record that passes the checks is accepted once the pilot owes nothing. -/
theorem launchFrom_accepts (hctx : (parseLaunch b).ctx = (viewOf u u.turn).ctx) (hentry : ctxEntry u (parseLaunch b).ctx = some e)
    (hcheck : checkLaunch u e (parseLaunch b) = 0) (howed : NothingOwed u) :
    launchFrom near gd ga s = acceptLaunch near gd e (parseLaunch b) u := by
  simp only [launchFrom, haligned, hread, onRes_ok, hentry, ne_eq, not_true_eq_false, if_false]
  rw [if_neg (not_not_intro hctx), if_neg (not_not_intro hcheck), afterRelease_owed howed]

end

/-- Settles O36: LNCH and LNCH.NEAR are one function of the isle that the record names, by the outcomes of its checks. -/
theorem launchesFromPilots : Obligations.LaunchesFromPilots := by
  intro gd ga gb s u b a r q n taken queued goes haligned hturn hread
  refine ⟨fun hctx e hentry => ⟨fun hcheck howed => ⟨?_, fun hqueue => ?_, fun hindex hok g x hgrants => ?_⟩, fun c hc hne => ?_⟩,
    fun hctx htrap i hi => ?_⟩
  · refine completes_of_writeBack (congrArg done ?_)
    rw [launchFrom_accepts haligned hread hctx hentry hcheck howed]
    exact acceptLaunch_queues fun _ h => absurd h (by simp [nearIsle])
  · refine completes_of_writeBack (congrArg done ?_)
    rw [launchFrom_accepts haligned hread hctx hentry hcheck howed]
    refine acceptLaunch_queues fun m hm => ?_
    obtain ⟨hindex, hm⟩ := nearIsle_eq_some.mp hm
    have named : m = n := by rw [← hm]; exact congrArg (64 * dieOfCore · + (reg s gb).toNat) hturn
    subst named
    exact hqueue.resolve_left (by omega)
  · refine completes_of_writeBack (congrArg done ?_)
    rw [launchFrom_accepts haligned hread hctx hentry hcheck howed]
    refine acceptLaunch_takesOver (nearIsle_eq_some.mpr ⟨hindex, ?_⟩) hok hgrants
    exact congrArg (64 * dieOfCore · + (reg s gb).toNat) hturn
  · subst hc
    exact ⟨completes_of_writeBack (congrArg done (launchFrom_fails haligned hread hctx hentry hne)),
      completes_of_writeBack (congrArg done (launchFrom_fails haligned hread hctx hentry hne))⟩
  · rcases hi with rfl | rfl
    · exact traps_of_trapAt (congrArg done (launchFrom_otherContext haligned hread hctx)) htrap
    · exact traps_of_trapAt (congrArg done (launchFrom_otherContext haligned hread hctx)) htrap

/-! ### LWAIT and LWAIT.T (R112) -/

section
variable {test : Bool} {gd ga : Reg} {s : State}

theorem launchWait_ended {st : Nat} (hmade : (reg s ga).toNat ∈ (pilot s).launches)
    (hend : mapFind s.hub.ends (reg s ga).toNat = some st) :
    launchWait test gd ga s = writeBack gd (BitVec.ofNat 64 st) (acquire s.turn s) := by
  simp [launchWait, hmade, hend]

theorem launchWait_running (hmade : (reg s ga).toNat ∈ (pilot s).launches) (hend : mapFind s.hub.ends (reg s ga).toNat = none) :
    launchWait test gd ga s = if test then writeBack gd 0xFE s else s := by
  simp [launchWait, hmade, hend]

theorem launchWait_unknown (hnot : (reg s ga).toNat ∉ (pilot s).launches) : launchWait test gd ga s = writeBack gd 0xFF s := by
  simp [launchWait, hnot]

end

/-! ### SPAWN (R113) -/

section
variable {gd ga gb : Reg} {k : BitVec 3} {s : State}

/-- With its tokens and its block read, a slot free, its stores performed and the slot's stash lines ready, the thread stands at the
tail of its queue. -/
theorem execSpawn_puts {u v v' : State} {toks : List Byte} {e : BlockEntry} {q : AtollCfg}
    (hblock : (reg s gb).toNat < (isleOfCore s s.turn).blklen) (haligned : (reg s ga).toNat % 16 = 0)
    (htoks : pilotRecord s (reg s ga).toNat (16 * k.toNat) = .ok toks u) (hentry : readBlock u u.turn (reg s gb).toNat = .ok e v)
    (hatoll : blockAtoll v (leadOf (isleOfCore s s.turn)) e = some q)
    (hroom : (counterOf v (leadOf (isleOfCore s s.turn)) q.tailk - counterOf v (leadOf (isleOfCore s s.turn)) q.headk).toNat < q.slots)
    (hstores : StoresDone v) (htouch : touchTail v (leadOf (isleOfCore s s.turn)) q = .ok () v') :
    let w := putThread (leadOf (isleOfCore s s.turn)) e q (reg s gb).toNat k.toNat toks v'
    exec (.spawn gd ga gb k) s = done (writeBack gd ((isleOfCore s s.turn).threads.setWidth 64)
      (onIsle (myIsle w) (fun i => { i with threads := i.threads + 1 }) w)) := by
  have stored : storesDone v v.turn = true := by
    obtain ⟨hbuf, hfar⟩ := hstores
    simpa [storesDone, pilot] using ⟨hbuf, hfar⟩
  show execSpawn gd ga gb k s = _
  simp only [execSpawn]
  rw [if_neg (by omega), if_neg (not_not_intro haligned), htoks, onRes_ok, hentry, onRes_ok]
  simp only [hatoll]
  rw [if_neg (by omega), afterStores_done stored, htouch, onRes_ok]

/-- A block number that the table does not reach traps. -/
theorem execSpawn_pastTable (hblock : (isleOfCore s s.turn).blklen ≤ (reg s gb).toNat) :
    exec (.spawn gd ga gb k) s = done (trapAt causePerm (reg s gb) s) := by
  show execSpawn gd ga gb k s = _
  rw [execSpawn, if_pos hblock]

end

/-! ### YIELD and PRIO (R114, R115) -/

section
variable {s : State}

theorem execYield_noTurn (hlead : isLead s = true) (hidle : (isleOf s (myIsle s)).turn = none ∨ (isleOf s (myIsle s)).blklen = 0) :
    exec .yield s = done (advance s) := by
  show execYield s = _
  have idle : (isleOf s (myIsle s)).blklen = 0 ∨ (isleOf s (myIsle s)).turn.isNone = true := by simpa [or_comm] using hidle
  simp only [execYield, hlead, Bool.not_true, Bool.false_eq_true, if_false, if_pos idle]

theorem execYield_asks (hlead : isLead s = true) (hturn : (isleOf s (myIsle s)).turn ≠ none) (hblk : (isleOf s (myIsle s)).blklen ≠ 0) :
    exec .yield s = done (advance (onIsle (myIsle s) (fun i => { stopGraphs .drain i with yielding := true }) s)) := by
  show execYield s = _
  simp [execYield, hlead, hturn, hblk]

/-- YIELD of another pilot than the lead traps. -/
theorem execYield_notLead (hlead : isLead s = false) : exec .yield s = done (trapFree causePerm s) := by
  show execYield s = _
  simp [execYield, hlead]

/-- A trap with a free TRAPVAL draws it first. -/
theorem canTrap_drew {s : State} (h : CanTrap s) : CanTrap (drew s) := h

@[simp] theorem writeDescriptors_turn (n : Nat) (s : State) : (writeDescriptors n s).turn = s.turn :=
  foldl_frame (f := fun t c => onCore c (fun x => { x with scratch := memStore x.scratch Config.descOffset (descBytes (isleOf s n)) }) t)
    (g := State.turn) (fun _ _ => rfl) _ _

@[simp] theorem pilot_writeDescriptors (n : Nat) (s : State) : pilot (writeDescriptors n s) = pilot s := by
  rw [pilot, writeDescriptors_turn, writeDescriptors_frame Core.pilot (fun _ _ => rfl)]
  rfl

variable {gd ga : Reg}

/-- A priority up to the ceiling fits its field. -/
theorem execPrio_sets (hle : (reg s ga).toNat ≤ (isleOf s (myIsle s)).ceil) (hceil : (isleOf s (myIsle s)).ceil < 64) :
    exec (.prio gd ga) s = done (writeBack gd (BitVec.ofNat 64 (isleOf s (myIsle s)).prio)
      (writeDescriptors (myIsle s) (onIsle (myIsle s) (fun i => { i with prio := (reg s ga).toNat }) s))) := by
  have fits : bits (reg s ga).toNat 0 6 = (reg s ga).toNat := (bits_zero _ 6).trans (Nat.mod_eq_of_lt (by omega))
  show execPrio gd ga s = _
  simp only [execPrio, fits]
  rw [if_neg (by omega)]

theorem execPrio_aboveCeiling (hceil : (isleOf s (myIsle s)).ceil < (reg s ga).toNat) :
    exec (.prio gd ga) s = done (trapAt causePerm (reg s ga) s) := by
  show execPrio gd ga s = _
  simp only [execPrio, if_pos hceil]

end

/-- Settles O37: each instruction by what it does in the cases of its rule. -/
theorem threadsAndTurns : Obligations.ThreadsAndTurns := by
  intro gd ga gb s a n i goes
  refine ⟨?_, ?_, ?_, ?_, ?_, ?_, ?_, ?_, ?_⟩
  · intro st hmade hend
    exact ⟨completes_of_writeBack (congrArg done (launchWait_ended hmade hend)),
      completes_of_writeBack (congrArg done (launchWait_ended hmade hend))⟩
  · intro hmade hend
    exact ⟨congrArg done (launchWait_running (test := false) hmade hend),
      completes_of_writeBack (congrArg done (launchWait_running (test := true) hmade hend))⟩
  · intro hnot
    exact ⟨completes_of_writeBack (congrArg done (launchWait_unknown hnot)),
      completes_of_writeBack (congrArg done (launchWait_unknown hnot))⟩
  · intro k u v v' toks e q lead b hblock haligned htoks hentry hatoll hroom hstores htouch
    exact completes_of_writeBack (execSpawn_puts hblock haligned htoks hentry hatoll hroom hstores htouch)
  · intro hblock htrap k
    exact traps_of_trapAt (execSpawn_pastTable hblock) htrap
  · intro hlead
    exact ⟨fun hidle => completes_of_advance (execYield_noTurn hlead hidle),
      fun hturn hblk => completes_of_advance (execYield_asks hlead hturn hblk)⟩
  · intro hlead htrap
    exact traps_of_trapAt (execYield_notLead hlead) (canTrap_drew htrap)
  · intro hle hceil
    obtain ⟨t, hexec, hdone⟩ := completes_of_writeBack (execPrio_sets (gd := gd) hle hceil)
    rw [pilot_writeDescriptors] at hdone
    exact ⟨_, t, hexec, rfl, hdone⟩
  · intro hceil htrap
    exact traps_of_trapAt (execPrio_aboveCeiling hceil) htrap

end Sys2Proof.Proofs

/-! SUPPORT. The barrier of an isle (R120): the counters that rise as it completes, the pilots that go on, and the launch that begins
to end. -/

namespace Sys2Proof.Proofs

open Sys2Proof.Machine Sys2Proof.Safety Sys2Proof.Laws

/-! ### Folds whose step at one place is idempotent -/

/-- A fold over a list with b does to a view what its step at b does, when doing that twice is doing it once and no other step touches
the view. -/
theorem foldl_applies {β γ : Type} {f : State → β → State} {g : State → γ} {h : γ → γ} {b : β} (hself : ∀ s, g (f s b) = h (g s))
    (hother : ∀ s x, x ≠ b → g (f s x) = g s) (htwice : ∀ y, h (h y) = h y) {xs : List β} (hb : b ∈ xs) (s : State) :
    g (xs.foldl f s) = h (g s) := by
  have kept : h (g (xs.foldl f s)) = h (g s) := by
    refine foldl_frame (g := fun s => h (g s)) (fun s x => ?_) xs s
    by_cases hx : x = b
    · rw [hx, hself, htwice]
    · rw [hother s x hx]
  have reached : h (g (xs.foldl f s)) = g (xs.foldl f s) :=
    foldl_establishes (p := fun s => h (g s) = g s) (fun s => by rw [hself, htwice])
      (fun s x hx hs => by rwa [hother s x hx]) hb s
  exact reached.symm.trans kept

/-! ### Raising a counter (R295) -/

/-- Beside its core, a counter that rises shows in what the hub forwards and in what nydb freezes and keeps. -/
theorem raiseCounter_view {γ : Type} {g : State → γ} (hfifos : ∀ q s, g (onHub (fun h => { h with fifos := q }) s) = g s)
    (hfreeze : ∀ n clk s, g (onIsle n (freezeAt clk) s) = g s) (hnydb : ∀ y s, g { s with nydb := y } = g s) (c k : Nat) (inc : Word)
    (s : State) : g (raiseCounter c k inc s) = g (onCore c (raiseIn s.cycle k inc) s) := by
  have told : g (forwardWatch c k (onCore c (raiseIn s.cycle k inc) s)) = g (onCore c (raiseIn s.cycle k inc) s) := by
    rw [forwardWatch_eq]
    exact hfifos _ (onCore c (raiseIn s.cycle k inc) s)
  rw [raiseCounter, ← told]
  unfold hitCounter
  dsimp only
  split
  · rw [hnydb]
    rcases hitBreak_freezes _ c (forwardWatch c k (onCore c (raiseIn s.cycle k inc) s)) with h | ⟨n, h⟩
    · rw [h]
    · rw [h, hfreeze]
  · rfl

/-- What neither cores, the hub nor nydb show is the same after a counter rose. -/
theorem raiseCounter_frame {γ : Type} {g : State → γ} (hcore : ∀ c f s, g (onCore c f s) = g s)
    (hrest : ∀ h y s, g { s with hub := h, nydb := y } = g s) (c k : Nat) (inc : Word) (s : State) :
    g (raiseCounter c k inc s) = g s :=
  (raiseCounter_view (fun _ s => hrest _ s.nydb s) (fun _ _ s => hrest _ s.nydb s) (fun y s => hrest s.hub y s) c k inc s).trans
    (hcore c _ s)

theorem raiseCounter_cores (c k : Nat) (inc : Word) (s : State) :
    (raiseCounter c k inc s).cores = (onCore c (raiseIn s.cycle k inc) s).cores :=
  raiseCounter_view (g := State.cores) (fun _ _ => rfl) (fun _ _ _ => rfl) (fun _ _ => rfl) c k inc s

/-- With no breakpoint set, a counter that rises leaves nydb and every isle alone. -/
theorem raiseCounter_quiet {s : State} (h : s.nydb.breaks = []) (c k : Nat) (inc : Word) :
    (raiseCounter c k inc s).nydb = s.nydb ∧ (raiseCounter c k inc s).hub.isles = s.hub.isles := by
  rw [raiseCounter, forwardWatch_eq, hitCounter_nil (by simpa using h)]
  exact ⟨rfl, rfl⟩

theorem coreOf_raiseCounter (c k : Nat) (inc : Word) (s : State) (d : Nat) :
    coreOf (raiseCounter c k inc s) d = if d = c then raiseIn s.cycle k inc (coreOf s c) else coreOf s d := by
  rw [← coreOf_onCore]
  exact congrArg (mapGet {} · d) (raiseCounter_cores c k inc s)

/-- What a counter that rises does to its core beside the counter, its posted entries and the latch: a WFE that has passed may end. -/
theorem raiseIn_frame {γ : Type} {g : Core → γ} (hcount : ∀ x v p, g { x with counters := v, posted := p } = g x)
    (hwfe : ∀ x, g (endWfeIn 0 x) = g x) (hlatch : ∀ x, g { x with pilot := { x.pilot with eventLatch := true } } = g x)
    (clk k : Nat) (inc : Word) (x : Core) : g (raiseIn clk k inc x) = g x := by
  unfold raiseIn latchAt
  dsimp only
  split
  · rw [hlatch, hwfe, hcount]
  · rw [hlatch, hcount]

/-- A counter after one rose; a number past the counters names none. -/
theorem counterOf_raiseCounter (c k : Nat) (inc : Word) (s : State) (d : Nat) {q : Nat} (hq : q < 64) :
    counterOf (raiseCounter c k inc s) d q = if d = c ∧ q = k then counterOf s d q + inc else counterOf s d q := by
  have same : counterOf (raiseCounter c k inc s) d q = counterOf (onCore c (raiseIn s.cycle k inc) s) d q :=
    congrArg (fun m => (mapGet {} m d : Core).counters.toList.getD q 0) (raiseCounter_cores c k inc s)
  rw [same]
  by_cases hd : d = c
  · subst hd
    by_cases hk : k < 64
    · rw [counterOf_raiseIn s d hk]
      by_cases hqk : q = k <;> simp [hqk]
    · have other : q ≠ k := by omega
      have kept : ∀ x : Core, (latchAt s.cycle x).counters = x.counters := by
        intro x; unfold latchAt; dsimp only; split <;> rfl
      simp [counterOf, raiseIn, kept, List.getD, other, Ne.symm other]
  · simp [counterOf, coreOf_onCore_ne _ _ hd, hd]

/-! ### The counters that a barrier names (R120) -/

/-- The counter that one arrival names rises. -/
def raiseNamed (s : State) (e : Nat × Option Nat) : State :=
  match e with
  | (c, k) =>
    match k with
    | some k => raiseCounter c k 1 s
    | none => s

theorem raiseNamed_some (s : State) (c k : Nat) : raiseNamed s (c, some k) = raiseCounter c k 1 s := rfl

/-- What no counter that rises changes, the counters that a barrier names leave alone. -/
theorem foldl_raiseNamed_frame {γ : Type} {g : State → γ} (hraise : ∀ c k s, g (raiseCounter c k 1 s) = g s)
    (arr : List (Nat × Option Nat)) (s : State) : g (arr.foldl raiseNamed s) = g s := by
  refine foldl_frame (fun s e => ?_) arr s
  rcases e with ⟨c, _ | k⟩
  · rfl
  · exact hraise c k s

/-- Each counter rises by as many arrivals as name it. -/
theorem counterOf_foldl_raiseNamed (arr : List (Nat × Option Nat)) (s : State) (c : Nat) {q : Nat} (hq : q < 64) :
    counterOf (arr.foldl raiseNamed s) c q = counterOf s c q + BitVec.ofNat 64 (arr.filter (· == (c, some q))).length := by
  induction arr generalizing s with
  | nil => simp
  | cons e arr ih =>
    rw [List.foldl_cons, ih]
    rcases e with ⟨d, _ | k⟩
    · simp [raiseNamed]
    · rw [raiseNamed_some, counterOf_raiseCounter _ _ _ _ _ hq]
      by_cases h : c = d ∧ q = k
      · obtain ⟨rfl, rfl⟩ := h
        rw [if_pos ⟨rfl, rfl⟩, List.filter_cons_of_pos (by simp), List.length_cons, BitVec.ofNat_add]
        ac_rfl
      · rw [if_neg h, List.filter_cons_of_neg (by grind)]

/-- A pilot in no WFE has its latch set, and nothing else changes of it. -/
theorem raiseIn_pilot_of_awake {x : Core} (h : x.pilot.wfeUntil = none) (clk k : Nat) (inc : Word) :
    (raiseIn clk k inc x).pilot = { x.pilot with eventLatch := true } := by
  simp [raiseIn, latchAt, h]

/-- The counters that a barrier names leave all of a pilot but its latch alone, if it is in no WFE. -/
theorem foldl_raiseNamed_pilot {c : Nat} {s : State} (h : (coreOf s c).pilot.wfeUntil = none) (arr : List (Nat × Option Nat)) :
    ∃ b, (coreOf (arr.foldl raiseNamed s) c).pilot = { (coreOf s c).pilot with eventLatch := b } := by
  refine List.foldlRecOn arr raiseNamed (motive := fun u => ∃ b, (coreOf u c).pilot = { (coreOf s c).pilot with eventLatch := b })
    ⟨_, rfl⟩ ?_
  rintro u ⟨b, hu⟩ ⟨d, _ | k⟩ -
  · exact ⟨b, hu⟩
  · rw [raiseNamed_some, coreOf_raiseCounter]
    split
    · next hd =>
      subst hd
      rw [raiseIn_pilot_of_awake (by rw [hu]; exact h), hu]
      exact ⟨true, rfl⟩
    · exact ⟨b, hu⟩

/-- With no breakpoint set, the counters that a barrier names leave every isle alone. -/
theorem foldl_raiseNamed_isle {s : State} (h : s.nydb.breaks = []) (arr : List (Nat × Option Nat)) (n : Nat) :
    isleOf (arr.foldl raiseNamed s) n = isleOf s n := by
  refine (List.foldlRecOn arr raiseNamed (motive := fun u => u.nydb.breaks = [] ∧ isleOf u n = isleOf s n) ⟨h, rfl⟩ ?_).2
  rintro u ⟨hbreaks, hu⟩ ⟨d, _ | k⟩ -
  · exact ⟨hbreaks, hu⟩
  · obtain ⟨hnydb, hisles⟩ := raiseCounter_quiet hbreaks d k 1
    exact ⟨by rw [raiseNamed_some, hnydb, hbreaks], by rw [raiseNamed_some, isleOf, hisles]; exact hu⟩

/-! ### The pilots that go on (R120) -/

/-- A wait at SBAR inside a handler is over: the pilot goes on as it returns. -/
def waitOver (p : Pilot) : Pilot := if p.savedStage = .sbarWait then { p with savedStage := .waitDone } else p

/-- A pilot whose waiting instruction has completed. -/
def wentOn (p : Pilot) : Pilot := { p.wordDone with pc := p.pc + 8, stage := .none }

/-- A pilot of a barrier that completes. -/
def releasedPilot (p : Pilot) : Pilot := if p.stage = .sbarWait then wentOn (waitOver p) else waitOver p

theorem waitOver_savedStage (p : Pilot) : (waitOver p).savedStage = if p.savedStage = .sbarWait then .waitDone else p.savedStage := by
  unfold waitOver
  split <;> rfl

/-- The end of a wait inside a handler shows in nothing else. -/
theorem waitOver_frame {γ : Type} {g : Pilot → γ} (hg : ∀ p st, g { p with savedStage := st } = g p) (p : Pilot) :
    g (waitOver p) = g p := by
  unfold waitOver
  split
  · exact hg p _
  · rfl

theorem releasedPilot_savedStage (p : Pilot) :
    (releasedPilot p).savedStage = if p.savedStage = .sbarWait then .waitDone else p.savedStage := by
  rw [← waitOver_savedStage, releasedPilot]
  split <;> rfl

/-- A pilot that waits goes on at the next word with its registers. -/
theorem releasedPilot_waiting {p : Pilot} (h : p.stage = .sbarWait) :
    (releasedPilot p).pc = p.pc + 8 ∧ (releasedPilot p).stage = .none ∧ (releasedPilot p).regs = p.regs := by
  rw [releasedPilot, if_pos h]
  exact ⟨congrArg (· + 8) (waitOver_frame (g := Pilot.pc) (fun _ _ => rfl) p), rfl,
    waitOver_frame (g := Pilot.regs) (fun _ _ => rfl) p⟩

/-- A pilot that has gone on waits at no barrier. -/
theorem releasedPilot_stage_ne (p : Pilot) : (releasedPilot p).stage ≠ .sbarWait := by
  unfold releasedPilot
  split
  · exact Stage.noConfusion
  · rwa [waitOver_frame (g := Pilot.stage) (fun _ _ => rfl)]

theorem releasedPilot_twice (p : Pilot) : releasedPilot (releasedPilot p) = releasedPilot p := by
  have saved : (releasedPilot p).savedStage ≠ .sbarWait := by
    rw [releasedPilot_savedStage]
    split
    · exact Stage.noConfusion
    · assumption
  rw [releasedPilot, if_neg (releasedPilot_stage_ne p), waitOver, if_neg saved]

/-- Acquiring moves the pilot's clock alone. -/
theorem coreOf_acquire_self (c : Nat) (s : State) : coreOf (acquire c s) c =
    { coreOf s c with pts := latest (ptsOf s (some (.pilot c))) (latestWts s) - clkPts s } := coreOf_onCore_self _ _ _

theorem releasePilot_waiting {s : State} {c : Nat} (h : (coreOf s c).pilot.stage = .sbarWait) :
    releasePilot s c = finishWait c (onPilot c waitOver (acquire c s)) := by
  refine if_pos ?_
  show (coreOf (onPilot c waitOver (acquire c s)) c).pilot.stage = .sbarWait
  rwa [coreOf_onPilot_self, coreOf_acquire_self, waitOver_frame (g := Pilot.stage) (fun _ _ => rfl)]

theorem releasePilot_elsewhere {s : State} {c : Nat} (h : (coreOf s c).pilot.stage ≠ .sbarWait) :
    releasePilot s c = onPilot c waitOver (acquire c s) := by
  refine if_neg ?_
  show (coreOf (onPilot c waitOver (acquire c s)) c).pilot.stage ≠ .sbarWait
  rwa [coreOf_onPilot_self, coreOf_acquire_self, waitOver_frame (g := Pilot.stage) (fun _ _ => rfl)]

/-- A pilot that goes on changes nothing outside its core. -/
theorem onlyCore_releasePilot (s : State) (c : Nat) : OnlyCore c s (releasePilot s c) := by
  have waited := onlyCore_trans (onlyCore_acquire c s) (onlyCore_onPilot c waitOver _)
  by_cases h : (coreOf s c).pilot.stage = .sbarWait
  · rw [releasePilot_waiting h]
    exact onlyCore_trans waited (onlyCore_onCore c _ _)
  · rw [releasePilot_elsewhere h]
    exact waited

/-- A core whose pilot goes on: the pilot's clock, the pilot and the event counters. -/
theorem coreOf_releasePilot_self (s : State) (c : Nat) : ∃ m, coreOf (releasePilot s c) c =
    { coreOf s c with pts := latest (ptsOf s (some (.pilot c))) (latestWts s) - clkPts s, pilot := releasedPilot (coreOf s c).pilot
                      evctrs := m } := by
  by_cases h : (coreOf s c).pilot.stage = .sbarWait
  · refine ⟨tallyMap (coreOf s c).evctrs 0 8 0x002 1, ?_⟩
    rw [releasePilot_waiting h, releasedPilot, if_pos h, finishWait, coreOf_onCore_self, coreOf_onPilot_self, coreOf_acquire_self]
    rfl
  · refine ⟨(coreOf s c).evctrs, ?_⟩
    rw [releasePilot_elsewhere h, releasedPilot, if_neg h, coreOf_onPilot_self, coreOf_acquire_self]

/-- A core in a view that shows neither the pilot's clock, the pilot nor the event counters. -/
theorem coreOf_releasePilot {γ : Type} {g : Core → γ} (hg : ∀ x p q m, g { x with pts := p, pilot := q, evctrs := m } = g x) (s : State)
    (c d : Nat) : g (coreOf (releasePilot s c) d) = g (coreOf s d) := by
  by_cases h : d = c
  · subst h
    obtain ⟨m, hm⟩ := coreOf_releasePilot_self s d
    rw [hm, hg]
  · rw [(onlyCore_releasePilot s c).others d h]

/-- Pilots that go on change neither the hub nor memory. -/
theorem foldl_releasePilot_rest (cs : List Nat) (s : State) : (cs.foldl releasePilot s).ms = s.ms ∧
    (cs.foldl releasePilot s).host = s.host ∧ (cs.foldl releasePilot s).cycle = s.cycle ∧ (cs.foldl releasePilot s).hub = s.hub :=
  ⟨foldl_frame (g := State.ms) (fun u c => (onlyCore_releasePilot u c).ms) cs s,
   foldl_frame (g := State.host) (fun u c => (onlyCore_releasePilot u c).host) cs s,
   foldl_frame (g := State.cycle) (fun u c => (onlyCore_releasePilot u c).cycle) cs s,
   foldl_frame (g := State.hub) (fun u c => (onlyCore_releasePilot u c).hub) cs s⟩

/-- Pilots that go on raise no counter. -/
theorem counterOf_foldl_releasePilot (cs : List Nat) (s : State) (c q : Nat) :
    counterOf (cs.foldl releasePilot s) c q = counterOf s c q :=
  foldl_frame (g := fun s => counterOf s c q) (fun u d => congrArg (fun v => v.toList.getD q 0)
    (coreOf_releasePilot (g := Core.counters) (fun _ _ _ _ => rfl) u d c)) cs s

/-- Every pilot of a list goes on. -/
theorem foldl_releasePilot_pilot {cs : List Nat} {c : Nat} (hc : c ∈ cs) (s : State) :
    (coreOf (cs.foldl releasePilot s) c).pilot = releasedPilot (coreOf s c).pilot := by
  refine foldl_applies (g := fun s => (coreOf s c).pilot) (fun s => ?_) (fun s d h => ?_) releasedPilot_twice hc s
  · obtain ⟨m, hm⟩ := coreOf_releasePilot_self s c
    rw [hm]
  · rw [(onlyCore_releasePilot s d).others c (Ne.symm h)]

/-- Every pilot of a list acquires. -/
theorem foldl_releasePilot_pts {cs : List Nat} {c : Nat} (hc : c ∈ cs) (s : State) :
    ptsOf (cs.foldl releasePilot s) (some (.pilot c)) = latest (ptsOf s (some (.pilot c))) (latestWts s) := by
  have clk (s : State) (d : Nat) : clkPts (releasePilot s d) = clkPts s := by
    rw [clkPts, (onlyCore_releasePilot s d).cycle, clkPts]
  have wts (s : State) (d : Nat) : latestWts (releasePilot s d) = latestWts s := by
    rw [latestWts, (onlyCore_releasePilot s d).ms, latestWts]
  refine congrArg Prod.fst (foldl_applies (g := fun s => (ptsOf s (some (.pilot c)), latestWts s)) (h := fun y => (latest y.1 y.2, y.2))
    (fun s => ?_) (fun s d h => ?_) (fun y => ?_) hc s)
  · obtain ⟨m, hm⟩ := coreOf_releasePilot_self s c
    rw [wts, ptsOf, clk, hm, BitVec.sub_add_cancel]
  · rw [wts, ptsOf, clk, (onlyCore_releasePilot s d).others c (Ne.symm h), ptsOf]
  · rw [latest_latest]

/-- A pilot that waits at a barrier, and in no handler before it, completes it as it goes on. -/
theorem completed_releasePilot {s : State} (hstage : (pilot s).stage = .sbarWait) (hsaved : (pilot s).savedStage ≠ .sbarWait) :
    Completed (acquire s.turn s) 0 0 ((pilot s).pc + 8) (releasePilot s s.turn) := by
  have goes : releasePilot s s.turn = finishWait s.turn (onPilot s.turn waitOver (acquire s.turn s)) := releasePilot_waiting hstage
  have acquired : pilot (acquire s.turn s) = pilot s := by
    rw [pilot, (onlyCore_acquire s.turn s).turn, coreOf_acquire_self]
    rfl
  have before : waitOver (pilot s) = pilot s := if_neg hsaved
  have after : coreOf (releasePilot s s.turn) s.turn = { coreOf (acquire s.turn s) s.turn with
      pilot := wentOn (pilot s), evctrs := tallyMap (coreOf (acquire s.turn s) s.turn).evctrs 0 8 0x002 1 } := by
    rw [goes, finishWait, coreOf_onCore_self, coreOf_onPilot_self]
    show ({ coreOf (acquire s.turn s) s.turn with pilot := wentOn (waitOver (pilot (acquire s.turn s))), evctrs := _ } : Core) = _
    rw [acquired, before]
  have went : pilot (releasePilot s s.turn) = wentOn (pilot s) := by
    rw [pilot, (onlyCore_releasePilot s s.turn).turn, after]
  refine ⟨?_, ?_, ?_, fun r => ?_, ?_, ?_⟩
  · rw [goes]
    exact onlyCore_trans (onlyCore_onPilot _ _ _) (onlyCore_onCore _ _ _)
  · show CoreKept (coreOf (acquire s.turn s) s.turn) (coreOf (releasePilot s s.turn) s.turn)
    rw [after]
    rfl
  · rw [PilotKept, acquired, went]
    rfl
  · have same : reg (releasePilot s s.turn) r = reg (acquire s.turn s) r := by
      rw [reg, reg, went, acquired]
      rfl
    rw [same]
    split
    · next h => exact absurd h.1 h.2
    · rfl
  · rw [went]
    rfl
  · rw [went]
    rfl

/-! ### Arriving (R120) -/

/-- The arrivals at the barrier of an isle once its turn's pilot has arrived. -/
def arrivalsOf (k : Option Ctr) (s : State) : List (Nat × Option Nat) :=
  (isleOf s (myIsle s)).arrivals ++ [(s.turn, k.map (·.toNat))]

/-- The form by which the lead came, once the pilot has arrived. -/
def endFormOf (ends : Bool) (s : State) : Bool := if isLead s then ends else (isleOf s (myIsle s)).endForm

/-- The pilot has arrived and waits. -/
def arrived (ends : Bool) (k : Option Ctr) (s : State) : State :=
  onIsle (myIsle s) (fun i => { i with arrivals := arrivalsOf k s, endForm := endFormOf ends s })
    (onPilot s.turn (fun p => { p with stage := .sbarWait }) s)

/-- All pilots have arrived and the counters named have risen. -/
def gathered (ends : Bool) (k : Option Ctr) (s : State) : State :=
  onIsle (myIsle s) (fun i => { i with arrivals := [], endForm := false }) ((arrivalsOf k s).foldl raiseNamed (arrived ends k s))

section
variable {ends : Bool} {k : Option Ctr} {s : State}

theorem isleOf_arrived : isleOf (arrived ends k s) (myIsle s) =
    { isleOf s (myIsle s) with arrivals := arrivalsOf k s, endForm := endFormOf ends s } := isleOf_onIsle_self _ _ _

theorem allArrived_iff (i : Isle) (arr : List (Nat × Option Nat)) :
    (isleCores i).all (fun c => arr.any (fun e => e.1 == c)) = true ↔ ∀ c ∈ isleCores i, ∃ e ∈ arr, e.1 = c := by
  simp only [List.all_eq_true, List.any_eq_true, beq_iff_eq]

theorem arriveBarrier_waits (hall : ¬ ∀ c ∈ isleCores (isleOf s (myIsle s)), ∃ e ∈ arrivalsOf k s, e.1 = c) :
    arriveBarrier ends k s = arrived ends k s := by
  refine if_neg fun h => hall ((allArrived_iff _ _).mp ?_)
  change (isleCores (isleOf (arrived ends k s) (myIsle s))).all
    (fun c => (isleOf (arrived ends k s) (myIsle s)).arrivals.any (fun e => e.1 == c)) = true at h
  rwa [isleOf_arrived] at h

theorem arriveBarrier_completes (hall : ∀ c ∈ isleCores (isleOf s (myIsle s)), ∃ e ∈ arrivalsOf k s, e.1 = c) :
    arriveBarrier ends k s = completeBarrier (myIsle s) (arrived ends k s) := by
  refine if_pos ?_
  show (isleCores (isleOf (arrived ends k s) (myIsle s))).all
    (fun c => (isleOf (arrived ends k s) (myIsle s)).arrivals.any (fun e => e.1 == c)) = true
  rw [isleOf_arrived]
  exact (allArrived_iff _ _).mpr hall

theorem completeBarrier_eq : completeBarrier (myIsle s) (arrived ends k s) =
    if endFormOf ends s then beginEnd (myIsle s) 0 (gathered ends k s)
    else (isleCores (isleOf s (myIsle s))).foldl releasePilot (gathered ends k s) := by
  unfold completeBarrier
  rw [isleOf_arrived]
  rfl

/-- The lead came by SBAR.END: the launch begins to end. -/
theorem completeBarrier_ends (h : endFormOf ends s = true) :
    completeBarrier (myIsle s) (arrived ends k s) = beginEnd (myIsle s) 0 (gathered ends k s) := by
  rw [completeBarrier_eq, if_pos h]

/-- The lead came by SBAR: the pilots of the isle go on. -/
theorem completeBarrier_releases (h : endFormOf ends s = false) : completeBarrier (myIsle s) (arrived ends k s) =
    (isleCores (isleOf s (myIsle s))).foldl releasePilot (gathered ends k s) := by
  rw [completeBarrier_eq, h, if_neg Bool.false_ne_true]

end

/-! ### The barrier that completes (R120) -/

/-- A launch that begins to end keeps its arrivals and stands at its status. -/
theorem isleOf_beginEnd (n st : Nat) (s : State) : isleOf (beginEnd n st s) n =
    { stopGraphs (if st = 0 then .drain else .abort) (isleOf s n) with phase := .ending st, resume := none, quiesceAt := none } := by
  unfold beginEnd
  rw [isleOf_foldl_onCore (fun _ => haltPilotOf), isleOf_onIsle_self]

/-- A launch that begins to end leaves all of a core but its pilot alone. -/
theorem coreOf_beginEnd {γ : Type} {g : Core → γ} (hg : ∀ x p, g { x with pilot := p } = g x) (n st : Nat) (s : State) (c : Nat) :
    g (coreOf (beginEnd n st s) c) = g (coreOf s c) := by
  unfold beginEnd
  rw [foldl_onCore_frame g (h := fun _ => haltPilotOf) (fun _ _ => hg _ _), coreOf_onIsle]

theorem counterOf_beginEnd (n st : Nat) (s : State) (c q : Nat) : counterOf (beginEnd n st s) c q = counterOf s c q :=
  congrArg (fun v => v.toList.getD q 0) (coreOf_beginEnd (g := Core.counters) (fun _ _ => rfl) n st s c)

/-- Every pilot of a launch that begins to end stops. -/
theorem beginEnd_stops {n st c : Nat} {s : State} (hc : c ∈ isleCores (isleOf s n)) :
    (coreOf (beginEnd n st s) c).pilot.running = false := by
  unfold beginEnd
  refine foldl_onCore_mem (p := fun x => x.pilot.running = false) (h := fun _ => haltPilotOf) (fun _ => rfl) ?_ _
  rwa [isleOf_onIsle_self]

section
variable {ends : Bool} {k : Option Ctr} {s : State}

theorem pilot_arrived : (coreOf (arrived ends k s) s.turn).pilot = { pilot s with stage := .sbarWait } := by
  rw [arrived, coreOf_onIsle, coreOf_onPilot_self]
  rfl

/-- What neither an arriving pilot nor a counter that rises shows is the same once the barrier has gathered. -/
theorem coreOf_gathered {γ : Type} {g : Core → γ} (hpilot : ∀ x st, g { x with pilot := { x.pilot with stage := st } } = g x)
    (hraise : ∀ clk k inc x, g (raiseIn clk k inc x) = g x) (c : Nat) : g (coreOf (gathered ends k s) c) = g (coreOf s c) := by
  rw [gathered, coreOf_onIsle, foldl_raiseNamed_frame (g := fun s => g (coreOf s c)), arrived, coreOf_onIsle]
  · by_cases h : c = s.turn
    · rw [h, coreOf_onPilot_self, hpilot]
    · rw [coreOf_onPilot_ne _ _ h]
  · intro d j u
    rw [coreOf_raiseCounter]
    split
    · next h => rw [hraise, h]
    · rfl

/-- What neither cores, the hub nor nydb show is the same once the barrier has gathered. -/
theorem gathered_frame {γ : Type} {g : State → γ} (hcore : ∀ c f s, g (onCore c f s) = g s)
    (hrest : ∀ h y s, g { s with hub := h, nydb := y } = g s) : g (gathered ends k s) = g s := by
  have isle (n : Nat) (f : Isle → Isle) (s : State) : g (onIsle n f s) = g s := hrest _ s.nydb s
  rw [gathered, isle, foldl_raiseNamed_frame (fun c j => raiseCounter_frame hcore hrest c j 1), arrived, isle]
  exact hcore _ _ s

theorem isleOf_gathered (hbreaks : s.nydb.breaks = []) : isleOf (gathered ends k s) (myIsle s) =
    { isleOf s (myIsle s) with arrivals := [], endForm := false } := by
  rw [gathered, isleOf_onIsle_self, foldl_raiseNamed_isle (by exact hbreaks), isleOf_arrived]

/-- Every counter has risen by as many arrivals as name it. -/
theorem counterOf_gathered (c : Nat) {q : Nat} (hq : q < 64) : counterOf (gathered ends k s) c q =
    counterOf s c q + BitVec.ofNat 64 ((arrivalsOf k s).filter (· == (c, some q))).length := by
  have before : counterOf (arrived ends k s) c q = counterOf s c q :=
    counterOf_onPilot s.turn (fun p => { p with stage := .sbarWait }) s c q
  rw [← before]
  exact counterOf_foldl_raiseNamed _ _ _ hq

/-- The clock of a pilot is the same once the barrier has gathered. -/
theorem ptsOf_gathered (c : Nat) : ptsOf (gathered ends k s) (some (.pilot c)) = ptsOf s (some (.pilot c)) := by
  refine ptsOf_congr rfl ?_ ?_ ?_ ?_
  · exact gathered_frame (fun _ _ _ => rfl) (fun _ _ _ => rfl)
  · exact coreOf_gathered (g := Core.pts) (fun _ _ => rfl)
      (raiseIn_frame (fun _ _ _ => rfl) (fun _ => rfl) (fun _ => rfl)) c
  · exact coreOf_gathered (g := Core.fabricPts) (fun _ _ => rfl)
      (raiseIn_frame (fun _ _ _ => rfl) (fun _ => rfl) (fun _ => rfl)) c
  · exact coreOf_gathered (g := Core.readWts) (fun _ _ => rfl)
      (raiseIn_frame (fun _ _ _ => rfl) (fun _ => rfl) (fun _ => rfl)) c

/-- Gathering leaves the wait inside a handler alone. -/
theorem gathered_savedStage (c : Nat) : (coreOf (gathered ends k s) c).pilot.savedStage = (coreOf s c).pilot.savedStage := by
  refine coreOf_gathered (g := fun x => x.pilot.savedStage) (fun _ _ => rfl)
    (raiseIn_frame (g := fun x => x.pilot.savedStage) (fun _ _ _ => rfl) (fun x => ?_) (fun _ => rfl)) c
  show (x.pilot.setReg x.pilot.wfeGd 0).savedStage = _
  unfold Pilot.setReg
  split <;> rfl

/-- A pilot in no WFE is but for its latch as it arrived. -/
theorem gathered_pilot {c : Nat} (h : (coreOf s c).pilot.wfeUntil = none) :
    ∃ b, (coreOf (gathered ends k s) c).pilot = { (coreOf (arrived ends k s) c).pilot with eventLatch := b } := by
  refine foldl_raiseNamed_pilot ?_ _
  rw [arrived, coreOf_onIsle]
  by_cases hc : c = s.turn
  · rw [hc] at h ⊢
    rw [coreOf_onPilot_self]
    exact h
  · rwa [coreOf_onPilot_ne _ _ hc]

/-- A pilot keeps its registers and its program counter as it arrives. -/
theorem arrived_frame {γ : Type} {g : Pilot → γ} (hg : ∀ p st, g { p with stage := st } = g p) (c : Nat) :
    g (coreOf (arrived ends k s) c).pilot = g (coreOf s c).pilot := by
  rw [arrived, coreOf_onIsle]
  by_cases hc : c = s.turn
  · rw [hc, coreOf_onPilot_self, hg]
  · rw [coreOf_onPilot_ne _ _ hc]

/-- With all arrived and the lead at SBAR, every pilot that was in no WFE and waits goes on. -/
theorem released_waiting {cs : List Nat} {c : Nat} (hc : c ∈ cs) (hstage : (coreOf (arrived ends k s) c).pilot.stage = .sbarWait)
    (hwfe : (coreOf s c).pilot.wfeUntil = none) :
    (coreOf (cs.foldl releasePilot (gathered ends k s)) c).pilot.pc = (coreOf s c).pilot.pc + 8 ∧
    (coreOf (cs.foldl releasePilot (gathered ends k s)) c).pilot.stage = .none ∧
    (coreOf (cs.foldl releasePilot (gathered ends k s)) c).pilot.regs = (coreOf s c).pilot.regs := by
  obtain ⟨b, hb⟩ := gathered_pilot (ends := ends) (k := k) hwfe
  obtain ⟨hpc, hnone, hregs⟩ := releasedPilot_waiting (p := (coreOf (gathered ends k s) c).pilot) (by rw [hb]; exact hstage)
  have pcKept : (coreOf (gathered ends k s) c).pilot.pc = (coreOf s c).pilot.pc :=
    (congrArg Pilot.pc hb).trans (arrived_frame (g := Pilot.pc) (fun _ _ => rfl) c)
  have regsKept : (coreOf (gathered ends k s) c).pilot.regs = (coreOf s c).pilot.regs :=
    (congrArg Pilot.regs hb).trans (arrived_frame (g := Pilot.regs) (fun _ _ => rfl) c)
  rw [foldl_releasePilot_pilot hc, hpc, hnone, hregs, pcKept, regsKept]
  exact ⟨rfl, rfl, rfl⟩

/-- The pilot of an isle of one core completes its SBAR. -/
theorem released_alone (hwfe : (pilot s).wfeUntil = none) (hsaved : (pilot s).savedStage ≠ .sbarWait) :
    Completed (acquire s.turn (gathered ends k s)) 0 0 ((pilot s).pc + 8) (releasePilot (gathered ends k s) s.turn) := by
  have turn : (gathered ends k s).turn = s.turn :=
    gathered_frame (g := State.turn) (fun _ _ _ => rfl) (fun _ _ _ => rfl)
  obtain ⟨b, hb⟩ := gathered_pilot (ends := ends) (k := k) hwfe
  rw [pilot_arrived] at hb
  have waits : pilot (gathered ends k s) = { pilot s with stage := .sbarWait, eventLatch := b } := by rw [pilot, turn, hb]
  have done := completed_releasePilot (s := gathered ends k s) (by rw [waits]) (by rw [waits]; exact hsaved)
  rw [turn, waits] at done
  exact done

/-- SBAR or SBAR.END, owing nothing, arrives at the barrier. -/
theorem exec_barrier_arrives (hstage : (pilot s).stage = .none) (howed : NothingOwed s) :
    exec (if ends then .sbarEnd k else .sbar k) s = .next (arriveBarrier ends k s) := by
  have arrives : barrierInstr ends k s = arriveBarrier ends k s := by
    rw [barrierInstr, hstage]
    exact afterRelease_owed howed _
  rw [← arrives]
  cases ends <;> rfl

end

/-- Settles O38: the state in which all have arrived and the counters have risen is `gathered`; from it the launch begins to end or
the pilots of the isle go on, one after another, each as if alone. -/
theorem isleBarriers : Obligations.IsleBarriers := by
  intro s k ends hbreaks howed hstage n i arr fin w x y j all
  have arrives : exec j s = .next (arriveBarrier ends k s) := exec_barrier_arrives hstage howed
  refine ⟨fun hall => ?_, fun hall hfin => ?_, fun hall hfin => ?_⟩
  · exact arrives.trans (congrArg Host.Outcome.next (arriveBarrier_waits hall))
  · rw [arriveBarrier_completes hall, completeBarrier_ends hfin] at arrives
    have hisle := isleOf_beginEnd n 0 (gathered ends k s)
    rw [isleOf_gathered hbreaks] at hisle
    refine ⟨_, arrives, rfl, congrArg Isle.phase hisle, congrArg Isle.arrivals hisle, fun c q hq => ?_, fun c hc => beginEnd_stops ?_⟩
    · rw [counterOf_beginEnd]
      exact counterOf_gathered c hq
    · rw [isleOf_gathered hbreaks]
      exact hc
  · rw [arriveBarrier_completes hall, completeBarrier_releases hfin] at arrives
    obtain ⟨hms, hhost, hcycle, hhub⟩ := foldl_releasePilot_rest (isleCores i) (gathered ends k s)
    have hisle : isleOf ((isleCores i).foldl releasePilot (gathered ends k s)) n = { i with arrivals := [], endForm := false } := by
      rw [isleOf, hhub]
      exact isleOf_gathered hbreaks
    refine ⟨_, arrives, ?_, ?_, ?_, congrArg Isle.arrivals hisle, congrArg Isle.endForm hisle, by rw [hisle],
      fun c q hq => ?_, fun c hc => ⟨?_, released_waiting hc, fun hsaved => ?_⟩, fun hone hwfe hsaved => ?_⟩
    · exact hms.trans (gathered_frame (fun _ _ _ => rfl) (fun _ _ _ => rfl))
    · exact hhost.trans (gathered_frame (fun _ _ _ => rfl) (fun _ _ _ => rfl))
    · exact hcycle.trans (gathered_frame (fun _ _ _ => rfl) (fun _ _ _ => rfl))
    · rw [counterOf_foldl_releasePilot]
      exact counterOf_gathered c hq
    · have wts : latestWts (gathered ends k s) = latestWts s := gathered_frame (fun _ _ _ => rfl) (fun _ _ _ => rfl)
      rw [foldl_releasePilot_pts hc, ptsOf_gathered, wts]
    · rw [foldl_releasePilot_pilot hc, releasedPilot_savedStage, gathered_savedStage, if_pos hsaved]
    · rw [hone]
      exact released_alone hwfe hsaved

end Sys2Proof.Proofs

/-! SUPPORT. Graphs from pilots: CFGLD, CFGSEL, GO and STOPG (R116 to R119). -/

namespace Sys2Proof.Proofs

open Sys2Proof.Machine Sys2Proof.Safety Sys2Proof.Laws

/-- No slot that a map lists runs, as the instructions that wait ask. -/
theorem any_running_false {o : Option IsleSlot} (h : ∀ g, o = some g → g.running = false) : o.any (fun g => g.running) = false := by
  cases o with
  | none => rfl
  | some g => exact h g rfl

/-- The lead may load and select graphs while the block scheduler is off. -/
theorem mayConfigure_of_lead {s : State} (hlead : isLead s = true) (hoff : schedulerOn (isleOf s (myIsle s)) = false) :
    mayConfigure s = true := by
  rw [mayConfigure, hlead, hoff]
  rfl

section
variable {gd ga : Reg} {l : BitVec 2} {s : State}

/-! ### CFGLD (R116) -/

theorem execCfgld_begins (hstage : (pilot s).stage = .none) (hmay : mayConfigure s = true)
    (hidle : ∀ g, mapFind (isleOf s (myIsle s)).slots l.toNat = some g → g.running = false) (haligned : (reg s ga).toNat % 32 = 0) :
    exec (.cfgld ga l) s = done (onPilot s.turn (fun p => { p with stage := .cfgldWait })
      (beginLoad (myIsle s) l.toNat (reg s ga).toNat (some s.turn) s)) := by
  show execCfgld ga l s = _
  simp [execCfgld, hstage, hmay, any_running_false hidle, haligned]

@[simp] theorem pilot_onIsle (n : Nat) (f : Isle → Isle) (s : State) : pilot (onIsle n f s) = pilot s := rfl

theorem canTrap_onIsle (n : Nat) (f : Isle → Isle) {s : State} (h : CanTrap s) : CanTrap (onIsle n f s) := h

section
variable (hstage : (pilot s).stage = .cfgldWait) (hloaded : (isleOf s (myIsle s)).loader = none)
include hstage hloaded

theorem execCfgld_succeeds (hfail : (isleOf s (myIsle s)).loadFail = none) : exec (.cfgld ga l) s = done (advance s) := by
  show execCfgld ga l s = _
  simp [execCfgld, hstage, hloaded, hfail]

theorem execCfgld_fails {f : Nat × Nat} (hfail : (isleOf s (myIsle s)).loadFail = some f) :
    exec (.cfgld ga l) s = done (trapAt f.1 (BitVec.ofNat 64 f.2) (onIsle (myIsle s) (fun i => { i with loadFail := none }) s)) := by
  show execCfgld ga l s = _
  simp [execCfgld, hstage, hloaded, hfail]

end

/-! ### CFGSEL (R117) -/

/-- A slot whose cores are idle and whose reads and checks pass is selected. -/
theorem chooseSlot_selects {n sl : Nat} {g : IsleSlot} {ps : List (Nat × CoreSel)} {u : State} (hidle : coresBusy s n g.cores = false)
    (hready : prepareSelect s.turn sl g s = .ok ps u) :
    chooseSlot gd n sl g s = writeBack gd (BitVec.ofNat 64 sl) (selectSlot n sl g ps u) := by
  simp [chooseSlot, hidle, hready]

/-- CFGSEL names an image by no identity or by its own. -/
theorem execCfgsel_chooses {g : IsleSlot} (hmay : mayConfigure s = true)
    (hslot : mapFind (isleOf s (myIsle s)).slots l.toNat = some g) (hid : reg s ga = 0 ∨ (reg s ga).toNat = g.cfgid) :
    exec (.cfgsel gd ga l) s = done (chooseSlot gd (myIsle s) l.toNat g s) := by
  show execCfgsel gd ga l s = _
  simp only [execCfgsel, hmay, hslot, Bool.not_true, Bool.false_eq_true, if_false]
  have named : ¬ (reg s ga ≠ 0 ∧ (reg s ga).toNat ≠ g.cfgid) := fun ⟨hne, hother⟩ => hid.elim hne hother
  rw [if_neg named]

/-- CFGSEL.ID names an image by an identity, or that of its launch record. -/
theorem execCfgselId_chooses {g : IsleSlot} {sl : Nat} (hmay : mayConfigure s = true)
    (hslot : mapFind (isleOf s (myIsle s)).slots sl = some g)
    (hid : slotOfId (isleOf s (myIsle s))
      (if reg s ga = 0 then (isleOf s (myIsle s)).lrec.cfgid % 2 ^ 64 else (reg s ga).toNat) = some sl) :
    exec (.cfgselId gd ga) s = done (chooseSlot gd (myIsle s) sl g s) := by
  have named : (if reg s ga ≠ 0 then reg s ga else BitVec.ofNat 64 (isleOf s (myIsle s)).lrec.cfgid).toNat =
      if reg s ga = 0 then (isleOf s (myIsle s)).lrec.cfgid % 2 ^ 64 else (reg s ga).toNat := by
    split <;> simp_all
  show execCfgselId gd ga s = _
  simp only [execCfgselId, hmay, named, hid, Bool.not_true, Bool.false_eq_true, if_false, mapGet, hslot, Option.getD_some]

/-! ### GO (R118) -/

@[simp] theorem startGraph_turn (n slot : Nat) (g : IsleSlot) (e : Option (Nat × Nat)) (s : State) :
    (startGraph n slot g e s).turn = s.turn :=
  foldl_frame (f := fun s c => acquireFabric c (onCore c goCore s)) (g := State.turn) (fun _ _ => rfl) g.cores s

variable {wait : Bool} {k : Option Ctr}

section
variable {g : IsleSlot} (hstage : (pilot s).stage = .none) (hoff : schedulerOn (isleOf s (myIsle s)) = false)
  (hle : (reg s ga).toNat ≤ 3) (hslot : mapFind (isleOf s (myIsle s)).slots (reg s ga).toNat = some g) (hsel : g.selected = true)
  (hidle : g.running = false) (hgeom : ∀ c ∈ g.cores, goRefused (coreOf s c) = none) (howed : NothingOwed s)
include hstage hoff hle hslot hsel hidle hgeom howed

/-- GO of a selected idle graph whose tables keep their geometry starts it, once the pilot owes nothing. -/
theorem goInstr_starts : goInstr wait ga k s =
    if wait then onPilot s.turn (fun p => { p with stage := .goWait (reg s ga).toNat })
      (startGraph (myIsle s) (reg s ga).toNat g (k.map (fun k => (s.turn, k.toNat))) s)
    else advance (startGraph (myIsle s) (reg s ga).toNat g (k.map (fun k => (s.turn, k.toNat))) s) := by
  have keep : g.cores.findSome? (fun c => goRefused (coreOf s c)) = none := List.findSome?_eq_none_iff.mpr hgeom
  unfold goInstr
  simp only [hstage, hoff, hle, hslot, hsel, hidle, keep, afterRelease_owed howed, startGraph_turn, Bool.false_eq_true, if_false, if_true,
    Bool.not_true, or_self]

theorem execGo_starts : exec (.go ga k) s =
    done (advance (startGraph (myIsle s) (reg s ga).toNat g (k.map (fun k => (s.turn, k.toNat))) s)) :=
  congrArg done (goInstr_starts hstage hoff hle hslot hsel hidle hgeom howed)

theorem execGoWait_starts : exec (.goWait ga k) s = done (onPilot s.turn (fun p => { p with stage := .goWait (reg s ga).toNat })
    (startGraph (myIsle s) (reg s ga).toNat g (k.map (fun k => (s.turn, k.toNat))) s)) :=
  congrArg done (goInstr_starts hstage hoff hle hslot hsel hidle hgeom howed)

end

/-- GO.WAIT goes on once the graph has ended, and acquires. -/
theorem goInstr_ended {m : Nat} (hstage : (pilot s).stage = .goWait m)
    (hended : ∀ g, mapFind (isleOf s (myIsle s)).slots m = some g → g.running = false) :
    goInstr wait ga k s = advance (acquire s.turn s) := by
  unfold goInstr
  simp only [hstage, any_running_false hended, Bool.false_eq_true, if_false]
  rfl

/-- While the block scheduler runs, GO traps. -/
theorem goInstr_scheduler (hstage : (pilot s).stage = .none) (hon : schedulerOn (isleOf s (myIsle s)) = true) :
    goInstr wait ga k s = trapFree causePerm s := by
  unfold goInstr
  simp only [hstage, hon, if_true]

/-! ### STOPG (R119) -/

variable {form : StopForm}

/-- STOPG asks a running graph to stop, and waits for its end. -/
theorem stopInstr_asks {g : IsleSlot} (hstage : (pilot s).stage = .none) (hoff : schedulerOn (isleOf s (myIsle s)) = false)
    (hle : (reg s ga).toNat ≤ 3) (hslot : mapFind (isleOf s (myIsle s)).slots (reg s ga).toNat = some g) (hrun : g.running = true) :
    stopInstr form ga s = onPilot s.turn (fun p => { p with stage := .stopWait (reg s ga).toNat })
      (onIsle (myIsle s) (fun i => { i with slots := mapPut i.slots (reg s ga).toNat (askStop form g) }) s) := by
  unfold stopInstr
  simp only [hstage, hoff, hle, hslot, hrun, Bool.false_eq_true, if_false, if_true, Bool.not_true, onIsle_turn]

/-- STOPG of a graph that does not run, or of no slot, does nothing. -/
theorem stopInstr_idle (hstage : (pilot s).stage = .none) (hoff : schedulerOn (isleOf s (myIsle s)) = false)
    (hidle : ∀ g, mapFind (isleOf s (myIsle s)).slots (reg s ga).toNat = some g → g.running = false) :
    stopInstr form ga s = advance s := by
  unfold stopInstr
  simp only [hstage, hoff, Bool.false_eq_true, if_false]
  split
  · rfl
  · next g hslot =>
    have listed : mapFind (isleOf s (myIsle s)).slots (reg s ga).toNat = some g := by
      split at hslot
      · exact hslot
      · cases hslot
    rw [hidle g listed]
    rfl

/-- STOPG goes on once the graph has ended. -/
theorem stopInstr_ended {m : Nat} (hstage : (pilot s).stage = .stopWait m)
    (hended : ∀ g, mapFind (isleOf s (myIsle s)).slots m = some g → g.running = false) : stopInstr form ga s = advance s := by
  unfold stopInstr
  simp only [hstage, any_running_false hended, Bool.false_eq_true, if_false]

/-- While the block scheduler runs, STOPG traps. -/
theorem stopInstr_scheduler (hstage : (pilot s).stage = .none) (hon : schedulerOn (isleOf s (myIsle s)) = true) :
    stopInstr form ga s = trapFree causePerm s := by
  unfold stopInstr
  simp only [hstage, hon, if_true]

/-- STOPG and STOPG.ABORT are one instruction in two forms. -/
theorem exec_stop {j : Instr} (h : (j, form) = (.stopg ga, .drain) ∨ (j, form) = (.stopgAbort ga, .abort)) :
    exec j s = done (stopInstr form ga s) := by
  rcases h with h | h <;> cases h <;> rfl

end

/-- Settles O39: each instruction by its effect at the stage in which it stands. -/
theorem graphsLoadAndRun : Obligations.GraphsLoadAndRun := by
  intro gd ga s n i a sl goes
  refine ⟨?_, ?_, ?_, ?_, ?_, ?_, ?_, ?_⟩
  · intro l hstage hlead hoff hidle haligned
    exact execCfgld_begins hstage (mayConfigure_of_lead hlead hoff) hidle haligned
  · intro l hstage hloaded hfail
    exact completes_of_advance (execCfgld_succeeds hstage hloaded hfail)
  · intro l f hstage hloaded hfail htrap
    obtain ⟨t, hexec, htrapped⟩ := traps_of_trapAt (execCfgld_fails (ga := ga) hstage hloaded hfail) (canTrap_onIsle _ _ htrap)
    rw [pilot_onIsle] at htrapped
    exact ⟨t, hexec, htrapped⟩
  · intro l g ps u hlead hoff hslot hidle hready x
    have hmay := mayConfigure_of_lead hlead hoff
    refine ⟨fun hid => completes_of_writeBack ?_, fun hid => completes_of_writeBack ?_⟩
    · rw [execCfgsel_chooses hmay hslot hid, chooseSlot_selects hidle hready]
    · rw [execCfgselId_chooses hmay hslot hid, chooseSlot_selects hidle hready]
  · intro k g hstage hoff hle hslot hsel hidle hgeom howed x
    have turn : x.turn = s.turn := startGraph_turn _ _ _ _ _
    refine ⟨completes_of_advance (execGo_starts hstage hoff hle hslot hsel hidle hgeom howed), ?_⟩
    rw [turn]
    exact execGoWait_starts hstage hoff hle hslot hsel hidle hgeom howed
  · intro k m hstage hended
    exact completes_of_advance (congrArg done (goInstr_ended hstage hended))
  · intro j f hj hoff
    refine ⟨fun g hstage hle hslot hrun => ?_, fun hstage hidle => ?_, fun m hstage hended => ?_⟩
    · rw [exec_stop hj, stopInstr_asks hstage hoff hle hslot hrun]
      rfl
    · exact completes_of_advance (by rw [exec_stop hj, stopInstr_idle hstage hoff hidle])
    · exact completes_of_advance (by rw [exec_stop hj, stopInstr_ended hstage hended])
  · intro j hj hon hstage htrap
    have traps : exec j s = done (trapFree causePerm s) := by
      rcases hj with ⟨k, rfl | rfl⟩ | rfl | rfl
      · exact congrArg done (goInstr_scheduler hstage hon)
      · exact congrArg done (goInstr_scheduler hstage hon)
      · exact congrArg done (stopInstr_scheduler hstage hon)
      · exact congrArg done (stopInstr_scheduler hstage hon)
    exact traps_of_trapAt (x := drew s) traps htrap

end Sys2Proof.Proofs

/-! SUPPORT. Launches that end, isles that are freed, victims that are drained and saved, graphs that end, and turns of the block
scheduler (R102, R103, R106 to R108, R118, R352, R354). -/

namespace Sys2Proof.Proofs

open Sys2Proof.Machine Sys2Proof.Safety Sys2Proof.Laws

/-! ### Streams that end (R133) -/

/-- Ending a stream shows in cores alone. -/
theorem severRoute_frame {γ : Type} {g : State → γ} (hcore : ∀ c f s, g (onCore c f s) = g s) (c : Nat) (s : State) (e : Nat × Route) :
    g (severRoute c s e) = g s := by
  unfold severRoute
  split
  · rfl
  · dsimp only
    split
    · split
      · rw [hcore, hcore]
      · rw [hcore]
    · rw [hcore]

theorem severFrom_frame {γ : Type} {g : State → γ} (hcore : ∀ c f s, g (onCore c f s) = g s) (n : Nat) (s : State) :
    g (severFrom n s) = g s :=
  foldl_frame (fun u c => foldl_frame (severRoute_frame hcore c) (straitRoutes u c) u) _ s

theorem severInto_frame {γ : Type} {g : State → γ} (hcore : ∀ c f s, g (onCore c f s) = g s) (n : Nat) (s : State) :
    g (severInto n s) = g s := by
  refine foldl_frame (g := g) (fun u e => ?_) _ s
  exact foldl_frame (severRoute_frame hcore e.1) _ u

/-- The streams into an isle and out of it have ended. -/
def severed (n : Nat) (s : State) : State := severFrom n (severInto n s)

@[simp] theorem isleOf_severed (n : Nat) (s : State) (m : Nat) : isleOf (severed n s) m = isleOf s m :=
  (severFrom_frame (g := fun s => isleOf s m) (fun _ _ _ => rfl) n _).trans (severInto_frame (g := fun s => isleOf s m) (fun _ _ _ => rfl) n s)

/-! ### End statuses (R102) -/

theorem onIsle_ends (n : Nat) (f : Isle → Isle) (s : State) : (onIsle n f s).hub.ends = s.hub.ends := rfl

theorem holdMsg_ends (ctx c : Nat) (m : HeldMsg) (s : State) : (holdMsg ctx c m s).hub.ends = s.hub.ends := by
  unfold holdMsg
  dsimp only
  split <;> rfl

theorem deliver_ends (ctx c k : Nat) (inc : Word) (s : State) : (deliver ctx c k inc s).hub.ends = s.hub.ends := by
  unfold deliver
  split
  · rfl
  · exact holdMsg_ends _ _ _ _

/-- An increment by number ends no launch, wherever it goes. -/
theorem hubRaise_ends (c k : Nat) (inc : Word) (s : State) : (hubRaise c k inc s).hub.ends = s.hub.ends := by
  unfold hubRaise
  dsimp only
  split
  · exact deliver_ends _ _ _ _ _
  · split
    · exact holdMsg_ends _ _ _ _
    · exact raiseCounter_view (g := fun s => s.hub.ends) (fun _ _ => rfl) (fun _ _ _ => rfl) (fun _ _ => rfl) c k inc s

theorem tellChip_ends (m : ChipMsg) (s : State) : (tellChip m s).hub.ends = s.hub.ends := by
  unfold tellChip
  split <;> rfl

theorem dropHeld_ends (l : List HeldMsg) (s : State) : (dropHeld l s).hub.ends = s.hub.ends := by
  refine foldl_frame (g := fun s => s.hub.ends) (fun u h => ?_) l s
  split
  · rfl
  · split
    · rfl
    · exact tellChip_ends _ _

/-- A launch that is announced has its end status. -/
theorem announceEnd_status (r : LaunchRec) (seq st : Nat) (s : State) : mapFind (announceEnd r seq st s).hub.ends seq = some st := by
  have kept : (announceEnd r seq st s).hub.ends = mapPut s.hub.ends seq st := by
    unfold announceEnd
    dsimp only
    split <;> split <;> simp [hubRaise_ends]
  rw [kept, mapFind_mapPut_self]

/-- A launch that completes, before its isle is held or freed: it is announced, and its held messages are answered. -/
def announced (n st : Nat) (s : State) : State :=
  dropHeld (isleOf s n).heldMsgs (announceEnd (isleOf s n).lrec (isleOf s n).seq st s)

theorem completeEnd_eq (n st : Nat) (s : State) : completeEnd n st s = onIsle n (fun k =>
    { k with heldMsgs := [], phase := if st = 0 then .held else .free, holdUntil := (announced n st s).cycle + 2 ^ 14
             attached := false, frozen := false }) (announced n st s) := rfl

/-- A launch that completes has its end status, and its isle is held after SBAR.END and free else. -/
theorem completeEnd_status (n st : Nat) (s : State) :
    (isleOf (completeEnd n st s) n).phase = (if st = 0 then .held else .free) ∧
    mapFind (completeEnd n st s).hub.ends (isleOf s n).seq = some st := by
  rw [completeEnd_eq]
  exact ⟨by rw [isleOf_onIsle_self], by rw [onIsle_ends, announced, dropHeld_ends, announceEnd_status]⟩

/-- A launch that is ending completes once its graphs have stopped and its copies and stores are done. -/
theorem launchEnd_completes {n st : Nat} {s : State} (hphase : (isleOf s n).phase = .ending st)
    (hslots : ∀ e ∈ (isleOf s n).slots, e.2.running = false) (hdone : ∀ c ∈ isleCores (isleOf s n), writesDone (severed n s) c = true) :
    launchEnd n s = completeEnd n st (severed n s) := by
  unfold launchEnd
  simp only [hphase]
  rw [← severed]
  refine if_pos ?_
  rw [Bool.and_eq_true, List.all_eq_true, List.all_eq_true]
  exact ⟨fun e he => by simp [hslots e he], hdone⟩

/-- The hold of an isle expires. -/
theorem isleRelease_frees {n : Nat} {s : State} (hphase : (isleOf s n).phase = .held) (hhold : (isleOf s n).holdUntil ≤ s.cycle) :
    isleRelease n s = onIsle n (fun i => { i with phase := .free }) s := if_pos ⟨hphase, hhold⟩

/-! ### Victims (R103, R352, R354) -/

theorem preempt_stops {l : QLaunch} {vs : List (Nat × Isle)} {s : State} (hl : preemptor s = some l)
    (hvs : bestVictims s l.lrec = some vs) : preempt s = vs.foldl (fun s e => stopVictim l.seq s e.1) s := by
  unfold preempt
  simp only [hl, hvs]

/-- An isle whose victim stops: it drains from this clk on for the launch that chose it, and its streams have ended. -/
def stoppedVictim (q : Nat) (s : State) (m : Nat) : State :=
  severed m (onIsle m (fun i => { i with phase := .drain, stopAt := s.cycle, preemptedBy := q }) s)

theorem stopVictim_eq (q : Nat) (s : State) (m : Nat) : stopVictim q s m = tallyHub 0x302
    ((isleCores (isleOf (stoppedVictim q s m) m)).foldl (fun s c => onCore c (fun x => { x with lastMove := s.cycle }) s) (stoppedVictim q s m)) := rfl

@[simp] theorem isleOf_tallyHub (code : Nat) (s : State) (m : Nat) : isleOf (tallyHub code s) m = isleOf s m := rfl

theorem isleOf_stopVictim (q : Nat) (s : State) (m : Nat) : isleOf (stopVictim q s m) m =
    { isleOf s m with phase := .drain, stopAt := s.cycle, preemptedBy := q } := by
  have kept (cs : List Nat) (u : State) :
      isleOf (cs.foldl (fun s c => onCore c (fun x => { x with lastMove := s.cycle }) s) u) m = isleOf u m :=
    foldl_frame (f := fun s c => onCore c (fun x => { x with lastMove := s.cycle }) s)
      (g := fun s => isleOf s m) (fun _ _ => rfl) cs u
  rw [stopVictim_eq, isleOf_tallyHub, kept, stoppedVictim, isleOf_severed, isleOf_onIsle_self]

section
variable {n : Nat} {s : State}

/-- A victim whose tokens have been still for 64 clk goes on to its owed writes. -/
theorem drainQuiet_owes (hphase : (isleOf s n).phase = .drain) (hfrozen : (isleOf s n).frozen = false) (hdone : completing s n = false)
    (hstill : ∀ c ∈ isleCores (isleOf s n), (coreOf s c).lastMove + 64 ≤ s.cycle ∧ wiresStill s c = true) :
    drainQuiet n s = onIsle n (fun i => { i with phase := .owed }) s := by
  refine if_pos ⟨hphase, by simp [hfrozen], by simp [hdone], ?_⟩
  rw [List.all_eq_true]
  exact fun c hc => by simpa using hstill c hc

/-- Past the drain limit the fabric freezes, and the save waits for the engines. -/
theorem drainLimit_freezes (hphase : (isleOf s n).phase = .drain ∨ (isleOf s n).phase = .owed) (hfrozen : (isleOf s n).frozen = false)
    (hlimit : (isleOf s n).stopAt + 2 ^ s.hub.drainlim ≤ s.cycle) (hquiesce : (isleOf s n).quiesceAt = none)
    (hbusy : ∃ c ∈ isleCores (isleOf s n), enginesQuiet
      (onIsle n (fun i => { i with quiesceAt := some s.cycle, rollback := false, phase := .owed }) s) c = false) :
    drainLimit n s = onIsle n (fun i => { i with quiesceAt := some s.cycle, rollback := false, phase := .owed }) s := by
  obtain ⟨c, hc, hbusy⟩ := hbusy
  unfold drainLimit
  simp only [hquiesce, Option.isNone_none, if_true]
  rw [if_pos ⟨hphase, by simp [hfrozen], hlimit⟩]
  refine if_neg fun h => ?_
  rw [List.all_eq_true] at h
  exact absurd (h c hc) (by simp [hbusy])

/-- Past the quiesce bound the save is late if some engine is not quiet. -/
theorem quiesceBound_marks {q : Nat} (hquiesce : (isleOf s n).quiesceAt = some q) (hfrozen : (isleOf s n).frozen = false)
    (hbound : q + 1600 ≤ s.cycle) (hphase : (isleOf s n).phase ≠ .owed) : quiesceBound n s =
      onIsle n (fun j => { j with rollback := !(isleCores (isleOf s n)).all (enginesQuiet s) }) s := by
  unfold quiesceBound
  simp only [hquiesce]
  rw [if_pos ⟨hbound, by simp [hfrozen]⟩]
  refine if_neg ?_
  rw [isleOf_onIsle_self]
  exact hphase

/-- The hub saves a drained isle whose cocoon can be written. -/
theorem hubSave_parks {v : State} (hrollback : (isleOf s n).rollback = false)
    (hwrite : writeCocoon n (cocoonAddr (isleOf s n)) (makeCocoon false false 0 n s) s = .ok () v) :
    hubSave false n s = parkLaunch n (makeCocoon false false 0 n s) v := by
  simp [hubSave, hwrite, hrollback]

/-- With every owed write performed and its windows written back, a victim is saved. -/
theorem saveOwed_saves {u : State} (hphase : (isleOf s n).phase = .owed) (hquiesce : (isleOf s n).quiesceAt = none)
    (hfrozen : (isleOf s n).frozen = false) (hdone : ∀ c ∈ isleCores (isleOf s n), owedDone s c = true)
    (hwindows : saveWindows (isleCores (isleOf s n)) s = (true, u)) : saveOwed n s = hubSave false n u := by
  unfold saveOwed
  dsimp only
  rw [if_pos ⟨hphase, by simp [hquiesce], by simp [hfrozen], List.all_eq_true.mpr hdone⟩, hwindows]

/-- A saved isle leaves its place; its cocoon and its record stay with the hub, and what it asked of other chips goes with it. -/
theorem parkLaunch_saves (k : Cocoon) (v : State) : (isleOf (parkLaunch n k v) n).phase = .free ∧
    (parkLaunch n k v).hub.saved = v.hub.saved ++ [k] ∧ (parkLaunch n k v).cores = v.cores ∧
    (parkLaunch n k v).ms = { v.ms with exSlots := (parkLaunch n k v).ms.exSlots, far := (parkLaunch n k v).ms.far } ∧
    (parkLaunch n k v).ms.exSlots = v.ms.exSlots.filter (fun e => !(isleCores (isleOf v n)).contains e.srcCore) ∧
    (mapGet [] (parkLaunch n k v).hub.fifos (isleOf v n).lrec.prio).head?.map (fun q => (q.seq, q.saved)) =
      some ((isleOf v n).seq, true) := by
  refine ⟨?_, rfl, rfl, rfl, rfl, ?_⟩
  · exact congrArg Isle.phase (mapGet_mapPut_self _ _ _ _)
  · exact congrArg (fun q : List QLaunch => q.head?.map fun q => (q.seq, q.saved)) (mapGet_mapPut_self _ _ _ _)

/-! ### The end of a graph (R118) -/

/-- The end of a graph shows to a pilot that waits for it in its core alone. -/
theorem wakeWaiter_frame {γ : Type} {g : State → γ} (hcore : ∀ c f s, g (onCore c f s) = g s) (slot : Nat) (s : State) (c : Nat) :
    g (wakeWaiter slot s c) = g s := by
  unfold wakeWaiter
  dsimp only
  split
  · rw [finishWait, hcore]
    split
    · rw [acquire, raisePts, hcore]
    · rfl
  · split
    · exact hcore _ _ _
    · rfl

/-- The flags of a graph are gathered in FPFLAGS. -/
theorem isleOf_gatherFlags (s : State) : ∃ f, isleOf (gatherFlags n s) n = { isleOf s n with fpflags := f } := by
  unfold gatherFlags
  dsimp only
  exact ⟨_, by rw [isleOf_onIsle_self, isleOf_foldl_onCore (fun _ => clearFlags)]⟩

/-- The slot of a graph that has ended, and its cores. -/
def endedGraph (n slot : Nat) (g : IsleSlot) (s : State) : State :=
  onIsle n (fun i => { i with slots := mapPut i.slots slot { g with running := false, stop := none, endK := none } })
    (gatherFlags n (g.cores.foldl (fun s c => onCore c (endOnCore s.cycle) s) s))

theorem isleOf_endedGraph (slot : Nat) (g : IsleSlot) (s : State) : ∃ f, isleOf (endedGraph n slot g s) n =
    { isleOf s n with fpflags := f, slots := mapPut (isleOf s n).slots slot { g with running := false, stop := none, endK := none } } := by
  have cores : isleOf (g.cores.foldl (fun s c => onCore c (endOnCore s.cycle) s) s) n = isleOf s n :=
    foldl_frame (g := fun s => isleOf s n) (f := fun s c => onCore c (endOnCore s.cycle) s) (fun _ _ => rfl) _ s
  obtain ⟨f, hf⟩ := isleOf_gatherFlags (n := n) (g.cores.foldl (fun s c => onCore c (endOnCore s.cycle) s) s)
  refine ⟨f, ?_⟩
  rw [endedGraph, isleOf_onIsle_self, hf, cores]

theorem endedGraph_ms (slot : Nat) (g : IsleSlot) (s : State) : (endedGraph n slot g s).ms = s.ms := by
  have gathered (u : State) : (gatherFlags n u).ms = u.ms := foldl_onCore_ms (fun _ => clearFlags) _ u
  have cores : (g.cores.foldl (fun s c => onCore c (endOnCore s.cycle) s) s).ms = s.ms :=
    foldl_frame (g := State.ms) (f := fun s c => onCore c (endOnCore s.cycle) s) (fun _ _ => rfl) _ s
  rw [endedGraph, onIsle_ms, gathered, cores]

/-- A graph that ends with no counter to raise, on an isle that no restore waits for, frees its slot and wakes its waiters. -/
theorem finishGraph_ends {slot : Nat} {g : IsleSlot} (hcounter : g.endK = none) (hresume : (isleOf s n).resume = none) :
    mapFind (isleOf (finishGraph n slot g s) n).slots slot = some { g with running := false, stop := none, endK := none } ∧
    (finishGraph n slot g s).ms = s.ms := by
  obtain ⟨f, hisle⟩ := isleOf_endedGraph (n := n) slot g s
  have woken (cs : List Nat) : isleOf (cs.foldl (wakeWaiter slot) (endedGraph n slot g s)) n = isleOf (endedGraph n slot g s) n :=
    foldl_frame (g := fun s => isleOf s n) (wakeWaiter_frame (g := fun s => isleOf s n) (fun _ _ _ => rfl) slot) cs _
  have finished : finishGraph n slot g s =
      (isleCores (isleOf (endedGraph n slot g s) n)).foldl (wakeWaiter slot) (endedGraph n slot g s) := by
    unfold finishGraph
    simp only [hcounter]
    rw [← endedGraph]
    refine if_neg ?_
    rw [woken, hisle]
    simp [hresume]
  rw [finished]
  refine ⟨?_, ?_⟩
  · rw [woken, hisle, mapFind_mapPut_self]
  · exact (foldl_frame (wakeWaiter_frame (g := State.ms) (fun _ _ _ => rfl) slot) _ _).trans (endedGraph_ms slot g s)

/-- A graph whose nodes have ended, with nothing queued or owed, ends. -/
theorem graphEnd_finishes {slot : Nat} {g : IsleSlot} {u : State} (hslot : mapFind (isleOf s n).slots slot = some g)
    (hrun : g.running = true) (hfrozen : (isleOf s n).frozen = false)
    (hquiet : ∀ c ∈ g.cores, nodesEnded s c = true ∧ coreQuiet s c = true) (hback : writeBackMu slot g.cores s = (true, u)) :
    graphEnd n slot s = finishGraph n slot g u := by
  have all : g.cores.all (fun c => nodesEnded s c && coreQuiet s c) = true := by
    rw [List.all_eq_true]
    exact fun c hc => by simpa using hquiet c hc
  simp [graphEnd, hslot, hrun, hfrozen, all, hback]

/-! ### Turns of the block scheduler (R106 to R108) -/

/-- With no turn, the scheduler begins one of the block that it chooses. -/
theorem blockSwitch_begins {es : List BlockEntry} {u : State} {b : Nat} (hphase : (isleOf s n).phase = .running)
    (hfrozen : (isleOf s n).frozen = false) (hturn : (isleOf s n).turn = none) (hloaded : (isleOf s n).loader = none)
    (hon : (isleOf s n).blklen ≠ 0) (hread : readBlocks (leadOf (isleOf s n)) (isleOf s n).blklen 0 s = .ok es u)
    (hchoose : chooseBlock u n (leadOf (isleOf s n)) es = some b) :
    blockSwitch n s = beginTurn n (leadOf (isleOf s n)) es b u := by
  simp [blockSwitch, hphase, hfrozen, hturn, hloaded, hon, hread, hchoose]

/-- A turn of a block whose image is resident notes the tail of its queue, and nothing loads. -/
theorem beginTurn_resident {lead b : Nat} {es : List BlockEntry} {e : BlockEntry} {a : AtollCfg} (hentry : es[b]? = some e)
    (hatoll : blockAtoll s lead e = some a) (hresident : (slotOfId (isleOf s n) e.cfgid).isSome = true) :
    beginTurn n lead es b s = onIsle n (fun i =>
      { ageBlocks s lead es b i with turn := some (b, counterOf s lead a.tailk), turnOn := false, yielding := false }) s := by
  unfold beginTurn
  simp only [hentry, hatoll]
  refine if_pos ?_
  rw [isleOf_onIsle_self]
  exact hresident

end

/-! ### The clauses of LaunchesEnd -/

/-- Settles O47: each event by the lemma on what it does, and the isle and memory that it leaves by those of its parts. -/
theorem launchesEnd : Obligations.LaunchesEnd := by
  intro n s i lead
  refine ⟨?_, ?_, ?_, ?_, ?_, ?_, ?_, ?_, ?_⟩
  · intro st hphase u hslots hdone
    have status := completeEnd_status n st (severed n s)
    rw [isleOf_severed] at status
    exact ⟨_, congrArg done (launchEnd_completes hphase hslots hdone), status⟩
  · intro hphase hhold
    exact congrArg done (isleRelease_frees hphase hhold)
  · intro l vs hl hvs
    refine ⟨_, congrArg done (preempt_stops hl hvs), rfl, ?_⟩
    rintro m v rfl
    rw [List.foldl_cons, List.foldl_nil, isleOf_stopVictim]
    exact ⟨rfl, rfl, rfl⟩
  · intro hphase hfrozen hdone hstill
    exact congrArg done (drainQuiet_owes hphase hfrozen hdone hstill)
  · intro hphase hfrozen hlimit hquiesce u hbusy
    show done (drainLimit n s) = .next u
    rw [drainLimit_freezes hphase hfrozen hlimit hquiesce hbusy]
    rfl
  · intro u v hphase hquiesce hfrozen hdone hwindows hrollback k hwrite
    have saves : exec (.owedDone n) s = .next (parkLaunch n k v) :=
      congrArg done ((saveOwed_saves hphase hquiesce hfrozen hdone hwindows).trans (hubSave_parks hrollback hwrite))
    exact ⟨_, saves, parkLaunch_saves k v⟩
  · intro q hquiesce hfrozen hbound hphase
    exact congrArg done (quiesceBound_marks hquiesce hfrozen hbound hphase)
  · intro slot g u hslot hrun hfrozen hquiet hback hresume hcounter
    obtain ⟨hfree, hms⟩ := finishGraph_ends (slot := slot) hcounter hresume
    exact ⟨_, congrArg done (graphEnd_finishes hslot hrun hfrozen hquiet hback), hfree, congrArg MemSys.mem hms⟩
  · intro es u b e a hphase hfrozen hturn hloaded hon hread hchoose hentry hatoll hresident
    have begins := (blockSwitch_begins hphase hfrozen hturn hloaded hon hread hchoose).trans
      (beginTurn_resident hentry hatoll hresident)
    refine ⟨_, congrArg done begins, ?_, ?_, rfl, rfl⟩
    · rw [isleOf_onIsle_self]
    · rw [isleOf_onIsle_self]

end Sys2Proof.Proofs

/-! SUPPORT. Channels, exit queues and the moves of a core's tokens (R125, R163). -/

namespace Sys2Proof.Proofs

open Sys2Proof.Machine Sys2Proof.Safety Sys2Proof.Laws

/-! ### Moves of a core's tokens -/

section
variable (c : Nat) (f : Core → Core) (s : State)

@[simp] theorem moved_cycle : (moved c f s).cycle = s.cycle := rfl
@[simp] theorem moved_hub : (moved c f s).hub = s.hub := rfl
@[simp] theorem moved_ms : (moved c f s).ms = s.ms := rfl
@[simp] theorem moved_nydb : (moved c f s).nydb = s.nydb := rfl

theorem coreOf_moved_self : coreOf (moved c f s) c = { f (coreOf s c) with lastMove := s.cycle } :=
  coreOf_onCore_self c _ s

/-- All of the core but the clk of its last move is what was done to it. -/
theorem coreOf_moved_frame {γ : Type} {g : Core → γ} (hg : ∀ x k, g { x with lastMove := k } = g x) :
    g (coreOf (moved c f s) c) = g (f (coreOf s c)) := by
  rw [coreOf_moved_self, hg]

theorem coreOf_moved_ne {d : Nat} (h : d ≠ c) : coreOf (moved c f s) d = coreOf s d := coreOf_onCore_ne _ s h

theorem onlyCore_moved : OnlyCore c s (moved c f s) := onlyCore_onCore c _ s

end

/-- A move does to the core what it does to it as it stands. -/
theorem moved_congr {c : Nat} {f g : Core → Core} {s : State} (h : f (coreOf s c) = g (coreOf s c)) : moved c f s = moved c g s := by
  simp only [moved, onCore, h]

/-! ### Channels and exit queues -/

/-- What does not look at a core's channels does not see a head consumed. -/
theorem popChan_frame {γ : Type} {g : Core → γ} (hg : ∀ x w q m, g { x with readWts := w, chans := q, heldMarks := m } = g x)
    (node ch : Nat) (x : Core) : g (popChan node ch x) = g x := by
  unfold popChan
  dsimp only
  split
  · exact hg x _ _ _
  · exact hg x _ _ x.heldMarks

/-- What does not look at a core's exit queues does not see a token enter one. -/
theorem emitTok_frame {γ : Type} {g : Core → γ} (hg : ∀ x q, g { x with exits := q } = g x) (node ch : Nat) (t : Tok) (x : Core) :
    g (emitTok node ch t x) = g x := by
  unfold emitTok
  split
  · exact hg x _
  · rfl

section
variable (node ch slot i : Nat) (t : Tok) (x : Core)

@[simp] theorem opPar_popChan : opPar (popChan node ch x) slot i = opPar x slot i :=
  popChan_frame (g := fun x => opPar x slot i) (fun _ _ _ _ => rfl) node ch x

@[simp] theorem opPar_emitTok : opPar (emitTok node ch t x) slot i = opPar x slot i :=
  emitTok_frame (g := fun x => opPar x slot i) (fun _ _ => rfl) node ch t x

@[simp] theorem routed_popChan (n j : Nat) : routed (popChan node ch x) n j = routed x n j :=
  popChan_frame (g := fun x => routed x n j) (fun _ _ _ _ => rfl) node ch x

@[simp] theorem routed_emitTok (n j : Nat) : routed (emitTok node ch t x) n j = routed x n j :=
  emitTok_frame (g := fun x => routed x n j) (fun _ _ => rfl) node ch t x

@[simp] theorem exits_popChan : (popChan node ch x).exits = x.exits :=
  popChan_frame (g := Core.exits) (fun _ _ _ _ => rfl) node ch x

@[simp] theorem chans_emitTok : (emitTok node ch t x).chans = x.chans :=
  emitTok_frame (g := Core.chans) (fun _ _ => rfl) node ch t x

theorem exitQ_popChan (n j : Nat) : exitQ (popChan node ch x) n j = exitQ x n j := by
  rw [exitQ, exits_popChan, exitQ]

end

theorem opPar_moved (c : Nat) (f : Core → Core) (s : State) (slot i : Nat) :
    opPar (coreOf (moved c f s) c) slot i = opPar (f (coreOf s c)) slot i :=
  coreOf_moved_frame c f s (g := fun x => opPar x slot i) (fun _ _ => rfl)

theorem chans_moved (c : Nat) (f : Core → Core) (s : State) : (coreOf (moved c f s) c).chans = (f (coreOf s c)).chans :=
  coreOf_moved_frame c f s (g := Core.chans) (fun _ _ => rfl)

theorem exitQ_moved (c : Nat) (f : Core → Core) (s : State) (node ch : Nat) :
    exitQ (coreOf (moved c f s) c) node ch = exitQ (f (coreOf s c)) node ch :=
  coreOf_moved_frame c f s (g := fun x => exitQ x node ch) (fun _ _ => rfl)

/-- A token that enters a routed output stands last in its exit queue (R163). -/
theorem exitQ_emitTok {node ch : Nat} {x : Core} (h : routed x node ch = true) (t : Tok) :
    exitQ (emitTok node ch t x) node ch = exitQ x node ch ++ [t] := by
  simp [emitTok, h, exitQ]

/-- Only a MARK ends a stream (R164). -/
theorem ends_of_data {t : Tok} (h : t.kind = .data) : t.ends = false := by
  simp [Tok.ends, h]

end Sys2Proof.Proofs

/-! SUPPORT. One step of each operator (R138 to R140, R194, R195, R213, R233, R236, R237). -/

namespace Sys2Proof.Proofs

open Sys2Proof.Machine Sys2Proof.Safety Sys2Proof.Laws

/-! ### STEER (R138) -/

@[simp] theorem smOf_putSm (slot : Nat) (m : Sm) (x : Core) : smOf (putSm slot m x) slot = m := by
  simp [smOf, putSm]

theorem smOf_moved (c : Nat) (f : Core → Core) (s : State) (slot : Nat) :
    smOf (coreOf (moved c f s) c) slot = smOf (f (coreOf s c)) slot :=
  coreOf_moved_frame c f s (g := fun x => smOf x slot) (fun _ _ => rfl)

/-- A DATA token closes its group unless groups end with a MARK (R137). -/
theorem closesGroup_data {slot : Nat} {t : Tok} (x : Core) (hkind : t.kind = .data) :
    closesGroup x slot t = !bit (opPar x slot 0) 15 := by
  cases h : bit (opPar x slot 0) 15 <;> simp [closesGroup, h, hkind]

/-- STEER with a group open on output j. -/
def steering (j : Nat) (m : Sm) : Sm := { m with cur := some j, sel := some j, curPoison := false }

/-- A control token that names an enabled output opens a group on it. -/
theorem steerSelect_enabled {slot : Nat} {k : Tok} {x : Core} (h : bit (opPar x slot 0) (4 + k.lane 0 % 4) = true) (m : Sm) :
    steerSelect slot k m x = steering (k.lane 0 % 4) m := by
  simp [steerSelect, steering, h]

/-- A DATA token goes to the output of the open group alone. -/
theorem steerOuts_data {slot : Nat} {t : Tok} (x : Core) (hkind : t.kind = .data) (j : Nat) (m : Sm) :
    steerOuts slot t (steering j m) x = [j] := by
  simp [steerOuts, steering, ends_of_data hkind, hkind]

/-- STEER sends a DATA token to the output of the open group, which it closes where groups are single tokens (R137, R138). -/
theorem steerTake_data {node slot : Nat} {t : Tok} (x : Core) (hkind : t.kind = .data) (j : Nat) (m : Sm) :
    steerTake node slot t (steering j m) x =
      putSm slot { m with cur := if bit (opPar x slot 0) 15 then some j else none, sel := some j, curPoison := false }
        (emitTok node j t (popChan node 0 x)) := by
  unfold steerTake
  simp only [steerOuts_data x hkind, List.foldl_cons, List.foldl_nil, closesGroup_data _ hkind, opPar_emitTok, opPar_popChan]
  cases bit (opPar x slot 0) 15 <;> simp [steering, ends_of_data hkind]

theorem exitRoom_of_exitsRoom {x : Core} {node n j : Nat} (h : exitsRoom x node n = true) (hj : j < 4) : exitRoom x node j n = true :=
  List.all_eq_true.mp h j (List.mem_range.mpr hj)

section
variable {c slot : Nat} {s : State} {t : Tok}

/-- STEER opens a group with a DATA token on the output that its control token names (R138). -/
theorem steerStep_opensGroup {k : Tok} (hon : tokensOn s c = true) (hrun : (smOf (coreOf s c) slot).ended = false)
    (hcur : (smOf (coreOf s c) slot).cur = none) (hroom : exitsRoom (coreOf s c) (64 + slot) 1 = true)
    (hhead : headTok (coreOf s c) (64 + slot) 0 = some t) (hkind : t.kind = .data)
    (hctl : headTok (coreOf s c) (64 + slot) (opField (coreOf s c) slot 0 2 2) = some k)
    (hout : bit (opPar (coreOf s c) slot 0) (4 + k.lane 0 % 4) = true) :
    steerStep c slot s = moved c (fun y => steerTake (64 + slot) slot t (steering (k.lane 0 % 4) (smOf (coreOf s c) slot))
      (popChan (64 + slot) (opField (coreOf s c) slot 0 2 2) y)) s := by
  have hfree : exitRoom (coreOf s c) (64 + slot) (k.lane 0 % 4) 1 = true := exitRoom_of_exitsRoom hroom (Nat.mod_lt _ (by decide))
  simp only [steerStep, hon, hrun, hcur, hhead, hkind, hctl, ends_of_data hkind, steerSelect_enabled hout, steerOuts_data _ hkind]
  simp only [List.all_cons, List.all_nil, hfree, Option.isSome_none, Bool.not_true, Bool.and_self, Bool.false_eq_true, reduceCtorEq,
    false_and, or_self, if_false, if_true]
  exact moved_congr rfl

/-- While STEER runs no control token is discarded. -/
theorem dropControl_running (h : (smOf (coreOf s c) slot).ended = false) : dropControl c slot s = s := by
  simp [dropControl, h]

end

/-! ### MERGE and LOOP (R139, R140) -/

section
variable {c slot j : Nat} {s : State} {u : Tok}

/-- MERGE emits the head of the input that it picks (R139). -/
theorem mergeStep_emits (hon : tokensOn s c = true) (hrun : (smOf (coreOf s c) slot).ended = false)
    (hcur : (smOf (coreOf s c) slot).cur = none) (hroom : exitRoom (coreOf s c) (64 + slot) 0 1 = true)
    (hpick : pickInput (coreOf s c) slot (smOf (coreOf s c) slot) = some j)
    (hhead : headTok (coreOf s c) (64 + slot) j = some u) (hends : u.ends = false) (hsingle : bit (opPar (coreOf s c) slot 0) 15 = false) :
    mergeStep c slot s = moved c (fun y => putSm slot { smOf (coreOf s c) slot with cur := none, lastServed := j }
      (emitTok (64 + slot) 0 u (popChan (64 + slot) j y))) s := by
  simp only [mergeStep, hon, hrun, hcur, hroom, hpick, hhead, hends, Option.none_or, Bool.not_true, Bool.false_eq_true, or_self,
    if_false]
  refine moved_congr ?_
  simp [closesGroup, hsingle]

/-- A head of LOOP goes to an output. -/
def loopSends (slot inp out : Nat) (u : Tok) (m : Sm) (y : Core) : Core :=
  putSm slot m (emitTok (64 + slot) out u (popChan (64 + slot) inp y))

/-- A DATA token from outside enters the body as the first time around (R140). -/
theorem loopStep_enters (hon : tokensOn s c = true) (hrun : (smOf (coreOf s c) slot).ended = false)
    (hroom : exitRoom (coreOf s c) (64 + slot) 0 1 = true) (hbody : (smOf (coreOf s c) slot).body = false)
    (hhead : headTok (coreOf s c) (64 + slot) 0 = some u) (hkind : u.kind = .data) :
    loopStep c slot s = moved c (loopSends slot 0 0 u { smOf (coreOf s c) slot with body := true, count := 1 }) s := by
  simp only [loopStep, hon, hrun, hbody, Bool.false_eq_true, if_false, hhead, hkind, hroom, Bool.not_true, Bool.not_false, or_self,
    if_true]
  exact moved_congr rfl

section
variable (hon : tokensOn s c = true) (hrun : (smOf (coreOf s c) slot).ended = false) (hbody : (smOf (coreOf s c) slot).body = true)
  (hhead : headTok (coreOf s c) (64 + slot) 1 = some u) (hkind : u.kind = .data)
include hon hrun hbody hhead hkind

/-- A DATA token that the body returns before COUNT goes around once more (R140). -/
theorem loopStep_repeats (hroom : exitRoom (coreOf s c) (64 + slot) 0 1 = true)
    (hcount : (smOf (coreOf s c) slot).count < opPar (coreOf s c) slot 1) :
    loopStep c slot s = moved c (loopSends slot 1 0 u
      { smOf (coreOf s c) slot with carry := some u, count := (smOf (coreOf s c) slot).count + 1 }) s := by
  simp only [loopStep, hon, hrun, hbody, if_true, hhead, hkind, hcount, hroom, Bool.not_true, Bool.false_eq_true, or_self,
    if_false]
  exact moved_congr rfl

/-- A DATA token that the body returns at COUNT goes out (R140). -/
theorem loopStep_leaves (hroom : exitRoom (coreOf s c) (64 + slot) 1 1 = true)
    (hcount : opPar (coreOf s c) slot 1 ≤ (smOf (coreOf s c) slot).count) :
    loopStep c slot s = moved c (loopSends slot 1 1 u { smOf (coreOf s c) slot with carry := some u, body := false }) s := by
  simp only [loopStep, hon, hrun, hbody, if_true, hhead, hkind, if_neg (Nat.not_lt.mpr hcount), hroom, Bool.not_true,
    Bool.false_eq_true, or_self, if_false]
  exact moved_congr rfl

end

end

/-! ### The merge join (R194, R195) -/

/-- The two DATA heads of an MJ that runs in order, and the room of its output. -/
structure MjHeads (c slot : Nat) (s : State) (a b : Tok) : Prop where
  slot_mj : slot = 10 ∨ slot = 11
  on : tokensOn s c = true
  op : hasOp (coreOf s c) slot = true
  running : (mjOf (coreOf s c) slot).ended = false
  room : exitRoom (coreOf s c) (64 + slot) 0 1 = true
  headA : headTok (coreOf s c) (64 + slot) 0 = some a
  headB : headTok (coreOf s c) (64 + slot) 1 = some b
  dataA : a.kind = .data
  dataB : b.kind = .data
  keyA : strayKey a = false
  keyB : strayKey b = false
  ordered : (mjOf (coreOf s c) slot).disorder = false
  orderA : outOfOrder (mjOf (coreOf s c) slot).lastA a = false
  orderB : outOfOrder (mjOf (coreOf s c) slot).lastB b = false
  compares : (mjOf (coreOf s c) slot).filling = false

/-- Heads in order leave the mark of disorder clear (R196). -/
theorem disorder_ordered {m : Mj} {a b : Tok} (hdis : m.disorder = false) (hA : outOfOrder m.lastA a = false)
    (hB : outOfOrder m.lastB b = false) : { m with disorder := m.disorder || outOfOrder m.lastA a || outOfOrder m.lastB b } = m := by
  rw [hdis, hA, hB, Bool.or_false, Bool.or_false, ← hdis]

section
variable {c slot : Nat} {s : State} {a b : Tok}

/-- An MJ that holds no run compares its heads. -/
theorem execMjStep_compares (h : MjHeads c slot s a b) (hbuf : (mjOf (coreOf s c) slot).bufValid = false) :
    exec (.mjStep c slot) s =
      .next (moved c (mjCompare slot (opField (coreOf s c) slot 0 0 2) a b (mjOf (coreOf s c) slot)) s) := by
  obtain ⟨hslot, hon, hop, hrun, hroom, hA, hB, -, -, hkA, hkB, hdis, hoA, hoB, hfill⟩ := h
  show done (if slot = 10 ∨ slot = 11 then mjStep c slot s else s) = _
  rw [if_pos hslot]
  simp only [mjStep, hA, hB]
  rw [disorder_ordered hdis hoA hoB, if_neg (by simp [hon, hop, hrun, hroom])]
  simp only [hkA, hkB, hfill, hbuf, Bool.false_eq_true, false_and, if_false]
  exact congrArg done (moved_congr rfl)

/-- An MJ that holds the run of its A head's key pairs the head with the run. -/
theorem execMjStep_pairs (h : MjHeads c slot s a b) (hbuf : (mjOf (coreOf s c) slot).bufValid = true)
    (hkey : a.key = (mjOf (coreOf s c) slot).bufKey) :
    exec (.mjStep c slot) s = .next (moved c (mjPair slot a (mjOf (coreOf s c) slot)) s) := by
  obtain ⟨hslot, hon, hop, hrun, hroom, hA, hB, hdA, -, hkA, hkB, hdis, hoA, hoB, hfill⟩ := h
  show done (if slot = 10 ∨ slot = 11 then mjStep c slot s else s) = _
  rw [if_pos hslot]
  simp only [mjStep, hA, hB]
  rw [disorder_ordered hdis hoA hoB, if_neg (by simp [hon, hop, hrun, hroom])]
  simp only [hkA, hkB, hfill, hbuf, hdA, hkey, Bool.false_eq_true, and_self, if_false, if_true, done_next]

end

section
variable {slot mode : Nat} {a b : Tok} {m : Mj} (hA : a.kind = .data) (hB : b.kind = .data) (hdis : m.disorder = false)
include hA hB hdis

/-- What an MJ does with two DATA heads, by mode and keys (R194). -/
theorem mjCompare_data (x : Core) : mjCompare slot mode a b m x =
    if mode = 2 then
      if a.key.toNat ≤ b.key.toNat then emitTok (64 + slot) 0 a (takeA slot a m x) else emitTok (64 + slot) 0 b (takeB slot b m x)
    else if a.key.toNat < b.key.toNat then
      if mode = 3 then emitTok (64 + slot) 0 a (takeA slot a m x) else takeA slot a m x
    else if b.key.toNat < a.key.toNat then takeB slot b m x
    else if mode = 0 then emitTok (64 + slot) 0 a (takeA slot a m x)
    else if mode = 3 then takeA slot a m x
    else fillRun slot b { m with filling := true, bufKey := b.key, buf := [], bufPoison := false } x := by
  have notMarkA : a.kind ≠ .mark := by simp [hA]
  have notMarkB : b.kind ≠ .mark := by simp [hB]
  simp only [mjCompare, hdis, Bool.or_false, notMarkA, notMarkB, false_and, if_false]

/-- What it does with equal keys in the modes other than 2. -/
theorem mjCompare_tie (hmode : mode ≠ 2) (htie : a.key.toNat = b.key.toNat) (x : Core) : mjCompare slot mode a b m x =
    if mode = 0 then emitTok (64 + slot) 0 a (takeA slot a m x)
    else if mode = 3 then takeA slot a m x
    else fillRun slot b { m with filling := true, bufKey := b.key, buf := [], bufPoison := false } x := by
  rw [mjCompare_data hA hB hdis, if_neg hmode, if_neg (Nat.not_lt.mpr (Nat.le_of_eq htie.symm)),
    if_neg (Nat.not_lt.mpr (Nat.le_of_eq htie))]

end

/-- The first token of a run is taken into the buffer (R194). -/
theorem fillRun_first {slot : Nat} {b : Tok} (hB : b.kind = .data) (m : Mj) (x : Core) :
    fillRun slot b { m with filling := true, bufKey := b.key, buf := [], bufPoison := false } x =
      takeB slot b { m with filling := true, bufKey := b.key, buf := [b], bufPoison := false } x := by
  simp [fillRun, hB]

/-- A pair that is not the last of its run leaves the A head where it is (R194, R195). -/
theorem mjPair_more {slot : Nat} {a p : Tok} {m : Mj} (hdis : m.disorder = false) (hpair : m.buf[m.pos]? = some p)
    (hmore : m.pos + 1 < m.buf.length) (x : Core) : mjPair slot a m x = putMj slot { m with pos := m.pos + 1 }
      (emitTok (64 + slot) 0 (pairTok a p (bit (opPar x slot 0) 2) (bit (opPar x slot 0) 3) m.bufPoison) x) := by
  simp [mjPair, hpair, hmore, hdis]

/-! ### The reducer (R213) -/

@[simp] theorem rdOf_putRd (slot : Nat) (r : Rd) (x : Core) : rdOf (putRd slot r x) slot = r := by
  simp [rdOf, putRd]

section
variable {c slot : Nat} {s : State} {t : Tok} (hslot : slot = 15 ∨ slot = 16) (hon : rdOn s c slot = true)
  (hhead : headTok (coreOf s c) (64 + slot) 0 = some t)
include hslot hon hhead

/-- RD folds a DATA token. -/
theorem execRdFold_data (hkind : t.kind = .data) : exec (.rdFold c slot) s = .next (moved c (fun y =>
    putRd slot (rdTake (coreOf s c) slot t (rdOf (coreOf s c) slot)) (popChan (64 + slot) 0 y)) s) := by
  show done (if slot = 15 ∨ slot = 16 then rdFold c slot s else s) = _
  rw [if_pos hslot]
  simp only [rdFold, hhead]
  rw [if_neg (by simp [hon, rdCloses, hkind])]
  exact congrArg done (moved_congr (if_pos hkind))

end

/-- The results of a segment that is not REAL: what each place has summed, without flags or draws. -/
theorem rdResults_notReal {x : Core} {slot : Nat} (h : rdAlg x slot ≠ .real) (r : Rd) (z : Stream) (ls : List Nat) :
    rdResults x slot r z ls = (ls.map (fun l => (l, mapGet (algZero (rdAlg x slot)) r.acc l)), 0, 0) := by
  induction ls generalizing z with
  | nil => rfl
  | cons l ls ih => simp [rdResults, rdResult, h, ih, ofBool]

/-- RD as a closing MARK leaves it: statistics and segments go on, the sums begin again (R213, R215). -/
def rdClosed (ends : Bool) (r : Rd) : Rd :=
  { bins := r.bins, amax := r.amax, statNonfin := r.statNonfin, nseg := min (r.nseg + 1) 0xFFFFFFFF, ended := ends, flags := r.flags }


@[simp] theorem rdToken_popChan (node ch slot : Nat) (x : Core) (r : Rd) (vs : List (Nat × Nat)) :
    rdToken (popChan node ch x) slot r vs = rdToken x slot r vs :=
  popChan_frame (g := fun x => rdToken x slot r vs) (fun _ _ _ _ => rfl) node ch x

theorem rdOf_moved (c : Nat) (f : Core → Core) (s : State) (slot : Nat) :
    rdOf (coreOf (moved c f s) c) slot = rdOf (f (coreOf s c)) slot :=
  coreOf_moved_frame c f s (g := fun x => rdOf x slot) (fun _ _ => rfl)

section
variable {c slot : Nat} {s : State} {t : Tok}

/-- What an RD leaves of its core at a closing MARK: the result, if a token came, and the MARK in its exit queue (R213). -/
def rdLeaves (slot : Nat) (t out : Tok) (r : Rd) (y : Core) : Core :=
  putRd slot r (emitTok (64 + slot) 0 t (emitTok (64 + slot) 0 out (popChan (64 + slot) 0 y)))

theorem opPar_rdLeaves (n i slot : Nat) (t out : Tok) (r : Rd) (y : Core) : opPar (rdLeaves slot t out r y) n i = opPar y n i := by
  show opPar (emitTok (64 + slot) 0 t (emitTok (64 + slot) 0 out (popChan (64 + slot) 0 y))) n i = _
  simp

theorem rdOf_rdLeaves (slot : Nat) (t out : Tok) (r : Rd) (y : Core) : rdOf (rdLeaves slot t out r y) slot = r := rdOf_putRd slot r _

theorem chans_rdLeaves (slot : Nat) (t out : Tok) (r : Rd) (y : Core) :
    (rdLeaves slot t out r y).chans = (popChan (64 + slot) 0 y).chans :=
  (chans_emitTok _ _ t _).trans (chans_emitTok _ _ out _)

/-- The result stands before the MARK. -/
theorem exitQ_rdLeaves {slot : Nat} {y : Core} (h : routed y (64 + slot) 0 = true) (t out : Tok) (r : Rd) :
    exitQ (rdLeaves slot t out r y) (64 + slot) 0 = exitQ y (64 + slot) 0 ++ [out, t] := by
  show exitQ (emitTok (64 + slot) 0 t (emitTok (64 + slot) 0 out (popChan (64 + slot) 0 y))) (64 + slot) 0 = _
  rw [exitQ_emitTok (by simpa using h), exitQ_emitTok (by simpa using h), exitQ_popChan, List.append_assoc, List.singleton_append]

/-- A closing MARK of an RD that counts and records nothing: the result and the MARK leave, and the next segment begins (R213). -/
theorem execRdSegmentClose_closes (hslot : slot = 15 ∨ slot = 16) (hon : rdOn s c slot = true)
    (hhead : headTok (coreOf s c) (64 + slot) 0 = some t) (hcloses : rdCloses (coreOf s c) slot t = true)
    (hstats : bit (opPar (coreOf s c) slot 0) 15 = false) (hroom : exitRoom (coreOf s c) (64 + slot) 0 2 = true)
    (hany : (rdOf (coreOf s c) slot).any = true) (hreal : rdAlg (coreOf s c) slot ≠ .real)
    (hnonfin : bit (opPar (coreOf s c) slot 2) 6 = false) (hcount : bit (opPar (coreOf s c) slot 2) 13 = false) :
    exec (.rdSegmentClose c slot) s = .next (moved c (rdLeaves slot t
      (rdToken (coreOf s c) slot (rdOf (coreOf s c) slot) ((rdPlaces (coreOf s c) slot).map
        (fun l => (l, mapGet (algZero (rdAlg (coreOf s c) slot)) (rdOf (coreOf s c) slot).acc l))))
      (rdClosed t.ends (rdOf (coreOf s c) slot))) s) := by
  have silent (out : Tok) (r : Rd) : rdRaise c slot (rdOf (coreOf s c) slot).nonfin (moved c (rdLeaves slot t out r) s) =
      moved c (rdLeaves slot t out r) s := by
    have par := (opPar_moved c (rdLeaves slot t out r) s slot 2).trans (opPar_rdLeaves slot 2 slot t out r (coreOf s c))
    simp only [rdRaise, raiseIf, par, hnonfin, hcount, Bool.false_eq_true, if_false]
  show done (if slot = 15 ∨ slot = 16 then rdClose c slot s else s) = _
  rw [if_pos hslot]
  simp only [rdClose, hhead, hon, hcloses, hroom, hstats, hany, rdResults_notReal hreal]
  simp only [Bool.not_true, Bool.false_eq_true, false_or, if_false, if_true, Bool.false_and]
  exact congrArg done ((congrArg _ (moved_congr (by simp [rdLeaves, rdClosed]))).trans (silent _ _))

end

theorem rdOn_of_running {s : State} {c slot : Nat} (hon : tokensOn s c = true) (hop : hasOp (coreOf s c) slot = true)
    (hrun : (rdOf (coreOf s c) slot).ended = false) : rdOn s c slot = true := by
  simp [rdOn, hon, hop, hrun]

/-! ### Selection (R233) -/

section
variable {c : Nat} {s : State} {t : Tok} (hon : tokensOn s c = true) (hop : hasOp (coreOf s c) 17 = true)
  (hrun : (coreOf s c).sk.ended = false) (hhead : headTok (coreOf s c) 81 0 = some t)

@[simp] theorem sk_popChan (node ch : Nat) (x : Core) : (popChan node ch x).sk = x.sk :=
  popChan_frame (g := Core.sk) (fun _ _ _ _ => rfl) node ch x

/-- SK after the offers of a DATA token: those that rank among the best so far are kept (R233). -/
def offered (small : Bool) (n : Nat) (t : Tok) (k : Sk) : Sk :=
  { k with tokens := k.tokens + 1, poison := k.poison || t.poison
           kept := (upTo 4).foldl (fun kept l =>
             if t.has l then keepBest small n (t.lane l, (4 * k.tokens + l) % 2 ^ 32) kept else kept) k.kept }

include hon hop hrun hhead

theorem skOffer_data (hkind : t.kind = .data) : skOffer c s = moved c (fun y => { (popChan 81 0 y) with
    sk := offered (bit (opPar (coreOf s c) 17 0) 9) (opField (coreOf s c) 17 0 0 9) t (coreOf s c).sk }) s := by
  simp only [skOffer, hhead]
  rw [if_neg (by simp [hon, hop, hrun, closesSeg, hkind])]
  exact moved_congr (by simp only [hkind, if_true, sk_popChan, offered])

variable (hcloses : closesSeg (coreOf s c) 17 10 t = true) (hroom : exitRoom (coreOf s c) 81 0 1 = true)
include hcloses hroom

/-- A closing MARK first sends what is kept, best first, with its value where the word asks for it. -/
theorem skEmit_kept {v i : Nat} {rest : List (Nat × Nat)} (hkept : (coreOf s c).sk.kept = (v, i) :: rest) :
    skEmit c s = moved c (fun y => emitTok 81 0
      { data := quadOf i (if bit (opPar (coreOf s c) 17 0) 13 then v else 0) 0 0
        lmask := if bit (opPar (coreOf s c) 17 0) 13 then 3 else 1, poison := (coreOf s c).sk.poison }
      { y with sk := { (coreOf s c).sk with kept := rest } }) s := by
  simp only [skEmit, hhead]
  rw [if_neg (by simp [hon, hop, hrun, hcloses, hroom]), hkept]
  exact moved_congr rfl

/-- With nothing kept, the closing MARK itself leaves, and the next segment begins. -/
theorem skEmit_mark (hkept : (coreOf s c).sk.kept = []) : skEmit c s =
    moved c (fun y => emitTok 81 0 t { (popChan 81 0 y) with sk := { ended := t.ends } }) s := by
  simp only [skEmit, hhead]
  rw [if_neg (by simp [hon, hop, hrun, hcloses, hroom]), hkept]

end

/-! ### The sampler (R236) -/

/-- The entry set last is the one that stands. -/
theorem mapPut_mapPut_self {α : Type} (m : Map α) (k : Nat) (v w : α) : mapPut (mapPut m k v) k w = mapPut m k w := by
  induction m with
  | nil => simp [mapPut]
  | cons e m ih =>
    obtain ⟨j, u⟩ := e
    by_cases hj : k = j
    · simp [mapPut, hj]
    · by_cases hlt : k < j
      · simp [mapPut, hj, hlt]
      · simp [mapPut, hj, hlt, ih]

/-- A core after n draws from stream z. -/
def drawn (z n : Nat) (x : Core) : Core :=
  { x with sg := { x.sg with z := mapPut x.sg.z z { mapGet {} x.sg.z z with c := (mapGet {} x.sg.z z).c + BitVec.ofNat 64 n } } }

/-- Draw n of a stream of key k is the mixture of k and its count. -/
def drawAt (z n : Nat) (x : Core) : Nat := drawZ (mapGet {} x.sg.z z).k ((mapGet {} x.sg.z z).c + BitVec.ofNat 64 n)

/-- The stream stands n draws further on. -/
theorem stream_drawn (z n : Nat) (x : Core) : mapGet {} (drawn z n x).sg.z z =
    { mapGet {} x.sg.z z with c := (mapGet {} x.sg.z z).c + BitVec.ofNat 64 n } :=
  mapGet_mapPut_self _ _ _ _

theorem sg_moved (c : Nat) (f : Core → Core) (s : State) : (coreOf (moved c f s) c).sg = (f (coreOf s c)).sg :=
  coreOf_moved_frame c f s (g := Core.sg) (fun _ _ => rfl)

theorem sg_popChan (node ch : Nat) (x : Core) : (popChan node ch x).sg = x.sg :=
  popChan_frame (g := Core.sg) (fun _ _ _ _ => rfl) node ch x

theorem sg_emitTok (node ch : Nat) (t : Tok) (x : Core) : (emitTok node ch t x).sg = x.sg :=
  emitTok_frame (g := Core.sg) (fun _ _ => rfl) node ch t x

theorem drawAt_popChan (node ch z n : Nat) (x : Core) : drawAt z n (popChan node ch x) = drawAt z n x := by
  rw [drawAt, sg_popChan, drawAt]

theorem drawOf_first (z : Nat) (x : Core) : drawOf z x = (drawAt z 0 x, drawn z 1 x) := by
  simp [drawOf, drawAt, drawn]

theorem drawOf_drawn (z n : Nat) (x : Core) : drawOf z (drawn z n x) = (drawAt z n x, drawn z (n + 1) x) := by
  simp [drawOf, drawAt, drawn, mapPut_mapPut_self, BitVec.ofNat_add, BitVec.add_assoc]

/-- The data of four lanes is what those four lanes hold. -/
theorem laneData_congr {f g : Nat → Nat} (h : ∀ l < 4, f l = g l) : laneData f = laneData g := by
  have folds (ls : List Nat) (hls : ∀ l ∈ ls, l < 4) (n : Nat) :
      ls.foldl (fun n l => n + f l % 2 ^ 32 * 2 ^ (32 * l)) n = ls.foldl (fun n l => n + g l % 2 ^ 32 * 2 ^ (32 * l)) n := by
    induction ls generalizing n with
    | nil => rfl
    | cons l ls ih =>
      rw [List.foldl_cons, List.foldl_cons, h l (hls l List.mem_cons_self)]
      exact ih (fun k hk => hls k (List.mem_cons_of_mem l hk)) _
  exact congrArg (BitVec.ofNat 128) (folds (upTo 4) (fun l hl => List.mem_range.mp hl) 0)

/-- Four lanes listed one after another. -/
theorem getD_lanes (f : Nat → Nat) {l : Nat} (h : l < 4) : ([] ++ [f 0] ++ [f 1] ++ [f 2] ++ [f 3]).getD l 0 = f l := by
  have lane : l = 0 ∨ l = 1 ∨ l = 2 ∨ l = 3 := by omega
  rcases lane with rfl | rfl | rfl | rfl <;> rfl

/-- UNIF draws once for each lane of a token whose four lanes are valid (R236). -/
theorem sgUnif_full {t : Tok} (hmask : t.lmask = 15) (z : Nat) (x : Core) : sgUnif z t x =
    emitTok 82 0 { data := laneData (fun l => drawU (drawAt z l x)), lmask := 15, poison := t.poison } (drawn z 4 x) := by
  have valid (l : Nat) (h : l < 4) : t.has l = true := by
    rw [Tok.has, hmask, show (15 : BitVec 4) = BitVec.allOnes 4 from rfl, BitVec.getLsbD_allOnes]
    exact decide_eq_true h
  have lanes : upTo 4 = [0, 1, 2, 3] := rfl
  simp only [sgUnif, lanes, List.foldl_cons, List.foldl_nil, valid 0 (by decide), valid 1 (by decide), valid 2 (by decide),
    valid 3 (by decide), if_true, hmask]
  rw [drawOf_first]
  simp only [drawOf_drawn, Nat.reduceAdd]
  rw [laneData_congr fun l hl => getD_lanes (fun l => drawU (drawAt z l x)) hl]

section
variable {c : Nat} {s : State} {t : Tok}

/-- UNIF takes a DATA token, draws, and sends the draws (R236). -/
theorem sgDraw_unif (hon : tokensOn s c = true) (hop : hasOp (coreOf s c) 18 = true) (hrun : (coreOf s c).sg.ended = false)
    (hroom : exitRoom (coreOf s c) 82 0 2 = true) (hmode : opField (coreOf s c) 18 0 0 2 = 0)
    (hhead : headTok (coreOf s c) 82 0 = some t) (hkind : t.kind = .data) :
    sgDraw c s = moved c (fun y => sgUnif (opField (coreOf s c) 18 0 2 6) t (popChan 82 0 y)) s := by
  simp only [sgDraw, hhead]
  rw [if_neg (by simp [hon, hop, hrun, hroom])]
  simp only [hkind, hmode, if_true]

end

/-! ### The width converter (R237) -/

section
variable {c slot : Nat} {s : State} {t : Tok}

/-- A WC that runs with a DATA head and room for the pieces of a token. -/
structure WcHead (c slot : Nat) (s : State) (t : Tok) : Prop where
  on : tokensOn s c = true
  op : hasOp (coreOf s c) slot = true
  running : (wcOf (coreOf s c) slot).ended = false
  room : exitRoom (coreOf s c) (64 + slot) 0 4 = true
  head : headTok (coreOf s c) (64 + slot) 0 = some t
  data : t.kind = .data

/-- SPLIT sends the pieces of a token. -/
theorem wcStep_splits (h : WcHead c slot s t) (hmode : opField (coreOf s c) slot 0 0 2 = 0) : wcStep c slot true s =
    moved c (fun y => (piecesOf (pieceLanes (coreOf s c) slot) t).foldl (fun y p => emitTok (64 + slot) 0 p y)
      (popChan (64 + slot) 0 y)) s := by
  obtain ⟨hon, hop, hrun, hroom, hhead, hkind⟩ := h
  simp only [wcStep, hhead]
  rw [if_neg (by simp [hon, hop, hrun, hroom, hmode])]
  simp only [hkind, if_true]

/-- The state of a WC set. -/
def putWc (slot : Nat) (g : Wc) (x : Core) : Core := { x with wcs := mapPut x.wcs slot g }

theorem wcOf_putWc (slot : Nat) (g : Wc) (x : Core) : wcOf (putWc slot g x) slot = g := mapGet_mapPut_self _ _ _ _

theorem wcOf_moved (c : Nat) (f : Core → Core) (s : State) (slot : Nat) :
    wcOf (coreOf (moved c f s) c) slot = wcOf (f (coreOf s c)) slot :=
  coreOf_moved_frame c f s (g := fun x => wcOf x slot) (fun _ _ => rfl)

/-- JOIN keeps a piece, or sends the group that it completes. -/
theorem wcStep_joins (h : WcHead c slot s t) (hmode : opField (coreOf s c) slot 0 0 2 ≠ 0) : wcStep c slot false s =
    moved c (fun y =>
      if ((wcOf (coreOf s c) slot).part ++ [t]).length < 4 / pieceLanes (coreOf s c) slot then
        putWc slot { wcOf (coreOf s c) slot with part := (wcOf (coreOf s c) slot).part ++ [t] } (popChan (64 + slot) 0 y)
      else putWc slot { wcOf (coreOf s c) slot with part := [] } (emitTok (64 + slot) 0
        (joinTok (pieceLanes (coreOf s c) slot) ((wcOf (coreOf s c) slot).part ++ [t])) (popChan (64 + slot) 0 y))) s := by
  obtain ⟨hon, hop, hrun, hroom, hhead, hkind⟩ := h
  simp only [wcStep, hhead]
  rw [if_neg (by simp [hon, hop, hrun, hroom, hmode])]
  simp only [hkind, if_true, Bool.false_eq_true, if_false]
  exact moved_congr rfl

end

/-! ### The statement -/

/-- Settles O59: each clause is the lemma on the step of its operator. -/
theorem operatorsStep : Obligations.OperatorsStep := by
  intro c slot s t hon hop x node h0 mode w m moves
  refine ⟨?_, ?_, ?_, ?_, ?_, ?_, ?_, ?_⟩
  · intro k hmode hrun hcur hroom hhead hkind hctl hout j
    have opens : steerStep c slot s = moved c (fun y => putSm slot
        { m with cur := if bit w 15 then some j else none, sel := some j, curPoison := false }
        (emitTok node j t (popChan node 0 (popChan node (opField x slot 0 2 2) y)))) s :=
      (steerStep_opensGroup hon hrun hcur hroom hhead hkind hctl hout).trans
        (moved_congr ((steerTake_data _ hkind _ _).trans (by rw [opPar_popChan])))
    have runs : (smOf (coreOf (steerStep c slot s) c) slot).ended = false := by
      rw [opens, smOf_moved, smOf_putSm]
      exact hrun
    show done (if opField x slot 0 0 2 = 0 ∧ hasOp x slot = true then dropControl c slot (steerStep c slot s) else s) = _
    rw [if_pos ⟨hmode, hop⟩, dropControl_running runs, opens]
    rfl
  · intro j u hmode hrun hcur hroom hpick hhead hends hsingle
    show done (if opField x slot 0 0 2 = 1 ∧ hasOp x slot = true then mergeStep c slot s else s) = _
    rw [if_pos ⟨hmode, hop⟩]
    exact congrArg done (mergeStep_emits hon hrun hcur hroom hpick hhead hends hsingle)
  · intro hmode hrun hroom0 hroom1
    have steps : exec (.loop c slot) s = done (loopStep c slot s) := by
      show done (if opField x slot 0 0 2 = 2 ∧ hasOp x slot = true then loopStep c slot s else s) = _
      rw [if_pos ⟨hmode, hop⟩]
    refine ⟨fun hbody hhead hkind => ?_, fun u hbody hhead hkind => ⟨fun hcount => ?_, fun hcount => ?_⟩⟩
    · exact steps.trans (congrArg done (loopStep_enters hon hrun hroom0 hbody hhead hkind))
    · exact steps.trans (congrArg done (loopStep_repeats hon hrun hbody hhead hkind hroom0 hcount))
    · exact steps.trans (congrArg done (loopStep_leaves hon hrun hbody hhead hkind hroom1 hcount))
  · intro b m hslot hrun hroom hA hB hdA hdB hkA hkB hdis hoA hoB hfill ka kb takes
    have heads : MjHeads c slot s t b := ⟨hslot, hon, hop, hrun, hroom, hA, hB, hdA, hdB, hkA, hkB, hdis, hoA, hoB, hfill⟩
    refine ⟨fun hbuf => ?_, fun p hbuf hkey hpair hmore => ?_⟩
    · have compares {f : Core → Core} (h : mjCompare slot mode t b m x = f x) : takes f :=
        (execMjStep_compares heads hbuf).trans (congrArg done (moved_congr h))
      have table := mjCompare_data (slot := slot) (mode := mode) hdA hdB hdis x
      refine ⟨fun h2 hlt => compares ?_, fun h2 hlt => compares ?_, fun h3 hlt => compares ?_, fun h0 heq => compares ?_,
        fun h3 heq => compares ?_, fun h2 hle => compares ?_, fun h2 hlt => compares ?_, fun h1 heq => compares ?_⟩
      · rw [table, if_neg h2, if_neg (Nat.lt_asymm hlt), if_pos hlt]
      · rw [table, if_neg (by omega), if_pos hlt, if_neg (by omega)]
      · rw [table, if_neg (by omega), if_pos hlt, if_pos h3]
      · rw [mjCompare_tie hdA hdB hdis (by omega) heq, if_pos h0]
      · rw [mjCompare_tie hdA hdB hdis (by omega) heq, if_neg (by omega), if_pos h3]
      · rw [table, if_pos h2, if_pos hle]
      · rw [table, if_pos h2, if_neg (Nat.not_le.mpr hlt)]
      · rw [mjCompare_tie hdA hdB hdis (by omega) heq, if_neg (by omega), if_neg (by omega), fillRun_first hdB]
    · exact (execMjStep_pairs heads hbuf hkey).trans (congrArg done (moved_congr (mjPair_more hdis hpair hmore x)))
  · intro hslot hrun hhead
    have running := rdOn_of_running hon hop hrun
    refine ⟨execRdFold_data hslot running hhead, ?_⟩
    intro hkind hlevel hstats hroom hany hreal hnonfin hcount hrouted
    have hcloses : rdCloses x slot t = true := by simp [rdCloses, hkind, hlevel]
    refine ⟨_, execRdSegmentClose_closes hslot running hhead hcloses hstats hroom hany hreal hnonfin hcount, onlyCore_moved c _ s, ?_⟩
    rw [chans_moved, rdOf_moved, exitQ_moved, rdOf_rdLeaves, chans_rdLeaves, exitQ_rdLeaves hrouted]
    exact ⟨rfl, rfl, rfl, rfl, rfl⟩
  · intro hslot hrun hhead
    subst hslot
    refine ⟨fun hkind => congrArg done (skOffer_data hon hop hrun hhead hkind), fun hkind hlevel hroom => ?_⟩
    have hcloses : closesSeg x 17 10 t = true := by simp [closesSeg, hkind, hlevel]
    exact ⟨fun v i rest hkept => congrArg done (skEmit_kept hon hop hrun hhead hcloses hroom hkept),
      fun hkept => congrArg done (skEmit_mark hon hop hrun hhead hcloses hroom hkept)⟩
  · intro hslot hrun hroom hmode hhead hkind hmask z
    subst hslot
    refine ⟨_, congrArg done (sgDraw_unif hon hop hrun hroom hmode hhead hkind), onlyCore_moved c _ s, ?_⟩
    rw [chans_moved, sg_moved, exitQ_moved, sgUnif_full hmask, chans_emitTok, sg_emitTok]
    refine ⟨rfl, ?_, fun hrouted => ?_⟩
    · rw [stream_drawn, sg_popChan]
      rfl
    · have routes : routed (drawn (opField x 18 0 2 6) 4 (popChan 82 0 x)) 82 0 = true :=
        (routed_popChan 82 0 x 82 0).trans hrouted
      rw [exitQ_emitTok routes]
      simp only [drawAt_popChan]
      exact congrArg (· ++ _) (exitQ_popChan 82 0 x 82 0)
  · intro hlow hhigh hrun hroom hhead hkind k ps
    have head : WcHead c slot s t := ⟨hon, hop, hrun, hroom, hhead, hkind⟩
    have splits : exec (.split c slot) s = done (wcStep c slot true s) := congrArg done (if_pos ⟨hlow, hhigh⟩)
    have joins : exec (.join c slot) s = done (wcStep c slot false s) := congrArg done (if_pos ⟨hlow, hhigh⟩)
    refine ⟨fun hmode => splits.trans (congrArg done (wcStep_splits head hmode)), fun hmode hmore => ?_, fun hmode hfull => ?_⟩
    · exact joins.trans (congrArg done ((wcStep_joins head hmode).trans (moved_congr (if_pos hmore))))
    · have sends := joins.trans (congrArg done ((wcStep_joins head hmode).trans (moved_congr (g := fun y => putWc slot
        { wcOf x slot with part := [] } (emitTok node 0 (joinTok k ps) (popChan node 0 y))) (if_neg (Nat.not_lt.mpr hfull)))))
      refine ⟨_, sends, onlyCore_moved c _ s, ?_, ?_, fun hrouted => ?_⟩
      · rw [wcOf_moved, wcOf_putWc]
      · rw [chans_moved]
        exact chans_emitTok _ _ _ _
      · rw [exitQ_moved]
        exact (exitQ_emitTok ((routed_popChan _ _ _ _ _).trans hrouted) _).trans (congrArg (· ++ _) (exitQ_popChan _ _ _ _ _))

end Sys2Proof.Proofs

/-! SUPPORT. The edge exit: packing, handing over and landing slots (R141, R142). -/

namespace Sys2Proof.Proofs

open Sys2Proof.Machine Sys2Proof.Safety Sys2Proof.Laws

/-! ### Packing and handing over (R142) -/

section
variable {c : Nat} {s : State}

theorem exPack_idle (h : headTok (coreOf s c) 95 0 = none) : exPack c s = s := by
  rw [exPack, h]

/-- A DATA token that does not fill the slot joins it. -/
theorem exPack_packs {t : Tok} (hon : tokensOn s c = true) (hhead : headTok (coreOf s c) 95 0 = some t) (hkind : t.kind = .data)
    (hrun : (coreOf s c).ex.ended = false) (hready : (coreOf s c).ex.ready = [])
    (hmore : (coreOf s c).ex.packing.length + 1 < opField (coreOf s c) 31 1 28 4) :
    exPack c s = moved c (fun y =>
      { (popChan 95 0 y) with ex := { (coreOf s c).ex with packing := (coreOf s c).ex.packing ++ [t] } }) s := by
  have notFull : (decide (opField (coreOf s c) 31 1 28 4 ≤ ((coreOf s c).ex.packing ++ [t]).length) || t.kind == .mark) = false := by
    simp [hkind, hmore]
  simp only [exPack, hhead]
  rw [if_neg (by simp [hon, hrun, hready]), notFull]
  simp only [Bool.false_eq_true, if_false, ends_of_data hkind]
  rw [← hrun]
  exact moved_congr rfl

theorem exHand_idle (h : (coreOf s c).ex.ready = []) : exHand c s = s := by
  simp only [exHand, h]

/-- The slot that EX hands over next: numbered by N modulo SLOTS, for the atoll that its words name. -/
def nextSlot (s : State) (c : Nat) (q : List Tok) : ExSlot :=
  let x := coreOf s c
  { srcCore := c, chip := opField x 31 0 13 12, core := opField x 31 0 0 13, atoll := opField x 31 1 0 4
    pos := x.ex.n % opField x 31 1 10 18, slots := opField x 31 1 10 18, slotw := opField x 31 1 28 4, toks := q
    ctx := (viewOf s c).ctx }

/-- EX hands over its oldest complete slot while it has a credit. -/
theorem exHand_hands {q : List Tok} {rest : List (List Tok)} (hon : tokensOn s c = true) (hready : (coreOf s c).ex.ready = q :: rest)
    (hcredit : (coreOf s c).ex.n < opField (coreOf s c) 31 1 10 18 +
      (counterOf s c (opField (coreOf s c) 31 1 4 6) - (coreOf s c).ex.k0).toNat) :
    exHand c s = moved c (fun y => { y with ex := { y.ex with ready := rest, n := y.ex.n + 1 } })
      (onMs (fun m => { m with exSlots := m.exSlots ++ [nextSlot s c q] }) s) := by
  simp only [exHand, hready]
  exact if_neg (not_or.mpr ⟨by simp [hon], Nat.not_le.mpr hcredit⟩)

theorem execExSlotHandoff_on (hop : hasOp (coreOf s c) 31 = true) : exec (.exSlotHandoff c) s = .next (exHand c (exPack c s)) :=
  congrArg done (if_pos hop)

end

/-! ### Scratchpad bytes outside every stash window (R263) -/

theorem linesMissing_noStash {s : State} {c : Nat} (h : (coreOf s c).stashes = []) (o n : Nat) : linesMissing s c o n = [] := by
  have none (x : Nat) : stashAt (coreOf s c) x = none := by rw [stashAt, h, List.find?_nil]
  simp [linesMissing, none]

/-- Bytes of a core without stash windows are ready. -/
theorem withScratch_noStash {α : Type} {s : State} {c : Nat} (h : (coreOf s c).stashes = []) (o n : Nat) (k : State → Res α) :
    withScratch c o n s k = k s := by
  simp [withScratch, fabricTouch, linesMissing_noStash h]

/-- A write of the scratchpad shows in its bytes, its poison and its stash windows alone. -/
theorem putScratch_frame {γ : Type} {g : Core → γ} (hg : ∀ x m p w, g { x with scratch := m, scratchPoison := p, stashes := w } = g x)
    (o : Nat) (bs : List Byte) (x : Core) : g (putScratch o bs x) = g x := by
  have marks (y : Core) : g (markScratch false o bs.length y) = g y := by
    unfold markScratch
    dsimp only
    split
    · rfl
    · split
      · next h => exact absurd h Bool.false_ne_true
      · split
        · rfl
        · exact hg y y.scratch _ y.stashes
  exact (marks _).trans (hg x _ x.scratchPoison _)

/-! ### Landing (R141, R142) -/

/-- The scratchpad of a core after tokens of a slot have landed at position `at` of an atoll: their data, and their control entries
behind the data of all slots. -/
def slotLanded (q : AtollCfg) (at_ : Nat) (ts : List Tok) (x : Core) : Core :=
  putScratch (q.base + 16 * q.slots * q.slotw + 2 * at_) (slotControls ts) (putScratch (q.base + 16 * at_) (slotBytes ts) x)

section
variable {c : Nat} {s : State} {e : ExSlot} {q : AtollCfg}

theorem landSlot_fits (hfrozen : (isleOfCore s e.core).frozen = false) (hslots : e.slots = q.slots) (hslotw : e.slotw = q.slotw)
    (hlen : e.toks.length = q.slotw) (hstash : (coreOf s e.core).stashes = []) :
    landSlot e.core e.atoll e.pos e.slots e.slotw e.toks q s = .ok () (raiseCounter e.core q.tailk 1 (noteWork e.core e.atoll q
      (onCore e.core (slotLanded q (e.pos % q.slots * q.slotw) e.toks) s))) := by
  have whole : (e.toks ++ List.replicate q.slotw ({} : Tok)).take q.slotw = e.toks := by
    rw [← hlen, List.take_left]
  simp only [landSlot, hfrozen, hslots, hslotw, bne_self_eq_false, Bool.or_self, Bool.false_eq_true, if_false, whole,
    withScratch_noStash hstash]
  rfl

/-- The oldest slot that an EX handed over for a core of this chip, whose launch runs and whose atoll it fits, lands there. -/
theorem atollLanding_lands {rest : List ExSlot} (hslots : s.ms.exSlots = e :: rest) (hsrc : e.srcCore = c)
    (hchip : e.chip = s.hub.chipid) (happlies : applies s e.core e.ctx = true) (hfrozen : (isleOfCore s c).frozen = false)
    (hasked : slotAsked s c e = none) (hatoll : atollOf (coreOf s e.core) e.atoll = some q) {t : State}
    (hland : landSlot e.core e.atoll e.pos e.slots e.slotw e.toks q s = .ok () t) :
    atollLanding c s = moved c (fun y => y) (onMs (fun m => { m with exSlots := m.exSlots.eraseIdx 0 }) t) := by
  have moves : moveSlot c e s = .ok () t := by
    simp only [moveSlot, hasked, happlies, hatoll, hland]
    simp [hchip]
  have first : (e :: rest).findIdx? (fun e => e.srcCore == c) = some 0 := by simp [List.findIdx?_cons, hsrc]
  simp only [atollLanding, hfrozen, hslots, first, List.getElem?_cons_zero, moves, Bool.false_eq_true, if_false]

end

/-- Noting work changes only since when the queue has held slots. -/
theorem noteWork_onlyCore (c n : Nat) (a : AtollCfg) (s : State) : OnlyCore c s (noteWork c n a s) := by
  unfold noteWork
  split
  · exact onlyCore_onCore c _ s
  · exact onlyCore_refl c s

theorem noteWork_frame {γ : Type} {g : Core → γ} (hg : ∀ x m, g { x with workSince := m } = g x) (c n : Nat) (a : AtollCfg) (s : State)
    (d : Nat) : g (coreOf (noteWork c n a s) d) = g (coreOf s d) := by
  unfold noteWork
  split
  · rw [coreOf_onCore]
    split
    · next hd => rw [hg, hd]
    · rfl
  · rfl

/-- Telling that tokens moved, and the slots on their way, show in nothing else of a core. -/
theorem coreOf_moved_onMs {γ : Type} {g : Core → γ} (hg : ∀ x k, g { x with lastMove := k } = g x) (c : Nat) (f : MemSys → MemSys)
    (s : State) (d : Nat) : g (coreOf (moved c (fun y => y) (onMs f s)) d) = g (coreOf s d) := by
  by_cases hd : d = c
  · rw [hd, coreOf_moved_frame c _ _ hg, coreOf_onMs]
  · rw [coreOf_moved_ne c _ _ hd, coreOf_onMs]

section
variable (e : ExSlot) (q : AtollCfg) (s : State)

/-- The machine once the tokens of a slot stand in its atoll, before TAILK rises. -/
def slotStands : State :=
  noteWork e.core e.atoll q (onCore e.core (slotLanded q (e.pos % q.slots * q.slotw) e.toks) s)

theorem onlyCore_slotStands : OnlyCore e.core s (slotStands e q s) :=
  onlyCore_trans (onlyCore_onCore e.core _ s) (noteWork_onlyCore e.core e.atoll q _)

theorem counterOf_slotStands (k : Nat) : counterOf (slotStands e q s) e.core k = counterOf s e.core k := by
  have kept : (coreOf (slotStands e q s) e.core).counters = (coreOf s e.core).counters := by
    refine (noteWork_frame (g := Core.counters) (fun _ _ => rfl) e.core e.atoll q _ e.core).trans ?_
    rw [coreOf_onCore_self, slotLanded, putScratch_frame (g := Core.counters) fun _ _ _ _ => rfl,
      putScratch_frame (g := Core.counters) fun _ _ _ _ => rfl]
  rw [counterOf, kept, counterOf]

theorem scratch_slotStands : (coreOf (slotStands e q s) e.core).scratch =
    memStore (memStore (coreOf s e.core).scratch (q.base + 16 * (e.pos % q.slots * q.slotw)) (slotBytes e.toks))
      (q.base + 16 * q.slots * q.slotw + 2 * (e.pos % q.slots * q.slotw)) (slotControls e.toks) := by
  refine (noteWork_frame (g := Core.scratch) (fun _ _ => rfl) e.core e.atoll q _ e.core).trans ?_
  rw [coreOf_onCore_self, slotLanded, putScratch_scratch, putScratch_scratch]

end

/-- A slot has landed: it is no longer on its way, its tokens and control entries stand in the atoll, and TAILK has risen by one. -/
theorem slotLands_effect {c : Nat} {e : ExSlot} {rest : List ExSlot} {q : AtollCfg} {s : State} (hslots : s.ms.exSlots = e :: rest)
    (htail : q.tailk < 64) (hbreaks : s.nydb.breaks = []) {u : State}
    (hu : u = moved c (fun y => y) (onMs (fun m => { m with exSlots := m.exSlots.eraseIdx 0 })
      (raiseCounter e.core q.tailk 1 (slotStands e q s)))) :
    u.hub = { s.hub with fifos := u.hub.fifos } ∧ u.ms = { s.ms with exSlots := rest } ∧
      (∀ d, d ≠ c → d ≠ e.core → coreOf u d = coreOf s d) ∧ counterOf u e.core q.tailk = counterOf s e.core q.tailk + 1 ∧
      (∀ k, k ≠ q.tailk → counterOf u e.core k = counterOf s e.core k) ∧
      (coreOf u e.core).scratch = (coreOf (slotStands e q s) e.core).scratch := by
  have stands := onlyCore_slotStands e q s
  have rises := raised_raiseCounter (s := slotStands e q s) (by rw [stands.nydb, hbreaks]) e.core htail 1
  have counts (k : Nat) : counterOf u e.core k = counterOf (raiseCounter e.core q.tailk 1 (slotStands e q s)) e.core k := by
    rw [hu]
    exact coreOf_moved_onMs (g := fun x => x.counters.toList.getD k 0) (fun _ _ => rfl) c _ _ e.core
  refine ⟨?_, ?_, fun d hc hcore => ?_, ?_, fun k hk => ?_, ?_⟩
  · have told := rises.only.hub
    rw [stands.hub] at told
    rw [← told, hu]
    rfl
  · have kept : (raiseCounter e.core q.tailk 1 (slotStands e q s)).ms = s.ms := rises.only.ms.trans stands.ms
    rw [hu, moved_ms, onMs_ms, kept, hslots]
    rfl
  · rw [hu, coreOf_moved_ne c _ _ hc, coreOf_onMs]
    rw [coreOf_raiseCounter, if_neg hcore, stands.others d hcore]
  · rw [counts, rises.value, counterOf_slotStands]
  · rw [counts, rises.others k hk, counterOf_slotStands]
  · rw [hu]
    refine (coreOf_moved_onMs (g := Core.scratch) (fun _ _ => rfl) c _ _ e.core).trans ?_
    rw [coreOf_raiseCounter, if_pos rfl]
    exact raiseIn_frame (g := Core.scratch) (fun _ _ _ => rfl) (fun _ => rfl) (fun _ => rfl) _ _ _ _

/-- Settles O58: EX takes a head or hands a slot over, and a slot that lands is put in its atoll and then counted. -/
theorem edgeExitSteps : Obligations.EdgeExitSteps := by
  intro c s x w slots
  refine ⟨?_, ?_, ?_⟩
  · intro t hon hop hhead hkind hrun hready hmore
    rw [execExSlotHandoff_on hop, exPack_packs hon hhead hkind hrun hready hmore, exHand_idle]
    exact (congrArg Ex.ready (coreOf_moved_frame c _ s (g := Core.ex) (fun _ _ => rfl))).trans hready
  · intro q rest hon hop hhead hready hcredit e
    refine ⟨_, execExSlotHandoff_on hop, ?_⟩
    rw [exPack_idle hhead, exHand_hands hon hready hcredit, coreOf_moved_self]
    exact ⟨rfl, rfl, rfl, fun d hd => coreOf_moved_ne c _ _ hd⟩
  · intro e rest q hslots hsrc hchip happlies hfrozen hfrozen' hasked hatoll hshape hshapew hlen htail hbreaks hstash pos
    have lands := atollLanding_lands hslots hsrc hchip happlies hfrozen hasked hatoll
      (landSlot_fits hfrozen' hshape hshapew hlen hstash)
    obtain ⟨hhub, hms, hothers, htailk, hcounters, hscratch⟩ := slotLands_effect hslots htail hbreaks lands
    exact ⟨_, rfl, hhub, hms, hothers, htailk, hcounters, hscratch.trans (scratch_slotStands e q s)⟩

end Sys2Proof.Proofs

/-! SUPPORT. The clk that pass before a move, and what the watchdog keeps of them (R128, R278). -/

namespace Sys2Proof.Proofs

open Sys2Proof.Machine Sys2Proof.Safety Sys2Proof.Laws

/-! ### Updates of every core that is listed -/

/-- An update of every value of a map shows at each key. -/
theorem mapFind_map {α : Type} (f : Nat → α → α) (m : Map α) (k : Nat) :
    mapFind (m.map fun e => (e.1, f e.1 e.2)) k = (mapFind m k).map (f k) := by
  induction m with
  | nil => rfl
  | cons e m ih =>
    simp only [List.map_cons, mapFind]
    by_cases hk : k = e.1
    · simp [hk]
    · by_cases hlt : k < e.1
      · simp [hk, hlt]
      · simp [hk, hlt, ih]

/-- A core that differs from one that nothing has touched is listed. -/
theorem listed_of_exits {s : State} {c : Nat} (h : (coreOf s c).exits ≠ []) : mapFind s.cores c = some (coreOf s c) := by
  cases hfind : mapFind s.cores c with
  | none => exact absurd (by rw [coreOf, mapGet, hfind]; rfl) h
  | some x => rw [coreOf, mapGet, hfind, Option.getD_some]

/-! ### Clocks that are settled (R278) -/

/-- A core after its clock took what it has consumed. -/
def settledCore (s : State) (k : Core) : Core :=
  if k.readWts = 0 then k else { k with fabricPts := latest (k.fabricPts + clkPts s) k.readWts - clkPts s, readWts := 0 }

theorem settledCore_frame {γ : Type} {g : Core → γ} (hg : ∀ x p w, g { x with fabricPts := p, readWts := w } = g x) (s : State)
    (x : Core) : g (settledCore s x) = g x := by
  unfold settledCore
  split
  · rfl
  · exact hg x _ _

theorem mapFind_settleClocks (s : State) (c : Nat) : mapFind (settleClocks s).cores c = (mapFind s.cores c).map (settledCore s) :=
  mapFind_map (fun _ => settledCore s) s.cores c

/-- Settling the clocks shows in nothing of a core but its clock. -/
theorem settleClocks_frame {γ : Type} {g : Core → γ} (hg : ∀ x p w, g { x with fabricPts := p, readWts := w } = g x) (s : State)
    (c : Nat) : g (coreOf (settleClocks s) c) = g (coreOf s c) := by
  unfold coreOf mapGet
  rw [mapFind_settleClocks]
  cases mapFind s.cores c with
  | none => rfl
  | some x => exact settledCore_frame hg s x

theorem isle_settleClocks (s : State) (c : Nat) : (coreOf (settleClocks s) c).isle = (coreOf s c).isle :=
  settleClocks_frame (g := Core.isle) (fun _ _ _ => rfl) s c

theorem isleOfCore_settleClocks (s : State) (c : Nat) : isleOfCore (settleClocks s) c = isleOfCore s c := by
  unfold isleOfCore
  rw [isle_settleClocks]
  rfl

theorem tokensOn_settleClocks (s : State) (c : Nat) : tokensOn (settleClocks s) c = tokensOn s c := by
  have selected := settleClocks_frame (g := Core.selected) (fun _ _ _ => rfl) s c
  unfold tokensOn fabricOn graphRuns slotOf
  rw [isleOfCore_settleClocks, isle_settleClocks, selected]

theorem targetRoom_settleClocks (s : State) (c i : Nat) (r : Route) : targetRoom (settleClocks s) c i r = targetRoom s c i r := by
  have wires := settleClocks_frame (g := fun x => wireQ x i) (fun _ _ _ => rfl) s c
  unfold targetRoom
  cases routeCore c r with
  | none => rfl
  | some d =>
    have chans := settleClocks_frame (g := fun x => chanQ x r.dst r.dch) (fun _ _ _ => rfl) s d
    have held := settleClocks_frame (g := Core.heldMarks) (fun _ _ _ => rfl) s d
    dsimp only at wires chans ⊢
    rw [wires, chans, held]

theorem fullMembers_settleClocks (s : State) (c node ch : Nat) : fullMembers (settleClocks s) c node ch = fullMembers s c node ch := by
  have routes := settleClocks_frame (g := fun x => members x node ch) (fun _ _ _ => rfl) s c
  unfold fullMembers
  simp only [routes, targetRoom_settleClocks]

/-! ### The watchdog of an output whose targets have room (R128) -/

theorem countWait_frame {γ : Type} {g : Core → γ} (hg : ∀ x m, g { x with evctrs := m } = g x) (s : State) (c d : Nat) (x : Core) :
    g (countWait s c d x) = g x := by
  unfold countWait
  dsimp only
  split
  · exact hg x _
  · rfl

/-- A clk in which no member is full takes the count of the output away. -/
theorem watchOutput_room {s : State} {c k : Nat} (h : fullMembers s c (k / 4) (k % 4) = []) (d : Nat) (x : Core) :
    watchOutput s c d x k = { x with watch := mapDel x.watch k } := by
  simp [watchOutput, h]

/-- A core after d clk: its waits are counted, and every watchdog whose output holds a token counts. -/
def elapsedCore (d : Nat) (s : State) (c : Nat) (y : Core) : Core :=
  let x := countWait s c d y
  if x.exits.isEmpty || !tokensOn s c then x else x.exits.foldl (fun y e => if e.2.isEmpty then y else watchOutput s c d y e.1) x

theorem mapFind_elapse (d : Nat) (s : State) (c : Nat) :
    mapFind (elapse d s).cores c = ((mapFind s.cores c).map (settledCore s)).map (elapsedCore d (settleClocks s) c) := by
  rw [← mapFind_settleClocks]
  exact mapFind_map (elapsedCore d (settleClocks s)) (settleClocks s).cores c

/-- A core that holds tokens on one output alone counts for that output. -/
theorem elapsedCore_single {s : State} {c k : Nat} {t : Tok} {rest : List Tok} {y : Core} (hexits : y.exits = [(k, t :: rest)])
    (hon : tokensOn s c = true) (d : Nat) : elapsedCore d s c y = watchOutput s c d (countWait s c d y) k := by
  have kept := (countWait_frame (g := Core.exits) (fun _ _ => rfl) s c d y).trans hexits
  simp [elapsedCore, kept, hon]

/-- With tokens on one output alone, whose members have room, passing clk take the entry of its count away. -/
theorem watch_elapse_room {s : State} {c node ch : Nat} {t : Tok} {rest : List Tok} (hch : ch < 4)
    (hexits : (coreOf s c).exits = [(chanKey node ch, t :: rest)]) (hon : tokensOn s c = true) (hroom : fullMembers s c node ch = [])
    (n : Nat) : (coreOf (elapse n s) c).watch = mapDel (coreOf s c).watch (chanKey node ch) := by
  have listed : mapFind s.cores c = some (coreOf s c) := listed_of_exits (by rw [hexits]; exact List.cons_ne_nil _ _)
  have elapsed : coreOf (elapse n s) c = elapsedCore n (settleClocks s) c (settledCore s (coreOf s c)) := by
    rw [coreOf, mapGet, mapFind_elapse, listed]
    rfl
  have exits := (settledCore_frame (g := Core.exits) (fun _ _ _ => rfl) s (coreOf s c)).trans hexits
  have place : chanKey node ch / 4 = node ∧ chanKey node ch % 4 = ch := by unfold chanKey; omega
  have room : fullMembers (settleClocks s) c (chanKey node ch / 4) (chanKey node ch % 4) = [] := by
    rw [place.1, place.2, fullMembers_settleClocks, hroom]
  rw [elapsed, elapsedCore_single exits ((tokensOn_settleClocks s c).trans hon), watchOutput_room room,
    countWait_frame (g := Core.watch) (fun _ _ => rfl), settledCore_frame (g := Core.watch) (fun _ _ _ => rfl)]

/-- So an output whose members have room keeps no count, where the counts are listed once each with rising keys. -/
theorem watch_elapse_cleared {s : State} {c node ch : Nat} {t : Tok} {rest : List Tok} (hch : ch < 4)
    (hexits : (coreOf s c).exits = [(chanKey node ch, t :: rest)]) (hon : tokensOn s c = true) (hroom : fullMembers s c node ch = [])
    (hsorted : mapSortedFrom 0 (coreOf s c).watch = true) (n : Nat) : mapFind (coreOf (elapse n s) c).watch (chanKey node ch) = none := by
  rw [watch_elapse_room hch hexits hon hroom, mapFind_mapDel_self _ hsorted]

/-! ### The statement -/

/-- A core that runs a graph without routes, with a token on output 0 of node 0 and two entries for the count of that output, which no
step of the machine makes: its counts are not a map with rising keys. -/
def twiceCounted : State :=
  { cores := [(0, { isle := some 0, selected := some 0, exits := [(0, [{}])], watch := [(0, {}), (0, {})] })]
    hub := { isles := [(0, { phase := .running, slots := [(0, { running := true })] })] } }

/-- Refutes O54: the statement asks that the count of an output whose members have room is gone, of every state, also of one whose list
of counts has two entries for that output. Passing clk take one entry away, and the other is found (`watch_elapse_cleared` is the
clause for a list with rising keys). -/
theorem not_tokensMove : ¬ Obligations.TokensMove := by
  intro h
  have on : tokensOn twiceCounted 0 = true := by decide
  have room : fullMembers twiceCounted 0 0 0 = [] := by decide
  obtain ⟨-, -, clk, -⟩ := h 0 0 0 0 twiceCounted {} [] { src := 0, sch := 0, dx := 0, dy := 0, dst := 0, dch := 0, detach := false } 0
  obtain ⟨gone, -⟩ := clk 1 (by decide) rfl on
  have left : (coreOf (elapse 1 twiceCounted) 0).watch = [(0, {})] := watch_elapse_room (node := 0) (ch := 0) (by decide) rfl on room 1
  have found := gone room
  rw [left] at found
  exact absurd found (by decide)

end Sys2Proof.Proofs

/-! SUPPORT. A codebook header at the matrix tile engine (R224), and what the MT keeps of it. -/

namespace Sys2Proof.Proofs

open Sys2Proof.Machine Sys2Proof.Safety Sys2Proof.Laws

/-! ### Poison of a fill channel (R223) -/

/-- What does not look at the tile registers does not see a poisoned token mark one. -/
theorem soilReg_frame {γ : Type} {g : Core → γ} (hg : ∀ n r x, g (putT n r x) = g x) (ch : Nat) (t : Tok) (x : Core) :
    g (soilReg ch t x) = g x := by
  unfold soilReg
  split
  · split
    · exact hg _ _ x
    · rfl
  · rfl

/-! ### Codebook headers (R224) -/

/-- What the MT keeps of a codebook header: the register it names, its poison, and the report that is due when its data were lost
(R224, R347). -/
def bookBegun (t : Tok) : CbFill := { reg := bits (t.lane 3) 0 1, poison := t.poison, lost := t.lost }

/-- The MT after a token that leaves codebook b arriving on its channel. -/
def bookArrives (ch : Nat) (t : Tok) (b : CbFill) (y : Core) : Core :=
  soilReg ch t (onMt (fun m => { m with cbFill := mapPut m.cbFill ch b }) (popChan 78 ch y))

/-- The channel's codebook is the one that was left arriving. -/
theorem cbFill_bookArrives (c ch : Nat) (t : Tok) (b : CbFill) (s : State) :
    mapFind (coreOf (moved c (bookArrives ch t b) s) c).mt.cbFill ch = some b := by
  have unmoved := coreOf_moved_frame c (bookArrives ch t b) s (g := fun x => mapFind x.mt.cbFill ch) (fun _ _ => rfl)
  have unsoiled := soilReg_frame (g := fun x => mapFind x.mt.cbFill ch) (fun _ _ _ => rfl) ch t
    (onMt (fun m => { m with cbFill := mapPut m.cbFill ch b }) (popChan 78 ch (coreOf s c)))
  exact unmoved.trans (unsoiled.trans (mapFind_mapPut_self _ ch b))

/-- A header at the head of a channel that fills an EMPTY register begins a codebook. -/
theorem execCodebook_header {c ch : Nat} {s : State} {t : Tok} (hon : mtOn s c ch = true) (hhead : headTok (coreOf s c) 78 ch = some t)
    (hempty : regEmpty (coreOf s c) ch = true) (hreg : (regOn (coreOf s c) ch).isSome = true) (hport : isPort (coreOf s c) ch = false)
    (hkind : t.kind = .ctrl) (hclass : ctrlClass t = 1) : exec (.codebook c ch) s = .next (moved c (bookArrives ch t (bookBegun t)) s) := by
  show done (codebookToken c ch s) = _
  simp only [codebookToken, hhead]
  rw [if_neg (by simp [hon, hempty, hreg, hport]), if_pos ⟨hkind, hclass⟩]
  rfl

/-- Of a header that carries no report, the MT keeps the register and the poison alone. -/
theorem execCodebook_header_unlost {c ch : Nat} {s : State} {t : Tok} (hon : mtOn s c ch = true)
    (hhead : headTok (coreOf s c) 78 ch = some t) (hempty : regEmpty (coreOf s c) ch = true)
    (hreg : (regOn (coreOf s c) ch).isSome = true) (hport : isPort (coreOf s c) ch = false) (hkind : t.kind = .ctrl)
    (hclass : ctrlClass t = 1) (hlost : t.lost = none) : exec (.codebook c ch) s =
      .next (moved c (bookArrives ch t { reg := bits (t.lane 3) 0 1, poison := t.poison }) s) := by
  have kept : bookBegun t = { reg := bits (t.lane 3) 0 1, poison := t.poison } := by rw [bookBegun, hlost]
  rw [execCodebook_header hon hhead hempty hreg hport hkind hclass, kept]

/-! ### The statement -/

/-- A poisoned CODEBOOK header for CB0, with the report that the memory port of core 0 would make of the lost data. -/
def lostHeader : Tok := { data := 1 <<< 124, kind := .ctrl, poison := true, lost := some (0, { code := causeMdpoison, val := 0 }) }

/-- A core that runs an MT whose register 0 fills from channel 0, where that header waits. -/
def headerWaits : State :=
  { cores := [(0, { isle := some 0, selected := some 0, slots := [(0, { ops := [(14, [(5, 1)])] })]
                    chans := [(chanKey 78 0, [lostHeader])] })]
    hub := { isles := [(0, { phase := .running, slots := [(0, { running := true })] })] } }

/-- Refutes O60: the statement has the MT keep only the register and the poison of a codebook header, of every token, also of one that
carries the report of lost data, which a memory port gives to DATA and SCALE tokens alone (`readReply`). The MT keeps that report too
(`execCodebook_header`); for a header that carries none the clause holds (`execCodebook_header_unlost`). -/
theorem not_matrixEngineSteps : ¬ Obligations.MatrixEngineSteps := by
  intro h
  have on : mtOn headerWaits 0 0 = true := by decide
  have head : headTok (coreOf headerWaits 0) 78 0 = some lostHeader := by decide
  have empty : regEmpty (coreOf headerWaits 0) 0 = true := by decide
  have fills : (regOn (coreOf headerWaits 0) 0).isSome = true := by decide
  have noPort : isPort (coreOf headerWaits 0) 0 = false := by decide
  have class1 : ctrlClass lostHeader = 1 := by decide
  obtain ⟨-, books, -⟩ := h 0 0 headerWaits lostHeader (by decide) (by decide)
  have claimed : exec (.codebook 0 0) headerWaits =
      .next (moved 0 (bookArrives 0 lostHeader { reg := bits (lostHeader.lane 3) 0 1, poison := lostHeader.poison }) headerWaits) :=
    (books on head empty fills noPort).1 rfl class1
  have same := Host.Outcome.next.inj ((execCodebook_header on head empty fills noPort rfl class1).symm.trans claimed)
  have keeps := congrArg (fun u => mapFind (coreOf u 0).mt.cbFill 0) same
  simp only [cbFill_bookArrives, Option.some.injEq] at keeps
  exact absurd (congrArg CbFill.lost keeps) (by decide)

end Sys2Proof.Proofs
